-- ==== Sys2Proof/Word.lean ====
section
/-!
DEFINITION. Words of the Ampdel UG-24: the widths its messages, counters and sensor codes have (00_scope.md,
"Numbers and byte order", "Temperature codes").
-/

namespace Sys2Proof

/-- One byte of a message. -/
abbrev Byte := BitVec 8

/-- A 16-bit number: a frame number of a message, a cyclic check. -/
abbrev Word16 := BitVec 16

/-- A 32-bit number that wraps: the frame counter and every slot position (R1, R16). -/
abbrev Word32 := BitVec 32

/-- A raw code of the sensor converter, 0..511 (R39). -/
abbrev Raw := BitVec 9

/-- A moment, counted in bit times of the link: 3,000,000 in a second (assumption 2). -/
abbrev Moment := Nat

end Sys2Proof
end

