-- ==== Sys2Proof/Syntax.lean ====
section
/-!
DEFINITION. The commands the UG-24 takes: one constructor of `Instr` for each row of spec/opcode_table.json, and
the types of their operands. A request row carries the request's tag and its payload fields as the bytes of R191.
-/

namespace Sys2Proof

/-- The four heat zones, numbers 0..3 (section 3.1). -/
inductive Zone where
  | pa
  | antA
  | antB
  | caseZone
  deriving DecidableEq, Repr

/-- One value for each heat zone, or for the sensor of each. -/
structure PerZone (α : Type) where
  pa : α
  antA : α
  antB : α
  caseZone : α
  deriving DecidableEq, Repr

/-- The levels of the sampled input pins: BATA and BATB (R56) and the raw codes of TS0..TS3 (R39). -/
structure Levels where
  bata : Bool
  batb : Bool
  ts : PerZone Raw
  deriving DecidableEq, Repr

/-- The parts of a frame event that have no row of their own; each touches its own state, so they differ only in
whether they come before or after a change of the working copy (R31). -/
inductive FrameWork where
  /-- expiry check and lag-bound lift of the Open Grant List (R106, R107) -/
  | expiry
  /-- interval counting of the Averaging Ring (R128) -/
  | intervalCount
  /-- sample counter of the Heat Zone Monitor (R38) -/
  | sampleCounter
  /-- Duty Cycler step (R53) -/
  | dutyStep
  /-- supply reading and filter (R58, R59) -/
  | supply
  /-- trace miss check of the Grant Engine (R97) -/
  | traceMiss
  deriving DecidableEq, Repr

/-- The five classes of policy fault event (R155). -/
inductive FaultClass where
  | sensor
  | critical
  | exhausted
  | overshoot
  | timing
  deriving DecidableEq, Repr

/-- The three notices Inhibit Control is sent (R167). -/
inductive Notice where
  | zoneState
  | exhaustion
  | workingCopy
  deriving DecidableEq, Repr

/-- One byte as RXD delivers it: its value, and whether its stop bit was sampled at 1 (R179). -/
structure RxByte where
  value : Byte
  stopBit : Bool
  deriving DecidableEq, Repr

/-- One carrier pair of a GRANT_REQ or TX_REPORT as it stands in the payload (R191). -/
structure RawPair where
  index : Byte
  value : Byte
  deriving DecidableEq, Repr

/-- The eight bytes of a carrier entry as STAGE_CARRIER carries them, in field-number order (R193). -/
structure RawCarrier where
  enabled : Byte
  role : Byte
  anchor : Byte
  zone : Byte
  priority : Byte
  floor : Byte
  ceiling : Byte
  gain : Byte
  deriving DecidableEq, Repr

/-- The commands: one constructor per row of spec/opcode_table.json. `t` is the moment a command falls at, where
its rule uses one (assumption 2); `lv` the input pins as the part reads them; `late` the parts of the frame event
left for after this step; `first` the late parts taken just before this step (assumption 4). -/
inductive Instr where
  /-- POWER_ON (R185) -/
  | powerOn (t : Moment)
  /-- RST_N_ASSERTED (R185) -/
  | rstNAsserted (t : Moment)
  /-- START_UP_LOAD_COMPLETE (R164) -/
  | startUpLoadComplete (t : Moment) (lv : Levels)
  /-- PACER_EXPIRY (R4) -/
  | pacerExpiry (lv : Levels) (late : List FrameWork)
  /-- FRAME_STROBE (R8) -/
  | frameStrobe (t : Moment) (lv : Levels) (late : List FrameWork)
  /-- STROBE_LOSS_TIMEOUT (R9) -/
  | strobeLossTimeout (lv : Levels) (late : List FrameWork)
  /-- ALIGN_TIMEOUT (R6) -/
  | alignTimeout
  /-- COAST_LIMIT (R12) -/
  | coastLimit
  /-- SAMPLE (R40) -/
  | sample (ts : PerZone Raw)
  /-- INTERVAL_CLOSE (R128) -/
  | intervalClose
  /-- STAGING_APPLY (R29) -/
  | stagingApply (first : List FrameWork)
  /-- SWITCH_APPLY (R153) -/
  | switchApply (first : List FrameWork)
  /-- EXIT_HOLD_CLEAR (R158) -/
  | exitHoldClear
  /-- POLICY_FAULT_EVENT (R155) -/
  | policyFaultEvent (c : FaultClass) (first : List FrameWork)
  /-- INHIBIT_NOTICE (R167) -/
  | inhibitNotice (n : Notice)
  /-- FRAME_RECEIVED (R179, R181): the bytes of a whole frame, sync to check, the last ending at `t` -/
  | frameReceived (t : Moment) (bytes : List RxByte)
  /-- BYTE_GAP_TIMEOUT (R180) -/
  | byteGapTimeout
  /-- REQUEST_DECODE (R182) -/
  | requestDecode (t : Moment)
  /-- TRANSMIT_COMPLETE (R184) -/
  | transmitComplete
  /-- ALIGN (R5) -/
  | align (t : Moment) (tag : Byte) (frame : Word16)
  /-- GRANT_REQ (R69) -/
  | grantReq (tag : Byte) (frame : Word16) (slot : Byte) (pairs : List RawPair)
  /-- TX_REPORT (R113) -/
  | txReport (tag : Byte) (frame : Word16) (slot : Byte) (pairs : List RawPair)
  /-- STAGE_OPEN (R24) -/
  | stageOpen (tag : Byte)
  /-- STAGE_CARRIER (R25) -/
  | stageCarrier (tag : Byte) (index : Byte) (entry : RawCarrier)
  /-- STAGE_PARAM (R26) -/
  | stageParam (tag : Byte) (field : Byte) (zone : Byte) (value : Word32)
  /-- STAGE_COMMIT (R27) -/
  | stageCommit (tag : Byte)
  /-- STAGE_DROP (R28) -/
  | stageDrop (tag : Byte)
  /-- READ_CARRIER (R22) -/
  | readCarrier (tag : Byte) (index : Byte)
  /-- READ_PARAM (R150) -/
  | readParam (tag : Byte) (source : Byte)
  /-- READ_ZONE (R50) -/
  | readZone (tag : Byte) (zone : Byte)
  /-- READ_STATE (R176) -/
  | readState (tag : Byte)
  /-- EXCHANGE (R151) -/
  | exchange (tag : Byte) (slot : Byte)
  /-- RELOAD (R152) -/
  | reload (tag : Byte)
  /-- RING_READ (R144) -/
  | ringRead (tag : Byte) (start : Byte) (count : Byte)
  /-- RING_RELEASE (R143) -/
  | ringRelease (tag : Byte) (half : Byte)
  /-- CHANGES_READ (R173) -/
  | changesRead (tag : Byte)
  /-- CHANGES_ACK (R174) -/
  | changesAck (tag : Byte) (sources : Word16)
  /-- CHANGES_MASK (R175) -/
  | changesMask (tag : Byte) (mask : Word16) (mode : Byte)
  /-- ARM: TRACE_SET with action ARM (R95) -/
  | arm (tag : Byte) (frame : Word16) (slot : Byte)
  /-- DISARM: TRACE_SET with action DISARM (R95) -/
  | disarm (tag : Byte) (frame : Word16) (slot : Byte)
  /-- TRACE_READ (R98) -/
  | traceRead (tag : Byte)
  /-- RESET_PART (R186) -/
  | resetPart (t : Moment) (tag : Byte)
  /-- BYTE_ON_RXD (R179): the byte whose stop bit ends at `t` -/
  | byteOnRxd (t : Moment) (b : RxByte)
  deriving DecidableEq, Repr

end Sys2Proof
end

