-- ==== Sys2Proof/Decode.lean ====
section
/-!
DEFINITION. Commands spelled by words. No row of spec/opcode_table.json gives bits (every row's "fields" is
empty), so no word spells a command. The bytes of the serial link are not such words: Machine/Operands.lean reads
them as the Link Port does (R182).
-/

namespace Sys2Proof

/-- The command a word spells by the table's bits: none, for every word. -/
def decodeTableWord (_nbits _w : Nat) : Option Instr := none

end Sys2Proof
end

