-- ==== Sys2Proof/Config.lean ====
section
/-!
DEFINITION. What the spec leaves to the single part or to its surroundings, as constants used by `State.reset`
alone: the factory image of the Default Store and the levels standing on the input pins at power-on. Both are
fields of State; of the statements InvariantsHoldAtReset alone is about the reset values.
-/

namespace Sys2Proof

/-- Bytes of the Default Store image (R195). -/
abbrev imageSize : Nat := 463

/-- The image at reset: a store the factory has not written, every byte 0x00.
DESIGN CHOICE, unsafe (assumption 9): the spec gives no contents. -/
def Config.blankImage : Vector Byte imageSize := Vector.replicate imageSize 0

/-- The input pins before the part first reads them: a good supply, and the lowest valid sensor code.
DESIGN CHOICE, unsafe (assumption 12): the spec gives no levels at power-on. -/
def Config.idleLevels : Levels :=
  { bata := true, batb := true, ts := { pa := 1, antA := 1, antB := 1, caseZone := 1 } }

end Sys2Proof
end

