-- ==== Sys2Proof/Machine/Records.lean ====
section
/-!
DEFINITION. The records the eleven blocks of the UG-24 hold, as plain data. Each type names the rule whose table
it follows. Powers, energies, counts and temperature codes are numbers; what the spec counts modulo 2^32 or folds
as bits is a bit vector.
-/

namespace Sys2Proof.Machine

/-! ## Frame Timing Unit -/

/-- The four timing states (section 1.1). -/
inductive TimingState where
  | free
  | aligning
  | locked
  | coasting
  deriving DecidableEq, Repr

/-- The Frame Timing Unit's record (R1). -/
structure Timing where
  state : TimingState
  /-- the absolute frame of the most recent frame event -/
  frameCounter : Word32
  alignTarget : Word16
  alignCount : Nat
  coastCount : Nat
  lastFrameStart : Option Moment
  lastPacerEvent : Option Moment
  /-- the strobe-loss timer's expiry while it runs (R8) -/
  strobeLoss : Option Moment
  /-- the pacer's next expiry while it runs (R4) -/
  pacer : Option Moment
  deriving DecidableEq, Repr

/-- The names of the timing events, the first part of a TIMING detail (R14). -/
inductive TimingEvent where
  | alignStarted
  | aligned
  | alignTimeout
  | lost
  | relocked
  | coastLimit
  deriving DecidableEq, Repr

/-! ## Policy contexts -/

/-- What a CRITICAL zone does beside its cap (R145, field 9). -/
inductive CriticalAction where
  | cap
  | inhibit
  deriving DecidableEq, Repr

/-- A policy context: the 29 fields of R145 in field-number order. -/
structure Context where
  warmEntry : PerZone Nat
  hotEntry : PerZone Nat
  criticalEntry : PerZone Nat
  hysteresis : PerZone Nat
  warmCap : PerZone Nat
  hotOnCap : PerZone Nat
  hotOffCap : PerZone Nat
  criticalCap : PerZone Nat
  criticalAction : PerZone CriticalAction
  samplePeriod : Nat
  confirmCount : Nat
  cycleLength : Nat
  duty : Nat
  supplyLowCap : Nat
  supplyCriticalCap : Nat
  shed : Bool
  averageLimit : Nat
  window : Nat
  interval : Nat
  paceThreshold : Nat
  reserve : Nat
  hardStop : Bool
  horizon : Nat
  exitSensor : Bool
  exitCritical : Bool
  exitExhausted : Bool
  exitOvershoot : Bool
  exitTiming : Bool
  fallback : Fin 6
  deriving DecidableEq, Repr

/-! ## Carrier Table -/

inductive Role where
  | anchor
  | secondary
  deriving DecidableEq, Repr

/-- The zone a carrier loads besides CASE (R18, field 4). -/
inductive CarrierZone where
  | pa
  | antA
  | antB
  deriving DecidableEq, Repr

/-- A carrier entry (R18). -/
structure CarrierEntry where
  enabled : Bool
  role : Role
  anchor : Fin 8
  zone : CarrierZone
  priority : Fin 4
  floor : Nat
  ceiling : Nat
  /-- in half-dB steps, -16..+15 -/
  gain : Int
  deriving DecidableEq, Repr

/-- The legal settings of slots per frame (R20). -/
inductive SlotsPerFrame where
  | one
  | two
  | four
  | eight
  | sixteen
  deriving DecidableEq, Repr

/-- The staged copies of the configuration (R23). -/
structure StagingSet where
  entries : Vector CarrierEntry 8
  slotsPerFrame : SlotsPerFrame
  workingCopy : Context
  deriving DecidableEq, Repr

/-- The staging state, with the set present exactly in OPEN and COMMIT_PENDING (R23). -/
inductive Staging where
  | closed
  | opened (set : StagingSet)
  | commitPending (set : StagingSet)
  deriving DecidableEq, Repr

/-- The Carrier Table (R18, R20, R23). -/
structure CarrierTable where
  entries : Vector CarrierEntry 8
  slotsPerFrame : SlotsPerFrame
  staging : Staging
  deriving DecidableEq, Repr

/-! ## Heat Zone Monitor -/

/-- The four levels, lowest first (section 3.1). -/
inductive Level where
  | cool
  | warm
  | hot
  | critical
  deriving DecidableEq, Repr

/-- A zone state: a level, or FAULTED, which is no level (section 3.1). -/
inductive ZoneState where
  | level (l : Level)
  | faulted
  deriving DecidableEq, Repr

/-- A zone record (R36). -/
structure ZoneRecord where
  state : ZoneState
  lastRaw : Raw
  temperature : Option Nat
  candidate : Option Level
  agreeCount : Nat
  deriving DecidableEq, Repr

/-- The Heat Zone Monitor (R36, R37). The duty phase is derived (R51), so it is not held. -/
structure HeatMonitor where
  zones : PerZone ZoneRecord
  sampleCounter : Nat
  /-- the sample period in use -/
  samplePeriod : Nat
  dutyCounter : Nat
  deriving DecidableEq, Repr

inductive DutyPhase where
  | on
  | off
  deriving DecidableEq, Repr

/-! ## Supply Monitor -/

inductive SupplyState where
  | good
  | low
  | critical
  deriving DecidableEq, Repr

/-- The Supply Monitor's record (R57). -/
structure SupplyMonitor where
  state : SupplyState
  candidate : Option SupplyState
  agreeCount : Nat
  deriving DecidableEq, Repr

/-! ## Grant Engine -/

/-- A conducted power: OFF, or a code 0..127 (00_scope.md, "Power codes"). -/
inductive Power where
  | off
  | code (c : Nat)
  deriving DecidableEq, Repr

/-- The ten reasons (R73). -/
inductive Reason where
  | none
  | inhibit
  | disabled
  | window
  | zone
  | duty
  | shed
  | anchor
  | supply
  | exposure
  deriving DecidableEq, Repr

/-- One listed carrier's group of a Decision Snapshot (R96). -/
structure SnapshotCarrier where
  index : Fin 8
  requested : Power
  /-- the values after stages 2 to 10 -/
  afterStages : List Power
  granted : Power
  reason : Reason
  deriving DecidableEq, Repr

/-- The Decision Snapshot (R96). -/
structure Snapshot where
  position : Word32
  carriers : List SnapshotCarrier
  zoneStates : PerZone ZoneState
  supply : SupplyState
  phase : DutyPhase
  windowSum : Nat
  budget : Nat
  headroom : Nat
  utilisation : Nat
  activeIndex : Fin 6
  deriving DecidableEq, Repr

/-- The slot the trace waits for (R94). -/
structure TraceArming where
  frame : Word32
  slot : Byte
  position : Word32
  deriving DecidableEq, Repr

/-- The Grant Engine (R94): the arming, present exactly while armed, and the snapshot. -/
structure GrantEngine where
  armed : Option TraceArming
  snapshot : Option Snapshot
  deriving DecidableEq, Repr

/-! ## Open Grant List -/

/-- One carrier of an open grant entry (R99). -/
structure GrantedCarrier where
  index : Fin 8
  granted : Power
  role : Role
  deriving DecidableEq, Repr

/-- An open grant entry (R99). -/
structure OpenGrant where
  position : Word32
  frame : Word32
  carriers : List GrantedCarrier
  charge : Nat
  anchorCharge : Nat
  ringPosition : Fin 128
  intervalNumber : Nat
  deriving DecidableEq, Repr

/-- The Open Grant List (R100): entries in ascending slot position, and the expiry mark. -/
structure OpenGrantList where
  entries : List OpenGrant
  expiryMark : Word32
  deriving DecidableEq, Repr

/-! ## Averaging Ring -/

inductive RecordState where
  | empty
  | presumed
  | opened
  | closed
  deriving DecidableEq, Repr

/-- An interval record (R123). -/
structure IntervalRecord where
  state : RecordState
  number : Nat
  energy : Nat
  anchorEnergy : Nat
  grants : Nat
  throttled : Nat
  unreported : Nat
  corrected : Nat
  unmatched : Nat
  /-- the highest radiated code granted -/
  peak : Option Nat
  signature : Word16
  deriving DecidableEq, Repr

inductive Half where
  | lower
  | upper
  deriving DecidableEq, Repr

/-- The Averaging Ring (R123, R125). -/
structure Ring where
  records : Vector IntervalRecord 128
  writePosition : Fin 128
  framesInInterval : Nat
  latchedLength : Nat
  nextNumber : Nat
  lowerHeld : Bool
  upperHeld : Bool
  exhausted : Bool
  deriving DecidableEq, Repr

/-! ## Policy Store -/

/-- A pending switch's kind and target (R148). -/
inductive Switch where
  | exchange (k : Fin 6)
  | reload
  deriving DecidableEq, Repr

inductive SwitchKind where
  | exchange
  | reload
  deriving DecidableEq, Repr

/-- The Exit Record (R159). The cause set is a bit set numbered as R188 numbers it. -/
structure ExitRecord where
  causes : BitVec 5
  fromIndex : Fin 6
  toIndex : Fin 6
  frameCount : Word32
  absorbed : Bool
  deriving DecidableEq, Repr

inductive StoreStatus where
  | good
  | isPartial
  | bad
  deriving DecidableEq, Repr

/-- The Policy Store (R148). -/
structure PolicyStore where
  slots : Vector Context 6
  workingCopy : Context
  activeIndex : Fin 6
  pendingSwitch : Option Switch
  exitHold : Bool
  exitRecord : Option ExitRecord
  storeStatus : StoreStatus
  /-- calibration offsets of TS0..TS3, -32..+31 -/
  offsets : PerZone Int
  deriving DecidableEq, Repr

/-! ## Inhibit Control -/

/-- The cause set of TXINH (R165, R166). -/
structure Causes where
  zoneCrit : Bool
  exposure : Bool
  deriving DecidableEq, Repr

/-- Inhibit Control (R165): the cause set, and the TXINH level, true while ASSERTED. -/
structure InhibitControl where
  causes : Causes
  txinh : Bool
  deriving DecidableEq, Repr

/-! ## Change Reporter -/

inductive ClearMode where
  | onRead
  | onAck
  deriving DecidableEq, Repr

/-- A change, which names its source and carries its detail (R170, R194). -/
inductive Change where
  | zone (z : Zone) (state : ZoneState) (temperature : Option Nat)
  | supply (new replaced : SupplyState) (frame : Word32)
  | timing (event : TimingEvent) (frame : Word32)
  | configApplied (frame : Word32)
  | configDropped (frame : Word32)
  | switchApplied (kind : SwitchKind) (newIndex : Fin 6) (frame : Word32)
  | switchCancelled (switch : Switch)
  | exit (record : ExitRecord)
  | inhibit (txinh : Bool) (causes : Causes) (frame : Word32)
  | traceCaptured (position : Word32)
  | traceMissed (position : Word32)
  | ringHalf (half : Half) (number : Nat)
  | ringOverrun (half : Half) (number : Nat)
  | overshoot (position : Word32)
  | store (status : StoreStatus) (safeSlots : BitVec 6)
  deriving DecidableEq, Repr

/-- The Change Reporter (R171): 15 places, enable mask, clear mode, and the ALERT_N level, true while ASSERTED. -/
structure ChangeReporter where
  places : Vector (Option Change) 15
  mask : BitVec 15
  clearMode : ClearMode
  alert : Bool
  deriving DecidableEq, Repr

/-! ## Link Port -/

/-- A good frame awaiting the Request Decoder (R178): its check is not kept, its length is its payload's. -/
structure RxFrame where
  kind : Byte
  tag : Byte
  payload : List Byte
  deriving DecidableEq, Repr

/-- A complete frame for TXD, its check formed (R178). -/
structure TxFrame where
  kind : Byte
  tag : Byte
  payload : List Byte
  check : Word16
  deriving DecidableEq, Repr

/-- A decoder reply; `isReset` marks the DONE of a RESET_PART, for the exception of R184. -/
structure DecoderReply where
  frame : TxFrame
  isReset : Bool
  deriving DecidableEq, Repr

/-- A port reply; `behind` counts the RESET_PART DONEs waiting when it was produced and still unsent, behind
which it waits (R184; assumption 15). -/
structure PortReply where
  frame : TxFrame
  behind : Nat
  deriving DecidableEq, Repr

/-- The receive state; the partial frame and the byte-gap timer exist exactly while RECEIVING (R178). -/
inductive Receive where
  | hunting
  /-- the bytes since the sync byte, and the byte-gap timer's expiry -/
  | receiving (bytes : List Byte) (gapExpiry : Moment)
  deriving DecidableEq, Repr

inductive DecoderState where
  | held
  | running
  deriving DecidableEq, Repr

/-- The Link Port (R178). -/
structure LinkPort where
  receive : Receive
  receiveQueue : List RxFrame
  decoder : DecoderState
  replyQueue : List DecoderReply
  portQueue : List PortReply
  transmitter : Option TxFrame
  deriving DecidableEq, Repr

/-! ## Pins, the last load, and work not yet taken -/

/-- The levels of the input pins: RST_N, and the sampled pins as last read (00_scope.md, "Pins"). -/
structure Pins where
  rstN : Bool
  levels : Levels
  deriving DecidableEq, Repr

/-- What the last power-on load took from the image that later steps still need (R126, R164, R171). -/
structure LoadedDefaults where
  presumption : Nat
  mask : BitVec 15
  clearMode : ClearMode
  safeSlots : BitVec 6
  deriving DecidableEq, Repr

/-- Work that has been raised and not yet taken, each item a step of its own (assumption 4). -/
structure Outstanding where
  /-- parts of the current frame event not yet taken -/
  late : List FrameWork
  sampleDue : Bool
  holdClearDue : Bool
  applyDue : Bool
  switchDue : Bool
  /-- policy fault events in the order raised (R155) -/
  faults : List FaultClass
  /-- notices to Inhibit Control in the order sent (R167) -/
  notices : List Notice
  deriving DecidableEq, Repr

end Sys2Proof.Machine
end

