-- ==== Sys2Proof/Machine/Silicon.lean ====
section
/-!
DEFINITION. The Power Conversion Table and the fixed times and sizes of the UG-24's silicon (00_scope.md, R4, R8,
R11, R178, R180).
-/

namespace Sys2Proof.Machine

/-! ## Times, in bit times of the link (assumption 2) -/

/-- A millisecond: 3,000 bit times at 3,000,000 bit/s. -/
def millisecond : Nat := 3000

/-- The pacer's period, 10 ms (R4). -/
def pacerPeriod : Nat := 10 * millisecond

/-- The strobe-loss timer's time, 15 ms (R8). -/
def strobeLossTime : Nat := 15 * millisecond

/-- The width of the glitch window of R8 and of the re-lock window of R11, 5 ms. -/
def strobeWindow : Nat := 5 * millisecond

/-- The byte-gap timer's time, 2 ms (R180). -/
def byteGapTime : Nat := 2 * millisecond

/-- The pacer frame events after which ALIGNING ends (R6). -/
def alignLimit : Nat := 5

/-- The coast limit (R12). -/
def coastLimit : Nat := 100

/-! ## Sizes -/

/-- Places of the receive queue and of the reply queue (R178). -/
def queueSize : Nat := 4

/-- Places of the port-reply queue (R178). -/
def portQueueSize : Nat := 8

/-- Places of the Open Grant List (R100). -/
def openListSize : Nat := 16

/-- The top of an energy's range, and of every four-byte number (R123, R131). -/
def max32 : Nat := 4294967295

/-! ## Power Conversion Table (00_scope.md, R71)

Entry c is the power of code c in microwatts, rounded to the nearest whole microwatt. -/

/-- Entries 0..19. -/
def powerTable0 : List Nat :=
  [0, 0, 0, 0, 0, 0, 0, 0, 0, 0,
   0, 0, 0, 0, 1, 1, 1, 1, 1, 1]

/-- Entries 20..39. -/
def powerTable1 : List Nat :=
  [1, 1, 1, 1, 2, 2, 2, 2, 3, 3,
   3, 4, 4, 4, 5, 6, 6, 7, 8, 9]

/-- Entries 40..59. -/
def powerTable2 : List Nat :=
  [10, 11, 13, 14, 16, 18, 20, 22, 25, 28,
   32, 35, 40, 45, 50, 56, 63, 71, 79, 89]

/-- Entries 60..79. -/
def powerTable3 : List Nat :=
  [100, 112, 126, 141, 158, 178, 200, 224, 251, 282,
   316, 355, 398, 447, 501, 562, 631, 708, 794, 891]

/-- Entries 80..99. -/
def powerTable4 : List Nat :=
  [1000, 1122, 1259, 1413, 1585, 1778, 1995, 2239, 2512, 2818,
   3162, 3548, 3981, 4467, 5012, 5623, 6310, 7079, 7943, 8913]

/-- Entries 100..119. -/
def powerTable5 : List Nat :=
  [10000, 11220, 12589, 14125, 15849, 17783, 19953, 22387, 25119, 28184,
   31623, 35481, 39811, 44668, 50119, 56234, 63096, 70795, 79433, 89125]

/-- Entries 120..139. -/
def powerTable6 : List Nat :=
  [100000, 112202, 125893, 141254, 158489, 177828, 199526, 223872, 251189, 281838,
   316228, 354813, 398107, 446684, 501187, 562341, 630957, 707946, 794328, 891251]

/-- Entries 140..159. -/
def powerTable7 : List Nat :=
  [1000000, 1122018, 1258925, 1412538, 1584893, 1778279, 1995262, 2238721, 2511886, 2818383,
   3162278, 3548134, 3981072, 4466836, 5011872, 5623413, 6309573, 7079458, 7943282, 8912509]

/-- The Power Conversion Table, entries 0..159. -/
def powerTable : List Nat :=
  powerTable0 ++ powerTable1 ++ powerTable2 ++ powerTable3 ++ powerTable4 ++ powerTable5 ++ powerTable6 ++ powerTable7

/-- The power of a code in microwatts: its entry of the table. -/
def tablePower (c : Nat) : Nat := powerTable.getD c 0

end Sys2Proof.Machine
end

