-- ==== Sys2Proof/Machine/Bytes.lean ====
section
/-!
DEFINITION. Bytes of messages: byte order (R188), signed fields, and the cyclic check of R133.
-/

namespace Sys2Proof.Machine

/-- A number in `n` bytes, most significant first (R188). -/
def beBytes : Nat → Nat → List Byte
  | 0, _ => []
  | n + 1, v => BitVec.ofNat 8 (v / 256 ^ n) :: beBytes n v

/-- The number some bytes spell, most significant first (R188). -/
def fromBe (bytes : List Byte) : Nat := bytes.foldl (fun acc b => acc * 256 + b.toNat) 0

/-- A number in one byte. -/
def byte1 (v : Nat) : List Byte := beBytes 1 v

/-- A number in two bytes. -/
def byte2 (v : Nat) : List Byte := beBytes 2 v

/-- A number in four bytes; one too large for them is carried as 4,294,967,295 (R135). -/
def byte4 (v : Nat) : List Byte := beBytes 4 (min v max32)

/-- A signed number across the whole of `n` bytes, in two's complement (R188). -/
def signedBytes (n : Nat) (v : Int) : List Byte := beBytes n (v % (256 ^ n : Int)).toNat

/-- A yes-or-no field (R188): yes 1, no 0. -/
def boolByte (b : Bool) : Byte := if b then 1 else 0

/-- The value of a one-byte signed field (R188). -/
def signedByte (b : Byte) : Int := b.toInt

/-- Two bytes as the 16-bit number they spell. -/
def word16 (hi lo : Byte) : Word16 := hi ++ lo

/-- Four bytes as the 32-bit number they spell. -/
def word32 (b3 b2 b1 b0 : Byte) : Word32 := (b3 ++ b2 ++ b1 ++ b0 : BitVec 32)

/-! ## The cyclic check (R133) -/

/-- One bit folded: shift toward the top, and combine with 0x1021 where the top bit differed from the data bit. -/
def crcBit (r : Word16) (bit : Bool) : Word16 :=
  if r.msb != bit then (r <<< 1) ^^^ 0x1021 else r <<< 1

/-- One byte folded, from its most significant bit down. -/
def crcByte (r : Word16) (b : Byte) : Word16 :=
  [7, 6, 5, 4, 3, 2, 1, 0].foldl (fun r i => crcBit r (b.getLsbD i)) r

/-- Some bytes folded in order. -/
def crcFold (r : Word16) (bytes : List Byte) : Word16 := bytes.foldl crcByte r

/-- The register's value before anything is folded. -/
def crcStart : Word16 := 0xFFFF

/-- The check of a frame: folded over kind, tag, length and payload (R181). -/
def frameCheck (kind tag : Byte) (payload : List Byte) : Word16 :=
  crcFold crcStart (kind :: tag :: BitVec.ofNat 8 payload.length :: payload)

end Sys2Proof.Machine
end

