-- ==== Sys2Proof/Machine/Contexts.lean ====
section
/-!
DEFINITION. Policy contexts: the fields by number (R145), their ranges, the consistency checks (R146), the context
record's bytes (R193), and the built-in safe context (R163).
-/

namespace Sys2Proof.Machine

/-! ## Values per zone -/

/-- The value for one zone. -/
def zoneGet {α : Type} (p : PerZone α) : Zone → α
  | .pa => p.pa
  | .antA => p.antA
  | .antB => p.antB
  | .caseZone => p.caseZone

/-- One zone's value replaced. -/
def zoneSet {α : Type} (p : PerZone α) (z : Zone) (v : α) : PerZone α :=
  match z with
  | .pa => { p with pa := v }
  | .antA => { p with antA := v }
  | .antB => { p with antB := v }
  | .caseZone => { p with caseZone := v }

/-- One value for all four zones. -/
def zoneAll {α : Type} (v : α) : PerZone α := { pa := v, antA := v, antB := v, caseZone := v }

/-- The zones in number order. -/
def zones : List Zone := [.pa, .antA, .antB, .caseZone]

/-- A zone's number (section 3.1). -/
def zoneCode : Zone → Nat
  | .pa => 0
  | .antA => 1
  | .antB => 2
  | .caseZone => 3

/-- The zone of a number. -/
def zoneOf : Nat → Option Zone
  | 0 => some .pa
  | 1 => some .antA
  | 2 => some .antB
  | 3 => some .caseZone
  | _ => none

/-- The four values in zone order. -/
def zoneList {α : Type} (p : PerZone α) : List α := [p.pa, p.antA, p.antB, p.caseZone]

/-! ## Fields by number (R145) -/

/-- The code of a critical action (R188). -/
def criticalActionCode : CriticalAction → Nat
  | .cap => 0
  | .inhibit => 1

/-- The critical action of a code. -/
def criticalActionOf (v : Nat) : CriticalAction := if v = 1 then .inhibit else .cap

/-- Fields 1 to 9 hold one value per zone (R145). -/
def fieldPerZone (n : Nat) : Bool := decide (1 ≤ n ∧ n ≤ 9)

/-- The fixed range of a field, lowest and highest value; none where no field has the number (R145). -/
def fieldRange : Nat → Option (Nat × Nat)
  | 1 | 2 | 3 => some (1, 510)
  | 4 => some (0, 31)
  | 5 | 6 | 7 | 8 => some (0, 127)
  | 9 => some (0, 1)
  | 10 => some (1, 16)
  | 11 => some (1, 8)
  | 12 => some (2, 64)
  | 13 => some (1, 63)
  | 14 | 15 => some (10, 4000)
  | 16 => some (0, 1)
  | 17 => some (1, 2000)
  | 18 => some (8, 128)
  | 19 => some (50, 400)
  | 20 => some (8, 15)
  | 21 => some (0, 4294967295)
  | 22 => some (0, 1)
  | 23 => some (2, 8)
  | 24 | 25 | 26 | 27 | 28 => some (0, 1)
  | 29 => some (0, 5)
  | _ => none

/-- A value lies in the fixed range of a field. -/
def inFieldRange (n v : Nat) : Bool :=
  match fieldRange n with
  | some (lo, hi) => decide (lo ≤ v ∧ v ≤ hi)
  | none => false

/-- The bytes a field takes in a context record (R193). -/
def fieldWidth : Nat → Nat
  | 1 | 2 | 3 | 14 | 15 | 17 | 19 => 2
  | 21 => 4
  | _ => 1

/-- A yes-or-no field's code (R188). -/
def boolCode (b : Bool) : Nat := if b then 1 else 0

/-- The value of a field by its number; the zone is read only for fields 1 to 9. -/
def contextGet (c : Context) (n : Nat) (z : Zone) : Nat :=
  match n with
  | 1 => zoneGet c.warmEntry z
  | 2 => zoneGet c.hotEntry z
  | 3 => zoneGet c.criticalEntry z
  | 4 => zoneGet c.hysteresis z
  | 5 => zoneGet c.warmCap z
  | 6 => zoneGet c.hotOnCap z
  | 7 => zoneGet c.hotOffCap z
  | 8 => zoneGet c.criticalCap z
  | 9 => criticalActionCode (zoneGet c.criticalAction z)
  | 10 => c.samplePeriod
  | 11 => c.confirmCount
  | 12 => c.cycleLength
  | 13 => c.duty
  | 14 => c.supplyLowCap
  | 15 => c.supplyCriticalCap
  | 16 => boolCode c.shed
  | 17 => c.averageLimit
  | 18 => c.window
  | 19 => c.interval
  | 20 => c.paceThreshold
  | 21 => c.reserve
  | 22 => boolCode c.hardStop
  | 23 => c.horizon
  | 24 => boolCode c.exitSensor
  | 25 => boolCode c.exitCritical
  | 26 => boolCode c.exitExhausted
  | 27 => boolCode c.exitOvershoot
  | 28 => boolCode c.exitTiming
  | 29 => c.fallback.val
  | _ => 0

/-- A field replaced by its number; the value lies in the field's range wherever this is used. -/
def contextPut (c : Context) (n : Nat) (z : Zone) (v : Nat) : Context :=
  match n with
  | 1 => { c with warmEntry := zoneSet c.warmEntry z v }
  | 2 => { c with hotEntry := zoneSet c.hotEntry z v }
  | 3 => { c with criticalEntry := zoneSet c.criticalEntry z v }
  | 4 => { c with hysteresis := zoneSet c.hysteresis z v }
  | 5 => { c with warmCap := zoneSet c.warmCap z v }
  | 6 => { c with hotOnCap := zoneSet c.hotOnCap z v }
  | 7 => { c with hotOffCap := zoneSet c.hotOffCap z v }
  | 8 => { c with criticalCap := zoneSet c.criticalCap z v }
  | 9 => { c with criticalAction := zoneSet c.criticalAction z (criticalActionOf v) }
  | 10 => { c with samplePeriod := v }
  | 11 => { c with confirmCount := v }
  | 12 => { c with cycleLength := v }
  | 13 => { c with duty := v }
  | 14 => { c with supplyLowCap := v }
  | 15 => { c with supplyCriticalCap := v }
  | 16 => { c with shed := v == 1 }
  | 17 => { c with averageLimit := v }
  | 18 => { c with window := v }
  | 19 => { c with interval := v }
  | 20 => { c with paceThreshold := v }
  | 21 => { c with reserve := v }
  | 22 => { c with hardStop := v == 1 }
  | 23 => { c with horizon := v }
  | 24 => { c with exitSensor := v == 1 }
  | 25 => { c with exitCritical := v == 1 }
  | 26 => { c with exitExhausted := v == 1 }
  | 27 => { c with exitOvershoot := v == 1 }
  | 28 => { c with exitTiming := v == 1 }
  | 29 => { c with fallback := Fin.ofNat 6 v }
  | _ => c

/-- The 56 field values of a context record in the order of R150: field numbers rising, zone 0 first. -/
def contextLayout : List (Nat × Zone) :=
  ([1, 2, 3, 4, 5, 6, 7, 8, 9].flatMap fun n => zones.map fun z => (n, z)) ++
    [10, 11, 12, 13, 14, 15, 16, 17, 18, 19, 20, 21, 22, 23, 24, 25, 26, 27, 28, 29].map fun n => (n, .pa)

/-! ## Consistency (R145, R146) -/

/-- Every field lies in its fixed range (R145). -/
def contextInRange (c : Context) : Bool :=
  contextLayout.all fun (n, z) => inFieldRange n (contextGet c n z)

/-- One check of R146: whether it holds, and the field it reports. Per-zone checks name their zone. -/
structure ConsistencyCheck where
  holds : Bool
  zone : Option Zone
  field : Nat
  deriving DecidableEq, Repr

/-- A per-zone check of R146 for the four zones in order. -/
def zoneChecks (field : Nat) (holds : Zone → Bool) : List ConsistencyCheck :=
  zones.map fun z => { holds := holds z, zone := some z, field := field }

/-- The checks of R146 in the order of its table. -/
def contextChecks (c : Context) : List ConsistencyCheck :=
  let warm := zoneGet c.warmEntry
  let hot := zoneGet c.hotEntry
  let crit := zoneGet c.criticalEntry
  let hyst := zoneGet c.hysteresis
  zoneChecks 2 (fun z => decide (warm z < hot z)) ++
  zoneChecks 3 (fun z => decide (hot z < crit z)) ++
  zoneChecks 4 (fun z => decide (hyst z + warm z < hot z ∧ hyst z + hot z < crit z)) ++
  zoneChecks 6 (fun z => decide (zoneGet c.hotOnCap z ≤ zoneGet c.warmCap z)) ++
  zoneChecks 7 (fun z => decide (zoneGet c.hotOffCap z ≤ zoneGet c.hotOnCap z)) ++
  [{ holds := decide (c.duty < c.cycleLength), zone := none, field := 13 },
   { holds := decide (c.supplyCriticalCap ≤ c.supplyLowCap), zone := none, field := 15 },
   { holds := decide (3000 ≤ c.window * c.interval ∧ c.window * c.interval ≤ 51200), zone := none, field := 19 },
   { holds := decide (c.reserve ≤ c.averageLimit * c.window * c.interval * 5), zone := none, field := 21 }]

/-- The first check of R146 that fails. -/
def contextFirstFault (c : Context) : Option ConsistencyCheck := (contextChecks c).find? fun k => !k.holds

/-- A context whose fields meet their fixed ranges and every check of R146. -/
def contextConsistent (c : Context) : Bool := contextInRange c && (contextFirstFault c).isNone

/-! ## The context record (R193) -/

/-- The 75 bytes of a context record. -/
def contextBytes (c : Context) : List Byte :=
  contextLayout.flatMap fun (n, z) => beBytes (fieldWidth n) (contextGet c n z)

/-- Field values read off a context record's bytes in layout order. -/
def recordValues : List (Nat × Zone) → List Byte → List ((Nat × Zone) × Nat)
  | [], _ => []
  | (n, z) :: rest, bytes =>
    ((n, z), fromBe (bytes.take (fieldWidth n))) :: recordValues rest (bytes.drop (fieldWidth n))

/-- The built-in safe context, its fallback naming slot `k` (R163). -/
def safeContext (k : Fin 6) : Context :=
  { warmEntry := zoneAll 151
    hotEntry := zoneAll 171
    criticalEntry := { pa := 191, antA := 191, antB := 191, caseZone := 181 }
    hysteresis := zoneAll 6
    warmCap := zoneAll 116
    hotOnCap := { pa := 110, antA := 110, antB := 110, caseZone := 106 }
    hotOffCap := { pa := 100, antA := 100, antB := 100, caseZone := 96 }
    criticalCap := { pa := 80, antA := 80, antB := 80, caseZone := 60 }
    criticalAction := { pa := .cap, antA := .cap, antB := .cap, caseZone := .inhibit }
    samplePeriod := 4
    confirmCount := 3
    cycleLength := 8
    duty := 4
    supplyLowCap := 400
    supplyCriticalCap := 200
    shed := true
    averageLimit := 100
    window := 60
    interval := 100
    paceThreshold := 12
    reserve := 300000
    hardStop := true
    horizon := 4
    exitSensor := true
    exitCritical := true
    exitExhausted := true
    exitOvershoot := false
    exitTiming := true
    fallback := k }

/-- The context a record's bytes give: every field in range and consistent, or none (R162, R195). -/
def contextOfBytes (bytes : List Byte) : Option Context :=
  let values := recordValues contextLayout bytes
  if values.all fun ((n, _), v) => inFieldRange n v then
    let c := values.foldl (fun c ((n, z), v) => contextPut c n z v) (safeContext 0)
    if (contextFirstFault c).isNone then some c else none
  else none

/-! ## The load of the Default Store image (R160 to R162, R195) -/

/-- The items of a load. -/
structure Loaded where
  slots : Vector Context 6
  safeSlots : BitVec 6
  offsets : PerZone Int
  presumption : Nat
  activeIndex : Fin 6
  mask : BitVec 15
  clearMode : ClearMode
  status : StoreStatus
  deriving DecidableEq, Repr

/-- Some bytes of the image. -/
def imagePart (image : List Byte) (start count : Nat) : List Byte := (image.drop start).take count

/-- One byte of the image. -/
def imageByte (image : List Byte) (i : Nat) : Byte := image.getD i 0

/-- Both check words are right (R160). -/
def imageChecks (image : List Byte) : Bool :=
  fromBe (imagePart image 0 2) == 0x3C96 && fromBe (imagePart image 461 2) == 0xC369

/-- The image's context for slot `k`, where it passes the load's checks (R162). -/
def imageContext (image : List Byte) (k : Fin 6) : Option Context :=
  contextOfBytes (imagePart image (2 + 75 * k.val) 75)

/-- Slot `k` as a load writes it: the image's context, or the safe context where the image is BAD or the context
fails a check (R161, R162). -/
def loadedSlot (image : List Byte) (k : Fin 6) : Context :=
  if imageChecks image then (imageContext image k).getD (safeContext k) else safeContext k

/-- All six slots as a load writes them. -/
def loadedSlots (image : List Byte) : Vector Context 6 :=
  #v[loadedSlot image 0, loadedSlot image 1, loadedSlot image 2, loadedSlot image 3, loadedSlot image 4,
    loadedSlot image 5]

/-- The slots that took the safe context, slot k at bit k (R164, R188). -/
def safeSlotSet (image : List Byte) : BitVec 6 :=
  ([0, 1, 2, 3, 4, 5] : List (Fin 6)).foldl
    (fun acc k => if imageChecks image && (imageContext image k).isSome then acc else acc ||| (1#6 <<< k.val)) 0

/-- A calibration offset's byte lies in -32..+31 (R162). -/
def offsetLegal (b : Byte) : Bool := decide (-32 ≤ b.toInt ∧ b.toInt ≤ 31)

/-- A calibration offset as the load takes it (R162). -/
def loadedOffset (b : Byte) : Int := if offsetLegal b then b.toInt else 0

/-- The four offset bytes stand after the six contexts (R195). -/
def imageOffsets (image : List Byte) : PerZone Byte :=
  { pa := imageByte image 452, antA := imageByte image 453, antB := imageByte image 454,
    caseZone := imageByte image 455 }

/-- The power-on load (R161, R162). -/
def loadImage (image : List Byte) : Loaded :=
  let slots := loadedSlots image
  let safeSlots := safeSlotSet image
  if imageChecks image then
    let offs := imageOffsets image
    let presumption := (imageByte image 456).toNat
    let active := (imageByte image 457).toNat
    let mode := (imageByte image 460).toNat
    let replaced := safeSlots != 0 || !(zoneList offs).all offsetLegal || decide (16 < presumption) ||
      decide (5 < active) || decide (1 < mode)
    { slots, safeSlots
      offsets := { pa := loadedOffset offs.pa, antA := loadedOffset offs.antA, antB := loadedOffset offs.antB,
                   caseZone := loadedOffset offs.caseZone }
      presumption := if presumption ≤ 16 then presumption else 16
      activeIndex := if active ≤ 5 then Fin.ofNat 6 active else 0
      mask := BitVec.ofNat 15 (fromBe (imagePart image 458 2))
      clearMode := if mode = 0 then .onRead else .onAck
      status := if replaced then .isPartial else .good }
  else
    { slots, safeSlots, offsets := zoneAll 0, presumption := 16, activeIndex := 0, mask := BitVec.allOnes 15,
      clearMode := .onAck, status := .bad }

end Sys2Proof.Machine
end

