-- ==== Sys2Proof/Machine/State.lean ====
section
/-!
DEFINITION. The state of the UG-24: one field per block, the pins, the Default Store image, the work that has been
raised and not yet taken, the present moment, and the queue of commands that are waiting. INVENTORY.md lists every
piece with its rule and its reset value.
-/

namespace Sys2Proof.Machine

/-- The faults a step can stop with: none. The spec gives the part no machine stop: a request that cannot be
served is answered with a refusal status (R190), and a policy fault event (R155) is an event inside the part.
Raised by nobody; safe. -/
inductive Fault
  deriving DecidableEq, Repr

/-- The refusals of a step. -/
inductive Refusal where
  /-- A command that has no meaning yet, named by its mnemonic. Raised by an arm of `exec` alone; safe. -/
  | notModelled (mnemonic : String)
  deriving DecidableEq, Repr

/-- The state of the block. -/
structure State where
  timing : Timing
  carriers : CarrierTable
  heat : HeatMonitor
  supply : SupplyMonitor
  engine : GrantEngine
  openGrants : OpenGrantList
  ring : Ring
  policy : PolicyStore
  inhibit : InhibitControl
  changes : ChangeReporter
  link : LinkPort
  pins : Pins
  loaded : LoadedDefaults
  /-- the Default Store image, one-time programmable (R148, R195) -/
  image : Vector Byte imageSize
  work : Outstanding
  /-- the moment of the latest command that carried one (assumption 2) -/
  now : Moment
  /-- the commands that are waiting, first in, first out -/
  pending : List Instr
  deriving DecidableEq, Repr

/-- The reset values of a carrier entry (R18). -/
def resetEntry : CarrierEntry :=
  { enabled := false, role := .secondary, anchor := 0, zone := .pa, priority := 3, floor := 0, ceiling := 127,
    gain := 0 }

/-- An EMPTY interval record (R123). -/
def emptyRecord : IntervalRecord :=
  { state := .empty, number := 0, energy := 0, anchorEnergy := 0, grants := 0, throttled := 0, unreported := 0,
    corrected := 0, unmatched := 0, peak := none, signature := 0xFFFF }

/-- A zone record before the start-up sample.
DESIGN CHOICE, unsafe (assumption 10): the spec gives values from the start-up sample on. -/
def unsampledZone : ZoneRecord :=
  { state := .level .cool, lastRaw := 1, temperature := some 1, candidate := none, agreeCount := 0 }

/-- No work outstanding. -/
def noWork : Outstanding :=
  { late := [], sampleDue := false, holdClearDue := false, applyDue := false, switchDue := false, faults := [],
    notices := [] }

/-- The state right after power-on with a blank image: every block at its power-on values, TXINH asserted, and the
start-up load in progress (R185; assumptions 8, 9, 10, 12). -/
def State.reset : State :=
  { timing :=
      { state := .free, frameCounter := 0, alignTarget := 0, alignCount := 0, coastCount := 0,
        lastFrameStart := none, lastPacerEvent := none, strobeLoss := none, pacer := none }
    carriers := { entries := Vector.replicate 8 resetEntry, slotsPerFrame := .two, staging := .closed }
    heat := { zones := zoneAll unsampledZone, sampleCounter := 4, samplePeriod := 4, dutyCounter := 0 }
    supply := { state := .good, candidate := none, agreeCount := 0 }
    engine := { armed := none, snapshot := none }
    openGrants := { entries := [], expiryMark := 0 }
    ring :=
      { records := (Vector.replicate 128 emptyRecord).set 0 { emptyRecord with state := .opened, number := 1 }
        writePosition := 0, framesInInterval := 0, latchedLength := 100, nextNumber := 2
        lowerHeld := false, upperHeld := false, exhausted := false }
    policy :=
      { slots := #v[safeContext 0, safeContext 1, safeContext 2, safeContext 3, safeContext 4, safeContext 5]
        workingCopy := safeContext 0, activeIndex := 0, pendingSwitch := none, exitHold := false
        exitRecord := none, storeStatus := .bad, offsets := zoneAll 0 }
    inhibit := { causes := { zoneCrit := false, exposure := false }, txinh := true }
    changes := { places := Vector.replicate 15 none, mask := BitVec.allOnes 15, clearMode := .onAck, alert := false }
    link :=
      { receive := .hunting, receiveQueue := [], decoder := .held, replyQueue := [], portQueue := []
        transmitter := none }
    pins := { rstN := true, levels := Config.idleLevels }
    loaded :=
      { presumption := 16, mask := BitVec.allOnes 15, clearMode := .onAck, safeSlots := BitVec.allOnes 6 }
    image := Config.blankImage
    work := noWork
    now := 0
    pending := [] }

end Sys2Proof.Machine
end

