-- ==== Sys2Proof/Machine/Ops.lean ====
section
/-!
DEFINITION. The named operations every meaning is built from: replacing one block's record, the clock, the work
that is raised and not yet taken, and access to interval records.
-/

namespace Sys2Proof.Machine

/-! ## One block's record replaced -/

/-- The state with `timing` replaced. -/
def State.setTiming (s : State) (x : Timing) : State := { s with timing := x }

/-- The state with `carriers` replaced. -/
def State.setCarriers (s : State) (x : CarrierTable) : State := { s with carriers := x }

/-- The state with `heat` replaced. -/
def State.setHeat (s : State) (x : HeatMonitor) : State := { s with heat := x }

/-- The state with `supply` replaced. -/
def State.setSupply (s : State) (x : SupplyMonitor) : State := { s with supply := x }

/-- The state with `engine` replaced. -/
def State.setEngine (s : State) (x : GrantEngine) : State := { s with engine := x }

/-- The state with `openGrants` replaced. -/
def State.setOpenGrants (s : State) (x : OpenGrantList) : State := { s with openGrants := x }

/-- The state with `ring` replaced. -/
def State.setRing (s : State) (x : Ring) : State := { s with ring := x }

/-- The state with `policy` replaced. -/
def State.setPolicy (s : State) (x : PolicyStore) : State := { s with policy := x }

/-- The state with `inhibit` replaced. -/
def State.setInhibit (s : State) (x : InhibitControl) : State := { s with inhibit := x }

/-- The state with `changes` replaced. -/
def State.setChanges (s : State) (x : ChangeReporter) : State := { s with changes := x }

/-- The state with `link` replaced. -/
def State.setLink (s : State) (x : LinkPort) : State := { s with link := x }

/-- The state with `pins` replaced. -/
def State.setPins (s : State) (x : Pins) : State := { s with pins := x }

/-- The state with `loaded` replaced. -/
def State.setLoaded (s : State) (x : LoadedDefaults) : State := { s with loaded := x }

/-- The state with `image` replaced. -/
def State.setImage (s : State) (x : Vector Byte imageSize) : State := { s with image := x }

/-- The state with `work` replaced. -/
def State.setWork (s : State) (x : Outstanding) : State := { s with work := x }

/-- The state with `now` replaced. -/
def State.setNow (s : State) (x : Moment) : State := { s with now := x }

/-! ## The clock (assumption 2) -/

/-- The present moment moved on to `t`; it never runs back. -/
def advanceTo (t : Moment) (s : State) : State := s.setNow (max s.now t)

/-! ## Work raised and not yet taken (assumption 4) -/

/-- A policy fault event raised at the Policy Store, to be taken as an event of its own (R155). -/
def raiseFault (c : FaultClass) (s : State) : State := s.setWork { s.work with faults := s.work.faults ++ [c] }

/-- A notice sent to Inhibit Control, to be taken as an event of its own (R167). -/
def sendNotice (n : Notice) (s : State) : State := s.setWork { s.work with notices := s.work.notices ++ [n] }

/-! ## Interval records by position (R123, R124) -/

/-- The record at a position. -/
def recordAt (s : State) (p : Fin 128) : IntervalRecord := s.ring.records[p]

/-- The OPEN record, which stands at the write position (R124). -/
def openRecord (s : State) : IntervalRecord := recordAt s s.ring.writePosition

/-- The record at a position changed by `f`. -/
def mapRecord (p : Fin 128) (f : IntervalRecord → IntervalRecord) (s : State) : State :=
  s.setRing { s.ring with records := s.ring.records.set p (f s.ring.records[p]) }

/-- The record an open grant entry names, changed by `f`, where it still carries the named interval number;
otherwise no record changes (R124). -/
def mapNamedRecord (e : OpenGrant) (f : IntervalRecord → IntervalRecord) (s : State) : State :=
  if (recordAt s e.ringPosition).number = e.intervalNumber then mapRecord e.ringPosition f s else s

/-! ## Saturating arithmetic (00_scope.md; R123, R131) -/

/-- A count one higher, stopping at its largest value. -/
def countUp (top n : Nat) : Nat := if n < top then n + 1 else n

/-- An energy increased, stopping at the top of its range (R131). -/
def energyAdd (e x : Nat) : Nat := min max32 (e + x)

/-- An energy changed from a charged amount to an actual one: the correction of R116, stopping at either end of the
range (R131, R132). -/
def energyCorrect (e charged actual : Nat) : Nat := if charged ≤ actual then energyAdd e (actual - charged) else e - (charged - actual)

/-! ## Powers -/

/-- The value is a code, not OFF. -/
def isCode : Power → Bool
  | .off => false
  | .code _ => true

/-- A value compared with a value; OFF lies below every code (00_scope.md). -/
def powerAbove : Power → Power → Bool
  | .off, _ => false
  | .code _, .off => true
  | .code a, .code b => decide (b < a)

/-! ## Slots per frame (R20) -/

/-- The setting as a number. -/
def slotCount : SlotsPerFrame → Nat
  | .one => 1
  | .two => 2
  | .four => 4
  | .eight => 8
  | .sixteen => 16

/-- The setting of a number. -/
def slotsPerFrameOf : Nat → Option SlotsPerFrame
  | 1 => some .one
  | 2 => some .two
  | 4 => some .four
  | 8 => some .eight
  | 16 => some .sixteen
  | _ => none

/-- The slot duration in microseconds: 10 ms divided by slots per frame (R20, R88). -/
def slotDuration (n : SlotsPerFrame) : Nat := 10000 / slotCount n

/-- A carrier's live entry. -/
def liveEntry (s : State) (i : Fin 8) : CarrierEntry := s.carriers.entries[i]

end Sys2Proof.Machine
end

