-- ==== Sys2Proof/Machine/Flags.lean ====
section
/-!
DEFINITION. The flags and the figures derived from the state: the Change Set and ALERT_N (R170 to R172), the
window figures and the exhaustion condition (R135 to R138), the TXINH cause set (R166, R169), and the duty phase
(R51).
-/

namespace Sys2Proof.Machine

/-! ## Change Set -/

/-- The number of a change's source (R170). -/
def changeSource : Change → Fin 15
  | .zone .pa _ _ => 0
  | .zone .antA _ _ => 1
  | .zone .antB _ _ => 2
  | .zone .caseZone _ _ => 3
  | .supply _ _ _ => 4
  | .timing _ _ => 5
  | .configApplied _ => 6
  | .configDropped _ => 6
  | .switchApplied _ _ _ => 7
  | .switchCancelled _ => 7
  | .exit _ => 8
  | .inhibit _ _ _ => 9
  | .traceCaptured _ => 10
  | .traceMissed _ => 10
  | .ringHalf _ _ => 11
  | .ringOverrun _ _ => 12
  | .overshoot _ => 13
  | .store _ _ => 14

/-- Some place is pending. -/
def anyPending (places : Vector (Option Change) 15) : Bool := places.toList.any Option.isSome

/-- The places replaced; ALERT_N follows them (R172). -/
def withPlaces (c : ChangeReporter) (places : Vector (Option Change) 15) : ChangeReporter :=
  { c with places := places, alert := anyPending places }

/-- A change raised at the Change Reporter: kept where its source is enabled, without effect otherwise (R172). -/
def raiseChange (c : Change) (s : State) : State :=
  if s.changes.mask.getLsbD (changeSource c) then
    s.setChanges (withPlaces s.changes (s.changes.places.set (changeSource c) (some c)))
  else s

/-- The places of the sources outside `keep` cleared. -/
def keepPlaces (keep : BitVec 15) (places : Vector (Option Change) 15) : Vector (Option Change) 15 :=
  Vector.ofFn fun i => if keep.getLsbD i then places[i] else none

/-- A bit set as a number, the list's first item at bit 0. -/
def bitSet (bits : List Bool) : Nat := bits.foldr (fun b acc => b.toNat + 2 * acc) 0

/-- The pending set: bit i for source i (R188, R191). -/
def pendingSet (places : Vector (Option Change) 15) : BitVec 15 :=
  BitVec.ofNat 15 (bitSet (places.toList.map Option.isSome))

/-! ## Window figures -/

/-- The records of the window: the OPEN record and the W before it, 127 where W is 128 (R135). -/
def windowRecords (r : Ring) (w : Nat) : List IntervalRecord :=
  (List.range (min w 127 + 1)).map fun k => r.records[(r.writePosition.val + 128 - k) % 128]'(Nat.mod_lt _ (by decide))

/-- The window sum (R135). -/
def windowSum (s : State) : Nat :=
  ((windowRecords s.ring s.policy.workingCopy.window).map IntervalRecord.energy).sum

/-- The budget, in microjoules (R136). -/
def budgetOf (c : Context) : Nat := c.averageLimit * c.window * c.interval * 10

/-- The budget of the working copy. -/
def budget (s : State) : Nat := budgetOf s.policy.workingCopy

/-- The window is exhausted: its sum is at or above the budget (R136). -/
def windowExhausted (s : State) : Bool := decide (budget s ≤ windowSum s)

/-- The headroom (R136). -/
def headroom (s : State) : Nat := budget s - windowSum s

/-- The utilisation in sixteenths: 16 from the budget on (R136; assumption 14). -/
def utilisation (s : State) : Nat := if windowExhausted s then 16 else 16 * windowSum s / budget s

/-- The ring's comparison after a recomputation: EXHAUSTED on the onset, and Inhibit Control told of either change
(R137). The figures themselves are formed from the records wherever they are read. -/
def recomputeExposure (s : State) : State :=
  if windowExhausted s = s.ring.exhausted then s
  else
    let s' := sendNotice .exhaustion (s.setRing { s.ring with exhausted := windowExhausted s })
    if windowExhausted s then raiseFault .exhausted s' else s'

/-! ## TXINH -/

/-- A zone that calls for inhibit: CRITICAL with critical action INHIBIT (R166). -/
def zoneInhibits (s : State) (z : Zone) : Bool :=
  decide ((zoneGet s.heat.zones z).state = .level .critical) &&
    decide (zoneGet s.policy.workingCopy.criticalAction z = .inhibit)

/-- The cause set (R166). -/
def causesOf (s : State) : Causes :=
  { zoneCrit := zones.any (zoneInhibits s)
    exposure := s.ring.exhausted && s.policy.workingCopy.hardStop }

/-- The cause set is not empty. -/
def causesAny (c : Causes) : Bool := c.zoneCrit || c.exposure

/-- One recomputation of Inhibit Control: a changed cause set sets the level and raises INHIBIT; an unchanged one
does nothing (R167, R169). -/
def recomputeInhibit (s : State) : State :=
  if causesOf s = s.inhibit.causes then s
  else
    raiseChange (.inhibit (causesAny (causesOf s)) (causesOf s) s.timing.frameCounter)
      (s.setInhibit { causes := causesOf s, txinh := causesAny (causesOf s) })

/-! ## Duty phase -/

/-- The duty phase: ON while the counter is at or below the working copy's duty (R51). -/
def dutyPhase (s : State) : DutyPhase :=
  if s.heat.dutyCounter ≤ s.policy.workingCopy.duty then .on else .off

end Sys2Proof.Machine
end

