-- ==== Sys2Proof/Machine/Operands.lean ====
section
/-!
DEFINITION. Operand forms: frame numbers and slot positions (R15, R16), the carrier pairs of GRANT_REQ and
TX_REPORT (R67, R111), the carrier entry of STAGE_CARRIER (R25), and requests read from and written as payload
bytes (R189, R191).
-/

namespace Sys2Proof.Machine

/-! ## Frames and slot positions -/

/-- The frame offset of a 16-bit frame number from a counter: the difference of the low 16 bits, read as signed
(R15). -/
def frameOffset (f : Word16) (c : Word32) : Int := (f - c.setWidth 16).toInt

/-- The absolute frame a 16-bit frame number resolves to (R15). -/
def resolveFrame (f : Word16) (c : Word32) : Word32 := c + (f - c.setWidth 16).signExtend 32

/-- A slot position: absolute frame × slots per frame + slot index, modulo 2^32 (R16). -/
def slotPosition (frame : Word32) (n : SlotsPerFrame) (slot : Byte) : Word32 :=
  frame * BitVec.ofNat 32 (slotCount n) + slot.setWidth 32

/-- `p` is below `q` on the part's time line: q − p modulo 2^32, read as signed, is positive (R16). -/
def below (p q : Word32) : Bool := decide (0 < (q - p).toInt)

/-- `p` is above `q` on the part's time line: q − p modulo 2^32, read as signed, is negative (R16). At a difference of 2^31
each of two positions is above the other, and neither is below it. -/
def above (p q : Word32) : Bool := decide ((q - p).toInt < 0)

/-- `p` is at or below `q`: q − p modulo 2^32, read as signed, is not negative (R16). -/
def atOrBelow (p q : Word32) : Bool := decide (0 ≤ (q - p).toInt)

/-- A slot index is legal below the slots per frame in effect (R16). -/
def slotLegal (n : SlotsPerFrame) (slot : Byte) : Bool := decide (slot.toNat < slotCount n)

/-! ## Carrier pairs -/

/-- A pair as it is used: a carrier index and a value. -/
structure Pair where
  index : Fin 8
  value : Power
  deriving DecidableEq, Repr

/-- A conducted value from its byte: 0..127 are codes, 0xFF is OFF, the rest is neither (R188). -/
def powerOfByte (b : Byte) : Option Power :=
  if b.toNat ≤ 127 then some (.code b.toNat) else if b = 0xFF then some .off else none

/-- A conducted value as its byte (R188). -/
def powerByte : Power → Byte
  | .off => 0xFF
  | .code c => BitVec.ofNat 8 c

/-- A carrier index from its byte (R67, check 3). -/
def indexOfByte (b : Byte) : Option (Fin 8) := if h : b.toNat < 8 then some ⟨b.toNat, h⟩ else none

/-- A pair that names a carrier and a value. -/
def pairOf (r : RawPair) : Option Pair := do
  let index ← indexOfByte r.index
  let value ← powerOfByte r.value
  return { index, value }

/-- The pairs, or the list position, 1 for the first, of the first pair that fails check 3 of R67 or R111. -/
def readPairs : List RawPair → Nat → Except Nat (List Pair)
  | [], _ => .ok []
  | r :: rest, n =>
    match pairOf r with
    | none => .error n
    | some p =>
      match readPairs rest (n + 1) with
      | .error m => .error m
      | .ok ps => .ok (p :: ps)

/-- The first carrier index in list order that appears again later (R67, check 4). -/
def firstDuplicate : List Pair → Option (Fin 8)
  | [] => none
  | p :: rest => if rest.any fun q => q.index == p.index then some p.index else firstDuplicate rest

/-! ## The carrier entry of STAGE_CARRIER (R25) -/

/-- A yes-or-no byte. -/
def boolOfByte (b : Byte) : Option Bool := if b = 0 then some false else if b = 1 then some true else none

/-- A role byte (R188). -/
def roleOfByte (b : Byte) : Option Role := if b = 0 then some .anchor else if b = 1 then some .secondary else none

/-- A carrier zone byte; CASE is none of its values (R188). -/
def carrierZoneOfByte (b : Byte) : Option CarrierZone :=
  if b = 0 then some .pa else if b = 1 then some .antA else if b = 2 then some .antB else none

/-- A priority byte, 0..3. -/
def priorityOfByte (b : Byte) : Option (Fin 4) := if h : b.toNat < 4 then some ⟨b.toNat, h⟩ else none

/-- A conducted code byte that must be a code. -/
def codeOfByte (b : Byte) : Option Nat := if b.toNat ≤ 127 then some b.toNat else none

/-- A gain offset byte, −16..+15. -/
def gainOfByte (b : Byte) : Option Int := if -16 ≤ b.toInt ∧ b.toInt ≤ 15 then some b.toInt else none

/-- A field, or the number to report for it. -/
def fieldOr {α : Type} (n : Nat) : Option α → Except Nat α
  | some v => .ok v
  | none => .error n

/-- A carrier entry from its eight bytes, or the number of the first field outside its values (R25). -/
def readCarrierEntry (r : RawCarrier) : Except Nat CarrierEntry := do
  let enabled ← fieldOr 1 (boolOfByte r.enabled)
  let role ← fieldOr 2 (roleOfByte r.role)
  let anchor ← fieldOr 3 (indexOfByte r.anchor)
  let zone ← fieldOr 4 (carrierZoneOfByte r.zone)
  let priority ← fieldOr 5 (priorityOfByte r.priority)
  let floor ← fieldOr 6 (codeOfByte r.floor)
  let ceiling ← fieldOr 7 (codeOfByte r.ceiling)
  let gain ← fieldOr 8 (gainOfByte r.gain)
  return { enabled, role, anchor, zone, priority, floor, ceiling, gain }

/-! ## Requests (R189, R191) -/

/-- The 22 request kinds with their payload fields. -/
inductive Request where
  | align (frame : Word16)
  | grantReq (frame : Word16) (slot : Byte) (pairs : List RawPair)
  | txReport (frame : Word16) (slot : Byte) (pairs : List RawPair)
  | stageOpen
  | stageCarrier (index : Byte) (entry : RawCarrier)
  | stageParam (field zone : Byte) (value : Word32)
  | stageCommit
  | stageDrop
  | readCarrier (index : Byte)
  | readParam (source : Byte)
  | readZone (zone : Byte)
  | readState
  | exchange (slot : Byte)
  | reload
  | ringRead (start count : Byte)
  | ringRelease (half : Byte)
  | changesRead
  | changesAck (sources : Word16)
  | changesMask (mask : Word16) (mode : Byte)
  | traceSet (frame : Word16) (slot : Byte) (action : Byte)
  | traceRead
  | resetPart
  deriving DecidableEq, Repr

/-- The kind code of a request (R191). -/
def requestKind : Request → Byte
  | .align _ => 0x01
  | .grantReq _ _ _ => 0x02
  | .txReport _ _ _ => 0x03
  | .stageOpen => 0x04
  | .stageCarrier _ _ => 0x05
  | .stageParam _ _ _ => 0x06
  | .stageCommit => 0x07
  | .stageDrop => 0x08
  | .readCarrier _ => 0x09
  | .readParam _ => 0x0A
  | .readZone _ => 0x0B
  | .readState => 0x0C
  | .exchange _ => 0x0D
  | .reload => 0x0E
  | .ringRead _ _ => 0x0F
  | .ringRelease _ => 0x10
  | .changesRead => 0x11
  | .changesAck _ => 0x12
  | .changesMask _ _ => 0x13
  | .traceSet _ _ _ => 0x14
  | .traceRead => 0x15
  | .resetPart => 0x16

/-- The bytes of some pairs. -/
def pairBytes (pairs : List RawPair) : List Byte := pairs.flatMap fun p => [p.index, p.value]

/-- The payload of a request (R191). -/
def requestPayload : Request → List Byte
  | .align f => byte2 f.toNat
  | .grantReq f s ps => byte2 f.toNat ++ s :: pairBytes ps
  | .txReport f s ps => byte2 f.toNat ++ s :: pairBytes ps
  | .stageOpen => []
  | .stageCarrier i e => [i, e.enabled, e.role, e.anchor, e.zone, e.priority, e.floor, e.ceiling, e.gain]
  | .stageParam f z v => f :: z :: beBytes 4 v.toNat
  | .stageCommit => []
  | .stageDrop => []
  | .readCarrier i => [i]
  | .readParam i => [i]
  | .readZone z => [z]
  | .readState => []
  | .exchange k => [k]
  | .reload => []
  | .ringRead s c => [s, c]
  | .ringRelease h => [h]
  | .changesRead => []
  | .changesAck s => byte2 s.toNat
  | .changesMask m c => byte2 m.toNat ++ [c]
  | .traceSet f s a => byte2 f.toNat ++ [s, a]
  | .traceRead => []
  | .resetPart => []

/-- The number of pairs GRANT_REQ and TX_REPORT accept, 1..8; every other request has one fixed length (R191). -/
def lengthAccepted : Request → Bool
  | .grantReq _ _ ps => decide (1 ≤ ps.length ∧ ps.length ≤ 8)
  | .txReport _ _ ps => decide (1 ≤ ps.length ∧ ps.length ≤ 8)
  | _ => true

/-- Pairs read off the bytes of a payload; none where a byte is left over. -/
def pairsOfBytes : List Byte → Option (List RawPair)
  | [] => some []
  | [_] => none
  | i :: v :: rest =>
    match pairsOfBytes rest with
    | some ps => some ({ index := i, value := v } :: ps)
    | none => none

/-- The code is one of the 22 request kinds (R191). -/
def kindKnown (kind : Byte) : Bool := decide (1 ≤ kind.toNat ∧ kind.toNat ≤ 22)

/-- The request a kind and a payload spell, none where the payload has not the kind's length (R182, R191). -/
def requestOfBytes (kind : Byte) (payload : List Byte) : Option Request :=
  match kind.toNat, payload with
  | 1, [a, b] => some (.align (word16 a b))
  | 2, a :: b :: s :: rest => (pairsOfBytes rest).map (.grantReq (word16 a b) s)
  | 3, a :: b :: s :: rest => (pairsOfBytes rest).map (.txReport (word16 a b) s)
  | 4, [] => some .stageOpen
  | 5, [i, e1, e2, e3, e4, e5, e6, e7, e8] =>
    some (.stageCarrier i
      { enabled := e1, role := e2, anchor := e3, zone := e4, priority := e5, floor := e6, ceiling := e7, gain := e8 })
  | 6, [f, z, v3, v2, v1, v0] => some (.stageParam f z (word32 v3 v2 v1 v0))
  | 7, [] => some .stageCommit
  | 8, [] => some .stageDrop
  | 9, [i] => some (.readCarrier i)
  | 10, [i] => some (.readParam i)
  | 11, [z] => some (.readZone z)
  | 12, [] => some .readState
  | 13, [k] => some (.exchange k)
  | 14, [] => some .reload
  | 15, [s, c] => some (.ringRead s c)
  | 16, [h] => some (.ringRelease h)
  | 17, [] => some .changesRead
  | 18, [a, b] => some (.changesAck (word16 a b))
  | 19, [a, b, m] => some (.changesMask (word16 a b) m)
  | 20, [a, b, s, x] => some (.traceSet (word16 a b) s x)
  | 21, [] => some .traceRead
  | 22, [] => some .resetPart
  | _, _ => none

end Sys2Proof.Machine
end

