-- ==== Sys2Proof/Machine/Replies.lean ====
section
/-!
DEFINITION. Replies: the statuses (R190) and the byte layouts of every record and detail that crosses the link
(R188, R193, R194).
-/

namespace Sys2Proof.Machine

/-! ## Statuses -/

/-- The 18 statuses (R190). -/
inductive Status where
  | done
  | busy
  | badCheck
  | badLength
  | unknownKind
  | badField
  | noTiming
  | stale
  | ahead
  | duplicate
  | notOpen
  | alreadyOpen
  | inconsistent
  | stagingBusy
  | switchPending
  | late
  | unmatched
  | overshoot
  deriving DecidableEq, Repr

/-- The code of a status (R190). -/
def statusCode : Status → Byte
  | .done => 0x00
  | .busy => 0x01
  | .badCheck => 0x02
  | .badLength => 0x03
  | .unknownKind => 0x04
  | .badField => 0x05
  | .noTiming => 0x06
  | .stale => 0x07
  | .ahead => 0x08
  | .duplicate => 0x09
  | .notOpen => 0x0A
  | .alreadyOpen => 0x0B
  | .inconsistent => 0x0C
  | .stagingBusy => 0x0D
  | .switchPending => 0x0E
  | .late => 0x0F
  | .unmatched => 0x10
  | .overshoot => 0x11

/-- A reply before it is framed: its status, and the bytes after the status byte. -/
structure Reply where
  status : Status
  detail : List Byte
  deriving DecidableEq, Repr

/-- A DONE reply. -/
def done (detail : List Byte) : Reply := { status := .done, detail }

/-- A refusal with its detail. -/
def refuse (status : Status) (detail : List Byte) : Reply := { status, detail }

/-- A BAD_FIELD refusal that names the failing item (R190). -/
def badField (item : Nat) : Reply := refuse .badField (byte1 item)

/-- The payload of a reply: its status byte, then its detail (R190). -/
def replyPayload (r : Reply) : List Byte := statusCode r.status :: r.detail

/-! ## Codes (R188) -/

def timingStateCode : TimingState → Nat
  | .free => 0
  | .aligning => 1
  | .locked => 2
  | .coasting => 3

def levelCode : Level → Nat
  | .cool => 0
  | .warm => 1
  | .hot => 2
  | .critical => 3

def zoneStateCode : ZoneState → Nat
  | .level l => levelCode l
  | .faulted => 4

def supplyStateCode : SupplyState → Nat
  | .good => 0
  | .low => 1
  | .critical => 2

def stagingCode : Staging → Nat
  | .closed => 0
  | .opened _ => 1
  | .commitPending _ => 2

def recordStateCode : RecordState → Nat
  | .empty => 0
  | .presumed => 1
  | .opened => 2
  | .closed => 3

def roleCode : Role → Nat
  | .anchor => 0
  | .secondary => 1

def carrierZoneCode : CarrierZone → Nat
  | .pa => 0
  | .antA => 1
  | .antB => 2

def dutyPhaseCode : DutyPhase → Nat
  | .on => 0
  | .off => 1

def reasonCode : Reason → Nat
  | .none => 0
  | .inhibit => 1
  | .disabled => 2
  | .window => 3
  | .zone => 4
  | .duty => 5
  | .shed => 6
  | .anchor => 7
  | .supply => 8
  | .exposure => 9

def halfCode : Half → Nat
  | .lower => 0
  | .upper => 1

def clearModeCode : ClearMode → Nat
  | .onRead => 0
  | .onAck => 1

def storeStatusCode : StoreStatus → Nat
  | .good => 0
  | .isPartial => 1
  | .bad => 2

def timingEventCode : TimingEvent → Nat
  | .alignStarted => 0
  | .aligned => 1
  | .alignTimeout => 2
  | .lost => 3
  | .relocked => 4
  | .coastLimit => 5

/-- Bit 0 ZONE_CRIT, bit 1 EXPOSURE. -/
def causesCode (c : Causes) : Nat := bitSet [c.zoneCrit, c.exposure]

/-- The bit of a fault class in an Exit Record's cause set. -/
def faultBit : FaultClass → Nat
  | .sensor => 0
  | .critical => 1
  | .exhausted => 2
  | .overshoot => 3
  | .timing => 4

/-- A byte that is 0xFF for none. -/
def orFF {α : Type} (code : α → Nat) : Option α → List Byte
  | some a => byte1 (code a)
  | none => [0xFF]

/-- A temperature code in two bytes, none as 0x0000. -/
def temperatureBytes (t : Option Nat) : List Byte := byte2 (t.getD 0)

/-! ## Records (R193) -/

/-- A carrier entry, 8 bytes. -/
def carrierBytes (e : CarrierEntry) : List Byte :=
  [boolByte e.enabled] ++ byte1 (roleCode e.role) ++ byte1 e.anchor.val ++ byte1 (carrierZoneCode e.zone) ++
    byte1 e.priority.val ++ byte1 e.floor ++ byte1 e.ceiling ++ signedBytes 1 e.gain

/-- A zone record, 7 bytes. -/
def zoneRecordBytes (r : ZoneRecord) : List Byte :=
  byte1 (zoneStateCode r.state) ++ byte2 r.lastRaw.toNat ++ temperatureBytes r.temperature ++
    orFF levelCode r.candidate ++ byte1 r.agreeCount

/-- An interval record, 23 bytes. -/
def intervalRecordBytes (r : IntervalRecord) : List Byte :=
  byte1 (recordStateCode r.state) ++ byte4 r.number ++ byte4 r.energy ++ byte4 r.anchorEnergy ++ byte2 r.grants ++
    byte2 r.throttled ++ byte1 r.unreported ++ byte1 r.corrected ++ byte1 r.unmatched ++ orFF id r.peak ++
    byte2 r.signature.toNat

/-- An Exit Record, 8 bytes. -/
def exitRecordBytes (r : ExitRecord) : List Byte :=
  byte1 r.causes.toNat ++ byte1 r.fromIndex.val ++ byte1 r.toIndex.val ++ byte4 r.frameCount.toNat ++
    [boolByte r.absorbed]

/-- One carrier group of a Decision Snapshot, 13 bytes. -/
def snapshotCarrierBytes (c : SnapshotCarrier) : List Byte :=
  byte1 c.index.val ++ [powerByte c.requested] ++ c.afterStages.map powerByte ++ [powerByte c.granted] ++
    byte1 (reasonCode c.reason)

/-- A Decision Snapshot, 25 + 13n bytes. -/
def snapshotBytes (p : Snapshot) : List Byte :=
  byte4 p.position.toNat ++ byte1 p.carriers.length ++ p.carriers.flatMap snapshotCarrierBytes ++
    (zoneList p.zoneStates).flatMap (fun z => byte1 (zoneStateCode z)) ++ byte1 (supplyStateCode p.supply) ++
    byte1 (dutyPhaseCode p.phase) ++ byte4 p.windowSum ++ byte4 p.budget ++ byte4 p.headroom ++
    byte1 p.utilisation ++ byte1 p.activeIndex.val

/-- The pending switch in the state summary: its code, then its target or 0xFF. -/
def pendingSwitchBytes : Option Switch → List Byte
  | none => [0, 0xFF]
  | some (.exchange k) => 1 :: byte1 k.val
  | some .reload => [2, 0xFF]

/-- The state summary, 42 bytes in the order of R176. -/
def summaryBytes (s : State) : List Byte :=
  byte1 (timingStateCode s.timing.state) ++ byte4 s.timing.frameCounter.toNat ++ byte1 s.policy.activeIndex.val ++
    pendingSwitchBytes s.policy.pendingSwitch ++ byte1 (stagingCode s.carriers.staging) ++
    (zoneList s.heat.zones).flatMap (fun z => byte1 (zoneStateCode z.state)) ++
    byte1 (supplyStateCode s.supply.state) ++ byte1 s.heat.dutyCounter ++ byte1 (dutyPhaseCode (dutyPhase s)) ++
    [boolByte s.inhibit.txinh] ++ byte1 (causesCode s.inhibit.causes) ++ byte4 (windowSum s) ++ byte4 (budget s) ++
    byte1 (utilisation s) ++ byte1 s.openGrants.entries.length ++ byte4 s.openGrants.expiryMark.toNat ++
    byte1 (storeStatusCode s.policy.storeStatus) ++ [boolByte s.policy.exitRecord.isSome] ++
    (match s.policy.exitRecord with
      | some r => exitRecordBytes r
      | none => List.replicate 8 0)

/-! ## Change details (R194) -/

/-- The fields of a change's detail. -/
def changeFields : Change → List Byte
  | .zone _ st t => byte1 (zoneStateCode st) ++ temperatureBytes t
  | .supply new replaced f => byte1 (supplyStateCode new) ++ byte1 (supplyStateCode replaced) ++ byte4 f.toNat
  | .timing e f => byte1 (timingEventCode e) ++ byte4 f.toNat
  | .configApplied f => byte1 0 ++ byte4 f.toNat
  | .configDropped f => byte1 1 ++ byte4 f.toNat
  | .switchApplied k i f => byte1 0 ++ byte1 (match k with | .exchange => 0 | .reload => 1) ++ byte1 i.val ++ byte4 f.toNat
  | .switchCancelled (.exchange k) => byte1 1 ++ byte1 0 ++ byte1 k.val ++ byte4 0
  | .switchCancelled .reload => byte1 1 ++ byte1 1 ++ [0xFF] ++ byte4 0
  | .exit r => exitRecordBytes r
  | .inhibit level causes f => [boolByte level] ++ byte1 (causesCode causes) ++ byte4 f.toNat
  | .traceCaptured p => byte1 0 ++ byte4 p.toNat
  | .traceMissed p => byte1 1 ++ byte4 p.toNat
  | .ringHalf h n => byte1 (halfCode h) ++ byte4 n
  | .ringOverrun h n => byte1 (halfCode h) ++ byte4 n
  | .overshoot p => byte4 p.toNat
  | .store status slots => byte1 (storeStatusCode status) ++ byte1 slots.toNat

/-- A place as the 8 bytes of CHANGES_READ: the detail's fields from the first byte, 0 after them, all 0 when
clear. -/
def placeBytes (place : Option Change) : List Byte :=
  let fields := match place with
    | some c => changeFields c
    | none => []
  fields ++ List.replicate (8 - fields.length) 0

end Sys2Proof.Machine
end

