-- ==== Sys2Proof/Machine/Changes.lean ====
section
/-!
DEFINITION. Change Reporter (chapter 9): CHANGES_READ, CHANGES_ACK, CHANGES_MASK and READ_STATE (R173 to R176), and
the reporter's soft-reset values (R171).
-/

namespace Sys2Proof.Machine

/-- The reporter's part of a CHANGES_READ reply: mask, clear mode, pending set, and the 15 places (R191). -/
def changesBytes (c : ChangeReporter) : List Byte :=
  byte2 c.mask.toNat ++ byte1 (clearModeCode c.clearMode) ++ byte2 (pendingSet c.places).toNat ++
    c.places.toList.flatMap placeBytes

/-- CHANGES_READ: in ON_READ every pending place is cleared in the same event (R173). -/
def takeChangesRead (s : State) : State × Reply :=
  match s.changes.clearMode with
  | .onRead => (s.setChanges (withPlaces s.changes (keepPlaces 0 s.changes.places)), done (changesBytes s.changes))
  | .onAck => (s, done (changesBytes s.changes))

/-- CHANGES_ACK: the named sources' places cleared; positions beyond the 15 sources are not read (R174). -/
def takeChangesAck (sources : Word16) (s : State) : State × Reply :=
  (s.setChanges (withPlaces s.changes (keepPlaces (~~~ sources.setWidth 15) s.changes.places)), done [])

/-- A clear mode from its byte (R188). -/
def clearModeOfByte (b : Byte) : Option ClearMode := if b = 0 then some .onRead else if b = 1 then some .onAck else none

/-- CHANGES_MASK: mask and clear mode replaced together, places of sources now disabled cleared (R175). -/
def takeChangesMask (mask : Word16) (mode : Byte) (s : State) : State × Reply :=
  match clearModeOfByte mode with
  | none => (s, badField 0)
  | some m =>
    (s.setChanges (withPlaces { s.changes with mask := mask.setWidth 15, clearMode := m }
      (keepPlaces (mask.setWidth 15) s.changes.places)), done [])

/-- READ_STATE (R176). -/
def takeReadState (s : State) : State × Reply := (s, done (summaryBytes s))

/-- Every place clear, ALERT_N released, and the mask and clear mode as the power-on load took them (R171). -/
def freshChanges (l : LoadedDefaults) : ChangeReporter :=
  { places := Vector.replicate 15 none, mask := l.mask, clearMode := l.clearMode, alert := false }

end Sys2Proof.Machine
end

