-- ==== Sys2Proof/Machine/Link.lean ====
section
/-!
DEFINITION. Link Port (chapter 10): the transmit arbiter (R184), replies joining their queues (R181, R182), reception
of bytes (R179, R180) and the judging of a complete frame (R181).
-/

namespace Sys2Proof.Machine

/-! ## Frames out -/

/-- A complete frame, its check formed (R177, R178). -/
def txFrame (kind tag : Byte) (payload : List Byte) : TxFrame :=
  { kind, tag, payload, check := frameCheck kind tag payload }

/-- A RESET_PART DONE sent: every port reply waits behind one fewer (R184). -/
def behindOneFewer (qs : List PortReply) : List PortReply := qs.map fun q => { q with behind := q.behind - 1 }

/-- The port reply that takes the line now: the oldest, unless it waits behind a RESET_PART DONE (R184). -/
def portChoice (l : LinkPort) : Option (PortReply × List PortReply) :=
  match l.portQueue with
  | [] => none
  | q :: rest => if q.behind = 0 then some (q, rest) else none

/-- The oldest decoder reply sent (R184). -/
def sendDecoderReply (l : LinkPort) : LinkPort :=
  match l.replyQueue with
  | [] => l
  | r :: rest =>
    { l with
      replyQueue := rest
      portQueue := if r.isReset then behindOneFewer l.portQueue else l.portQueue
      transmitter := some r.frame }

/-- The arbiter's choice: while RUNNING with an idle transmitter, the oldest port reply that does not wait behind a
RESET_PART DONE, or else the oldest decoder reply (R184, R185; made as soon as a reply joins, assumption 17). -/
def arbitrate (l : LinkPort) : LinkPort :=
  if l.decoder = .running ∧ l.transmitter = none then
    match portChoice l with
    | some (q, rest) => { l with portQueue := rest, transmitter := some q.frame }
    | none => sendDecoderReply l
  else l

/-- RESET_PART DONEs that wait in the reply queue. -/
def waitingResets (l : LinkPort) : Nat := (l.replyQueue.filter DecoderReply.isReset).length

/-- A port reply joins its queue, unless 8 wait there already (R181); then the arbiter chooses. -/
def addPortReply (kind tag : Byte) (r : Reply) (l : LinkPort) : LinkPort :=
  if l.portQueue.length < portQueueSize then
    arbitrate { l with
      portQueue := l.portQueue ++ [{ frame := txFrame kind tag (replyPayload r), behind := waitingResets l }] }
  else l

/-- A decoder reply joins the reply queue; then the arbiter chooses (R182, R184). -/
def addReply (kind tag : Byte) (isReset : Bool) (r : Reply) (l : LinkPort) : LinkPort :=
  arbitrate { l with
    replyQueue := l.replyQueue ++ [{ frame := txFrame (kind + 0x80) tag (replyPayload r), isReset }] }

/-! ## Frames in -/

/-- A good frame: it joins the receive queue, or draws BUSY where the queue is full (R181, steps 2 and 3). -/
def enqueueFrame (f : RxFrame) (l : LinkPort) : LinkPort :=
  if l.receiveQueue.length < queueSize then { l with receiveQueue := l.receiveQueue ++ [f] }
  else addPortReply (f.kind + 0x80) f.tag (refuse .busy []) l

/-- A complete frame judged: BAD_CHECK where its check fails (R181). -/
def judgeFrame (f : RxFrame) (check : Word16) (l : LinkPort) : LinkPort :=
  if frameCheck f.kind f.tag f.payload = check then enqueueFrame f l
  else addPortReply 0xFE f.tag (refuse .badCheck [f.kind]) l

/-- The bytes since the sync byte as they stand after one more byte: the receive state they leave, with a complete
frame judged (R179). -/
def collect (t : Moment) (bytes : List Byte) (l : LinkPort) : LinkPort :=
  match bytes with
  | kind :: tag :: len :: rest =>
    if 250 < len.toNat then { l with receive := .hunting }
    else if rest.length < len.toNat + 2 then { l with receive := .receiving bytes (t + byteGapTime) }
    else
      judgeFrame { kind, tag, payload := rest.take len.toNat }
        (word16 (rest.getD len.toNat 0) (rest.getD (len.toNat + 1) 0)) { l with receive := .hunting }
  | _ => { l with receive := .receiving bytes (t + byteGapTime) }

/-- The sync byte (R177). -/
def syncByte : Byte := 0xC3

/-- One byte taken on RXD (R179). -/
def takeByte (t : Moment) (l : LinkPort) (b : RxByte) : LinkPort :=
  match l.receive with
  | .hunting =>
    if b.stopBit && b.value == syncByte then { l with receive := .receiving [] (t + byteGapTime) } else l
  | .receiving bytes _ => if b.stopBit then collect t (bytes ++ [b.value]) l else { l with receive := .hunting }

/-- The byte-gap timer's expiry: the partial frame is discarded (R180). -/
def dropPartial (l : LinkPort) : LinkPort := { l with receive := .hunting }

/-- The transmitter finishes a frame, and the arbiter chooses (R184). -/
def finishSending (l : LinkPort) : LinkPort :=
  if l.transmitter = none then l else arbitrate { l with transmitter := none }

end Sys2Proof.Machine
end

