-- ==== Sys2Proof/Machine/Ring.lean ====
section
/-!
DEFINITION. Averaging Ring (chapter 7): charges, corrections and counts (R131, R132), the signature (R134), interval
counting and close (R128, R141, R142), the power-on fill (R126), RING_READ and RING_RELEASE (R143, R144).
-/

namespace Sys2Proof.Machine

/-! ## Energy (R72, R90) -/

/-- The radiated code of a conducted code under a gain offset, clamped to 0..159 (R72). -/
def radiatedCode (gain : Int) (c : Nat) : Nat := (max 0 (min 159 ((c : Int) + gain))).toNat

/-- The energy of one carrier in one slot of `d` microseconds, rounded up to a whole microjoule (R90). -/
def carrierEnergy (gain : Int) (d : Nat) : Power → Nat
  | .off => 0
  | .code c => (tablePower (radiatedCode gain c) * d + 999999) / 1000000

/-! ## Signature (R134) -/

/-- The bytes of one decision: slot position, then index and granted value of each carrier. -/
def decisionBytes (position : Word32) (carriers : List GrantedCarrier) : List Byte :=
  beBytes 4 position.toNat ++ carriers.flatMap fun c => byte1 c.index.val ++ [powerByte c.granted]

/-! ## Charges and counts -/

/-- A decision charged to a record (R91). -/
def chargeRecord (charge anchorCharge : Nat) (throttled : Bool) (peak : Option Nat) (bytes : List Byte)
    (r : IntervalRecord) : IntervalRecord :=
  { r with
    energy := energyAdd r.energy charge
    anchorEnergy := energyAdd r.anchorEnergy anchorCharge
    grants := countUp 65535 r.grants
    throttled := if throttled then countUp 65535 r.throttled else r.throttled
    peak := match peak, r.peak with
      | none, p => p
      | some c, none => some c
      | some c, some p => some (max p c)
    signature := crcFold r.signature bytes }

/-- An entry's charge and anchor charge taken out of a record (R103). -/
def withdrawRecord (e : OpenGrant) (r : IntervalRecord) : IntervalRecord :=
  { r with energy := r.energy - e.charge, anchorEnergy := r.anchorEnergy - e.anchorCharge }

/-- A record corrected from an entry's charges to a report's energies (R116). -/
def correctRecord (e : OpenGrant) (actual actualAnchor : Nat) (r : IntervalRecord) : IntervalRecord :=
  { r with
    energy := energyCorrect r.energy e.charge actual
    anchorEnergy := energyCorrect r.anchorEnergy e.anchorCharge actualAnchor
    corrected := countUp 255 r.corrected }

/-- An unmatched report charged to a record (R118). -/
def unmatchedRecord (actual actualAnchor : Nat) (r : IntervalRecord) : IntervalRecord :=
  { r with
    energy := energyAdd r.energy actual
    anchorEnergy := energyAdd r.anchorEnergy actualAnchor
    unmatched := countUp 255 r.unmatched }

/-- A close as granted counted in a record (R102). -/
def unreportedRecord (r : IntervalRecord) : IntervalRecord := { r with unreported := countUp 255 r.unreported }

/-! ## Intervals -/

/-- Interval counting at a frame event (R128). -/
def countInterval (s : State) : State :=
  s.setRing { s.ring with framesInInterval := s.ring.framesInInterval + 1 }

/-- The frames in interval have reached the latched interval length (R128). -/
def closeDue (s : State) : Bool := decide (s.ring.latchedLength ≤ s.ring.framesInInterval)

/-- The interval number after `n`: 1 follows 4,294,967,295 (R128). -/
def numberAfter (n : Nat) : Nat := if n = max32 then 1 else n + 1

/-- The position after `p` in ring order. -/
def positionAfter (p : Fin 128) : Fin 128 := p + 1

/-- The record the writer opens (R128). -/
def newRecord (n : Nat) : IntervalRecord := { emptyRecord with state := .opened, number := n }

/-- The halves at a close: at new position 64 the writer enters the upper half and completes the lower, at 0 the
other way (R141, R142). `closed` is the number of the interval just closed, `opening` that of the new record. -/
def halvesAt (p : Fin 128) (closed opening : Nat) (s : State) : State :=
  if p = 64 then
    let s := if s.ring.upperHeld then raiseChange (.ringOverrun .upper opening) s else s
    raiseChange (.ringHalf .lower closed) (s.setRing { s.ring with upperHeld := false, lowerHeld := true })
  else if p = 0 then
    let s := if s.ring.lowerHeld then raiseChange (.ringOverrun .lower opening) s else s
    raiseChange (.ringHalf .upper closed) (s.setRing { s.ring with lowerHeld := false, upperHeld := true })
  else s

/-- The OPEN record closed, the writer moved on and a new record opened, T latched afresh (R128, steps 1, 2, 4
and 5). -/
def turnInterval (s : State) : State :=
  let r := s.ring
  let p := positionAfter r.writePosition
  let closedRecords := r.records.set r.writePosition { r.records[r.writePosition] with state := .closed }
  s.setRing { r with
    records := closedRecords.set p (newRecord r.nextNumber)
    writePosition := p
    nextNumber := numberAfter r.nextNumber
    framesInInterval := 0
    latchedLength := s.policy.workingCopy.interval }

/-- One interval close, as one operation of the ring (R128). -/
def closeInterval (s : State) : State :=
  recomputeExposure
    (turnInterval (halvesAt (positionAfter s.ring.writePosition) (openRecord s).number s.ring.nextNumber s))

/-! ## Power-on fill (R126) -/

/-- The energy of a presumed record, rounded down (R126). -/
def presumedEnergy (presumption : Nat) (c : Context) : Nat := presumption * c.averageLimit * c.interval * 10 / 16

/-- The record the fill puts at a position: OPEN at 0, PRESUMED at the W before it, EMPTY elsewhere. -/
def fillRecord (presumption : Nat) (c : Context) (p : Nat) : IntervalRecord :=
  if p = 0 then newRecord 1
  else if 128 ≤ p + c.window then { emptyRecord with state := .presumed, energy := presumedEnergy presumption c }
  else emptyRecord

/-- The fresh ring; its exhausted item is set from its own figures, with no event raised. -/
def fillRing (presumption : Nat) (s : State) : State :=
  let c := s.policy.workingCopy
  let s := s.setRing
    { records := Vector.ofFn fun p => fillRecord presumption c p.val
      writePosition := 0, framesInInterval := 0, latchedLength := c.interval, nextNumber := 2
      lowerHeld := false, upperHeld := false, exhausted := false }
  s.setRing { s.ring with exhausted := windowExhausted s }

/-! ## Requests -/

/-- RING_RELEASE (R143). -/
def takeRingRelease (half : Byte) (s : State) : State × Reply :=
  if half = 0 then (s.setRing { s.ring with lowerHeld := false }, done [])
  else if half = 1 then (s.setRing { s.ring with upperHeld := false }, done [])
  else (s, badField 0)

/-- One record of a RING_READ: its position and its fields. -/
def ringReadRecord (s : State) (p : Nat) : List Byte :=
  let q : Fin 128 := Fin.ofNat 128 p
  byte1 q.val ++ intervalRecordBytes (recordAt s q)

/-- RING_READ (R144). -/
def takeRingRead (start count : Byte) (s : State) : State × Reply :=
  if 127 < start.toNat then (s, badField 0)
  else if count.toNat = 0 ∨ 8 < count.toNat then (s, badField 1)
  else
    (s, done (byte1 s.ring.writePosition.val ++ byte2 s.ring.framesInInterval ++ byte2 s.ring.latchedLength ++
      [boolByte s.ring.lowerHeld, boolByte s.ring.upperHeld, boolByte s.ring.exhausted] ++
      (List.range count.toNat).flatMap fun k => ringReadRecord s (start.toNat + k)))

end Sys2Proof.Machine
end

