-- ==== Sys2Proof/Machine/OpenGrants.lean ====
section
/-!
DEFINITION. Open Grant List (chapter 6): closing as granted (R101, R102), withdrawal, insertion and eviction (R103
to R105), the expiry check and the lag bound (R106, R107), mass close (R108), and TX_REPORT (R111 to R120).
-/

namespace Sys2Proof.Machine

/-! ## Closing as granted -/

/-- The expiry mark offered a slot position: raised to it where it is above the mark (R16, R101). -/
def offerMark (p : Word32) (s : State) : State :=
  if above p s.openGrants.expiryMark then s.setOpenGrants { s.openGrants with expiryMark := p } else s

/-- The entries of the list replaced. -/
def setEntries (es : List OpenGrant) (s : State) : State := s.setOpenGrants { s.openGrants with entries := es }

/-- An entry that has left the list settled as granted: its record's unreported count rises, and the mark is offered
its position (R102, steps 2 to 4). -/
def settleAsGranted (s : State) (e : OpenGrant) : State := offerMark e.position (mapNamedRecord e unreportedRecord s)

/-- Every entry that meets `p` closed as granted, in ascending slot position (R102). -/
def closeEntries (p : OpenGrant → Bool) (s : State) : State :=
  (s.openGrants.entries.filter p).foldl settleAsGranted
    (setEntries (s.openGrants.entries.filter fun e => !p e) s)

/-- A mass close (R108). -/
def massClose (s : State) : State := closeEntries (fun _ => true) s

/-- An entry's absolute frame plus H is at or below the counter (R106). -/
def expired (s : State) (e : OpenGrant) : Bool :=
  atOrBelow (e.frame + BitVec.ofNat 32 s.policy.workingCopy.horizon) s.timing.frameCounter

/-- The lag bound: (C − 65,536) × slots per frame, modulo 2^32 (R107). -/
def lagBound (s : State) : Word32 :=
  (s.timing.frameCounter - 65536) * BitVec.ofNat 32 (slotCount s.carriers.slotsPerFrame)

/-- A mark below the lag bound lifted to it (R107). -/
def liftMark (s : State) : State :=
  if below s.openGrants.expiryMark (lagBound s) then
    s.setOpenGrants { s.openGrants with expiryMark := lagBound s }
  else s

/-- The expiry check of a frame event, and the lag-bound lift after it (R106, R107). -/
def expiryCheck (s : State) : State := liftMark (closeEntries (expired s) s)

/-! ## Joining the list -/

/-- The entry with a slot position (R103, R113). -/
def findEntry (p : Word32) (s : State) : Option OpenGrant := s.openGrants.entries.find? fun e => e.position == p

/-- The entries without the one at a slot position. -/
def withoutEntry (p : Word32) (s : State) : State :=
  setEntries (s.openGrants.entries.filter fun e => e.position != p) s

/-- An entry put at its place in slot-position order (R104). -/
def insertByPosition (e : OpenGrant) : List OpenGrant → List OpenGrant
  | [] => [e]
  | x :: rest => if below e.position x.position then e :: x :: rest else x :: insertByPosition e rest

/-- Eviction: a full list closes its lowest entry as granted (R105). -/
def evictIfFull (s : State) : State :=
  if s.openGrants.entries.length < openListSize then s
  else
    match s.openGrants.entries with
    | [] => s
    | e :: rest => settleAsGranted (setEntries rest s) e

/-- A new entry joins the list (R104). -/
def insertEntry (e : OpenGrant) (s : State) : State :=
  let s := evictIfFull s
  setEntries (insertByPosition e s.openGrants.entries) s

/-! ## Checks shared by GRANT_REQ and TX_REPORT -/

/-- The part holds timing: LOCKED or COASTING (section 1.1). -/
def holdsTiming (s : State) : Bool :=
  decide (s.timing.state = .locked) || decide (s.timing.state = .coasting)

/-- The NO_TIMING refusal, with the timing state as its detail (R190). -/
def noTiming (s : State) : Reply := refuse .noTiming (byte1 (timingStateCode s.timing.state))

/-- Checks 1 to 4 of R67 and R111: the pairs, or the refusal of the first check that fails. -/
def checkPairs (slot : Byte) (raw : List RawPair) (s : State) : Except Reply (List Pair) :=
  if holdsTiming s then
    if slotLegal s.carriers.slotsPerFrame slot then
      match readPairs raw 1 with
      | .error n => .error (badField n)
      | .ok pairs =>
        match firstDuplicate pairs with
        | some i => .error (refuse .duplicate (byte1 i.val))
        | none => .ok pairs
    else .error (badField 0)
  else .error (noTiming s)

/-! ## Transmit reports -/

/-- The actual value a report gives for a carrier. -/
def reportedValue (pairs : List Pair) (i : Fin 8) : Option Power := (pairs.find? fun p => p.index == i).map Pair.value

/-- A report's pairs whose carriers an entry does not list. -/
def unlistedPairs (e : OpenGrant) (pairs : List Pair) : List Pair :=
  pairs.filter fun p => !e.carriers.any fun c => c.index == p.index

/-- A carrier as a report counts it: the value counted, and the role that decides whether it is an anchor (R114). -/
structure CountedCarrier where
  index : Fin 8
  value : Power
  role : Role
  deriving DecidableEq, Repr

/-- Carriers counted at their reported values and live roles (R114). -/
def countReported (s : State) (pairs : List Pair) : List CountedCarrier :=
  pairs.map fun p => { index := p.index, value := p.value, role := (liveEntry s p.index).role }

/-- The carriers a hit counts: those of the entry, and those the report alone names (R114). -/
def countHit (s : State) (e : OpenGrant) (pairs : List Pair) : List CountedCarrier :=
  (e.carriers.map fun c =>
    { index := c.index, value := (reportedValue pairs c.index).getD c.granted, role := c.role }) ++
    countReported s (unlistedPairs e pairs)

/-- The energy of one counted carrier, with its live gain offset and the live slot duration (R114). -/
def countedEnergy (s : State) (c : CountedCarrier) : Nat :=
  carrierEnergy (liveEntry s c.index).gain (slotDuration s.carriers.slotsPerFrame) c.value

/-- The actual energy (R114). -/
def actualEnergy (s : State) (cs : List CountedCarrier) : Nat := (cs.map (countedEnergy s)).sum

/-- The actual anchor energy (R114). -/
def actualAnchorEnergy (s : State) (cs : List CountedCarrier) : Nat :=
  actualEnergy s (cs.filter fun c => c.role == .anchor)

/-- Some pair reports a code. -/
def anyCode (pairs : List Pair) : Bool := pairs.any fun p => isCode p.value

/-- A report on an entry carries an overshoot (R115). -/
def hitOvershoots (e : OpenGrant) (pairs : List Pair) : Bool :=
  (e.carriers.any fun c =>
    match reportedValue pairs c.index with
    | some v => powerAbove v c.granted
    | none => false) ||
    anyCode (unlistedPairs e pairs)

/-- The effects of an overshoot, where the report carries one (R119). -/
def noteOvershoot (overshoots : Bool) (p : Word32) (s : State) : State :=
  if overshoots then raiseFault .overshoot (raiseChange (.overshoot p) s) else s

/-- A hit: the record corrected, the entry removed, the figures recomputed (R116). -/
def settleHit (e : OpenGrant) (actual actualAnchor : Nat) (s : State) : State :=
  recomputeExposure (withoutEntry e.position (mapNamedRecord e (correctRecord e actual actualAnchor) s))

/-- An unmatched report charged to the OPEN record, the figures recomputed (R118). -/
def chargeUnmatched (actual actualAnchor : Nat) (s : State) : State :=
  recomputeExposure (mapRecord s.ring.writePosition (unmatchedRecord actual actualAnchor) s)

/-- A report that passes R111, at its slot position (R112, R113). -/
def matchReport (p : Word32) (pairs : List Pair) (s : State) : State × Reply :=
  match findEntry p s with
  | some e =>
    let counted := countHit s e pairs
    let actual := actualEnergy s counted
    let overshoots := hitOvershoots e pairs
    (noteOvershoot overshoots p (settleHit e actual (actualAnchorEnergy s counted) s),
      { status := if overshoots then .overshoot else .done
        detail := byte4 p.toNat ++ byte4 e.charge ++ byte4 actual })
  | none =>
    if atOrBelow p s.openGrants.expiryMark then
      (s, refuse .late (byte4 p.toNat ++ byte4 s.openGrants.expiryMark.toNat))
    else
      let counted := countReported s pairs
      let actual := actualEnergy s counted
      (noteOvershoot (anyCode pairs) p (chargeUnmatched actual (actualAnchorEnergy s counted) s),
        refuse .unmatched (byte4 p.toNat ++ byte4 actual))

/-- TX_REPORT (R111 to R120). -/
def takeTxReport (frame : Word16) (slot : Byte) (raw : List RawPair) (s : State) : State × Reply :=
  match checkPairs slot raw s with
  | .error r => (s, r)
  | .ok pairs =>
    matchReport (slotPosition (resolveFrame frame s.timing.frameCounter) s.carriers.slotsPerFrame slot) pairs s

end Sys2Proof.Machine
end

