-- ==== Sys2Proof/Machine/Policy.lean ====
section
/-!
DEFINITION. Policy Store (chapter 8): replacement of the working copy (R149, R54), switches (R151 to R154), policy
fault events and the fallback exit (R155 to R159), READ_PARAM (R150).
-/

namespace Sys2Proof.Machine

/-! ## Replacement of the working copy -/

/-- A changed cycle length applied at once: a counter above it is lowered to it (R54). -/
def clampDuty (s : State) : State :=
  if s.policy.workingCopy.cycleLength < s.heat.dutyCounter then
    s.setHeat { s.heat with dutyCounter := s.policy.workingCopy.cycleLength }
  else s

/-- The working copy replaced and handed to every block (R149): the Duty Cycler takes its parameters (R54), the ring
recomputes (R139), and Inhibit Control is sent its notice (R167). -/
def replaceWorkingCopy (c : Context) (s : State) : State :=
  sendNotice .workingCopy (recomputeExposure (clampDuty (s.setPolicy { s.policy with workingCopy := c })))

/-- The slots with the active one holding the working copy. -/
def savedSlots (p : PolicyStore) : Vector Context 6 := p.slots.set p.activeIndex p.workingCopy

/-- The working copy saved into the active slot (R149). -/
def saveWorkingCopy (s : State) : State := s.setPolicy { s.policy with slots := savedSlots s.policy }

/-- Slot `k` loaded as the working copy, the active index becoming k. -/
def loadSlot (k : Fin 6) (s : State) : State :=
  replaceWorkingCopy s.policy.slots[k] (s.setPolicy { s.policy with activeIndex := k })

/-! ## Switches -/

/-- The kind of a switch. -/
def switchKind : Switch → SwitchKind
  | .exchange _ => .exchange
  | .reload => .reload

/-- A switch's slots and working copy (R153): EXCHANGE saves the active slot and loads slot k; RELOAD rewrites every
slot from the image and loads the active slot again. -/
def performSwitch (w : Switch) (s : State) : State :=
  match w with
  | .exchange k => loadSlot k (saveWorkingCopy s)
  | .reload => loadSlot s.policy.activeIndex (s.setPolicy { s.policy with slots := loadedSlots s.image.toList })

/-- A pending switch applied, with SWITCH (APPLIED) (R153). -/
def applySwitch (w : Switch) (s : State) : State :=
  let s := performSwitch w (s.setPolicy { s.policy with pendingSwitch := none })
  raiseChange (.switchApplied (switchKind w) s.policy.activeIndex s.timing.frameCounter) s

/-- A pending switch cancelled by an exit, with SWITCH (CANCELLED) (R154). -/
def cancelSwitch (s : State) : State :=
  match s.policy.pendingSwitch with
  | none => s
  | some w =>
    raiseChange (.switchCancelled w)
      ((s.setPolicy { s.policy with pendingSwitch := none }).setWork { s.work with switchDue := false })

/-! ## The exit hold -/

/-- The exit hold cleared (R158). -/
def clearHold (s : State) : State :=
  (s.setPolicy { s.policy with exitHold := false }).setWork { s.work with holdClearDue := false }

/-! ## Policy fault events -/

/-- The working copy's exit flag for a class (R155). -/
def exitFlag (c : Context) : FaultClass → Bool
  | .sensor => c.exitSensor
  | .critical => c.exitCritical
  | .exhausted => c.exitExhausted
  | .overshoot => c.exitOvershoot
  | .timing => c.exitTiming

/-- The cause set of one class (R159). -/
def causeBit (c : FaultClass) : BitVec 5 := 1#5 <<< faultBit c

/-- A staging set discarded, with CONFIG (DROPPED), where one exists (R33). -/
def dropStagingOnExit (s : State) : State :=
  match s.carriers.staging with
  | .closed => s
  | .opened _ | .commitPending _ =>
    raiseChange (.configDropped s.timing.frameCounter)
      ((s.setCarriers { s.carriers with staging := .closed }).setWork { s.work with applyDue := false })

/-- The Exit Record written, and EXIT raised with it. -/
def writeExit (r : ExitRecord) (s : State) : State :=
  raiseChange (.exit r) (s.setPolicy { s.policy with exitRecord := some r })

/-- A fallback exit on a class, to slot `f` (R156). -/
def fallbackExit (c : FaultClass) (f : Fin 6) (s : State) : State :=
  let old := s.policy.activeIndex
  let s := dropStagingOnExit (cancelSwitch (loadSlot f (saveWorkingCopy s)))
  let s := s.setPolicy { s.policy with exitHold := true }
  writeExit
    { causes := causeBit c, fromIndex := old, toIndex := f, frameCount := s.timing.frameCounter, absorbed := false } s

/-- An absorbed exit (R157). -/
def absorbedExit (c : FaultClass) (s : State) : State :=
  writeExit
    { causes := causeBit c, fromIndex := s.policy.activeIndex, toIndex := s.policy.activeIndex,
      frameCount := s.timing.frameCounter, absorbed := true } s

/-- A fault event merged into the current exit (R158). -/
def mergeExit (c : FaultClass) (s : State) : State :=
  match s.policy.exitRecord with
  | none => s
  | some r => writeExit { r with causes := r.causes ||| causeBit c } s

/-- The Policy Store takes one policy fault event (R155). -/
def takeFault (c : FaultClass) (s : State) : State :=
  if exitFlag s.policy.workingCopy c then
    if s.policy.exitHold then mergeExit c s
    else if s.policy.workingCopy.fallback = s.policy.activeIndex then absorbedExit c s
    else fallbackExit c s.policy.workingCopy.fallback s
  else s

/-! ## Requests -/

/-- A staging set exists: OPEN or COMMIT_PENDING. -/
def stagingExists (s : State) : Bool :=
  match s.carriers.staging with
  | .closed => false
  | .opened _ => true
  | .commitPending _ => true

/-- A switch made pending, unless staging or another switch stands against it (R151, steps 2 and 3). -/
def requestSwitch (w : Switch) (s : State) : State × Reply :=
  if stagingExists s then (s, refuse .stagingBusy [])
  else if s.policy.pendingSwitch.isSome then (s, refuse .switchPending [])
  else (s.setPolicy { s.policy with pendingSwitch := some w }, done [])

/-- EXCHANGE (R151). -/
def takeExchange (slot : Byte) (s : State) : State × Reply :=
  if h : slot.toNat < 6 then requestSwitch (.exchange ⟨slot.toNat, h⟩) s else (s, badField 0)

/-- RELOAD (R152). -/
def takeReload (s : State) : State × Reply := requestSwitch .reload s

/-- READ_PARAM (R150): a slot, or the working copy as source 6. -/
def takeReadParam (source : Byte) (s : State) : State × Reply :=
  if h : source.toNat < 6 then
    (s, done (byte1 s.policy.activeIndex.val ++ contextBytes s.policy.slots[source.toNat]))
  else if source.toNat = 6 then
    (s, done (byte1 s.policy.activeIndex.val ++ contextBytes s.policy.workingCopy))
  else (s, badField 0)

end Sys2Proof.Machine
end

