-- ==== Sys2Proof/Machine/Carriers.lean ====
section
/-!
DEFINITION. Carrier Table (chapter 2): consistency (R21), READ_CARRIER (R22), the staging requests (R24 to R28) and
the application of a committed set (R29, R32).
-/

namespace Sys2Proof.Machine

/-! ## Carrier consistency (R21) -/

/-- The floor check of an entry. -/
def floorHolds (e : CarrierEntry) : Bool := decide (e.floor ≤ e.ceiling)

/-- The anchor check of an entry: an enabled SECONDARY names an enabled ANCHOR. -/
def anchorHolds (entries : Vector CarrierEntry 8) (e : CarrierEntry) : Bool :=
  if e.enabled && e.role == .secondary then
    entries[e.anchor].enabled && entries[e.anchor].role == .anchor
  else true

/-- The field number one entry fails on, floor check first (R21). -/
def entryFault (entries : Vector CarrierEntry 8) (e : CarrierEntry) : Option Nat :=
  if !floorHolds e then some 6 else if !anchorHolds entries e then some 3 else none

/-- The first failing check of a carrier table: entry index and field number (R21). -/
def carrierFirstFault (entries : Vector CarrierEntry 8) : Option (Nat × Nat) :=
  ([0, 1, 2, 3, 4, 5, 6, 7] : List (Fin 8)).findSome? fun i =>
    (entryFault entries entries[i]).map fun field => (i.val, field)

/-- A consistent carrier table (R21). -/
def carriersConsistent (entries : Vector CarrierEntry 8) : Bool := (carrierFirstFault entries).isNone

/-! ## The staging state -/

/-- The staging state replaced. -/
def setStaging (x : Staging) (s : State) : State := s.setCarriers { s.carriers with staging := x }

/-! ## Requests -/

/-- READ_CARRIER (R22). -/
def takeReadCarrier (index : Byte) (s : State) : State × Reply :=
  match indexOfByte index with
  | none => (s, badField 0)
  | some i => (s, done (carrierBytes (liveEntry s i) ++ byte1 (slotCount s.carriers.slotsPerFrame)))

/-- STAGE_OPEN (R24). -/
def takeStageOpen (s : State) : State × Reply :=
  match s.carriers.staging with
  | .closed =>
    if s.policy.pendingSwitch.isSome then (s, refuse .switchPending [])
    else
      (setStaging (.opened
        { entries := s.carriers.entries, slotsPerFrame := s.carriers.slotsPerFrame,
          workingCopy := s.policy.workingCopy }) s, done [])
  | .opened _ => (s, refuse .alreadyOpen [])
  | .commitPending _ => (s, refuse .alreadyOpen [])

/-- STAGE_CARRIER (R25). -/
def takeStageCarrier (index : Byte) (raw : RawCarrier) (s : State) : State × Reply :=
  match s.carriers.staging with
  | .closed => (s, refuse .notOpen [])
  | .commitPending _ => (s, refuse .notOpen [])
  | .opened set =>
    match indexOfByte index, readCarrierEntry raw with
    | none, _ => (s, badField 0)
    | some _, .error field => (s, badField field)
    | some i, .ok e => (setStaging (.opened { set with entries := set.entries.set i e }) s, done [])

/-- One context field edited in a staging set, or the item that fails: 1 the zone, 2 the value (R26, R190).
DESIGN CHOICE, safe (assumption 18): where both fail the zone is named. -/
def stageField (set : StagingSet) (n : Nat) (z : Option Zone) (v : Nat) : Except Nat StagingSet :=
  match z with
  | none => .error 1
  | some z => if inFieldRange n v then .ok { set with workingCopy := contextPut set.workingCopy n z v } else .error 2

/-- The edit STAGE_PARAM names, or the item that fails: 0 the field number, 1 the zone, 2 the value (R26, R190). The
zone is examined for a per-zone field alone. -/
def stageEdit (set : StagingSet) (field zone : Byte) (v : Nat) : Except Nat StagingSet :=
  if field.toNat = 0 then
    match slotsPerFrameOf v with
    | some n => .ok { set with slotsPerFrame := n }
    | none => .error 2
  else if (fieldRange field.toNat).isNone then .error 0
  else stageField set field.toNat (if fieldPerZone field.toNat then zoneOf zone.toNat else some .pa) v

/-- STAGE_PARAM (R26). -/
def takeStageParam (field zone : Byte) (value : Word32) (s : State) : State × Reply :=
  match s.carriers.staging with
  | .closed => (s, refuse .notOpen [])
  | .commitPending _ => (s, refuse .notOpen [])
  | .opened set =>
    match stageEdit set field zone value.toNat with
    | .error item => (s, badField item)
    | .ok set' => (setStaging (.opened set') s, done [])

/-- The detail of the first check a staged set fails: part, entry or zone, field number (R27, R190). -/
def stagingFault (set : StagingSet) : Option (List Byte) :=
  match carrierFirstFault set.entries with
  | some (i, field) => some (byte1 0 ++ byte1 i ++ byte1 field)
  | none => (contextFirstFault set.workingCopy).map fun k => byte1 1 ++ orFF zoneCode k.zone ++ byte1 k.field

/-- STAGE_COMMIT (R27). -/
def takeStageCommit (s : State) : State × Reply :=
  match s.carriers.staging with
  | .closed => (s, refuse .notOpen [])
  | .commitPending _ => (s, refuse .notOpen [])
  | .opened set =>
    match stagingFault set with
    | some detail => (s, refuse .inconsistent detail)
    | none => (setStaging (.commitPending set) s, done [])

/-- STAGE_DROP (R28). -/
def takeStageDrop (s : State) : State × Reply :=
  match s.carriers.staging with
  | .closed => (s, refuse .notOpen [])
  | .opened _ => (setStaging .closed s, done [])
  | .commitPending _ => (raiseChange (.configDropped s.timing.frameCounter) (setStaging .closed s), done [])

/-! ## Application -/

/-- The mass close of an apply that changed slots per frame (R32). -/
def massCloseOnChange (old : SlotsPerFrame) (s : State) : State :=
  if old = s.carriers.slotsPerFrame then s else massClose s

/-- A committed set applied (R29): entries and slots per frame live, the set discarded, the working copy replaced, the
mass close of R32, and CONFIG (APPLIED). -/
def applySet (set : StagingSet) (s : State) : State :=
  let old := s.carriers.slotsPerFrame
  let s := s.setCarriers { entries := set.entries, slotsPerFrame := set.slotsPerFrame, staging := .closed }
  let s := massCloseOnChange old (replaceWorkingCopy set.workingCopy s)
  raiseChange (.configApplied s.timing.frameCounter) s

end Sys2Proof.Machine
end

