-- ==== Sys2Proof/Machine/Grant.lean ====
section
/-!
DEFINITION. Grant Engine (chapter 5): the checks of GRANT_REQ (R67, R68), its work (R69), the ten decision stages
(R73 to R81, R85 to R89), the reduction procedure (R82, R83), the charge and the entry (R90 to R92), the reply (R93)
and the decision trace (R94 to R98).
-/

namespace Sys2Proof.Machine

/-! ## Listed carriers through a decision -/

/-- A listed carrier in a decision: its live entry, the requested value, the value so far and its reason (R70, R73). -/
structure Lane where
  index : Fin 8
  entry : CarrierEntry
  requested : Power
  value : Power
  reason : Reason
  deriving DecidableEq, Repr

/-- The lanes of a request, in request order. -/
def lanesOf (s : State) (pairs : List Pair) : List Lane :=
  pairs.map fun p =>
    { index := p.index, entry := liveEntry s p.index, requested := p.value, value := p.value, reason := .none }

/-- A lane at a code lowered to another value, with the reason of the stage (R73). -/
def lowerLane (v : Power) (r : Reason) (l : Lane) : Lane := { l with value := v, reason := r }

/-- A lane at a code set to OFF; a lane already OFF is not lowered (R73). -/
def offWhen (p : Lane → Bool) (r : Reason) (l : Lane) : Lane :=
  if isCode l.value && p l then lowerLane .off r l else l

/-- A lane above a limit set to the limit. -/
def capAt (limit : Nat) (r : Reason) (l : Lane) : Lane :=
  match l.value with
  | .off => l
  | .code c => if limit < c then lowerLane (.code limit) r l else l

/-! ## Stages 1 to 6 -/

/-- Stage 1, INHIBIT, with TXINH asserted: every lane OFF with its reason, also one already OFF (R73, R74). -/
def stageInhibit (ls : List Lane) : List Lane := ls.map (lowerLane .off .inhibit)

/-- Stage 2, DISABLED (R75). -/
def stageDisabled (ls : List Lane) : List Lane := ls.map (offWhen (fun l => !l.entry.enabled) .disabled)

/-- Stage 3, WINDOW (R76). -/
def stageWindow (ls : List Lane) : List Lane := ls.map fun l => capAt l.entry.ceiling .window l

/-- A limit of stage 4, and whether it came from a hot-off cap (R78). -/
structure ZoneLimit where
  limit : Nat
  hotOff : Bool
  deriving DecidableEq, Repr

/-- The limit one zone gives a carrier with floor `floor` (R77, R78). -/
def zoneLimit (s : State) (z : Zone) (floor : Nat) : Option ZoneLimit :=
  let c := s.policy.workingCopy
  let hot : ZoneLimit :=
    match dutyPhase s with
    | .on => { limit := max (zoneGet c.hotOnCap z) floor, hotOff := false }
    | .off => { limit := max (zoneGet c.hotOffCap z) floor, hotOff := true }
  match (zoneGet s.heat.zones z).state with
  | .level .cool => none
  | .level .warm => some { limit := max (zoneGet c.warmCap z) floor, hotOff := false }
  | .level .hot => some hot
  | .faulted => some hot
  | .level .critical => some { limit := zoneGet c.criticalCap z, hotOff := false }

/-- The lower of two limits; of equal ones, hot-off if either is (R78). -/
def lowerLimit : Option ZoneLimit → Option ZoneLimit → Option ZoneLimit
  | none, b => b
  | some a, none => some a
  | some a, some b =>
    if a.limit < b.limit then some a
    else if b.limit < a.limit then some b
    else some { limit := a.limit, hotOff := a.hotOff || b.hotOff }

/-- The heat zone a carrier's zone field names. -/
def heatZone : CarrierZone → Zone
  | .pa => .pa
  | .antA => .antA
  | .antB => .antB

/-- A carrier's stage 4 limit: the lower of its own zone's and CASE's (R78). -/
def stage4Limit (s : State) (e : CarrierEntry) : Option ZoneLimit :=
  lowerLimit (zoneLimit s (heatZone e.zone) e.floor) (zoneLimit s .caseZone e.floor)

/-- Stage 4, ZONE and DUTY, for one lane (R77, R78). -/
def zoneLane (s : State) (l : Lane) : Lane :=
  match stage4Limit s l.entry with
  | none => l
  | some z => capAt z.limit (if z.hotOff then .duty else .zone) l

/-- Stage 4, ZONE and DUTY (R77, R78). -/
def stageZone (s : State) (ls : List Lane) : List Lane := ls.map (zoneLane s)

/-- The lane is a SECONDARY by its live role. -/
def isSecondary (l : Lane) : Bool := l.entry.role == .secondary

/-- Stage 5, SHED: every SECONDARY OFF with reason SHED, also one already OFF, while the supply is CRITICAL and shed is
yes (R64, R73, R79). -/
def stageShed (s : State) (ls : List Lane) : List Lane :=
  if s.supply.state = .critical ∧ s.policy.workingCopy.shed = true then
    ls.map fun l => if isSecondary l then lowerLane .off .shed l else l
  else ls

/-- A carrier is listed at a code. -/
def listedAtCode (ls : List Lane) (i : Fin 8) : Bool := ls.any fun l => l.index == i && isCode l.value

/-- Stages 6, 8 and 10, ANCHOR: a SECONDARY at a code whose named anchor is not listed, or listed at OFF, is set to
OFF (R80). -/
def stageAnchor (ls : List Lane) : List Lane :=
  ls.map (offWhen (fun l => isSecondary l && !listedAtCode ls l.entry.anchor) .anchor)

/-! ## The reduction procedure (R82, R83) -/

/-- The settings a stage gives the procedure. -/
structure Reduction where
  /-- radiated power is the measure, not conducted -/
  radiated : Bool
  /-- the non-anchors alone are eligible and counted (stage 9, pass 1) -/
  secondariesOnly : Bool
  allowance : Nat
  floors : Bool
  reason : Reason
  deriving DecidableEq, Repr

/-- The table power of a carrier at a code, in the measure. -/
def measure (r : Reduction) (e : CarrierEntry) (c : Nat) : Nat :=
  tablePower (if r.radiated then radiatedCode e.gain c else c)

/-- The lane is eligible and counts. -/
def eligible (r : Reduction) (l : Lane) : Bool := !r.secondariesOnly || isSecondary l

/-- The power of a lane in the sum of a reduction. -/
def lanePower (r : Reduction) (l : Lane) : Nat :=
  match l.value with
  | .off => 0
  | .code c => if eligible r l then measure r l.entry c else 0

/-- The sum of a reduction (R83). -/
def laneSum (r : Reduction) (ls : List Lane) : Nat := (ls.map (lanePower r)).sum

/-- The highest code from `c` down to `bottom` that meets `fits`. -/
def highestFit (fits : Nat → Bool) (bottom : Nat) : Nat → Option Nat
  | 0 => if bottom = 0 && fits 0 then some 0 else none
  | c + 1 =>
    if c + 1 < bottom then none
    else if fits (c + 1) then some (c + 1)
    else highestFit fits bottom c

/-- A lane at code `c` taken by the walk, the others summing to `others`: the highest candidate code within the
allowance, or OFF (R83, steps 2 and 3). -/
def reduceLane (r : Reduction) (others c : Nat) (l : Lane) : Lane :=
  match highestFit (fun k => decide (others + measure r l.entry k ≤ r.allowance)) (if r.floors then l.entry.floor else 0) c with
  | some k => lowerLane (.code k) r.reason l
  | none => lowerLane .off r.reason l

/-- One step of the walk, at the carrier with index `i`: nothing once the sum fits, and a carrier at OFF passed
over (R83). -/
def reduceStep (r : Reduction) (ls : List Lane) (i : Fin 8) : List Lane :=
  if laneSum r ls ≤ r.allowance then ls
  else
    ls.map fun l =>
      if l.index = i ∧ eligible r l = true then
        match l.value with
        | .off => l
        | .code c => reduceLane r (laneSum r (ls.filter fun m => m.index != i)) c l
      else l

/-- The carrier indices, highest first. -/
def indicesDown : List (Fin 8) := [7, 6, 5, 4, 3, 2, 1, 0]

/-- The reduce order: priority 3 first, the higher index before the lower (R82). -/
def reduceOrder (ls : List Lane) : List (Fin 8) :=
  ([3, 2, 1, 0] : List (Fin 4)).flatMap fun p =>
    indicesDown.filter fun i => ls.any fun l => l.index == i && l.entry.priority == p

/-- The reduction procedure (R83). -/
def reduce (r : Reduction) (ls : List Lane) : List Lane := (reduceOrder ls).foldl (reduceStep r) ls

/-! ## Stages 7 and 9 -/

/-- The supply cap in force, in milliwatts; none while the supply is GOOD (R63, R81). -/
def supplyCap (s : State) : Option Nat :=
  match s.supply.state with
  | .good => none
  | .low => some s.policy.workingCopy.supplyLowCap
  | .critical => some s.policy.workingCopy.supplyCriticalCap

/-- Stage 7, SUPPLY (R81). -/
def stageSupply (s : State) (ls : List Lane) : List Lane :=
  match supplyCap s with
  | none => ls
  | some cap =>
    reduce { radiated := false, secondariesOnly := false, allowance := cap * 1000, floors := true, reason := .supply } ls

/-- Stage 9(a): an exhausted window sets every lane to OFF (R86). -/
def exposureExhausted (s : State) (ls : List Lane) : List Lane :=
  if windowExhausted s then ls.map (offWhen (fun _ => true) .exposure) else ls

/-- A reduction of stage 9: radiated power, floors not respected. -/
def exposureReduction (secondariesOnly : Bool) (allowance : Nat) : Reduction :=
  { radiated := true, secondariesOnly, allowance, floors := false, reason := .exposure }

/-- Stage 9(b), pacing (R87). -/
def exposurePacing (s : State) (ls : List Lane) : List Lane :=
  if s.policy.workingCopy.paceThreshold ≤ utilisation s then
    reduce (exposureReduction false (s.policy.workingCopy.averageLimit * 1000)) ls
  else ls

/-- The power that, held for one slot, spends an energy, rounded down (R88). -/
def slotAllowance (s : State) (energy : Nat) : Nat := energy * 1000000 / slotDuration s.carriers.slotsPerFrame

/-- Stage 9(c), pass 1, then pass 2 (R88, R89). -/
def exposureHeadroom (s : State) (ls : List Lane) : List Lane :=
  reduce (exposureReduction false (slotAllowance s (headroom s)))
    (reduce (exposureReduction true (slotAllowance s (headroom s - s.policy.workingCopy.reserve))) ls)

/-- Stage 9, EXPOSURE (R85 to R89). -/
def stageExposure (s : State) (ls : List Lane) : List Lane :=
  exposureHeadroom s (exposurePacing s (exposureExhausted s ls))

/-! ## The decision -/

/-- Stages 2 to 10 in order. -/
def laterStages (s : State) : List (List Lane → List Lane) :=
  [stageDisabled, stageWindow, stageZone s, stageShed s, stageAnchor, stageSupply s, stageAnchor, stageExposure s,
    stageAnchor]

/-- The lanes after each of some stages, in order. -/
def runStages : List (List Lane → List Lane) → List Lane → List (List Lane)
  | [], _ => []
  | f :: rest, ls => f ls :: runStages rest (f ls)

/-- A decision: the lanes after each of stages 2 to 10, and the final lanes. -/
structure Decision where
  history : List (List Lane)
  final : List Lane
  deriving DecidableEq, Repr

/-- The ten stages (R73 to R89). With TXINH asserted the decision ends at stage 1, and the values after stages 2 to 10
are OFF (R74, R96). -/
def decideLanes (s : State) (ls : List Lane) : Decision :=
  if s.inhibit.txinh then
    { history := List.replicate 9 (stageInhibit ls), final := stageInhibit ls }
  else
    { history := runStages (laterStages s) ls, final := (laterStages s).foldl (fun ls f => f ls) ls }

/-! ## Energy and charge -/

/-- The energy of a lane at its final value (R90). -/
def laneEnergy (d : Nat) (l : Lane) : Nat := carrierEnergy l.entry.gain d l.value

/-- The slot energy of a decision (R90). -/
def slotEnergy (d : Nat) (ls : List Lane) : Nat := (ls.map (laneEnergy d)).sum

/-- The anchor share of a decision (R90). -/
def anchorShare (d : Nat) (ls : List Lane) : Nat := slotEnergy d (ls.filter fun l => !isSecondary l)

/-- The highest radiated code granted, none where no carrier is granted a code (R91). -/
def peakGranted (ls : List Lane) : Option Nat :=
  ls.foldl (fun m l =>
    match l.value with
    | .off => m
    | .code c => some (max (m.getD 0) (radiatedCode l.entry.gain c))) none

/-- The carriers of the entry a decision becomes (R92). -/
def grantedCarriers (ls : List Lane) : List GrantedCarrier :=
  ls.map fun l => { index := l.index, granted := l.value, role := l.entry.role }

/-- The open grant entry a decision becomes (R92). -/
def entryOf (s : State) (position frame : Word32) (ls : List Lane) : OpenGrant :=
  { position, frame
    carriers := grantedCarriers ls
    charge := slotEnergy (slotDuration s.carriers.slotsPerFrame) ls
    anchorCharge := anchorShare (slotDuration s.carriers.slotsPerFrame) ls
    ringPosition := s.ring.writePosition
    intervalNumber := (openRecord s).number }

/-- A decision charged to the OPEN record and folded into its signature, the figures recomputed (R91, R134). -/
def chargeDecision (e : OpenGrant) (ls : List Lane) (s : State) : State :=
  recomputeExposure
    (mapRecord s.ring.writePosition
      (chargeRecord e.charge e.anchorCharge (ls.any fun l => l.reason != .none) (peakGranted ls)
        (decisionBytes e.position e.carriers)) s)

/-! ## Withdrawal -/

/-- The notice of an end of exhaustion at a withdrawal, taken at once (R69, step 1; R168): Inhibit Control recomputes,
and that notice no longer waits. -/
def takeReleaseNow (before : State) (s : State) : State :=
  if before.ring.exhausted && !s.ring.exhausted then
    recomputeInhibit (s.setWork { s.work with notices := s.work.notices.erase .exhaustion })
  else s

/-- The withdrawal of a re-grant: the entry at the slot position removed, its charges taken out of the record it
names (R69, step 1; R103). -/
def withdrawEntry (p : Word32) (s : State) : State :=
  match findEntry p s with
  | none => s
  | some e => takeReleaseNow s (recomputeExposure (withoutEntry p (mapNamedRecord e (withdrawRecord e) s)))

/-! ## The trace -/

/-- The snapshot of a decision (R96). -/
def snapshotOf (s : State) (position : Word32) (d : Decision) : Snapshot :=
  { position
    carriers := d.final.zipIdx.map fun (l, n) =>
      { index := l.index, requested := l.requested
        afterStages := d.history.map fun ls => ((ls[n]?).map Lane.value).getD .off
        granted := l.value, reason := l.reason }
    zoneStates :=
      { pa := s.heat.zones.pa.state, antA := s.heat.zones.antA.state, antB := s.heat.zones.antB.state,
        caseZone := s.heat.zones.caseZone.state }
    supply := s.supply.state
    phase := dutyPhase s
    windowSum := windowSum s
    budget := budget s
    headroom := headroom s
    utilisation := utilisation s
    activeIndex := s.policy.activeIndex }

/-- The trace is armed for a frame and slot index (R96). -/
def armedFor (s : State) (frame : Word32) (slot : Byte) : Bool :=
  match s.engine.armed with
  | none => false
  | some a => a.frame == frame && a.slot == slot

/-- A decision for the armed slot captured, the trace disarmed, TRACE (CAPTURED) raised (R96). -/
def captureTrace (frame : Word32) (slot : Byte) (snapshot : Snapshot) (s : State) : State :=
  if armedFor s frame slot then
    raiseChange (.traceCaptured snapshot.position) (s.setEngine { armed := none, snapshot := some snapshot })
  else s

/-- The trace disarmed as missed, where it is armed (R97). -/
def missTrace (s : State) : State :=
  match s.engine.armed with
  | none => s
  | some a => raiseChange (.traceMissed a.position) (s.setEngine { s.engine with armed := none })

/-- The trace miss check of a frame event: the counter above the armed frame, compared as R16 does (R97). -/
def traceMissCheck (s : State) : State :=
  match s.engine.armed with
  | none => s
  | some a => if above s.timing.frameCounter a.frame then missTrace s else s

/-! ## GRANT_REQ -/

/-- The reply of an accepted request (R93). -/
def grantReply (read charged : State) (ls : List Lane) : Reply :=
  done (ls.flatMap (fun l => byte1 l.index.val ++ [powerByte l.value] ++ byte1 (reasonCode l.reason)) ++
    byte1 (utilisation charged) ++ byte1 (dutyPhaseCode (dutyPhase read)) ++
    byte1 (supplyStateCode read.supply.state))

/-- An accepted GRANT_REQ after its withdrawal: decision, charge, entry, trace and reply (R69, steps 2 to 7). -/
def grantSlot (position frame : Word32) (slot : Byte) (pairs : List Pair) (s : State) : State × Reply :=
  let d := decideLanes s (lanesOf s pairs)
  let e := entryOf s position frame d.final
  let charged := chargeDecision e d.final s
  (captureTrace frame slot (snapshotOf s position d) (insertEntry e charged), grantReply s charged d.final)

/-- The two lookahead checks, of R67 and R95: STALE below 0, AHEAD above +8, with the frame offset as detail. -/
def checkLookahead (frame : Word16) (s : State) : Option Reply :=
  let offset := frameOffset frame s.timing.frameCounter
  if offset < 0 then some (refuse .stale (signedBytes 2 offset))
  else if 8 < offset then some (refuse .ahead (signedBytes 2 offset))
  else none

/-- GRANT_REQ (R66 to R69). -/
def takeGrantReq (frame : Word16) (slot : Byte) (raw : List RawPair) (s : State) : State × Reply :=
  match checkPairs slot raw s with
  | .error r => (s, r)
  | .ok pairs =>
    match checkLookahead frame s with
    | some r => (s, r)
    | none =>
      let a := resolveFrame frame s.timing.frameCounter
      let p := slotPosition a s.carriers.slotsPerFrame slot
      grantSlot p a slot pairs (withdrawEntry p s)

/-! ## Trace requests -/

/-- TRACE_SET with action ARM (R95). -/
def armTrace (frame : Word16) (slot : Byte) (s : State) : State × Reply :=
  if !holdsTiming s then (s, noTiming s)
  else if !slotLegal s.carriers.slotsPerFrame slot then (s, badField 0)
  else
    match checkLookahead frame s with
    | some r => (s, r)
    | none =>
      let a := resolveFrame frame s.timing.frameCounter
      (s.setEngine { s.engine with
        armed := some { frame := a, slot, position := slotPosition a s.carriers.slotsPerFrame slot } }, done [])

/-- TRACE_SET with action DISARM (R95). -/
def disarmTrace (s : State) : State × Reply := (s.setEngine { s.engine with armed := none }, done [])

/-- TRACE_SET (R95): action 1 is ARM, 0 is DISARM (R188). -/
def takeTraceSet (frame : Word16) (slot action : Byte) (s : State) : State × Reply :=
  if action = 1 then armTrace frame slot s
  else if action = 0 then disarmTrace s
  else (s, badField 1)

/-- The arming's fields in a TRACE_READ reply; all 0 where the trace is not armed (R191). -/
def armingBytes : Option TraceArming → List Byte
  | none => [0] ++ byte2 0 ++ [0]
  | some a => [1] ++ byte2 (a.frame.setWidth 16).toNat ++ [a.slot]

/-- TRACE_READ (R98). -/
def takeTraceRead (s : State) : State × Reply :=
  (s, done (armingBytes s.engine.armed ++
    match s.engine.snapshot with
    | none => [0]
    | some p => 1 :: snapshotBytes p))

end Sys2Proof.Machine
end

