-- ==== Sys2Proof/Machine/Supply.lean ====
section
/-!
DEFINITION. Supply Monitor (chapter 4): the reading of BATA and BATB (R56), the filter (R59), the SUPPLY change
(R60) and the start-up reading (R61).
-/

namespace Sys2Proof.Machine

/-- A supply reading (R56). -/
def supplyReading (bata batb : Bool) : SupplyState :=
  if bata then (if batb then .good else .low) else .critical

/-- Consecutive agreeing frame events that change the state (R59). -/
def supplyAgree : Nat := 3

/-- The record a reading leaves (R59). -/
def filterSupply (r : SupplyState) (m : SupplyMonitor) : SupplyMonitor :=
  if r = m.state then { m with candidate := none, agreeCount := 0 }
  else if r = .critical then { state := .critical, candidate := none, agreeCount := 0 }
  else
    let count := if m.candidate = some r then m.agreeCount + 1 else 1
    if supplyAgree ≤ count then { state := r, candidate := none, agreeCount := 0 }
    else { m with candidate := some r, agreeCount := count }

/-- The supply reading of a frame event, filtered; a change of state raises SUPPLY (R58 to R60). -/
def readSupply (s : State) : State :=
  let old := s.supply.state
  let m := filterSupply (supplyReading s.pins.levels.bata s.pins.levels.batb) s.supply
  let s := s.setSupply m
  if m.state = old then s else raiseChange (.supply m.state old s.timing.frameCounter) s

/-- The start-up reading: the state set directly, without the filter (R61). -/
def startUpReading (s : State) : State :=
  s.setSupply
    { state := supplyReading s.pins.levels.bata s.pins.levels.batb, candidate := none, agreeCount := 0 }

end Sys2Proof.Machine
end

