-- ==== Sys2Proof/Machine/Zones.lean ====
section
/-!
DEFINITION. Heat Zone Monitor (chapter 3): readings (R39), the zone update (R41 to R45), the sample (R40), the sample
counter (R38), the Duty Cycler (R52, R53), the start-up sample (R48) and READ_ZONE (R50).
-/

namespace Sys2Proof.Machine

/-! ## Readings -/

/-- The temperature code of a reading: none for a fault reading, raw 0 or 511; otherwise the raw code plus the
offset, clamped to 1..510 (R39). -/
def temperatureOf (raw : Raw) (offset : Int) : Option Nat :=
  if raw.toNat = 0 ∨ raw.toNat = 511 then none
  else some (max 1 (min 510 ((raw.toNat : Int) + offset))).toNat

/-! ## Levels -/

/-- The levels, highest first. -/
def levelsDown : List Level := [.critical, .hot, .warm, .cool]

/-- A level's place in the order of section 3.1. -/
def levelRank : Level → Nat
  | .cool => 0
  | .warm => 1
  | .hot => 2
  | .critical => 3

/-- The entry threshold of a level in one zone; COOL has none and is always reached, so it stands at 0 (section 3.1). -/
def entryThreshold (c : Context) (z : Zone) : Level → Nat
  | .cool => 0
  | .warm => zoneGet c.warmEntry z
  | .hot => zoneGet c.hotEntry z
  | .critical => zoneGet c.criticalEntry z

/-- The highest level whose entry threshold a temperature code reaches (R42, R48). -/
def levelReached (c : Context) (z : Zone) (t : Nat) : Level :=
  (levelsDown.find? fun l => decide (entryThreshold c z l ≤ t)).getD .cool

/-- The candidate of a valid reading: the highest level above the current one whose entry it reaches, or the highest
level at or below it whose entry less the hysteresis it reaches (R43). -/
def candidateLevel (c : Context) (z : Zone) (current : Level) (t : Nat) : Level :=
  let rising := levelsDown.find? fun l => decide (levelRank current < levelRank l) && decide (entryThreshold c z l ≤ t)
  let falling := levelsDown.find? fun l =>
    decide (levelRank l ≤ levelRank current) && decide (entryThreshold c z l ≤ t + zoneGet c.hysteresis z)
  match rising with
  | some l => l
  | none => falling.getD .cool

/-! ## The zone update -/

/-- The state, pending candidate and agree count a candidate leaves (R44). -/
def confirm (k : Nat) (current candidate : Level) (pending : Option Level) (agree : Nat) :
    Level × Option Level × Nat :=
  if candidate = current then (current, none, 0)
  else if candidate = .critical then (.critical, none, 0)
  else
    let count := if pending = some candidate then agree + 1 else 1
    if k ≤ count then (candidate, none, 0) else (current, some candidate, count)

/-- A zone record after a reading (R41 to R44). -/
def updateRecord (c : Context) (z : Zone) (offset : Int) (raw : Raw) (r : ZoneRecord) : ZoneRecord :=
  match temperatureOf raw offset with
  | none => { state := .faulted, lastRaw := raw, temperature := none, candidate := none, agreeCount := 0 }
  | some t =>
    match r.state with
    | .faulted =>
      { state := .level (levelReached c z t), lastRaw := raw, temperature := some t, candidate := none,
        agreeCount := 0 }
    | .level current =>
      let (level, pending, agree) := confirm c.confirmCount current (candidateLevel c z current t) r.candidate r.agreeCount
      { state := .level level, lastRaw := raw, temperature := some t, candidate := pending, agreeCount := agree }

/-- The policy fault event of entering a state (R41, R45, R46). -/
def enteringFault : ZoneState → Option FaultClass
  | .faulted => some .sensor
  | .level .critical => some .critical
  | .level .cool => none
  | .level .warm => none
  | .level .hot => none

/-- What a changed zone state raises and tells: ZONE_i, the policy fault event of the state entered, and the notice
to Inhibit Control (R41, R42, R45). -/
def announceZone (z : Zone) (old : ZoneState) (new : ZoneRecord) (s : State) : State :=
  if old = new.state then s
  else
    let s := raiseChange (.zone z new.state new.temperature) s
    let s := match enteringFault new.state with
      | some c => raiseFault c s
      | none => s
    sendNotice .zoneState s

/-- One zone's update in a sample, under the working copy with which the sample began (R40). -/
def updateZone (c : Context) (ts : PerZone Raw) (s : State) (z : Zone) : State :=
  let old := zoneGet s.heat.zones z
  let new := updateRecord c z (zoneGet s.policy.offsets z) (zoneGet ts z) old
  announceZone z old.state new (s.setHeat { s.heat with zones := zoneSet s.heat.zones z new })

/-! ## Duty Cycler -/

/-- A state the Duty Cycler runs for: HOT or FAULTED. -/
def runsDuty : ZoneState → Bool
  | .faulted => true
  | .level .hot => true
  | .level .cool => false
  | .level .warm => false
  | .level .critical => false

/-- Some zone is HOT or FAULTED. -/
def anyDutyZone (zs : PerZone ZoneRecord) : Bool := (zoneList zs).any fun r => runsDuty r.state

/-- The cycler's comparison at the end of a sample (R52). A cycler the sample starts is not stepped by the same frame
event, so a late duty step is taken off the list (R53). -/
def startStopDuty (before : Bool) (s : State) : State :=
  if !before && anyDutyZone s.heat.zones then
    (s.setHeat { s.heat with dutyCounter := 1 }).setWork
      { s.work with late := s.work.late.filter fun w => w != .dutyStep }
  else if before && !anyDutyZone s.heat.zones then s.setHeat { s.heat with dutyCounter := 0 }
  else s

/-- The Duty Cycler's step at a frame event (R53). -/
def dutyStep (s : State) : State :=
  if s.heat.dutyCounter = 0 then s
  else if s.heat.dutyCounter < s.policy.workingCopy.cycleLength then
    s.setHeat { s.heat with dutyCounter := s.heat.dutyCounter + 1 }
  else s.setHeat { s.heat with dutyCounter := 1 }

/-! ## Sampling -/

/-- The sample counter stepped; at a restart the sample period `next` is latched afresh (R38). -/
def sampleStep (next : Nat) (h : HeatMonitor) : HeatMonitor :=
  if h.sampleCounter = h.samplePeriod then { h with sampleCounter := 1, samplePeriod := next }
  else { h with sampleCounter := h.sampleCounter + 1 }

/-- At the sample period in use a sample falls due (R38). -/
def markSampleFrame (s : State) : State :=
  if s.heat.sampleCounter = s.heat.samplePeriod then s.setWork { s.work with sampleDue := true } else s

/-- The sample counter's step at a frame event (R38). -/
def stepSampleCounter (s : State) : State :=
  markSampleFrame (s.setHeat (sampleStep s.policy.workingCopy.samplePeriod s.heat))

/-- One sample: the four readings taken, each zone record updated, then the Duty Cycler's comparison (R40). -/
def takeSample (ts : PerZone Raw) (s : State) : State :=
  let c := s.policy.workingCopy
  let before := anyDutyZone s.heat.zones
  let s := (s.setPins { s.pins with levels := { s.pins.levels with ts := ts } }).setWork
    { s.work with sampleDue := false }
  startStopDuty before (zones.foldl (updateZone c ts) s)

/-! ## Start-up and reading -/

/-- A zone record set directly by the start-up sample (R48). -/
def startUpRecord (c : Context) (z : Zone) (offset : Int) (raw : Raw) : ZoneRecord :=
  match temperatureOf raw offset with
  | none => { state := .faulted, lastRaw := raw, temperature := none, candidate := none, agreeCount := 0 }
  | some t =>
    { state := .level (levelReached c z t), lastRaw := raw, temperature := some t, candidate := none, agreeCount := 0 }

/-- The start-up sample (R48). -/
def startUpSample (ts : PerZone Raw) (s : State) : State :=
  let c := s.policy.workingCopy
  let record := fun z => startUpRecord c z (zoneGet s.policy.offsets z) (zoneGet ts z)
  let zs : PerZone ZoneRecord :=
    { pa := record .pa, antA := record .antA, antB := record .antB, caseZone := record .caseZone }
  s.setHeat
    { zones := zs, sampleCounter := c.samplePeriod, samplePeriod := c.samplePeriod,
      dutyCounter := if anyDutyZone zs then 1 else 0 }

/-- READ_ZONE (R50). -/
def takeReadZone (zone : Byte) (s : State) : State × Reply :=
  match zoneOf zone.toNat with
  | none => (s, badField 0)
  | some z =>
    (s, done (zoneRecordBytes (zoneGet s.heat.zones z) ++ byte1 s.heat.dutyCounter ++
      byte1 (dutyPhaseCode (dutyPhase s))))

end Sys2Proof.Machine
end

