-- ==== Sys2Proof/Machine/FrameEvents.lean ====
section
/-!
DEFINITION. Frame events (R3) and the work they carry: the parts of a frame event, the steps that are due after one
(SAMPLE, INTERVAL_CLOSE, STAGING_APPLY, SWITCH_APPLY, EXIT_HOLD_CLEAR, ALIGN_TIMEOUT, COAST_LIMIT), the events
between blocks (POLICY_FAULT_EVENT, INHIBIT_NOTICE), and the completion of all of it before the next event from
outside (assumption 4).
-/

namespace Sys2Proof.Machine

/-! ## The parts of a frame event -/

/-- The parts of a frame event that have no row of their own. -/
def frameWorks : List FrameWork := [.expiry, .intervalCount, .sampleCounter, .dutyStep, .supply, .traceMiss]

/-- One part's work (R3). -/
def doWork : FrameWork → State → State
  | .expiry => expiryCheck
  | .intervalCount => countInterval
  | .sampleCounter => stepSampleCounter
  | .dutyStep => dutyStep
  | .supply => readSupply
  | .traceMiss => traceMissCheck

/-- One part taken, where it has not been taken yet. -/
def takeLateWork (s : State) (w : FrameWork) : State :=
  if w ∈ s.work.late then doWork w (s.setWork { s.work with late := s.work.late.filter fun v => v != w }) else s

/-- Some parts taken, in the order named. -/
def takeLateWorks (ws : List FrameWork) (s : State) : State := ws.foldl takeLateWork s

/-- A committed staging set waits for a frame event. -/
def commitIsPending (s : State) : Bool :=
  match s.carriers.staging with
  | .closed => false
  | .opened _ => false
  | .commitPending _ => true

/-- The work a frame event makes due: every part, and the steps its consumers find waiting (R29, R153, R158). -/
def workDue (s : State) : Outstanding :=
  { s.work with
    late := frameWorks
    holdClearDue := s.policy.exitHold
    applyDue := commitIsPending s
    switchDue := s.policy.pendingSwitch.isSome }

/-- A frame event delivered to its consumers with the counter already set (R3): the pins are read, the work falls
due, and every part not named in `late` is taken. -/
def frameEvent (lv : Levels) (late : List FrameWork) (s : State) : State :=
  takeLateWorks (frameWorks.filter fun w => !late.contains w)
    ((s.setPins { s.pins with levels := lv }).setWork (workDue s))

/-! ## Steps due after a frame event -/

/-- A due sample taken (R40), after the sample counter's step that makes it due. -/
def sampleIfDue (ts : PerZone Raw) (s : State) : State :=
  if (takeLateWork s .sampleCounter).work.sampleDue then takeSample ts (takeLateWork s .sampleCounter) else s

/-- A due interval close made (R128), after the count that makes it due. -/
def closeIfDue (s : State) : State :=
  if closeDue (takeLateWork s .intervalCount) then closeInterval (takeLateWork s .intervalCount) else s

/-- The committed set applied where the apply is due; where an exit has discarded the set nothing is applied (R29,
R33). -/
def applyCommitted (s : State) : State :=
  let s := s.setWork { s.work with applyDue := false }
  match s.carriers.staging with
  | .closed => s
  | .opened _ => s
  | .commitPending set => applySet set s

/-- A due staging apply, some parts of the frame event taken before it. -/
def applyIfDue (first : List FrameWork) (s : State) : State :=
  if s.work.applyDue then applyCommitted (takeLateWorks first s) else s

/-- A due clear of the exit hold (R158). -/
def clearHoldIfDue (s : State) : State := if s.work.holdClearDue then clearHold s else s

/-- The pending switch applied (R153); where an exit has cancelled it nothing is applied. -/
def applyPendingSwitch (s : State) : State :=
  let s := s.setWork { s.work with switchDue := false }
  match s.policy.pendingSwitch with
  | none => s
  | some w => applySwitch w s

/-- A due switch, some parts of the frame event taken before it; the exit hold is cleared before it is applied
(R158). -/
def switchIfDue (first : List FrameWork) (s : State) : State :=
  if s.work.switchDue then applyPendingSwitch (clearHoldIfDue (takeLateWorks first s)) else s

/-! ## Timing breaks and limits -/

/-- A timing break: the Open Grant List mass-closes, and an armed trace is disarmed as missed (R5, R12). -/
def timingBreak (s : State) : State := missTrace (massClose s)

/-- The fifth pacer frame event of ALIGNING has been delivered (R6). -/
def alignTimeoutDue (s : State) : Bool :=
  decide (s.timing.state = .aligning) && decide (alignLimit ≤ s.timing.alignCount)

/-- The unit returns to FREE from ALIGNING (R6). -/
def alignTimeoutIfDue (s : State) : State :=
  if alignTimeoutDue s then
    raiseChange (.timing .alignTimeout s.timing.frameCounter)
      (s.setTiming { s.timing with state := .free, alignCount := 0 })
  else s

/-- The hundredth pacer frame event of COASTING has been delivered (R12). -/
def coastLimitDue (s : State) : Bool :=
  decide (s.timing.state = .coasting) && decide (coastLimit ≤ s.timing.coastCount)

/-- The coast limit: FREE, a timing break, TIMING (COAST_LIMIT) and the TIMING policy fault event (R12). -/
def coastLimitIfDue (s : State) : State :=
  if coastLimitDue s then
    raiseFault .timing
      (raiseChange (.timing .coastLimit s.timing.frameCounter)
        (timingBreak (s.setTiming { s.timing with state := .free, coastCount := 0 })))
  else s

/-! ## Events between blocks -/

/-- One raised policy fault event of a class taken by the Policy Store, some parts of the frame event taken before it
(R155). -/
def faultIfRaised (c : FaultClass) (first : List FrameWork) (s : State) : State :=
  if c ∈ s.work.faults then
    let s := takeLateWorks first s
    takeFault c (s.setWork { s.work with faults := s.work.faults.erase c })
  else s

/-- One sent notice taken by Inhibit Control (R167). -/
def noticeIfSent (n : Notice) (s : State) : State :=
  if n ∈ s.work.notices then recomputeInhibit (s.setWork { s.work with notices := s.work.notices.erase n }) else s

/-- Raised policy fault events taken one by one, oldest first, at most `fuel` of them. -/
def drainFaults : Nat → State → State
  | 0, s => s
  | n + 1, s =>
    match s.work.faults with
    | [] => s
    | c :: rest => drainFaults n (takeFault c (s.setWork { s.work with faults := rest }))

/-- Every raised policy fault event taken. An exit can raise one more, EXHAUSTED, which the hold it sets merges, so
one more than are waiting is enough. -/
def drainAllFaults (s : State) : State := drainFaults (s.work.faults.length + 1) s

/-- Every sent notice taken: each recomputes from the same state, so one recomputation does the work of all. -/
def drainNotices (s : State) : State :=
  if s.work.notices = [] then s else recomputeInhibit (s.setWork { s.work with notices := [] })

/-! ## Completion before the next event from outside -/

/-- All outstanding work taken, in one of the orders the spec allows (assumption 4). -/
def settle (s : State) : State :=
  let s := takeLateWorks frameWorks s
  let s := closeIfDue s
  let s := sampleIfDue s.pins.levels.ts s
  let s := clearHoldIfDue s
  let s := applyIfDue [] s
  let s := switchIfDue [] s
  let s := coastLimitIfDue (alignTimeoutIfDue s)
  drainNotices (drainAllFaults s)

/-- No work is outstanding. -/
def settled (s : State) : Bool :=
  s.work == noWork && !closeDue s && !alignTimeoutDue s && !coastLimitDue s

/-! ## Meanings -/

/-- The part does nothing while RST_N is held low (R178, R185). -/
def whileUp (f : State → State) (s : State) : Host.Outcome State Fault Refusal :=
  .next (if s.pins.rstN then f s else s)

/-- ALIGN_TIMEOUT (R6). -/
def execAlignTimeout (s : State) : Host.Outcome State Fault Refusal := whileUp alignTimeoutIfDue s

/-- COAST_LIMIT (R12). -/
def execCoastLimit (s : State) : Host.Outcome State Fault Refusal := whileUp coastLimitIfDue s

/-- SAMPLE (R40). -/
def execSample (ts : PerZone Raw) (s : State) : Host.Outcome State Fault Refusal := whileUp (sampleIfDue ts) s

/-- INTERVAL_CLOSE (R128). -/
def execIntervalClose (s : State) : Host.Outcome State Fault Refusal := whileUp closeIfDue s

/-- STAGING_APPLY (R29). -/
def execStagingApply (first : List FrameWork) (s : State) : Host.Outcome State Fault Refusal :=
  whileUp (applyIfDue first) s

/-- SWITCH_APPLY (R153). -/
def execSwitchApply (first : List FrameWork) (s : State) : Host.Outcome State Fault Refusal :=
  whileUp (switchIfDue first) s

/-- EXIT_HOLD_CLEAR (R158). -/
def execExitHoldClear (s : State) : Host.Outcome State Fault Refusal := whileUp clearHoldIfDue s

/-- POLICY_FAULT_EVENT (R155). -/
def execPolicyFaultEvent (c : FaultClass) (first : List FrameWork) (s : State) : Host.Outcome State Fault Refusal :=
  whileUp (faultIfRaised c first) s

/-- INHIBIT_NOTICE (R167). -/
def execInhibitNotice (n : Notice) (s : State) : Host.Outcome State Fault Refusal := whileUp (noticeIfSent n) s

end Sys2Proof.Machine
end

