-- ==== Sys2Proof/Machine/Timing.lean ====
section
/-!
DEFINITION. Frame Timing Unit (chapter 1): pacer expiries, strobes, strobe loss, ALIGN, and the unit's soft-reset
values.
-/

namespace Sys2Proof.Machine

/-! ## The pacer -/

/-- The unit's record after a pacer expiry at moment `e`: the counter advanced, the align or coast count raised, the
next expiry 10 ms later (R3, R4, R6, R10). -/
def pacerTiming (e : Moment) (u : Timing) : Timing :=
  { u with
    frameCounter := u.frameCounter + 1
    lastPacerEvent := some e
    pacer := some (e + pacerPeriod)
    alignCount := if u.state = .aligning then u.alignCount + 1 else u.alignCount
    coastCount := if u.state = .coasting then u.coastCount + 1 else u.coastCount }

/-- A pacer expiry (R4). A stopped pacer does not expire. -/
def pacerExpires (lv : Levels) (late : List FrameWork) (s : State) : State :=
  match s.timing.pacer with
  | none => s
  | some e =>
    let s := advanceTo e (settle s)
    frameEvent lv late (s.setTiming (pacerTiming e s.timing))

/-! ## The strobe -/

/-- The unit's record on entry to LOCKED by a strobe at moment `m` (R7, R11). -/
def lockTiming (m : Moment) (u : Timing) : Timing :=
  { u with
    state := .locked
    alignCount := 0
    coastCount := 0
    lastFrameStart := some m
    pacer := none
    strobeLoss := some (m + strobeLossTime) }

/-- Moment `m` falls less than 5 ms after another (R8, R11); where there is no other it does not (assumption 14). -/
def withinWindow (m : Moment) : Option Moment → Bool
  | none => false
  | some e => decide (m < e + strobeWindow)

/-- A strobe in ALIGNING ends alignment and is a frame event (R3, R7), before the pacer's first expiry too: in the worked
example of section 7.9, ALIGN comes before that expiry and "the strobe that locks the part is the first frame event after
start-up". -/
def strobeAligns (lv : Levels) (late : List FrameWork) (s : State) : State :=
  let a := resolveFrame s.timing.alignTarget s.timing.frameCounter
  raiseChange (.timing .aligned a)
    (frameEvent lv late (s.setTiming { lockTiming s.now s.timing with frameCounter := a }))

/-- A strobe in LOCKED: counted, or ignored as a glitch (R8). -/
def strobeCounts (lv : Levels) (late : List FrameWork) (s : State) : State :=
  if withinWindow s.now s.timing.lastFrameStart then s
  else
    frameEvent lv late (s.setTiming { s.timing with
      frameCounter := s.timing.frameCounter + 1
      lastFrameStart := some s.now
      strobeLoss := some (s.now + strobeLossTime) })

/-- A strobe in COASTING re-locks; outside the re-lock window it is a frame event (R11). -/
def strobeRelocks (lv : Levels) (late : List FrameWork) (s : State) : State :=
  if withinWindow s.now s.timing.lastPacerEvent then
    raiseChange (.timing .relocked s.timing.frameCounter) (s.setTiming (lockTiming s.now s.timing))
  else
    let c := s.timing.frameCounter + 1
    raiseChange (.timing .relocked c)
      (frameEvent lv late (s.setTiming { lockTiming s.now s.timing with frameCounter := c }))

/-- A rising edge on FSTRB at the present moment, by the timing state (R7, R8, R11, R13). -/
def strobeTaken (lv : Levels) (late : List FrameWork) (s : State) : State :=
  match s.timing.state with
  | .free => s
  | .aligning => strobeAligns lv late s
  | .locked => strobeCounts lv late s
  | .coasting => strobeRelocks lv late s

/-- A rising edge on FSTRB at moment `t`, the work of earlier frame events done before it (assumption 4). -/
def strobeArrives (t : Moment) (lv : Levels) (late : List FrameWork) (s : State) : State :=
  strobeTaken lv late (advanceTo t (settle s))

/-! ## Strobe loss -/

/-- The unit's record on entry to COASTING at moment `e`, the first pacer expiry included (R9). -/
def coastTiming (e : Moment) (u : Timing) : Timing :=
  { u with
    state := .coasting
    frameCounter := u.frameCounter + 1
    coastCount := 1
    lastFrameStart := none
    lastPacerEvent := some e
    strobeLoss := none
    pacer := some (e + pacerPeriod) }

/-- The strobe-loss timer expires, and the pacer with it at once (R9; assumption 7). A stopped timer does not
expire. -/
def strobeLost (lv : Levels) (late : List FrameWork) (s : State) : State :=
  match s.timing.strobeLoss with
  | none => s
  | some e =>
    let s := advanceTo e (settle s)
    let c := s.timing.frameCounter + 1
    raiseChange (.timing .lost c) (frameEvent lv late (s.setTiming (coastTiming e s.timing)))

/-! ## ALIGN -/

/-- The unit's record when ALIGN is taken at moment `m` (R4, R5). -/
def alignTiming (m : Moment) (n : Word16) (u : Timing) : Timing :=
  { u with
    state := .aligning
    alignTarget := n
    alignCount := 0
    coastCount := 0
    lastFrameStart := none
    strobeLoss := none
    pacer := if u.state = .locked then some (m + pacerPeriod) else u.pacer }

/-- ALIGN (R5): a timing break where the part held timing, and TIMING (ALIGN_STARTED). -/
def takeAlign (n : Word16) (s : State) : State × Reply :=
  let aligned := s.setTiming (alignTiming s.now n s.timing)
  (raiseChange (.timing .alignStarted s.timing.frameCounter)
    (if holdsTiming s then timingBreak aligned else aligned), done [])

/-! ## Soft reset (R1, R2) -/

/-- The unit's soft-reset values at moment `m`. -/
def softResetTiming (m : Moment) (u : Timing) : Timing :=
  { state := .free, frameCounter := u.frameCounter, alignTarget := 0, alignCount := 0, coastCount := 0,
    lastFrameStart := none, lastPacerEvent := none, strobeLoss := none, pacer := some (m + pacerPeriod) }

/-! ## Meanings -/

/-- PACER_EXPIRY (R4). -/
def execPacerExpiry (lv : Levels) (late : List FrameWork) (s : State) : Host.Outcome State Fault Refusal :=
  whileUp (pacerExpires lv late) s

/-- FRAME_STROBE (R8). -/
def execFrameStrobe (t : Moment) (lv : Levels) (late : List FrameWork) (s : State) :
    Host.Outcome State Fault Refusal :=
  whileUp (strobeArrives t lv late) s

/-- STROBE_LOSS_TIMEOUT (R9). -/
def execStrobeLossTimeout (lv : Levels) (late : List FrameWork) (s : State) : Host.Outcome State Fault Refusal :=
  whileUp (strobeLost lv late) s

end Sys2Proof.Machine
end

