-- ==== Sys2Proof/Machine/Requests.lean ====
section
/-!
DEFINITION. The Request Decoder (R182, R183), the owners of the requests, RESET_PART (R186), the meanings of the
request rows, and the rows of the Link Port.
-/

namespace Sys2Proof.Machine

/-! ## RESET_PART (R186) -/

/-- The Carrier Table's soft reset: entries and slots per frame reset, the staging set discarded (R34). -/
def resetCarriers : CarrierTable :=
  { entries := Vector.replicate 8 resetEntry, slotsPerFrame := .two, staging := .closed }

/-- The Policy Store's soft reset: pending switch cancelled without a change, exit hold clear (R148). -/
def softResetPolicy (p : PolicyStore) : PolicyStore := { p with pendingSwitch := none, exitHold := false }

/-- Every block takes its soft-reset values: mass close (R110), timing (R2), Carrier Table (R34), Grant Engine (R94),
Policy Store (R148), Change Reporter (R171), and the receive queue emptied (R186). -/
def softReset (s : State) : State :=
  let s := massClose s
  let s := s.setTiming (softResetTiming s.now s.timing)
  let s := (s.setCarriers resetCarriers).setEngine { armed := none, snapshot := none }
  let s := (s.setPolicy (softResetPolicy s.policy)).setChanges (freshChanges s.loaded)
  s.setLink { s.link with receiveQueue := [] }

/-! ## The owners -/

/-- A request handed to its owner: the state after it, and the reply (R182, step 3). -/
def ownRequest : Request → State → State × Reply
  | .align f => takeAlign f
  | .grantReq f slot pairs => takeGrantReq f slot pairs
  | .txReport f slot pairs => takeTxReport f slot pairs
  | .stageOpen => takeStageOpen
  | .stageCarrier i e => takeStageCarrier i e
  | .stageParam f z v => takeStageParam f z v
  | .stageCommit => takeStageCommit
  | .stageDrop => takeStageDrop
  | .readCarrier i => takeReadCarrier i
  | .readParam i => takeReadParam i
  | .readZone z => takeReadZone z
  | .readState => takeReadState
  | .exchange k => takeExchange k
  | .reload => takeReload
  | .ringRead start count => takeRingRead start count
  | .ringRelease half => takeRingRelease half
  | .changesRead => takeChangesRead
  | .changesAck sources => takeChangesAck sources
  | .changesMask mask mode => takeChangesMask mask mode
  | .traceSet f slot action => takeTraceSet f slot action
  | .traceRead => takeTraceRead
  | .resetPart => fun s => (softReset s, done [])

/-- The request is RESET_PART, whose DONE port replies may wait behind (R184). -/
def isResetPart : Request → Bool
  | .resetPart => true
  | _ => false

/-- The DONE of a RESET_PART joins the reply queue before the blocks reset (R186, step 1); every other reply when its
owner has produced it. The two give the same queues, since no owner touches them. -/
def sendReply (tag : Byte) (req : Request) (r : Reply) (s : State) : State :=
  s.setLink (addReply (requestKind req) tag (isResetPart req) r s.link)

/-- A decoded request answered: BAD_LENGTH where its number of pairs is not accepted, or else by its owner (R182,
steps 2 and 3). -/
def answerRequest (tag : Byte) (req : Request) (s : State) : State :=
  if lengthAccepted req then sendReply tag req (ownRequest req s).2 (ownRequest req s).1
  else s.setLink (addReply (requestKind req) tag false (refuse .badLength (byte1 (requestPayload req).length)) s.link)

/-- A frame taken from the receive queue answered (R182). -/
def answerFrame (f : RxFrame) (s : State) : State :=
  if kindKnown f.kind then
    match requestOfBytes f.kind f.payload with
    | some req => answerRequest f.tag req s
    | none => s.setLink (addReply f.kind f.tag false (refuse .badLength (byte1 f.payload.length)) s.link)
  else s.setLink (addReply f.kind f.tag false (refuse .unknownKind []) s.link)

/-! ## The Request Decoder -/

/-- The decoder may take a frame: RUNNING, with fewer than 4 replies in the reply queue (R182, R183). -/
def decoderFree (l : LinkPort) : Bool := decide (l.decoder = .running) && decide (l.replyQueue.length < queueSize)

/-- The decoder takes the oldest frame of the receive queue, where it may, with the work of earlier frame events
done before it (R182; assumption 4). -/
def decodeOldest (t : Moment) (s : State) : State :=
  match s.link.receiveQueue with
  | [] => s
  | f :: rest =>
    if decoderFree s.link then
      let s := settle (advanceTo t s)
      answerFrame f (s.setLink { s.link with receiveQueue := rest })
    else s

/-- A request that arrives now is taken at once: the decoder may take a frame and none waits before it. -/
def takenAtOnce (l : LinkPort) : Bool := decoderFree l && l.receiveQueue.isEmpty

/-- The frame of a request (R177). -/
def requestFrame (tag : Byte) (req : Request) : RxFrame :=
  { kind := requestKind req, tag, payload := requestPayload req }

/-- A request commanded by its row: taken at once where the decoder can take it, and otherwise its frame waits, or
draws BUSY (R181, R182; assumption 5). -/
def arriveRequest (tag : Byte) (req : Request) (s : State) : State :=
  if takenAtOnce s.link then answerRequest tag req (settle s)
  else s.setLink (enqueueFrame (requestFrame tag req) s.link)

/-! ## Meanings of the Link Port's rows -/

/-- REQUEST_DECODE (R182). -/
def execRequestDecode (t : Moment) (s : State) : Host.Outcome State Fault Refusal := whileUp (decodeOldest t) s

/-- A byte taken on RXD at a moment (R179). -/
def receiveByte (t : Moment) (b : RxByte) (s : State) : State :=
  let s := advanceTo t s
  s.setLink (takeByte s.now s.link b)

/-- BYTE_ON_RXD (R179). -/
def execByteOnRxd (t : Moment) (b : RxByte) (s : State) : Host.Outcome State Fault Refusal :=
  whileUp (receiveByte t b) s

/-- The bytes of a frame taken one after another (R179); the last completes it, and it is judged (R181). -/
def receiveFrame (t : Moment) (bytes : List RxByte) (s : State) : State :=
  let s := advanceTo t s
  s.setLink (bytes.foldl (takeByte s.now) s.link)

/-- FRAME_RECEIVED (R181; assumption 6). -/
def execFrameReceived (t : Moment) (bytes : List RxByte) (s : State) : Host.Outcome State Fault Refusal :=
  whileUp (receiveFrame t bytes) s

/-- The byte-gap timer expires, where it runs (R180). -/
def gapExpires (s : State) : State :=
  match s.link.receive with
  | .hunting => s
  | .receiving _ e =>
    let s := advanceTo e s
    s.setLink (dropPartial s.link)

/-- BYTE_GAP_TIMEOUT (R180). -/
def execByteGapTimeout (s : State) : Host.Outcome State Fault Refusal := whileUp gapExpires s

/-- The transmitter finishes its frame (R184). -/
def transmitDone (s : State) : State := s.setLink (finishSending s.link)

/-- TRANSMIT_COMPLETE (R184). -/
def execTransmitComplete (s : State) : Host.Outcome State Fault Refusal := whileUp transmitDone s

/-! ## Meanings of the request rows -/

/-- ALIGN (R5). -/
def execAlign (t : Moment) (tag : Byte) (frame : Word16) (s : State) : Host.Outcome State Fault Refusal :=
  whileUp (fun s => arriveRequest tag (.align frame) (advanceTo t s)) s

/-- GRANT_REQ (R69). -/
def execGrantReq (tag : Byte) (frame : Word16) (slot : Byte) (pairs : List RawPair) (s : State) :
    Host.Outcome State Fault Refusal :=
  whileUp (arriveRequest tag (.grantReq frame slot pairs)) s

/-- TX_REPORT (R113). -/
def execTxReport (tag : Byte) (frame : Word16) (slot : Byte) (pairs : List RawPair) (s : State) :
    Host.Outcome State Fault Refusal :=
  whileUp (arriveRequest tag (.txReport frame slot pairs)) s

/-- STAGE_OPEN (R24). -/
def execStageOpen (tag : Byte) (s : State) : Host.Outcome State Fault Refusal :=
  whileUp (arriveRequest tag .stageOpen) s

/-- STAGE_CARRIER (R25). -/
def execStageCarrier (tag : Byte) (index : Byte) (entry : RawCarrier) (s : State) :
    Host.Outcome State Fault Refusal :=
  whileUp (arriveRequest tag (.stageCarrier index entry)) s

/-- STAGE_PARAM (R26). -/
def execStageParam (tag : Byte) (field : Byte) (zone : Byte) (value : Word32) (s : State) :
    Host.Outcome State Fault Refusal :=
  whileUp (arriveRequest tag (.stageParam field zone value)) s

/-- STAGE_COMMIT (R27). -/
def execStageCommit (tag : Byte) (s : State) : Host.Outcome State Fault Refusal :=
  whileUp (arriveRequest tag .stageCommit) s

/-- STAGE_DROP (R28). -/
def execStageDrop (tag : Byte) (s : State) : Host.Outcome State Fault Refusal :=
  whileUp (arriveRequest tag .stageDrop) s

/-- READ_CARRIER (R22). -/
def execReadCarrier (tag : Byte) (index : Byte) (s : State) : Host.Outcome State Fault Refusal :=
  whileUp (arriveRequest tag (.readCarrier index)) s

/-- READ_PARAM (R150). -/
def execReadParam (tag : Byte) (source : Byte) (s : State) : Host.Outcome State Fault Refusal :=
  whileUp (arriveRequest tag (.readParam source)) s

/-- READ_ZONE (R50). -/
def execReadZone (tag : Byte) (zone : Byte) (s : State) : Host.Outcome State Fault Refusal :=
  whileUp (arriveRequest tag (.readZone zone)) s

/-- READ_STATE (R176). -/
def execReadState (tag : Byte) (s : State) : Host.Outcome State Fault Refusal :=
  whileUp (arriveRequest tag .readState) s

/-- EXCHANGE (R151). -/
def execExchange (tag : Byte) (slot : Byte) (s : State) : Host.Outcome State Fault Refusal :=
  whileUp (arriveRequest tag (.exchange slot)) s

/-- RELOAD (R152). -/
def execReload (tag : Byte) (s : State) : Host.Outcome State Fault Refusal :=
  whileUp (arriveRequest tag .reload) s

/-- RING_READ (R144). -/
def execRingRead (tag : Byte) (start : Byte) (count : Byte) (s : State) : Host.Outcome State Fault Refusal :=
  whileUp (arriveRequest tag (.ringRead start count)) s

/-- RING_RELEASE (R143). -/
def execRingRelease (tag : Byte) (half : Byte) (s : State) : Host.Outcome State Fault Refusal :=
  whileUp (arriveRequest tag (.ringRelease half)) s

/-- CHANGES_READ (R173). -/
def execChangesRead (tag : Byte) (s : State) : Host.Outcome State Fault Refusal :=
  whileUp (arriveRequest tag .changesRead) s

/-- CHANGES_ACK (R174). -/
def execChangesAck (tag : Byte) (sources : Word16) (s : State) : Host.Outcome State Fault Refusal :=
  whileUp (arriveRequest tag (.changesAck sources)) s

/-- CHANGES_MASK (R175). -/
def execChangesMask (tag : Byte) (mask : Word16) (mode : Byte) (s : State) : Host.Outcome State Fault Refusal :=
  whileUp (arriveRequest tag (.changesMask mask mode)) s

/-- ARM: TRACE_SET with action 1 (R95, R188). -/
def execArm (tag : Byte) (frame : Word16) (slot : Byte) (s : State) : Host.Outcome State Fault Refusal :=
  whileUp (arriveRequest tag (.traceSet frame slot 1)) s

/-- DISARM: TRACE_SET with action 0 (R95, R188). -/
def execDisarm (tag : Byte) (frame : Word16) (slot : Byte) (s : State) : Host.Outcome State Fault Refusal :=
  whileUp (arriveRequest tag (.traceSet frame slot 0)) s

/-- TRACE_READ (R98). -/
def execTraceRead (tag : Byte) (s : State) : Host.Outcome State Fault Refusal :=
  whileUp (arriveRequest tag .traceRead) s

/-- RESET_PART (R186). -/
def execResetPart (t : Moment) (tag : Byte) (s : State) : Host.Outcome State Fault Refusal :=
  whileUp (fun s => arriveRequest tag .resetPart (advanceTo t s)) s

end Sys2Proof.Machine
end

