-- ==== Sys2Proof/Machine/PowerOn.lean ====
section
/-!
DEFINITION. Power: POWER_ON with the start-up load (R185, R160 to R162), an assertion of RST_N (R165, R178, R185),
and the completion of the start-up load (R164).
-/

namespace Sys2Proof.Machine

/-! ## POWER_ON -/

/-- The Policy Store as the power-on load leaves it: the working copy from the slot of the active index (R148,
R162). -/
def loadedPolicy (l : Loaded) : PolicyStore :=
  { slots := l.slots, workingCopy := l.slots[l.activeIndex], activeIndex := l.activeIndex, pendingSwitch := none
    exitHold := false, exitRecord := none, storeStatus := l.status, offsets := l.offsets }

/-- What later steps still need of the load. -/
def loadedDefaults (l : Loaded) : LoadedDefaults :=
  { presumption := l.presumption, mask := l.mask, clearMode := l.clearMode, safeSlots := l.safeSlots }

/-- The state at moment `t` right after power-on with an image: `State.reset` with the load of that image in place of
the blank one's. -/
def poweredOn (t : Moment) (image : Vector Byte imageSize) (levels : Levels) (pending : List Instr) : State :=
  let l := loadImage image.toList
  let c := l.slots[l.activeIndex]
  { State.reset with
    heat := { State.reset.heat with sampleCounter := c.samplePeriod, samplePeriod := c.samplePeriod }
    ring := { State.reset.ring with latchedLength := c.interval }
    policy := loadedPolicy l
    changes := freshChanges (loadedDefaults l)
    pins := { rstN := true, levels }
    loaded := loadedDefaults l
    image
    now := t
    pending }

/-- POWER_ON (R185). -/
def execPowerOn (t : Moment) (s : State) : Host.Outcome State Fault Refusal :=
  .next (poweredOn (max s.now t) s.image s.pins.levels s.pending)

/-! ## RST_N_ASSERTED -/

/-- The Link Port while RST_N is held low: nothing received, nothing kept, TXD idle, the decoder held (R178, R185). -/
def linkInReset : LinkPort :=
  { receive := .hunting, receiveQueue := [], decoder := .held, replyQueue := [], portQueue := [],
    transmitter := none }

/-- The part held in reset: TXINH asserted, the Link Port silent, the timers stopped, no work outstanding; every
other item takes its power-on value at the release (R165, R178, R185; assumption 11). -/
def enterReset (t : Moment) (s : State) : State :=
  let s := (advanceTo t s).setPins { s.pins with rstN := false }
  let s := s.setTiming { s.timing with pacer := none, strobeLoss := none }
  ((s.setInhibit { s.inhibit with txinh := true }).setLink linkInReset).setWork noWork

/-- RST_N_ASSERTED (R185). -/
def execRstNAsserted (t : Moment) (s : State) : Host.Outcome State Fault Refusal := .next (enterReset t s)

/-! ## START_UP_LOAD_COMPLETE -/

/-- Inhibit Control's first computation: cause set and level set without a change (R165). -/
def startUpInhibit (s : State) : State :=
  s.setInhibit { causes := causesOf s, txinh := causesAny (causesOf s) }

/-- STORE raised for a PARTIAL or BAD load (R164). -/
def storeChange (s : State) : State :=
  if s.policy.storeStatus = .good then s
  else raiseChange (.store s.policy.storeStatus s.loaded.safeSlots) s

/-- The blocks take their power-on values from the load (R164). -/
def startBlocks (lv : Levels) (s : State) : State :=
  let s := (s.setChanges (freshChanges s.loaded)).setPins { s.pins with levels := lv }
  let s := fillRing s.loaded.presumption (startUpReading (startUpSample lv.ts s))
  let s := startUpInhibit s
  s.setTiming { s.timing with pacer := some (s.now + pacerPeriod) }

/-- The decoder RUNNING, and the arbiter's first choice (R185). -/
def startDecoder (s : State) : State := s.setLink (arbitrate { s.link with decoder := .running })

/-- The start-up load completes, where one is in progress (R164, R185). -/
def startUpCompletes (t : Moment) (lv : Levels) (s : State) : State :=
  if s.link.decoder = .held then startDecoder (storeChange (startBlocks lv (advanceTo t s))) else s

/-- START_UP_LOAD_COMPLETE (R164). -/
def execStartUpLoadComplete (t : Moment) (lv : Levels) (s : State) : Host.Outcome State Fault Refusal :=
  whileUp (startUpCompletes t lv) s

end Sys2Proof.Machine
end

