-- ==== Sys2Proof/Machine/Dispatch.lean ====
section
/-!
DEFINITION. The meaning of every command: one arm per row of spec/opcode_table.json, each a direct call of the
meaning of that command.
-/

namespace Sys2Proof.Machine

/-- A command's effect on everything but the queue. -/
def exec (i : Instr) (s : State) : Host.Outcome State Fault Refusal :=
  match i with
  | .powerOn t => Sys2Proof.Machine.execPowerOn t s
  | .rstNAsserted t => Sys2Proof.Machine.execRstNAsserted t s
  | .startUpLoadComplete t lv => Sys2Proof.Machine.execStartUpLoadComplete t lv s
  | .pacerExpiry lv late => Sys2Proof.Machine.execPacerExpiry lv late s
  | .frameStrobe t lv late => Sys2Proof.Machine.execFrameStrobe t lv late s
  | .strobeLossTimeout lv late => Sys2Proof.Machine.execStrobeLossTimeout lv late s
  | .alignTimeout => Sys2Proof.Machine.execAlignTimeout s
  | .coastLimit => Sys2Proof.Machine.execCoastLimit s
  | .sample ts => Sys2Proof.Machine.execSample ts s
  | .intervalClose => Sys2Proof.Machine.execIntervalClose s
  | .stagingApply first => Sys2Proof.Machine.execStagingApply first s
  | .switchApply first => Sys2Proof.Machine.execSwitchApply first s
  | .exitHoldClear => Sys2Proof.Machine.execExitHoldClear s
  | .policyFaultEvent c first => Sys2Proof.Machine.execPolicyFaultEvent c first s
  | .inhibitNotice n => Sys2Proof.Machine.execInhibitNotice n s
  | .frameReceived t bytes => Sys2Proof.Machine.execFrameReceived t bytes s
  | .byteGapTimeout => Sys2Proof.Machine.execByteGapTimeout s
  | .requestDecode t => Sys2Proof.Machine.execRequestDecode t s
  | .transmitComplete => Sys2Proof.Machine.execTransmitComplete s
  | .align t tag frame => Sys2Proof.Machine.execAlign t tag frame s
  | .grantReq tag frame slot pairs => Sys2Proof.Machine.execGrantReq tag frame slot pairs s
  | .txReport tag frame slot pairs => Sys2Proof.Machine.execTxReport tag frame slot pairs s
  | .stageOpen tag => Sys2Proof.Machine.execStageOpen tag s
  | .stageCarrier tag index entry => Sys2Proof.Machine.execStageCarrier tag index entry s
  | .stageParam tag field zone value => Sys2Proof.Machine.execStageParam tag field zone value s
  | .stageCommit tag => Sys2Proof.Machine.execStageCommit tag s
  | .stageDrop tag => Sys2Proof.Machine.execStageDrop tag s
  | .readCarrier tag index => Sys2Proof.Machine.execReadCarrier tag index s
  | .readParam tag source => Sys2Proof.Machine.execReadParam tag source s
  | .readZone tag zone => Sys2Proof.Machine.execReadZone tag zone s
  | .readState tag => Sys2Proof.Machine.execReadState tag s
  | .exchange tag slot => Sys2Proof.Machine.execExchange tag slot s
  | .reload tag => Sys2Proof.Machine.execReload tag s
  | .ringRead tag start count => Sys2Proof.Machine.execRingRead tag start count s
  | .ringRelease tag half => Sys2Proof.Machine.execRingRelease tag half s
  | .changesRead tag => Sys2Proof.Machine.execChangesRead tag s
  | .changesAck tag sources => Sys2Proof.Machine.execChangesAck tag sources s
  | .changesMask tag mask mode => Sys2Proof.Machine.execChangesMask tag mask mode s
  | .arm tag frame slot => Sys2Proof.Machine.execArm tag frame slot s
  | .disarm tag frame slot => Sys2Proof.Machine.execDisarm tag frame slot s
  | .traceRead tag => Sys2Proof.Machine.execTraceRead tag s
  | .resetPart t tag => Sys2Proof.Machine.execResetPart t tag s
  | .byteOnRxd t b => Sys2Proof.Machine.execByteOnRxd t b s

end Sys2Proof.Machine
end

