-- ==== Sys2Proof/Safety.lean ====
section
/-!
DEFINITION. The vocabulary of the claims: what a command leaves alone, what raising a change does to the reporter,
when a request is taken at once and what its reply does, and the invariants of the blocks.
-/

namespace Sys2Proof.Machine

/-! ## What a command leaves alone -/

/-- The sixteen parts of the state beside the queue. -/
inductive Block where
  | timing | carriers | heat | supply | engine | openGrants | ring | policy | inhibit | changes | link | pins
  | loaded | image | work | clock
  deriving DecidableEq, Repr

/-- One part is the same in two states. -/
def sameBlock (s t : State) : Block → Prop
  | .timing => t.timing = s.timing
  | .carriers => t.carriers = s.carriers
  | .heat => t.heat = s.heat
  | .supply => t.supply = s.supply
  | .engine => t.engine = s.engine
  | .openGrants => t.openGrants = s.openGrants
  | .ring => t.ring = s.ring
  | .policy => t.policy = s.policy
  | .inhibit => t.inhibit = s.inhibit
  | .changes => t.changes = s.changes
  | .link => t.link = s.link
  | .pins => t.pins = s.pins
  | .loaded => t.loaded = s.loaded
  | .image => t.image = s.image
  | .work => t.work = s.work
  | .clock => t.now = s.now

/-- Every part outside `bs`, and the queue, is the same in two states. -/
def onlyChanges (bs : List Block) (s t : State) : Prop := t.pending = s.pending ∧ ∀ b, b ∉ bs → sameBlock s t b

/-! ## Changes raised -/

/-- The reporter after a change: kept with ALERT_N asserted where its source is enabled, no effect otherwise (R172). -/
def reported (c : Change) (r : ChangeReporter) : ChangeReporter :=
  if r.mask.getLsbD (changeSource c) then
    { r with places := r.places.set (changeSource c) (some c), alert := true }
  else r

/-! ## Exhaustion told -/

/-- The work waiting after a comparison of exhaustion that found `before` and leaves `now`: the EXHAUSTED fault event on
the onset, and a notice to Inhibit Control of either change (R137, R167). -/
def toldOfExposure (before now : Bool) (w : Outstanding) : Outstanding :=
  { w with
    faults := w.faults ++ (if now && !before then [.exhausted] else [])
    notices := w.notices ++ (if now != before then [.exhaustion] else []) }

/-- The work waiting after the working copy was replaced: the comparison of exhaustion, then the notice of the
replacement (R139, R149, R167). -/
def toldOfReplacement (before now : Bool) (w : Outstanding) : Outstanding :=
  { toldOfExposure before now w with notices := (toldOfExposure before now w).notices ++ [.workingCopy] }

/-! ## Bytes -/

/-- A number in `n` bytes, most significant first (R188). -/
def bigEndian (n v : Nat) : List Byte := (List.range n).map fun k => BitVec.ofNat 8 (v / 256 ^ (n - 1 - k))

/-- A code in one byte. -/
def oneByte (v : Nat) : Byte := BitVec.ofNat 8 v

/-- A number in four bytes, one too large for them as 4,294,967,295 (R135). -/
def fourBytes (v : Nat) : List Byte := bigEndian 4 (min v 4294967295)

/-! ## Stages of a decision -/

/-- A lane at a code that meets `p` is turned OFF with the stage's reason; any other is left as it stands (R73). -/
def offWhere (p : Prop) (r : Reason) (l m : Lane) : Prop :=
  (p → l.value ≠ .off → m = { l with value := .off, reason := r }) ∧ (¬ p ∨ l.value = .off → m = l)

/-- A lane at a code above a limit is set to the limit with the stage's reason; one at or below it, or at OFF, is left
as it stands (R76, R78). -/
def heldTo (limit : Nat) (r : Reason) (l m : Lane) : Prop :=
  (∀ c, l.value = .code c → limit < c → m = { l with value := .code limit, reason := r }) ∧
    ((∀ c, l.value = .code c → c ≤ limit) → m = l)

/-- The limits of stage 4 on a carrier, of its own zone and of CASE, each with whether a hot-off cap gave it: none from a
COOL zone; from a WARM, HOT or FAULTED one the higher of its cap and the floor; from a CRITICAL one the critical cap
(R77, R78). -/
def zoneLimits (s : State) (e : CarrierEntry) : List (Nat × Bool) :=
  let c := s.policy.workingCopy
  let own : Zone := match e.zone with
    | .pa => .pa
    | .antA => .antA
    | .antB => .antB
  [own, .caseZone].flatMap fun z =>
    let hot : Nat × Bool :=
      if s.heat.dutyCounter ≤ c.duty then (max (zoneGet c.hotOnCap z) e.floor, false)
      else (max (zoneGet c.hotOffCap z) e.floor, true)
    match (zoneGet s.heat.zones z).state with
    | .level .cool => []
    | .level .warm => [(max (zoneGet c.warmCap z) e.floor, false)]
    | .level .hot => [hot]
    | .faulted => [hot]
    | .level .critical => [(zoneGet c.criticalCap z, false)]

/-- Stage 4 on one lane: held to the lowest of its limits, with reason DUTY where a hot-off cap gave that limit and ZONE
otherwise; without a limit left as it stands (R78). -/
def heldByZones (s : State) (l m : Lane) : Prop :=
  let limits := zoneLimits s l.entry
  (limits = [] → m = l) ∧
    ∀ x ∈ limits, (∀ y ∈ limits, x.1 ≤ y.1) → heldTo x.1 (if (x.1, true) ∈ limits then .duty else .zone) l m

/-- Stage 5 on one lane: a SECONDARY is OFF with reason SHED, also where it was OFF already, while the supply is
CRITICAL and shed is yes (R73, R79). -/
def shedLane (s : State) (l m : Lane) : Prop :=
  (s.supply.state = .critical ∧ s.policy.workingCopy.shed = true ∧ l.entry.role = .secondary →
    m = { l with value := .off, reason := .shed }) ∧
    (¬ (s.supply.state = .critical ∧ s.policy.workingCopy.shed = true ∧ l.entry.role = .secondary) → m = l)

/-- Stages 6, 8 and 10: a SECONDARY at a code whose named anchor is not listed at a code is turned OFF (R80). -/
def anchored (ls ms : List Lane) : Prop :=
  List.Forall₂
    (fun l => offWhere (l.entry.role = .secondary ∧ ∀ a ∈ ls, a.index = l.entry.anchor → a.value = .off) .anchor l) ls ms

/-! ## The reduction procedure -/

/-- The conducted power of a lane at a code (R71). -/
def conductedPower (_ : Lane) (c : Nat) : Nat := tablePower c

/-- The radiated power of a lane at a code (R72). -/
def radiatedPower (l : Lane) (c : Nat) : Nat := tablePower (radiatedCode l.entry.gain c)

/-- The sum of the powers of the lanes that count and are at a code (R83). -/
def powerSum (power : Lane → Nat → Nat) (counts : Lane → Bool) (ls : List Lane) : Nat :=
  ((ls.filter counts).map fun l => match l.value with
    | .off => 0
    | .code c => power l c).sum

/-- `a` comes before `b` in the reduce order: the greater priority number first, within one the higher index (R82). -/
def takenBefore (a b : Lane) : Bool :=
  decide (b.entry.priority < a.entry.priority ∨ (a.entry.priority = b.entry.priority ∧ b.index < a.index))

/-- What a reduction of `ls` makes of one of its lanes. The walk reaches a lane above the allowance with every lane
before it at OFF, so the sum there is the lane's own power and that of the lanes after it. Where that sum fits, the lane
is not reached and keeps value and reason; otherwise it is set to the highest code from its present one down to the
bottom at which the sum fits, or to OFF where none does (R82, R83). -/
def reducedLane (power : Lane → Nat → Nat) (counts : Lane → Bool) (allowance : Nat) (floors : Bool) (reason : Reason)
    (ls : List Lane) (l m : Lane) : Prop :=
  let after := powerSum power (fun x => counts x && takenBefore l x) ls
  let bottom := if floors then l.entry.floor else 0
  (counts l = false ∨ l.value = .off → m = l) ∧
    ∀ c, l.value = .code c → counts l = true →
      (after + power l c ≤ allowance → m = l) ∧
      (allowance < after + power l c →
        (∀ k, bottom ≤ k → k ≤ c → after + power l k ≤ allowance →
          (∀ j, k < j → j ≤ c → allowance < after + power l j) → m = { l with value := .code k, reason := reason }) ∧
        ((∀ k, bottom ≤ k → k ≤ c → allowance < after + power l k) →
          m = { l with value := .off, reason := reason }))

/-- `ms` is what the reduction procedure makes of `ls` (R82, R83). -/
def reduced (power : Lane → Nat → Nat) (counts : Lane → Bool) (allowance : Nat) (floors : Bool) (reason : Reason)
    (ls ms : List Lane) : Prop :=
  List.Forall₂ (reducedLane power counts allowance floors reason ls) ls ms

/-! ## Frame events -/

/-- `s` with a frame event delivered: the timing record as given, the clock at `m` or later, the pins read, every part
of the event and the steps its consumers find waiting due, and each part not named in `late` taken (R3, R29, R153,
R158). -/
def delivered (lv : Levels) (late : List FrameWork) (u : Timing) (m : Moment) (s : State) : State :=
  takeLateWorks (frameWorks.filter fun w => !late.contains w)
    { s with
      timing := u
      now := max s.now m
      pins := { s.pins with levels := lv }
      work :=
        { s.work with
          late := frameWorks
          holdClearDue := s.policy.exitHold
          applyDue := commitIsPending s
          switchDue := s.policy.pendingSwitch.isSome } }

/-- The rows that take work already raised: the steps due after a frame event, and the events between blocks. -/
def isWorkRow : Instr → Bool
  | .sample _ | .intervalClose | .stagingApply _ | .switchApply _ | .exitHoldClear | .alignTimeout | .coastLimit
  | .policyFaultEvent _ _ | .inhibitNotice _ => true
  | _ => false

/-- Some commands run one after another lead from one state to another. -/
def runsTo : List Instr → State → State → Prop
  | [], s, t => t = s
  | c :: rest, s, t => ∃ u, exec c s = .next u ∧ runsTo rest u t

/-- `s` with one change raised. -/
def raised (c : Change) (s : State) : State := { s with changes := reported c s.changes }

/-- `s` with one policy fault event raised, behind those that wait. -/
def faulted (c : FaultClass) (s : State) : State := { s with work := { s.work with faults := s.work.faults ++ [c] } }

/-! ## Requests -/

/-- A request arriving now is taken at once: RST_N is high, the decoder is RUNNING with room in the reply queue, and
no frame waits before it (R182, R183). -/
def requestReady (s : State) : Prop :=
  s.pins.rstN = true ∧ s.link.decoder = .running ∧ s.link.receiveQueue = [] ∧ s.link.replyQueue.length < 4

/-- `s` with the reply to a request joined to the reply queue, and the arbiter's choice after it (R182, R184). -/
def replied (tag : Byte) (req : Request) (r : Reply) (s : State) : State :=
  { s with link := addReply (requestKind req) tag (isResetPart req) r s.link }

/-- A pair of bytes that names a carrier and a value: index 0..7, and a code 0..127 or OFF (R67, check 3). -/
def legalPair (r : RawPair) : Prop := r.index.toNat < 8 ∧ (r.value.toNat ≤ 127 ∨ r.value = 0xFF)

/-- The bytes of some pairs (R188, R191). -/
def spelled (ps : List Pair) : List RawPair :=
  ps.map fun p => { index := BitVec.ofNat 8 p.index.val, value := powerByte p.value }

/-- A value that is OFF or a code 0..127. -/
def legalPower : Power → Prop
  | .off => True
  | .code c => c ≤ 127

/-- A list of 1..8 pairs of distinct carriers with legal values. -/
def legalList (ps : List Pair) : Prop :=
  1 ≤ ps.length ∧ ps.length ≤ 8 ∧ (ps.map Pair.index).Nodup ∧ ∀ p ∈ ps, legalPower p.value

/-- The row of the table that commands a request directly, none for a TRACE_SET whose action is neither ARM nor
DISARM. -/
def rowOf (t : Moment) (tag : Byte) : Request → Option Instr
  | .align f => some (.align t tag f)
  | .grantReq f slot ps => some (.grantReq tag f slot ps)
  | .txReport f slot ps => some (.txReport tag f slot ps)
  | .stageOpen => some (.stageOpen tag)
  | .stageCarrier i e => some (.stageCarrier tag i e)
  | .stageParam f z v => some (.stageParam tag f z v)
  | .stageCommit => some (.stageCommit tag)
  | .stageDrop => some (.stageDrop tag)
  | .readCarrier i => some (.readCarrier tag i)
  | .readParam i => some (.readParam tag i)
  | .readZone z => some (.readZone tag z)
  | .readState => some (.readState tag)
  | .exchange k => some (.exchange tag k)
  | .reload => some (.reload tag)
  | .ringRead start count => some (.ringRead tag start count)
  | .ringRelease half => some (.ringRelease tag half)
  | .changesRead => some (.changesRead tag)
  | .changesAck sources => some (.changesAck tag sources)
  | .changesMask mask mode => some (.changesMask tag mask mode)
  | .traceSet f slot action =>
    if action = 1 then some (.arm tag f slot) else if action = 0 then some (.disarm tag f slot) else none
  | .traceRead => some (.traceRead tag)
  | .resetPart => some (.resetPart t tag)

/-- The payload lengths a request kind accepts (R191). -/
def kindLengths : Nat → List Nat
  | 1 | 15 | 18 => [2]
  | 2 | 3 => [5, 7, 9, 11, 13, 15, 17, 19]
  | 5 => [9]
  | 6 => [6]
  | 9 | 10 | 11 | 13 | 16 => [1]
  | 19 => [3]
  | 20 => [4]
  | 4 | 7 | 8 | 12 | 14 | 17 | 21 | 22 => [0]
  | _ => []

/-- The bytes of a frame on the link, sync to check (R177). -/
def frameBytes (kind tag : Byte) (payload : List Byte) : List Byte :=
  [0xC3, kind, tag, BitVec.ofNat 8 payload.length] ++ payload ++ byte2 (frameCheck kind tag payload).toNat

/-- Bytes as RXD delivers them without a framing error. -/
def onLine (bytes : List Byte) : List RxByte := bytes.map fun b => { value := b, stopBit := true }

/-! ## Invariants -/

/-- ALERT_N is asserted exactly while a place is pending; a pending place belongs to an enabled source and holds a
change of that source (R170, R172). -/
def changesKept (r : ChangeReporter) : Prop :=
  r.alert = anyPending r.places ∧
    ∀ (i : Fin 15) (c : Change), r.places[i] = some c → changeSource c = i ∧ r.mask.getLsbD i = true

/-- The bytes of a partial frame do not yet make a frame, and their length byte is legal (R178, R179). -/
def partialKept : Receive → Prop
  | .hunting => True
  | .receiving (_ :: _ :: len :: rest) _ => len.toNat ≤ 250 ∧ rest.length < len.toNat + 2
  | .receiving _ _ => True

/-- The queues within their places; nothing answered or sent while HELD; no port reply waits behind a RESET_PART DONE
that is gone; no reply waits while the transmitter of a RUNNING port is idle (R178, R184, R185). -/
def linkKept (l : LinkPort) : Prop :=
  partialKept l.receive ∧ l.receiveQueue.length ≤ 4 ∧ l.replyQueue.length ≤ 4 ∧ l.portQueue.length ≤ 8 ∧
    (l.decoder = .held → l.replyQueue = [] ∧ l.transmitter = none) ∧
    (∀ q ∈ l.portQueue, q.behind ≤ waitingResets l) ∧
    (l.decoder = .running → l.transmitter = none → l.replyQueue = [] ∧ l.portQueue = [])

/-- The record of R1 in each timing state: the strobe-loss timer runs exactly in LOCKED, 15 ms after the last frame
start; the counts are 0 outside their states and within their ranges; the pacer stands still in LOCKED. -/
def timingKept (u : Timing) : Prop :=
  (u.state = .locked ↔ u.strobeLoss.isSome = true) ∧
    u.strobeLoss = u.lastFrameStart.map (fun m => m + strobeLossTime) ∧
    (u.state = .locked → u.pacer = none) ∧
    (u.state = .coasting → u.lastPacerEvent.isSome = true) ∧
    (u.state ≠ .aligning → u.alignCount = 0) ∧ (u.state ≠ .coasting → u.coastCount = 0) ∧
    u.alignCount ≤ 5 ∧ u.coastCount ≤ 100

/-- While the start-up load is in progress nothing is outstanding, the unit is in FREE, and no timer of it runs (R164,
R185). -/
def startUpKept (s : State) : Prop :=
  s.pins.rstN = true → s.link.decoder = .held →
    settled s = true ∧ s.timing.state = .free ∧ s.timing.pacer = none ∧ s.timing.strobeLoss = none

/-- An entry's codes and gain offset lie in the ranges of R18. -/
def entryInRange (e : CarrierEntry) : Bool :=
  decide (e.floor ≤ 127) && decide (e.ceiling ≤ 127) && decide (-16 ≤ e.gain) && decide (e.gain ≤ 15)

/-- A carrier table in range and consistent (R18, R21). -/
def tableKept (entries : Vector CarrierEntry 8) : Prop :=
  (∀ i : Fin 8, entryInRange entries[i] = true) ∧ carriersConsistent entries = true

/-- What a staging set holds at all times: values in range; once committed, consistent as well (R25, R26, R27). -/
def stagingKept : Staging → Prop
  | .closed => True
  | .opened set => (∀ i : Fin 8, entryInRange set.entries[i] = true) ∧ contextInRange set.workingCopy = true
  | .commitPending set => tableKept set.entries ∧ contextConsistent set.workingCopy = true

/-- The live carrier table, the working copy and every slot are consistent (R21, R147). -/
def configKept (s : State) : Prop :=
  tableKept s.carriers.entries ∧ stagingKept s.carriers.staging ∧
    contextConsistent s.policy.workingCopy = true ∧ ∀ k : Fin 6, contextConsistent s.policy.slots[k] = true

/-- Exactly one interval record is OPEN, the one at the write position (R124). -/
def ringKept (r : Ring) : Prop := ∀ p : Fin 128, r.records[p].state = .opened ↔ p = r.writePosition

/-- At most 16 open grants, no two of one slot position; none, and no armed trace, while the part does not hold
timing (R97, R99, R100). -/
def grantsKept (s : State) : Prop :=
  s.openGrants.entries.length ≤ 16 ∧ (s.openGrants.entries.map OpenGrant.position).Nodup ∧
    (holdsTiming s = false → s.openGrants.entries = [] ∧ s.engine.armed = none)

/-- TXINH asserted in reset and through the start-up load; after it, asserted exactly while the cause set is not
empty, and the cause set is that of R166 once no notice waits (R165, R166, R167). -/
def inhibitKept (s : State) : Prop :=
  ((s.pins.rstN = false ∨ s.link.decoder = .held) → s.inhibit.txinh = true) ∧
    (s.pins.rstN = true → s.link.decoder = .running →
      s.inhibit.txinh = causesAny s.inhibit.causes ∧ (s.work.notices = [] → s.inhibit.causes = causesOf s))

/-- The exhausted item agrees with the window figures (R136, R137). -/
def exposureKept (s : State) : Prop := s.ring.exhausted = windowExhausted s

/-- No switch is pending while a staging set exists, and an exit hold stands only with an Exit Record (R24, R151,
R158). -/
def switchKept (s : State) : Prop :=
  (stagingExists s = true → s.policy.pendingSwitch = none) ∧
    (s.policy.exitHold = true → s.policy.exitRecord.isSome = true)

/-- The duty counter is 0 exactly when no zone is HOT or FAULTED, and at most the cycle length (R51). -/
def dutyKept (s : State) : Prop :=
  (s.heat.dutyCounter = 0 ↔ anyDutyZone s.heat.zones = false) ∧
    s.heat.dutyCounter ≤ s.policy.workingCopy.cycleLength

end Sys2Proof.Machine
end

