-- ==== Sys2Proof/Certificates/Slice0/Obligations.lean ====
section
/-!
DEFINITION. The statements for the provers. A moment is a number of bit times of 1/3 microsecond (assumption 2), so
5 ms is 15000, 10 ms is 30000 and 15 ms is 45000. `settle s` is `s` with the work of the frame events before it done
(assumption 4); where nothing is outstanding it is `s` itself (`settle_of_settled` in Sys2Proof/Laws/Settle.lean).
A statement that covers several rows or rules is a conjunction of claims, each named `Sys2Proof.Claims.<Name>`.
-/

open Sys2Proof Sys2Proof.Machine

/-! ## The queue -/

/-- A step takes the command at the front of the queue and runs it with the queue's rest; an empty queue idles (the
model's choice, assumption 3).
Model's choices: assumption 3. -/
def Obligations.StepTakesFrontCommand : Prop :=
  (∀ (c : Instr) (rest : List Instr) (s : State), s.pending = c :: rest → step s = exec c { s with pending := rest }) ∧
    ∀ s : State, s.pending = [] → step s = .next s

/-- Every command ends in a next state and leaves the queue alone: no command stops the part.
Model's choices: assumption 1. -/
def Obligations.EveryCommandCompletes : Prop :=
  ∀ (c : Instr) (s : State), ∃ t, exec c s = .next t ∧ t.pending = s.pending

/-! ## Power -/

/-- POWER_ON: every item takes its power-on value (R1, R34, R94, R100, R148, R165, R171, R178); the Policy Store's
values and those of the load are stated apart.
Model's choices: assumption 8. -/
def Obligations.PowerOnTakesPowerOnValues : Prop :=
  ∀ (t : Moment) (s : State), ∃ u, exec (.powerOn t) s = .next u ∧
    u.timing =
      { state := .free, frameCounter := 0, alignTarget := 0, alignCount := 0, coastCount := 0, lastFrameStart := none,
        lastPacerEvent := none, strobeLoss := none, pacer := none } ∧
    u.carriers.slotsPerFrame = .two ∧ u.carriers.staging = .closed ∧
    (∀ i : Fin 8, u.carriers.entries[i] =
      { enabled := false, role := .secondary, anchor := 0, zone := .pa, priority := 3, floor := 0, ceiling := 127,
        gain := 0 }) ∧
    u.engine = { armed := none, snapshot := none } ∧ u.openGrants = { entries := [], expiryMark := 0 } ∧
    u.policy.workingCopy = u.policy.slots[u.policy.activeIndex] ∧ u.policy.pendingSwitch = none ∧
    u.policy.exitHold = false ∧ u.policy.exitRecord = none ∧
    u.inhibit.txinh = true ∧ (∀ i : Fin 15, u.changes.places[i] = none) ∧ u.changes.alert = false ∧
    u.link =
      { receive := .hunting, receiveQueue := [], decoder := .held, replyQueue := [], portQueue := [],
        transmitter := none } ∧
    u.work = noWork ∧ u.pins.rstN = true ∧ u.image = s.image ∧ u.pending = s.pending

/-- A load that finds a check word wrong takes nothing else from the image; a RELOAD then writes the safe context into
every slot.
Model's choices: assumptions 4, 8. -/
def Obligations.BadImageGivesSafeContexts : Prop :=
  ∀ (s : State), ¬ (s.image[0] = 0x3C ∧ s.image[1] = 0x96 ∧ s.image[461] = 0xC3 ∧ s.image[462] = 0x69) →
    (∀ t : Moment, ∃ u, exec (.powerOn t) s = .next u ∧
      (∀ k : Fin 6, u.policy.slots[k] = safeContext k ∧ u.policy.slots[k].fallback = k) ∧
      u.policy.offsets = { pa := 0, antA := 0, antB := 0, caseZone := 0 } ∧ u.loaded.presumption = 16 ∧
      u.policy.activeIndex = 0 ∧ (∀ i : Fin 15, u.changes.mask.getLsbD i = true) ∧ u.changes.clearMode = .onAck ∧
      u.policy.storeStatus = .bad) ∧
    (s.pins.rstN = true → s.work.switchDue = true → s.policy.pendingSwitch = some .reload →
      ∃ u, exec (.switchApply []) s = .next u ∧
        ∀ k : Fin 6, u.policy.slots[k] = safeContext k ∧ u.policy.slots[k].fallback = k)

/-- A context record's 75 bytes: the fields in number order, each per-zone field zone 0 first. -/
def Sys2Proof.Claims.ContextRecordLayout : Prop :=
  ∀ c : Context,
    let zoned (width : Nat) (p : PerZone Nat) : List Byte :=
      [p.pa, p.antA, p.antB, p.caseZone].flatMap fun v => bigEndian width v
    let action (a : CriticalAction) : Byte := if a = .inhibit then 1 else 0
    contextBytes c =
      zoned 2 c.warmEntry ++ zoned 2 c.hotEntry ++ zoned 2 c.criticalEntry ++ zoned 1 c.hysteresis ++
      zoned 1 c.warmCap ++ zoned 1 c.hotOnCap ++ zoned 1 c.hotOffCap ++ zoned 1 c.criticalCap ++
      [action c.criticalAction.pa, action c.criticalAction.antA, action c.criticalAction.antB,
        action c.criticalAction.caseZone] ++
      [oneByte c.samplePeriod, oneByte c.confirmCount, oneByte c.cycleLength, oneByte c.duty] ++
      bigEndian 2 c.supplyLowCap ++ bigEndian 2 c.supplyCriticalCap ++ [if c.shed then 1 else 0] ++
      bigEndian 2 c.averageLimit ++ [oneByte c.window] ++ bigEndian 2 c.interval ++ [oneByte c.paceThreshold] ++
      bigEndian 4 c.reserve ++ [if c.hardStop then 1 else 0] ++ [oneByte c.horizon] ++
      [if c.exitSensor then 1 else 0] ++ [if c.exitCritical then 1 else 0] ++ [if c.exitExhausted then 1 else 0] ++
      [if c.exitOvershoot then 1 else 0] ++ [if c.exitTiming then 1 else 0] ++ [oneByte c.fallback.val]

/-- Every consistent context survives its record of the image: its 75 bytes load as the context itself, and 75 bytes that
load as a context are the record of that context, a consistent one. -/
def Sys2Proof.Claims.ContextRecordLoadsBack : Prop :=
  (∀ c : Context, contextConsistent c = true →
    (contextBytes c).length = 75 ∧ contextOfBytes (contextBytes c) = some c) ∧
    ∀ (bytes : List Byte) (c : Context), bytes.length = 75 → contextOfBytes bytes = some c →
      contextBytes c = bytes ∧ contextConsistent c = true

/-- A load with both check words right writes each image context that passes as it stands, and the safe context of its
slot in place of one that fails. -/
def Sys2Proof.Claims.GoodCheckWordsLoadEachContext : Prop :=
  ∀ (t : Moment) (s : State), s.image[0] = 0x3C ∧ s.image[1] = 0x96 ∧ s.image[461] = 0xC3 ∧ s.image[462] = 0x69 →
    ∃ u, exec (.powerOn t) s = .next u ∧
      (∀ (k : Fin 6) (c : Context), contextConsistent c = true →
        (s.image.toList.drop (2 + 75 * k.val)).take 75 = contextBytes c → u.policy.slots[k] = c) ∧
      (∀ k : Fin 6, contextOfBytes ((s.image.toList.drop (2 + 75 * k.val)).take 75) = none →
        u.policy.slots[k] = safeContext k ∧ u.policy.storeStatus = .isPartial) ∧
      ∀ k : Fin 6, contextConsistent u.policy.slots[k] = true

/-- A load with both check words right takes the other items, each as it stands where it is legal and the value of R162
where it is not; the store status is PARTIAL exactly where something was replaced; RELOAD writes the same slots. -/
def Sys2Proof.Claims.GoodCheckWordsLoadTheOtherItems : Prop :=
  ∀ (t : Moment) (s : State), s.image[0] = 0x3C ∧ s.image[1] = 0x96 ∧ s.image[461] = 0xC3 ∧ s.image[462] = 0x69 →
    let byte (i : Nat) : Byte := s.image.toList.getD i 0
    let context (k : Fin 6) : Option Context := contextOfBytes ((s.image.toList.drop (2 + 75 * k.val)).take 75)
    let legalOffset (z : Zone) : Prop :=
      -32 ≤ (byte (452 + zoneCode z)).toInt ∧ (byte (452 + zoneCode z)).toInt ≤ 31
    let replaced : Prop :=
      (∃ k, context k = none) ∨ (∃ z, ¬ legalOffset z) ∨ 16 < (byte 456).toNat ∨ 5 < (byte 457).toNat ∨
        1 < (byte 460).toNat
    ∃ u, exec (.powerOn t) s = .next u ∧
      (∀ z, (legalOffset z → zoneGet u.policy.offsets z = (byte (452 + zoneCode z)).toInt) ∧
        (¬ legalOffset z → zoneGet u.policy.offsets z = 0)) ∧
      u.loaded.presumption = min 16 (byte 456).toNat ∧
      u.policy.activeIndex.val = (if (byte 457).toNat ≤ 5 then (byte 457).toNat else 0) ∧
      (∀ i : Fin 15, u.changes.mask.getLsbD i = (byte 458 ++ byte 459).getLsbD i) ∧
      u.changes.clearMode = (if byte 460 = 0 then .onRead else .onAck) ∧
      u.loaded.mask = u.changes.mask ∧ u.loaded.clearMode = u.changes.clearMode ∧
      (∀ k : Fin 6, u.loaded.safeSlots.getLsbD k = (context k).isNone) ∧
      (replaced → u.policy.storeStatus = .isPartial) ∧ (¬ replaced → u.policy.storeStatus = .good) ∧
      u.policy.workingCopy = u.policy.slots.get u.policy.activeIndex ∧ u.policy.slots = loadedSlots s.image.toList

/-- The values of the built-in safe context. -/
def Sys2Proof.Claims.SafeContextValues : Prop :=
  ∀ k : Fin 6,
    let c := safeContext k
    (c.warmEntry = { pa := 151, antA := 151, antB := 151, caseZone := 151 } ∧
      c.hotEntry = { pa := 171, antA := 171, antB := 171, caseZone := 171 } ∧
      c.criticalEntry = { pa := 191, antA := 191, antB := 191, caseZone := 181 } ∧
      c.hysteresis = { pa := 6, antA := 6, antB := 6, caseZone := 6 } ∧
      c.warmCap = { pa := 116, antA := 116, antB := 116, caseZone := 116 } ∧
      c.hotOnCap = { pa := 110, antA := 110, antB := 110, caseZone := 106 } ∧
      c.hotOffCap = { pa := 100, antA := 100, antB := 100, caseZone := 96 } ∧
      c.criticalCap = { pa := 80, antA := 80, antB := 80, caseZone := 60 } ∧
      c.criticalAction = { pa := .cap, antA := .cap, antB := .cap, caseZone := .inhibit }) ∧
    (c.samplePeriod = 4 ∧ c.confirmCount = 3 ∧ c.cycleLength = 8 ∧ c.duty = 4 ∧ c.supplyLowCap = 400 ∧
      c.supplyCriticalCap = 200 ∧ c.shed = true ∧ c.averageLimit = 100 ∧ c.window = 60 ∧ c.interval = 100 ∧
      c.paceThreshold = 12 ∧ c.reserve = 300000 ∧ c.hardStop = true ∧ c.horizon = 4) ∧
    (c.exitSensor = true ∧ c.exitCritical = true ∧ c.exitExhausted = true ∧ c.exitOvershoot = false ∧
      c.exitTiming = true ∧ c.fallback = k) ∧
    contextConsistent c = true

/-- The Default Store image: the context record and its way back, the contexts and the other items that a load with right
check words takes, and the built-in safe context (R162, R163, R193, R195).
Model's choices: assumption 8. -/
def Obligations.ImageContextsLoadBack : Prop :=
  Sys2Proof.Claims.ContextRecordLayout ∧ Sys2Proof.Claims.ContextRecordLoadsBack ∧
    Sys2Proof.Claims.GoodCheckWordsLoadEachContext ∧ Sys2Proof.Claims.GoodCheckWordsLoadTheOtherItems ∧
    Sys2Proof.Claims.SafeContextValues

/-- An assertion of RST_N asserts TXINH, silences the Link Port and holds the decoder; while RST_N is low every command
but POWER_ON and RST_N_ASSERTED is without effect (the rest that the assertion keeps is the model's choice,
assumption 11).
Model's choices: assumptions 2, 11. -/
def Obligations.RstNLowSilencesThePart : Prop :=
  (∀ (t : Moment) (s : State), ∃ u, exec (.rstNAsserted t) s = .next u ∧ u.pins.rstN = false ∧ u.inhibit.txinh = true ∧
    u.link =
      { receive := .hunting, receiveQueue := [], decoder := .held, replyQueue := [], portQueue := [],
        transmitter := none } ∧
    u.timing.pacer = none ∧ u.timing.strobeLoss = none ∧ u.work = noWork ∧
    onlyChanges [.timing, .inhibit, .link, .pins, .work, .clock] s u) ∧
  ∀ (c : Instr) (s : State), s.pins.rstN = false → (∀ t, c ≠ .powerOn t) → (∀ t, c ≠ .rstNAsserted t) →
    exec c s = .next s

/-- A zone record of the start-up sample: FAULTED for a fault reading, else the highest level whose entry threshold the
temperature code reaches, or COOL. -/
def Sys2Proof.Claims.StartUpRecordIsSetDirectly : Prop :=
  ∀ (c : Context) (z : Zone) (offset : Int) (raw : Raw),
    let t := (max 1 (min 510 ((raw.toNat : Int) + offset))).toNat
    let entry : Level → Nat := fun l => match l with
      | .cool => 0
      | .warm => zoneGet c.warmEntry z
      | .hot => zoneGet c.hotEntry z
      | .critical => zoneGet c.criticalEntry z
    (raw.toNat = 0 ∨ raw.toNat = 511 → startUpRecord c z offset raw =
      { state := .faulted, lastRaw := raw, temperature := none, candidate := none, agreeCount := 0 }) ∧
    (raw.toNat ≠ 0 → raw.toNat ≠ 511 → ∃ l : Level,
      startUpRecord c z offset raw =
          { state := .level l, lastRaw := raw, temperature := some t, candidate := none, agreeCount := 0 } ∧
        entry l ≤ t ∧ ∀ k, entry k ≤ t → levelRank k ≤ levelRank l)

/-- An EMPTY interval record holds nothing. -/
def Sys2Proof.Claims.EmptyRecordHoldsNothing : Prop :=
  emptyRecord =
    { state := .empty, number := 0, energy := 0, anchorEnergy := 0, grants := 0, throttled := 0, unreported := 0,
      corrected := 0, unmatched := 0, peak := none, signature := 0xFFFF }

/-- START_UP_LOAD_COMPLETE: the blocks take their power-on values from the load. -/
def Sys2Proof.Claims.StartUpTakesTheLoad : Prop :=
  ∀ (t : Moment) (lv : Levels) (s : State), s.pins.rstN = true → s.link.decoder = .held →
    let w := s.policy.workingCopy
    let fresh : ChangeReporter :=
      { places := Vector.replicate 15 none, mask := s.loaded.mask, clearMode := s.loaded.clearMode, alert := false }
    ∃ u, exec (.startUpLoadComplete t lv) s = .next u ∧
      (∀ z : Zone, zoneGet u.heat.zones z = startUpRecord w z (zoneGet s.policy.offsets z) (zoneGet lv.ts z)) ∧
      u.heat.sampleCounter = w.samplePeriod ∧ u.heat.samplePeriod = w.samplePeriod ∧
      u.heat.dutyCounter = (if anyDutyZone u.heat.zones then 1 else 0) ∧
      u.supply = { state := supplyReading lv.bata lv.batb, candidate := none, agreeCount := 0 } ∧
      (∀ p : Fin 128, recordAt u p =
        if p = 0 then { emptyRecord with state := .opened, number := 1 }
        else if 128 ≤ p.val + w.window then
          { emptyRecord with
            state := .presumed, energy := s.loaded.presumption * w.averageLimit * w.interval * 10 / 16 }
        else emptyRecord) ∧
      u.ring.writePosition = 0 ∧ u.ring.framesInInterval = 0 ∧ u.ring.latchedLength = w.interval ∧
      u.ring.nextNumber = 2 ∧ u.ring.lowerHeld = false ∧ u.ring.upperHeld = false ∧
      u.ring.exhausted = windowExhausted u ∧
      u.inhibit = { causes := causesOf u, txinh := causesAny (causesOf u) } ∧
      u.timing = { s.timing with pacer := some (max s.now t + 30000) } ∧
      u.changes =
        (if s.policy.storeStatus = .good then fresh
         else reported (.store s.policy.storeStatus s.loaded.safeSlots) fresh) ∧
      u.pins = { s.pins with levels := lv } ∧
      u.link = arbitrate { s.link with decoder := .running } ∧
      onlyChanges [.timing, .heat, .supply, .ring, .inhibit, .changes, .link, .pins, .clock] s u

/-- START_UP_LOAD_COMPLETE: the blocks take their power-on values from the load, each zone record set directly (R48, R61,
R123, R126, R164, R165).
Model's choices: assumptions 1, 2, 8, 17. -/
def Obligations.StartUpLoadCompletes : Prop :=
  Sys2Proof.Claims.StartUpTakesTheLoad ∧ Sys2Proof.Claims.StartUpRecordIsSetDirectly ∧
    Sys2Proof.Claims.EmptyRecordHoldsNothing

/-! ## Frame timing -/

/-- The resolution of a 16-bit frame number against the counter. -/
def Sys2Proof.Claims.FrameNumberResolves : Prop :=
  ∀ (f : Word16) (c : Word32),
    (resolveFrame f c).setWidth 16 = f ∧ (resolveFrame f c - c).toInt = frameOffset f c ∧
      -32768 ≤ frameOffset f c ∧ frameOffset f c ≤ 32767 ∧
      ∀ a : Word32, a.setWidth 16 = f → -32768 ≤ (a - c).toInt → (a - c).toInt ≤ 32767 → a = resolveFrame f c

/-- Slot positions, and their order modulo 2^32. -/
def Sys2Proof.Claims.SlotPositionsAndTheirOrder : Prop :=
  (∀ (a : Word32) (n : SlotsPerFrame) (slot : Byte),
    (slotPosition a n slot).toNat = (a.toNat * slotCount n + slot.toNat) % 4294967296 ∧
      (slotLegal n slot = true ↔ slot.toNat < slotCount n)) ∧
    ∀ p q : Word32, (below p q = true ↔ 0 < (q - p).toInt) ∧ (above p q = true ↔ (q - p).toInt < 0) ∧
      (atOrBelow p q = true ↔ below p q = true ∨ p = q) ∧ atOrBelow p q = !above p q

/-- A 16-bit frame number resolves to the one absolute frame within half a circle of the counter, and a slot position is
the frame times the slots per frame plus the slot index, compared modulo 2^32 (R15, R16). -/
def Obligations.FramesAndSlotPositionsResolve : Prop :=
  Sys2Proof.Claims.FrameNumberResolves ∧ Sys2Proof.Claims.SlotPositionsAndTheirOrder

/-- PACER_EXPIRY: a running pacer's expiry records its moment, is a frame event that advances the counter by one, and
schedules the next 10 ms later; it raises the align count in ALIGNING and the coast count in COASTING. A stopped pacer
does not expire (assumption 1).
Model's choices: assumptions 1, 2, 4. -/
def Obligations.PacerExpiryIsFrameEvent : Prop :=
  ∀ (lv : Levels) (late : List FrameWork) (s : State), s.pins.rstN = true →
    (s.timing.pacer = none → exec (.pacerExpiry lv late) s = .next s) ∧
    ∀ e : Moment, s.timing.pacer = some e →
      let u := settle s
      exec (.pacerExpiry lv late) s = .next
        (delivered lv late
          { u.timing with
            frameCounter := u.timing.frameCounter + 1
            lastPacerEvent := some e
            pacer := some (e + 30000)
            alignCount := if u.timing.state = .aligning then u.timing.alignCount + 1 else u.timing.alignCount
            coastCount := if u.timing.state = .coasting then u.timing.coastCount + 1 else u.timing.coastCount } e u)

/-- FRAME_STROBE in ALIGNING locks the unit at the resolved target. -/
def Sys2Proof.Claims.StrobeEndsAligning : Prop :=
  ∀ (t : Moment) (lv : Levels) (late : List FrameWork) (s : State), s.pins.rstN = true →
    (settle s).timing.state = .aligning →
    let u := settle s
    let m := max u.now t
    let a := resolveFrame u.timing.alignTarget u.timing.frameCounter
    exec (.frameStrobe t lv late) s = .next
      (raised (.timing .aligned a)
        (delivered lv late
          { u.timing with
            state := .locked, frameCounter := a, alignCount := 0, coastCount := 0, lastFrameStart := some m,
            pacer := none, strobeLoss := some (m + 45000) } t u))

/-- FRAME_STROBE in LOCKED: counted 5 ms or more after the last frame start, ignored as a glitch before; in FREE a
strobe is ignored.
Model's choices: assumptions 2, 4. -/
def Obligations.StrobeCountedOrIgnored : Prop :=
  ∀ (t : Moment) (lv : Levels) (late : List FrameWork) (s : State), s.pins.rstN = true →
    let u := settle s
    let m := max u.now t
    (u.timing.state = .free → exec (.frameStrobe t lv late) s = .next { u with now := m }) ∧
    ∀ l : Moment, u.timing.state = .locked → u.timing.lastFrameStart = some l →
      (m < l + 15000 → exec (.frameStrobe t lv late) s = .next { u with now := m }) ∧
      (l + 15000 ≤ m → exec (.frameStrobe t lv late) s = .next
        (delivered lv late
          { u.timing with
            frameCounter := u.timing.frameCounter + 1, lastFrameStart := some m, strobeLoss := some (m + 45000) } t u))

/-- FRAME_STROBE in COASTING re-locks the unit, as a frame event only 5 ms or more after the last pacer event. -/
def Sys2Proof.Claims.StrobeRelocks : Prop :=
  ∀ (t : Moment) (lv : Levels) (late : List FrameWork) (s : State) (e : Moment), s.pins.rstN = true →
    (settle s).timing.state = .coasting → (settle s).timing.lastPacerEvent = some e →
    let u := settle s
    let m := max u.now t
    let c := u.timing.frameCounter + 1
    let lock : Timing :=
      { u.timing with
        state := .locked, alignCount := 0, coastCount := 0, lastFrameStart := some m, pacer := none,
        strobeLoss := some (m + 45000) }
    (m < e + 15000 → exec (.frameStrobe t lv late) s = .next
      (raised (.timing .relocked u.timing.frameCounter) { u with now := m, timing := lock })) ∧
    (e + 15000 ≤ m → exec (.frameStrobe t lv late) s = .next
      (raised (.timing .relocked c) (delivered lv late { lock with frameCounter := c } t u)))

/-- FRAME_STROBE in ALIGNING and in COASTING locks the unit (R7, R11).
Model's choices: assumptions 2, 4. -/
def Obligations.StrobeLocksTheUnit : Prop :=
  Sys2Proof.Claims.StrobeEndsAligning ∧ Sys2Proof.Claims.StrobeRelocks

/-- STROBE_LOSS_TIMEOUT: COASTING, with the pacer's immediate first expiry as a frame event (taken with it in one step:
assumption 7); open grants stay open. A stopped timer does not expire (assumption 1).
Model's choices: assumptions 1, 2, 4, 7. -/
def Obligations.StrobeLossCoasts : Prop :=
  ∀ (lv : Levels) (late : List FrameWork) (s : State), s.pins.rstN = true →
    (s.timing.strobeLoss = none → exec (.strobeLossTimeout lv late) s = .next s) ∧
    ∀ e : Moment, s.timing.strobeLoss = some e →
      let u := settle s
      let c := u.timing.frameCounter + 1
      exec (.strobeLossTimeout lv late) s = .next
        (raised (.timing .lost c)
          (delivered lv late
            { u.timing with
              state := .coasting, frameCounter := c, coastCount := 1, lastFrameStart := none, lastPacerEvent := some e,
              strobeLoss := none, pacer := some (e + 30000) } e u))

/-- ALIGN_TIMEOUT: with the align count at 5 the unit returns to FREE and raises TIMING (ALIGN_TIMEOUT), and nothing
else changes; below 5, or in another state, nothing does. -/
def Sys2Proof.Claims.AlignTimeoutReturnsToFree : Prop :=
  ∀ s : State, s.pins.rstN = true →
    (s.timing.state = .aligning → 5 ≤ s.timing.alignCount →
      exec .alignTimeout s = .next
        (raised (.timing .alignTimeout s.timing.frameCounter)
          { s with timing := { s.timing with state := .free, alignCount := 0 } })) ∧
    (s.timing.state ≠ .aligning ∨ s.timing.alignCount < 5 → exec .alignTimeout s = .next s)

/-- COAST_LIMIT: with the coast count at 100 the unit returns to FREE with a timing break, raises TIMING (COAST_LIMIT)
and the TIMING policy fault event; every open grant is closed and an armed trace disarmed. -/
def Sys2Proof.Claims.CoastLimitReturnsToFree : Prop :=
  ∀ s : State, s.pins.rstN = true →
    (s.timing.state = .coasting → 100 ≤ s.timing.coastCount →
      let b := timingBreak { s with timing := { s.timing with state := .free, coastCount := 0 } }
      exec .coastLimit s = .next (faulted .timing (raised (.timing .coastLimit s.timing.frameCounter) b)) ∧
        b.openGrants.entries = [] ∧ b.engine = { s.engine with armed := none } ∧
        (∀ a, s.engine.armed = some a → b.changes = reported (.traceMissed a.position) s.changes) ∧
        (s.engine.armed = none → b.changes = s.changes)) ∧
    (s.timing.state ≠ .coasting ∨ s.timing.coastCount < 100 → exec .coastLimit s = .next s)

/-- A timing break mass-closes the Open Grant List and disarms an armed trace with TRACE (MISSED); the snapshot is left. -/
def Sys2Proof.Claims.TimingBreakClosesAndDisarms : Prop :=
  ∀ s : State,
    (s.engine.armed = none → timingBreak s = massClose s) ∧
    ∀ a : TraceArming, s.engine.armed = some a →
      timingBreak s = raised (.traceMissed a.position) { massClose s with engine := { s.engine with armed := none } }

/-- ALIGN_TIMEOUT and COAST_LIMIT return the unit to FREE, and what a timing break does (R6, R12).
Model's choices: assumptions 1, 4. -/
def Obligations.TimingLimitsReturnToFree : Prop :=
  Sys2Proof.Claims.AlignTimeoutReturnsToFree ∧ Sys2Proof.Claims.CoastLimitReturnsToFree ∧
    Sys2Proof.Claims.TimingBreakClosesAndDisarms

/-- ALIGN, taken in every timing state and answered DONE.
Model's choices: assumptions 2, 4, 5, 17. -/
def Obligations.AlignEntersAligning : Prop :=
  ∀ (t : Moment) (tag : Byte) (n : Word16) (s : State), requestReady s →
    let u := settle { s with now := max s.now t }
    let a : State :=
      { u with timing :=
        { u.timing with
          state := .aligning, alignTarget := n, alignCount := 0, coastCount := 0, lastFrameStart := none,
          strobeLoss := none, pacer := if u.timing.state = .locked then some (u.now + 30000) else u.timing.pacer } }
    exec (.align t tag n) s = .next
      (replied tag (.align n) (done [])
        (raised (.timing .alignStarted u.timing.frameCounter)
          (if u.timing.state = .locked ∨ u.timing.state = .coasting then timingBreak a else a)))

/-! ## The work of a frame event -/

/-- The Duty Cycler's step: an idle counter does not step, a counter below the cycle length rises by one, one at it
returns to 1; a cycler that a sample starts stands at 1 and is not stepped by the same frame event. -/
def Sys2Proof.Claims.DutyCyclerSteps : Prop :=
  (∀ s : State,
    (s.heat.dutyCounter = 0 → dutyStep s = s) ∧
    (s.heat.dutyCounter ≠ 0 → s.heat.dutyCounter < s.policy.workingCopy.cycleLength →
      dutyStep s = { s with heat := { s.heat with dutyCounter := s.heat.dutyCounter + 1 } }) ∧
    (s.heat.dutyCounter ≠ 0 → s.policy.workingCopy.cycleLength ≤ s.heat.dutyCounter →
      dutyStep s = { s with heat := { s.heat with dutyCounter := 1 } })) ∧
  ∀ s : State, anyDutyZone s.heat.zones = true →
    (takeLateWork (startStopDuty false s) .dutyStep).heat = { s.heat with dutyCounter := 1 }

/-- The sample counter's step, and the sample frame it makes. -/
def Sys2Proof.Claims.SampleCounterSteps : Prop :=
  ∀ s : State, ∃ u, stepSampleCounter s = u ∧
    (s.heat.sampleCounter = s.heat.samplePeriod →
      u.heat = { s.heat with sampleCounter := 1, samplePeriod := s.policy.workingCopy.samplePeriod }) ∧
    (s.heat.sampleCounter ≠ s.heat.samplePeriod →
      u.heat = { s.heat with sampleCounter := s.heat.sampleCounter + 1 }) ∧
    (u.heat.sampleCounter = u.heat.samplePeriod → u.work = { s.work with sampleDue := true }) ∧
    (u.heat.sampleCounter ≠ u.heat.samplePeriod → u.work = s.work) ∧
    onlyChanges [.heat, .work] s u

/-- The supply filter of a frame event and the SUPPLY change of each change of state. -/
def Sys2Proof.Claims.SupplyIsFiltered : Prop :=
  ∀ s : State,
    let r := supplyReading s.pins.levels.bata s.pins.levels.batb
    let n := if s.supply.candidate = some r then s.supply.agreeCount + 1 else 1
    (r = s.supply.state → readSupply s = { s with supply := { s.supply with candidate := none, agreeCount := 0 } }) ∧
    (r ≠ s.supply.state → r = .critical ∨ 3 ≤ n →
      readSupply s = raised (.supply r s.supply.state s.timing.frameCounter)
        { s with supply := { state := r, candidate := none, agreeCount := 0 } }) ∧
    (r ≠ s.supply.state → r ≠ .critical → n < 3 →
      readSupply s = { s with supply := { s.supply with candidate := some r, agreeCount := n } })

/-- The trace miss check: an armed trace whose frame the counter is above is disarmed with TRACE (MISSED); the
snapshot is left. -/
def Sys2Proof.Claims.PassedTraceIsMissed : Prop :=
  ∀ s : State,
    (s.engine.armed = none → traceMissCheck s = s) ∧
    ∀ a : TraceArming, s.engine.armed = some a →
      ((a.frame - s.timing.frameCounter).toInt < 0 →
        traceMissCheck s = raised (.traceMissed a.position) { s with engine := { s.engine with armed := none } }) ∧
      (0 ≤ (a.frame - s.timing.frameCounter).toInt → traceMissCheck s = s)

/-- The four combinations of BATA and BATB. -/
def Sys2Proof.Claims.SupplyIsRead : Prop :=
  supplyReading true true = .good ∧ supplyReading true false = .low ∧ supplyReading false true = .critical ∧
    supplyReading false false = .critical

/-- Every part of a frame event is on its list once. A part taken leaves the list and makes its step: the expiry check,
the frames in interval one higher, the sample counter's step, the duty step, the supply reading, the trace miss check. A
part not on the list does nothing, and several parts are taken one after another. -/
def Sys2Proof.Claims.PartTakenMakesItsStep : Prop :=
  (frameWorks.Nodup ∧ ∀ w : FrameWork, w ∈ frameWorks) ∧
  (∀ (s : State) (w : FrameWork), w ∉ s.work.late → takeLateWork s w = s) ∧
  (∀ (s : State) (w : FrameWork), w ∈ s.work.late →
    let u : State := { s with work := { s.work with late := s.work.late.filter fun v => v != w } }
    (w = .expiry → takeLateWork s w = expiryCheck u) ∧
    (w = .intervalCount →
      takeLateWork s w = { u with ring := { u.ring with framesInInterval := u.ring.framesInInterval + 1 } }) ∧
    (w = .sampleCounter → takeLateWork s w = stepSampleCounter u) ∧
    (w = .dutyStep → takeLateWork s w = dutyStep u) ∧
    (w = .supply → takeLateWork s w = readSupply u) ∧
    (w = .traceMiss → takeLateWork s w = traceMissCheck u)) ∧
  ∀ (s : State) (w : FrameWork) (ws : List FrameWork),
    takeLateWorks [] s = s ∧ takeLateWorks (w :: ws) s = takeLateWorks ws (takeLateWork s w)

/-- `settle` completes the work of the frame events before: every part taken, and then rows of the table that take work
already raised, until none waits. -/
def Sys2Proof.Claims.WorkIsCompletedByItsRows : Prop :=
  ∀ s : State, s.pins.rstN = true →
    (settle s).work = noWork ∧
      ∃ cs : List Instr, (∀ c ∈ cs, isWorkRow c = true) ∧ runsTo cs (takeLateWorks frameWorks s) (settle s)

/-- The parts of a frame event and their steps: duty step, sample counter, supply reading, trace miss check, interval count
and expiry check; and the completion of outstanding work (R38, R52, R53, R56, R59, R60, R97, R128).
Model's choices: assumption 4. -/
def Obligations.FrameEventPartsTakeTheirSteps : Prop :=
  Sys2Proof.Claims.DutyCyclerSteps ∧ Sys2Proof.Claims.SampleCounterSteps ∧ Sys2Proof.Claims.SupplyIsRead ∧
    Sys2Proof.Claims.SupplyIsFiltered ∧ Sys2Proof.Claims.PassedTraceIsMissed ∧ Sys2Proof.Claims.PartTakenMakesItsStep ∧
    Sys2Proof.Claims.WorkIsCompletedByItsRows

/-- The expiry check: entries whose frame plus H the counter has reached leave the list, each with its charge kept and
its record's unreported count raised; the mark rises to the greatest position closed, or to the lag bound. -/
def Sys2Proof.Claims.ExpiryClosesAsGranted : Prop :=
  ∀ s : State, (∀ p : Fin 128, (recordAt s p).unreported ≤ 255) →
    let h := BitVec.ofNat 32 s.policy.workingCopy.horizon
    let out := s.openGrants.entries.filter fun e => decide (0 ≤ (s.timing.frameCounter - (e.frame + h)).toInt)
    let mark := out.foldl (fun m e => if above e.position m then e.position else m) s.openGrants.expiryMark
    let bound := (s.timing.frameCounter - 65536) * BitVec.ofNat 32 (slotCount s.carriers.slotsPerFrame)
    let u := expiryCheck s
    u.openGrants.entries =
        s.openGrants.entries.filter (fun e => decide ((s.timing.frameCounter - (e.frame + h)).toInt < 0)) ∧
      u.openGrants.expiryMark = (if below mark bound then bound else mark) ∧
      (∀ p : Fin 128,
        let r := recordAt s p
        recordAt u p =
          { r with unreported := min 255 (r.unreported +
              (out.filter fun e => decide (e.ringPosition = p ∧ e.intervalNumber = r.number)).length) }) ∧
      u.ring = { s.ring with records := u.ring.records } ∧ onlyChanges [.openGrants, .ring] s u

/-- A mass close closes every entry as granted and raises the mark to the greatest position closed. -/
def Sys2Proof.Claims.MassCloseClosesEveryEntry : Prop :=
  ∀ s : State, (∀ p : Fin 128, (recordAt s p).unreported ≤ 255) →
    let out := s.openGrants.entries
    let u := massClose s
    u.openGrants.entries = [] ∧
      u.openGrants.expiryMark =
        out.foldl (fun m e => if above e.position m then e.position else m) s.openGrants.expiryMark ∧
      (∀ p : Fin 128,
        let r := recordAt s p
        recordAt u p =
          { r with unreported := min 255 (r.unreported +
              (out.filter fun e => decide (e.ringPosition = p ∧ e.intervalNumber = r.number)).length) }) ∧
      u.ring = { s.ring with records := u.ring.records } ∧ onlyChanges [.openGrants, .ring] s u

/-- Entries that close as granted, at the expiry check and at a mass close (R101, R102, R106, R107, R108). -/
def Obligations.EntriesCloseAsGranted : Prop :=
  Sys2Proof.Claims.ExpiryClosesAsGranted ∧ Sys2Proof.Claims.MassCloseClosesEveryEntry

/-- A zone record after a reading: a fault reading, recovery from FAULTED, and confirmation of the candidate. -/
def Sys2Proof.Claims.ZoneRecordIsUpdated : Prop :=
  ∀ (c : Context) (z : Zone) (offset : Int) (raw : Raw) (r : ZoneRecord),
    let reached : Level → Nat → Prop := fun l t => l = .cool ∨ entryThreshold c z l ≤ t
    let t := (max 1 (min 510 ((raw.toNat : Int) + offset))).toNat
    (raw.toNat = 0 ∨ raw.toNat = 511 →
      updateRecord c z offset raw r =
        { state := .faulted, lastRaw := raw, temperature := none, candidate := none, agreeCount := 0 }) ∧
    (raw.toNat ≠ 0 → raw.toNat ≠ 511 → r.state = .faulted →
      ∃ l, updateRecord c z offset raw r =
          { state := .level l, lastRaw := raw, temperature := some t, candidate := none, agreeCount := 0 } ∧
        reached l t ∧ ∀ k, reached k t → levelRank k ≤ levelRank l) ∧
    ∀ now, raw.toNat ≠ 0 → raw.toNat ≠ 511 → r.state = .level now →
      let k := candidateLevel c z now t
      let n := if r.candidate = some k then r.agreeCount + 1 else 1
      (k = now → updateRecord c z offset raw r =
        { state := .level now, lastRaw := raw, temperature := some t, candidate := none, agreeCount := 0 }) ∧
      (k ≠ now → k = .critical ∨ c.confirmCount ≤ n → updateRecord c z offset raw r =
        { state := .level k, lastRaw := raw, temperature := some t, candidate := none, agreeCount := 0 }) ∧
      (k ≠ now → k ≠ .critical → n < c.confirmCount → updateRecord c z offset raw r =
        { state := .level now, lastRaw := raw, temperature := some t, candidate := some k, agreeCount := n })

/-- The candidate of a valid reading: the highest level above the state whose entry it reaches, or else the highest at
or below the state whose entry less the hysteresis it reaches. -/
def Sys2Proof.Claims.CandidateRisesHoldsOrFalls : Prop :=
  ∀ (c : Context) (z : Zone) (now : Level) (t : Nat),
    let k := candidateLevel c z now t
    let rises : Level → Prop := fun l => levelRank now < levelRank l ∧ entryThreshold c z l ≤ t
    let holds : Level → Prop := fun l =>
      levelRank l ≤ levelRank now ∧ (l = .cool ∨ entryThreshold c z l ≤ t + zoneGet c.hysteresis z)
    ((∃ l, rises l) → rises k ∧ ∀ l, rises l → levelRank l ≤ levelRank k) ∧
      ((¬ ∃ l, rises l) → holds k ∧ ∀ l, holds l → levelRank l ≤ levelRank k)

/-- The order of the levels and their entry thresholds. -/
def Sys2Proof.Claims.LevelsAndTheirEntries : Prop :=
  [Level.cool, .warm, .hot, .critical].map levelRank = [0, 1, 2, 3] ∧
    ∀ (c : Context) (z : Zone),
      entryThreshold c z .warm = zoneGet c.warmEntry z ∧ entryThreshold c z .hot = zoneGet c.hotEntry z ∧
        entryThreshold c z .critical = zoneGet c.criticalEntry z

/-- A zone record follows its reading: fault readings and recovery, confirmation, and the candidate level (R41 to R44). -/
def Obligations.ZoneRecordFollowsItsReading : Prop :=
  Sys2Proof.Claims.LevelsAndTheirEntries ∧ Sys2Proof.Claims.ZoneRecordIsUpdated ∧
    Sys2Proof.Claims.CandidateRisesHoldsOrFalls

/-- Entering FAULTED raises SENSOR, entering CRITICAL raises CRITICAL, and entering another level no fault event; the Duty
Cycler runs for HOT and FAULTED zones. -/
def Sys2Proof.Claims.StatesEnteredRaiseTheirFaults : Prop :=
  (enteringFault .faulted = some .sensor ∧ enteringFault (.level .critical) = some .critical ∧
    ∀ l : Level, l ≠ .critical → enteringFault (.level l) = none) ∧
  ∀ zs : PerZone ZoneRecord,
    anyDutyZone zs = true ↔ ∃ z, (zoneGet zs z).state = .faulted ∨ (zoneGet zs z).state = .level .hot

/-- SAMPLE: on a sample frame every zone record is updated from its own reading under the working copy the sample began
with; each changed state raises its ZONE change, in zone order, its fault event, and a notice; then the Duty Cycler is
started, stopped or left. Off a sample frame nothing changes (assumption 1). -/
def Sys2Proof.Claims.SampleTakesEveryZone : Prop :=
  ∀ (ts : PerZone Raw) (s : State), s.pins.rstN = true →
    let u := takeLateWork s .sampleCounter
    (u.work.sampleDue = false → exec (.sample ts) s = .next s) ∧
    (u.work.sampleDue = true → ∃ v, exec (.sample ts) s = .next v ∧
      let zs := zones.filter fun z => decide ((zoneGet v.heat.zones z).state ≠ (zoneGet u.heat.zones z).state)
      (∀ z, zoneGet v.heat.zones z =
        updateRecord u.policy.workingCopy z (zoneGet u.policy.offsets z) (zoneGet ts z) (zoneGet u.heat.zones z)) ∧
      v.changes =
        zs.foldl (fun r z =>
          reported (.zone z (zoneGet v.heat.zones z).state (zoneGet v.heat.zones z).temperature) r) u.changes ∧
      v.work.faults = u.work.faults ++ zs.filterMap (fun z => enteringFault (zoneGet v.heat.zones z).state) ∧
      v.work.notices = u.work.notices ++ zs.map (fun _ => Notice.zoneState) ∧
      v.work.sampleDue = false ∧
      v.heat.dutyCounter =
        (if anyDutyZone v.heat.zones = anyDutyZone u.heat.zones then u.heat.dutyCounter
         else if anyDutyZone v.heat.zones then 1 else 0) ∧
      v.heat.sampleCounter = u.heat.sampleCounter ∧ v.heat.samplePeriod = u.heat.samplePeriod ∧
      v.pins = { u.pins with levels := { u.pins.levels with ts := ts } } ∧
      onlyChanges [.heat, .changes, .work, .pins] u v)

/-- SAMPLE updates every zone; the states entered raise their fault events (R39 to R41, R45, R46, R52).
Model's choices: assumptions 1, 4. -/
def Obligations.SampleUpdatesEveryZone : Prop :=
  Sys2Proof.Claims.SampleTakesEveryZone ∧ Sys2Proof.Claims.StatesEnteredRaiseTheirFaults

/-- INTERVAL_CLOSE: at the latched length the OPEN record closes, the writer moves on and opens a new record, the halves
are handled, T is latched, and the comparison of exhaustion is made. Below it nothing changes (assumption 1).
Model's choices: assumptions 1, 4. -/
def Obligations.IntervalCloseTurnsTheRing : Prop :=
  ∀ s : State, s.pins.rstN = true →
    let u := takeLateWork s .intervalCount
    let w := u.ring.writePosition
    let p := w + 1
    (u.ring.framesInInterval < u.ring.latchedLength → exec .intervalClose s = .next s) ∧
    (u.ring.latchedLength ≤ u.ring.framesInInterval → ∃ v, exec .intervalClose s = .next v ∧
      v.ring.writePosition = p ∧ v.ring.framesInInterval = 0 ∧
      v.ring.latchedLength = u.policy.workingCopy.interval ∧
      v.ring.nextNumber = (if u.ring.nextNumber = 4294967295 then 1 else u.ring.nextNumber + 1) ∧
      recordAt v p = { emptyRecord with state := .opened, number := u.ring.nextNumber } ∧
      recordAt v w = { recordAt u w with state := .closed } ∧
      (∀ q : Fin 128, q ≠ p → q ≠ w → recordAt v q = recordAt u q) ∧
      (v.ring.lowerHeld, v.ring.upperHeld) =
        (if p = 64 then (true, false) else if p = 0 then (false, true) else (u.ring.lowerHeld, u.ring.upperHeld)) ∧
      v.changes =
        (if p = 64 then
          reported (.ringHalf .lower (recordAt u w).number)
            (if u.ring.upperHeld then reported (.ringOverrun .upper u.ring.nextNumber) u.changes else u.changes)
        else if p = 0 then
          reported (.ringHalf .upper (recordAt u w).number)
            (if u.ring.lowerHeld then reported (.ringOverrun .lower u.ring.nextNumber) u.changes else u.changes)
        else u.changes) ∧
      v.ring.exhausted = windowExhausted v ∧
      v.work = toldOfExposure u.ring.exhausted (windowExhausted v) u.work ∧ onlyChanges [.ring, .changes, .work] u v)

/-- The ring's comparison after a recomputation: EXHAUSTED on the onset, Inhibit Control told of either change, and
nothing without a change of condition. -/
def Sys2Proof.Claims.ExhaustionIsCompared : Prop :=
  ∀ s : State,
    let now := decide (s.policy.workingCopy.averageLimit * s.policy.workingCopy.window *
      s.policy.workingCopy.interval * 10 ≤ windowSum s)
    let told := { s.work with notices := s.work.notices ++ [Notice.exhaustion] }
    (now = s.ring.exhausted → recomputeExposure s = s) ∧
    (now = true → s.ring.exhausted = false → recomputeExposure s = faulted .exhausted
      { s with ring := { s.ring with exhausted := true }, work := told }) ∧
    (now = false → s.ring.exhausted = true → recomputeExposure s =
      { s with ring := { s.ring with exhausted := false }, work := told })

/-! ## Configuration applied at a frame event -/

/-- STAGING_APPLY: the committed set becomes live, the set is discarded, the working copy is replaced and its readers
told, with EXHAUSTED on an onset; the mass close follows where slots per frame changed, and CONFIG (APPLIED) is raised.
Model's choices: assumptions 1, 4. -/
def Obligations.StagingApplyMakesTheSetLive : Prop :=
  ∀ (first : List FrameWork) (s : State), s.pins.rstN = true →
    (s.work.applyDue = false → exec (.stagingApply first) s = .next s) ∧
    (s.work.applyDue = true →
      let u := takeLateWorks first s
      ∀ set, u.carriers.staging = .commitPending set → ∃ v, exec (.stagingApply first) s = .next v ∧
        v.carriers = { entries := set.entries, slotsPerFrame := set.slotsPerFrame, staging := .closed } ∧
        v.policy = { u.policy with workingCopy := set.workingCopy } ∧
        v.heat = { u.heat with dutyCounter := min u.heat.dutyCounter set.workingCopy.cycleLength } ∧
        (set.slotsPerFrame = u.carriers.slotsPerFrame → v.openGrants = u.openGrants ∧
          v.ring = { u.ring with exhausted := windowExhausted v }) ∧
        (set.slotsPerFrame ≠ u.carriers.slotsPerFrame → v.openGrants.entries = [] ∧
          v.openGrants = (massClose u).openGrants ∧
          v.ring = { (massClose u).ring with exhausted := windowExhausted v }) ∧
        v.changes = reported (.configApplied u.timing.frameCounter) u.changes ∧
        v.work = toldOfReplacement u.ring.exhausted (windowExhausted v) { u.work with applyDue := false } ∧
        onlyChanges [.carriers, .policy, .heat, .openGrants, .ring, .changes, .work] u v)

/-- SWITCH_APPLY: EXCHANGE saves the working copy and loads slot k; RELOAD rewrites every slot from the image and loads
the active slot again; then SWITCH (APPLIED). A hold that stands is cleared first. The new working copy's readers are
told, with EXHAUSTED on an onset.
Model's choices: assumptions 1, 4. -/
def Obligations.SwitchApplyLoadsASlot : Prop :=
  ∀ (first : List FrameWork) (s : State), s.pins.rstN = true →
    (s.work.switchDue = false → exec (.switchApply first) s = .next s) ∧
    (s.work.switchDue = true →
      let u := takeLateWorks first s
      ∀ w, u.policy.pendingSwitch = some w →
      let (slots, k) := match w with
        | .exchange k => (u.policy.slots.set u.policy.activeIndex u.policy.workingCopy, k)
        | .reload => (loadedSlots u.image.toList, u.policy.activeIndex)
      ∃ v, exec (.switchApply first) s = .next v ∧
        v.policy =
          { u.policy with
            slots, workingCopy := slots.get k, activeIndex := k, pendingSwitch := none,
            exitHold := if u.work.holdClearDue then false else u.policy.exitHold } ∧
        v.heat = { u.heat with dutyCounter := min u.heat.dutyCounter (slots.get k).cycleLength } ∧
        v.changes =
          reported (.switchApplied (match w with | .exchange _ => .exchange | .reload => .reload) k u.timing.frameCounter)
            u.changes ∧
        v.ring = { u.ring with exhausted := windowExhausted v } ∧
        v.work = toldOfReplacement u.ring.exhausted (windowExhausted v)
          { u.work with switchDue := false, holdClearDue := false } ∧
        onlyChanges [.policy, .heat, .ring, .changes, .work] u v)

/-- EXIT_HOLD_CLEAR: a hold that the frame event found is cleared, and nothing else changes. -/
def Sys2Proof.Claims.ExitHoldClears : Prop :=
  ∀ s : State, s.pins.rstN = true →
    (s.work.holdClearDue = true → exec .exitHoldClear s = .next
      { s with policy := { s.policy with exitHold := false }, work := { s.work with holdClearDue := false } }) ∧
    (s.work.holdClearDue = false → exec .exitHoldClear s = .next s)

/-- The exit flag and the cause bit of each class of policy fault event. -/
def Sys2Proof.Claims.ExitFlagsAndCauseBits : Prop :=
  (∀ c : Context, exitFlag c .sensor = c.exitSensor ∧ exitFlag c .critical = c.exitCritical ∧
    exitFlag c .exhausted = c.exitExhausted ∧ exitFlag c .overshoot = c.exitOvershoot ∧
    exitFlag c .timing = c.exitTiming) ∧
  [FaultClass.sensor, .critical, .exhausted, .overshoot, .timing].map faultBit = [0, 1, 2, 3, 4]

/-- POLICY_FAULT_EVENT: ignored where the exit flag is no; merged while the hold is set; absorbed where the fallback is
the active slot; otherwise a fallback exit. -/
def Sys2Proof.Claims.PolicyFaultIgnoredMergedAbsorbedOrExit : Prop :=
  ∀ (c : FaultClass) (first : List FrameWork) (s : State), s.pins.rstN = true →
    (c ∉ s.work.faults → exec (.policyFaultEvent c first) s = .next s) ∧
    (c ∈ s.work.faults →
      let b := takeLateWorks first s
      let u : State := { b with work := { b.work with faults := b.work.faults.erase c } }
      let p := u.policy
      let f := p.workingCopy.fallback
      let written (r : ExitRecord) (v : State) : State :=
        raised (.exit r) { v with policy := { v.policy with exitRecord := some r } }
      (exitFlag p.workingCopy c = false → exec (.policyFaultEvent c first) s = .next u) ∧
      (exitFlag p.workingCopy c = true → p.exitHold = true → ∀ r, p.exitRecord = some r →
        exec (.policyFaultEvent c first) s = .next (written { r with causes := r.causes ||| 1#5 <<< faultBit c } u)) ∧
      (exitFlag p.workingCopy c = true → p.exitHold = false → f = p.activeIndex →
        exec (.policyFaultEvent c first) s = .next
          (written
            { causes := 1#5 <<< faultBit c, fromIndex := f, toIndex := f, frameCount := u.timing.frameCounter,
              absorbed := true } u)) ∧
      (exitFlag p.workingCopy c = true → p.exitHold = false → f ≠ p.activeIndex →
        let r : ExitRecord :=
          { causes := 1#5 <<< faultBit c, fromIndex := p.activeIndex, toIndex := f,
            frameCount := u.timing.frameCounter, absorbed := false }
        ∃ v, exec (.policyFaultEvent c first) s = .next v ∧
          v.policy =
            { p with
              slots := p.slots.set p.activeIndex p.workingCopy, workingCopy := p.slots.get f, activeIndex := f,
              pendingSwitch := none, exitHold := true, exitRecord := some r } ∧
          v.carriers = { u.carriers with staging := .closed } ∧
          v.changes = reported (.exit r)
            (let d := match p.pendingSwitch with
              | none => u.changes
              | some w => reported (.switchCancelled w) u.changes
            if stagingExists u then reported (.configDropped u.timing.frameCounter) d else d) ∧
          v.heat = { u.heat with dutyCounter := min u.heat.dutyCounter (p.slots.get f).cycleLength } ∧
          v.ring = { u.ring with exhausted := windowExhausted v } ∧
          v.work = toldOfReplacement u.ring.exhausted (windowExhausted v)
            { u.work with
              switchDue := if p.pendingSwitch.isSome then false else u.work.switchDue
              applyDue := if stagingExists u then false else u.work.applyDue } ∧
          onlyChanges [.policy, .carriers, .changes, .heat, .ring, .work] u v))

/-- POLICY_FAULT_EVENT and EXIT_HOLD_CLEAR (R155, R156, R157, R158, R159).
Model's choices: assumptions 1, 4. -/
def Obligations.PolicyFaultsAndTheExitHold : Prop :=
  Sys2Proof.Claims.ExitFlagsAndCauseBits ∧ Sys2Proof.Claims.PolicyFaultIgnoredMergedAbsorbedOrExit ∧
    Sys2Proof.Claims.ExitHoldClears

/-- The window figures: the window sum over the OPEN record and the W before it, 127 at W = 128; the budget; the
headroom; the utilisation; exhaustion. -/
def Sys2Proof.Claims.WindowFiguresFollowTheRecords : Prop :=
  ∀ s : State,
    let c := s.policy.workingCopy
    windowSum s = ((List.range 128).map fun k =>
      if k ≤ c.window then (recordAt s (s.ring.writePosition - Fin.ofNat 128 k)).energy else 0).sum ∧
    budget s = c.averageLimit * c.window * c.interval * 10 ∧
    (windowExhausted s = true ↔ budget s ≤ windowSum s) ∧
    (windowSum s < budget s → headroom s = budget s - windowSum s ∧ utilisation s = 16 * windowSum s / budget s) ∧
    (budget s ≤ windowSum s → headroom s = 0 ∧ utilisation s = 16)

/-- The cause set: ZONE_CRIT while a CRITICAL zone has critical action INHIBIT, EXPOSURE while the window is exhausted
with hard stop yes. -/
def Sys2Proof.Claims.CauseSetFollowsZonesAndExhaustion : Prop :=
  ∀ s : State,
    ((causesOf s).zoneCrit = true ↔ ∃ z, (zoneGet s.heat.zones z).state = .level .critical ∧
      zoneGet s.policy.workingCopy.criticalAction z = .inhibit) ∧
    ((causesOf s).exposure = true ↔ s.ring.exhausted = true ∧ s.policy.workingCopy.hardStop = true) ∧
    ∀ c : Causes, causesAny c = true ↔ c.zoneCrit = true ∨ c.exposure = true

/-- INHIBIT_NOTICE: the cause set is recomputed; a changed one sets the level and raises INHIBIT, an unchanged one
changes nothing but the notice. -/
def Sys2Proof.Claims.InhibitNoticeRecomputes : Prop :=
  ∀ (n : Notice) (s : State), s.pins.rstN = true →
    (n ∉ s.work.notices → exec (.inhibitNotice n) s = .next s) ∧
    (n ∈ s.work.notices →
      let u : State := { s with work := { s.work with notices := s.work.notices.erase n } }
      ∃ zc ex : Bool,
        (zc = true ↔ ∃ z, (zoneGet s.heat.zones z).state = .level .critical ∧
          zoneGet s.policy.workingCopy.criticalAction z = .inhibit) ∧
        (ex = true ↔ s.ring.exhausted = true ∧ s.policy.workingCopy.hardStop = true) ∧
        let causes : Causes := { zoneCrit := zc, exposure := ex }
        (causes = s.inhibit.causes → exec (.inhibitNotice n) s = .next u) ∧
        (causes ≠ s.inhibit.causes → exec (.inhibitNotice n) s = .next
          (raised (.inhibit (zc || ex) causes s.timing.frameCounter)
            { u with inhibit := { causes, txinh := zc || ex } })))

/-- The window figures, the exhausted comparison, the cause set and INHIBIT_NOTICE (R135, R136, R137, R166, R167).
Model's choices: assumptions 1, 4. -/
def Obligations.ExhaustionAndInhibitAreRecomputed : Prop :=
  Sys2Proof.Claims.WindowFiguresFollowTheRecords ∧ Sys2Proof.Claims.ExhaustionIsCompared ∧
    Sys2Proof.Claims.CauseSetFollowsZonesAndExhaustion ∧ Sys2Proof.Claims.InhibitNoticeRecomputes

/-! ## Link Port -/

/-- BYTE_ON_RXD: a byte taken in HUNTING and in RECEIVING (2 ms is 6000 bit times). -/
def Sys2Proof.Claims.ByteIsTaken : Prop :=
  ∀ (t : Moment) (b : RxByte) (s : State), s.pins.rstN = true →
    let m := max s.now t
    let put (r : Receive) : State := { s with now := m, link := { s.link with receive := r } }
    (s.link.receive = .hunting →
      (b.stopBit = true → b.value = 0xC3 → exec (.byteOnRxd t b) s = .next (put (.receiving [] (m + 6000)))) ∧
      (b.stopBit = false ∨ b.value ≠ 0xC3 → exec (.byteOnRxd t b) s = .next { s with now := m })) ∧
    ∀ bytes gap, s.link.receive = .receiving bytes gap → partialKept s.link.receive →
      (b.stopBit = false → exec (.byteOnRxd t b) s = .next (put .hunting)) ∧
      (b.stopBit = true →
        (bytes.length < 2 → exec (.byteOnRxd t b) s = .next (put (.receiving (bytes ++ [b.value]) (m + 6000)))) ∧
        (bytes.length = 2 → 250 < b.value.toNat → exec (.byteOnRxd t b) s = .next (put .hunting)) ∧
        (bytes.length = 2 → b.value.toNat ≤ 250 →
          exec (.byteOnRxd t b) s = .next (put (.receiving (bytes ++ [b.value]) (m + 6000)))) ∧
        ∀ kind tag len rest, bytes = kind :: tag :: len :: rest →
          (rest.length < len.toNat + 1 →
            exec (.byteOnRxd t b) s = .next (put (.receiving (bytes ++ [b.value]) (m + 6000)))) ∧
          ∀ payload c, rest = payload ++ [c] → payload.length = len.toNat →
            exec (.byteOnRxd t b) s = .next
              { s with
                now := m
                link := judgeFrame { kind, tag, payload } (c ++ b.value) { s.link with receive := .hunting } })

/-- FRAME_RECEIVED on a hunting port: a frame whose check fails draws BAD_CHECK, a good one joins the receive queue, or
draws BUSY where 4 wait; a port reply is not made where 8 wait. -/
def Sys2Proof.Claims.CompleteFrameIsJudged : Prop :=
  ∀ (t : Moment) (kind tag : Byte) (payload : List Byte) (c1 c0 : Byte) (s : State), s.pins.rstN = true →
    s.link.receive = .hunting → payload.length ≤ 250 →
    let bytes := [0xC3, kind, tag, BitVec.ofNat 8 payload.length] ++ payload ++ [c1, c0]
    let after (l : LinkPort) : State := { s with now := max s.now t, link := l }
    let answered (k : Byte) (p : List Byte) : LinkPort :=
      if s.link.portQueue.length < 8 then
        arbitrate { s.link with
          portQueue := s.link.portQueue ++
            [{ frame := { kind := k, tag, payload := p, check := frameCheck k tag p }, behind := waitingResets s.link }] }
      else s.link
    (frameCheck kind tag payload ≠ c1 ++ c0 →
      exec (.frameReceived t (onLine bytes)) s = .next (after (answered 0xFE [0x02, kind]))) ∧
    (frameCheck kind tag payload = c1 ++ c0 → s.link.receiveQueue.length < 4 →
      exec (.frameReceived t (onLine bytes)) s = .next
        (after { s.link with receiveQueue := s.link.receiveQueue ++ [{ kind, tag, payload }] })) ∧
    (frameCheck kind tag payload = c1 ++ c0 → 4 ≤ s.link.receiveQueue.length →
      exec (.frameReceived t (onLine bytes)) s = .next (after (answered (kind + 0x80) [0x01])))

/-- The cyclic check: each byte folded from its top bit down, the register shifted toward its top and combined with 0x1021
where its top bit differed from the data bit; a frame's check folds kind, tag, length and payload into 0xFFFF. -/
def Sys2Proof.Claims.CyclicCheckFoldsBits : Prop :=
  let bit (r : Word16) (d : Bool) : Word16 := if r.getLsbD 15 = d then r <<< 1 else (r <<< 1) ^^^ 0x1021
  (∀ r : Word16, crcFold r [] = r) ∧
    (∀ (r : Word16) (b : Byte) (rest : List Byte),
      crcFold r (b :: rest) = crcFold ([7, 6, 5, 4, 3, 2, 1, 0].foldl (fun x i => bit x (b.getLsbD i)) r) rest) ∧
    (∀ (kind tag : Byte) (payload : List Byte),
      frameCheck kind tag payload = crcFold 0xFFFF (kind :: tag :: oneByte payload.length :: payload)) ∧
    crcFold 0xFFFF [0x31, 0x32, 0x33, 0x34, 0x35, 0x36, 0x37, 0x38, 0x39] = 0x29B1

/-- A complete frame's judgement on any port: BAD_CHECK, a place in the receive queue, or BUSY; a port reply joins its
queue where fewer than 8 wait. -/
def Sys2Proof.Claims.JudgementOfAFrame : Prop :=
  ∀ (f : RxFrame) (check : Word16) (l : LinkPort),
    let answered (k : Byte) (p : List Byte) : LinkPort :=
      if l.portQueue.length < 8 then
        arbitrate { l with
          portQueue := l.portQueue ++
            [{ frame := { kind := k, tag := f.tag, payload := p, check := frameCheck k f.tag p }
               behind := waitingResets l }] }
      else l
    (frameCheck f.kind f.tag f.payload ≠ check → judgeFrame f check l = answered 0xFE [0x02, f.kind]) ∧
    (frameCheck f.kind f.tag f.payload = check →
      (l.receiveQueue.length < 4 → judgeFrame f check l = { l with receiveQueue := l.receiveQueue ++ [f] }) ∧
      (4 ≤ l.receiveQueue.length → judgeFrame f check l = answered (f.kind + 0x80) [0x01]))

/-- FRAME_RECEIVED and the cyclic check that judges it (R133, R179, R181).
Model's choices: assumptions 2, 6, 15, 17. -/
def Obligations.FrameIsJudged : Prop :=
  Sys2Proof.Claims.CompleteFrameIsJudged ∧ Sys2Proof.Claims.JudgementOfAFrame ∧
    Sys2Proof.Claims.CyclicCheckFoldsBits

/-- BYTE_GAP_TIMEOUT: the partial frame is discarded without a reply; a stopped timer does not expire (assumption 1). -/
def Sys2Proof.Claims.ByteGapDiscardsThePartialFrame : Prop :=
  ∀ s : State, s.pins.rstN = true →
    (s.link.receive = .hunting → exec .byteGapTimeout s = .next s) ∧
    ∀ bytes e, s.link.receive = .receiving bytes e →
      exec .byteGapTimeout s = .next { s with now := max s.now e, link := { s.link with receive := .hunting } }

/-- BYTE_ON_RXD and BYTE_GAP_TIMEOUT (R179, R180).
Model's choices: assumptions 1, 2, 6. -/
def Obligations.BytesAreCollected : Prop :=
  Sys2Proof.Claims.ByteIsTaken ∧ Sys2Proof.Claims.ByteGapDiscardsThePartialFrame

/-- REQUEST_DECODE: the oldest frame is answered, UNKNOWN_KIND and BAD_LENGTH without its owner and otherwise by it;
while HELD, with no frame, or with 4 replies waiting, nothing is taken.
Model's choices: assumptions 1, 2, 4, 17. -/
def Obligations.DecoderAnswersTheOldestFrame : Prop :=
  ∀ (t : Moment) (s : State), s.pins.rstN = true →
    (s.link.decoder = .held ∨ s.link.receiveQueue = [] ∨ 4 ≤ s.link.replyQueue.length →
      exec (.requestDecode t) s = .next s) ∧
    ∀ f rest, s.link.decoder = .running → s.link.receiveQueue = f :: rest → s.link.replyQueue.length < 4 →
      let v := settle { s with now := max s.now t }
      let u : State := { v with link := { v.link with receiveQueue := rest } }
      let refused (r : Reply) : State := { u with link := addReply f.kind f.tag false r u.link }
      (f.kind.toNat = 0 ∨ 22 < f.kind.toNat →
        exec (.requestDecode t) s = .next (refused { status := .unknownKind, detail := [] })) ∧
      (f.kind.toNat ≠ 0 → f.kind.toNat ≤ 22 → f.payload.length ∉ kindLengths f.kind.toNat →
        exec (.requestDecode t) s = .next
          (refused { status := .badLength, detail := [BitVec.ofNat 8 f.payload.length] })) ∧
      (f.payload.length ∈ kindLengths f.kind.toNat → ∃ req, requestKind req = f.kind ∧ requestPayload req = f.payload ∧
        exec (.requestDecode t) s = .next (replied f.tag req (ownRequest req u).2 (ownRequest req u).1))

/-- TRANSMIT_COMPLETE: the arbiter sends the oldest port reply that does not wait behind a RESET_PART DONE, or else the
oldest decoder reply, or nothing. -/
def Sys2Proof.Claims.TransmitterTakesTheNextReply : Prop :=
  ∀ s : State, s.pins.rstN = true →
    (s.link.transmitter = none → exec .transmitComplete s = .next s) ∧
    ∀ f, s.link.transmitter = some f → s.link.decoder = .running →
      let put (l : LinkPort) : State := { s with link := l }
      (∀ q rest, s.link.portQueue = q :: rest → q.behind = 0 → exec .transmitComplete s = .next
        (put { s.link with portQueue := rest, transmitter := some q.frame })) ∧
      ((∀ q rest, s.link.portQueue = q :: rest → q.behind ≠ 0) →
        (s.link.replyQueue = [] → exec .transmitComplete s = .next (put { s.link with transmitter := none })) ∧
        ∀ r rest, s.link.replyQueue = r :: rest → exec .transmitComplete s = .next
          (put { s.link with
            replyQueue := rest
            portQueue :=
              if r.isReset then s.link.portQueue.map (fun q => { q with behind := q.behind - 1 }) else s.link.portQueue
            transmitter := some r.frame }))

/-- A decoder reply is a frame of the request's kind plus 0x80 and the request's tag, its payload led by the status; it
waits behind the replies before it, or is sent at once on an idle line. -/
def Sys2Proof.Claims.ReplyFrameJoinsTheReplyQueue : Prop :=
  ∀ (kind tag : Byte) (isReset : Bool) (r : Reply) (l : LinkPort),
    let payload := statusCode r.status :: r.detail
    let f : TxFrame := { kind := kind + 0x80, tag, payload, check := frameCheck (kind + 0x80) tag payload }
    (∀ g, l.transmitter = some g →
      addReply kind tag isReset r l = { l with replyQueue := l.replyQueue ++ [{ frame := f, isReset }] }) ∧
    (l.decoder = .running → l.transmitter = none → l.replyQueue = [] → l.portQueue = [] →
      addReply kind tag isReset r l = { l with transmitter := some f })

/-- The arbiter's choice: on a busy line, or while HELD, none; on an idle line the oldest port reply that waits behind no
RESET_PART DONE, or else the oldest decoder reply. -/
def Sys2Proof.Claims.ArbiterChoosesTheNextReply : Prop :=
  ∀ l : LinkPort,
    waitingResets l = (l.replyQueue.filter fun r => r.isReset).length ∧
    (l.decoder = .held ∨ l.transmitter ≠ none → arbitrate l = l) ∧
    (l.decoder = .running → l.transmitter = none →
      (∀ q rest, l.portQueue = q :: rest → q.behind = 0 →
        arbitrate l = { l with portQueue := rest, transmitter := some q.frame }) ∧
      ((∀ q rest, l.portQueue = q :: rest → q.behind ≠ 0) →
        (l.replyQueue = [] → arbitrate l = l) ∧
        ∀ r rest, l.replyQueue = r :: rest → arbitrate l =
          { l with
            replyQueue := rest
            portQueue := if r.isReset then l.portQueue.map (fun q => { q with behind := q.behind - 1 }) else l.portQueue
            transmitter := some r.frame }))

/-- The codes of the statuses. -/
def Sys2Proof.Claims.StatusCodes : Prop :=
  [Status.done, .busy, .badCheck, .badLength, .unknownKind, .badField, .noTiming, .stale, .ahead, .duplicate, .notOpen,
      .alreadyOpen, .inconsistent, .stagingBusy, .switchPending, .late, .unmatched, .overshoot].map statusCode =
    (List.range 18).map oneByte

/-- TRANSMIT_COMPLETE, the arbiter, and a decoder reply's way to the line (R177, R182, R184, R190).
Model's choices: assumptions 1, 15, 17. -/
def Obligations.RepliesAreQueuedAndSentInOrder : Prop :=
  Sys2Proof.Claims.TransmitterTakesTheNextReply ∧ Sys2Proof.Claims.ArbiterChoosesTheNextReply ∧
    Sys2Proof.Claims.ReplyFrameJoinsTheReplyQueue ∧ Sys2Proof.Claims.StatusCodes

/-- A request commanded by its row does what its frame does: received on a hunting line and then decoded (the row's
meaning for a request that is taken at once is the model's choice, assumption 5). -/
def Sys2Proof.Claims.RequestRowIsItsFrameDecoded : Prop :=
  ∀ (t : Moment) (tag : Byte) (req : Request) (c : Instr) (s : State), rowOf t tag req = some c → requestReady s →
    s.link.receive = .hunting → (requestPayload req).length ≤ 250 →
    ∃ v w, exec (.frameReceived t (onLine (frameBytes (requestKind req) tag (requestPayload req)))) s = .next v ∧
      exec (.requestDecode t) v = .next w ∧ exec c { s with now := max s.now t } = .next w

/-- Every request is read back from its kind and payload, where the kind accepts the payload's length; no other payload
length of a known kind is read as an acceptable request. -/
def Obligations.RequestPayloadReadsBack : Prop :=
  (∀ req : Request, requestOfBytes (requestKind req) (requestPayload req) = some req ∧
    (lengthAccepted req = true ↔ (requestPayload req).length ∈ kindLengths (requestKind req).toNat)) ∧
  ∀ (kind : Byte) (payload : List Byte) (req : Request), requestOfBytes kind payload = some req →
    requestKind req = kind ∧ requestPayload req = payload

/-- A request commanded by its row while the decoder cannot take it at once: its frame joins the receive queue, or draws
BUSY where 4 wait (the row's meaning there is the model's choice, assumption 5). -/
def Sys2Proof.Claims.RequestThatMustWaitIsQueued : Prop :=
  ∀ (t : Moment) (tag : Byte) (req : Request) (c : Instr) (s : State), rowOf t tag req = some c → t ≤ s.now →
    s.pins.rstN = true → ¬ requestReady s → (requestPayload req).length ≤ 250 →
    let f : RxFrame := { kind := requestKind req, tag, payload := requestPayload req }
    (s.link.receiveQueue.length < 4 → exec c s = .next
      { s with link := { s.link with receiveQueue := s.link.receiveQueue ++ [f] } }) ∧
    (4 ≤ s.link.receiveQueue.length → s.link.portQueue.length < 8 → exec c s = .next
      { s with link := arbitrate { s.link with
          portQueue := s.link.portQueue ++
            [{ frame :=
                { kind := f.kind + 0x80, tag, payload := [0x01], check := frameCheck (f.kind + 0x80) tag [0x01] }
               behind := waitingResets s.link }] } }) ∧
    (4 ≤ s.link.receiveQueue.length → 8 ≤ s.link.portQueue.length → exec c s = .next s)

/-- A request row is the request's frame, received and decoded, or queued where the decoder cannot take it at once (the
model's choice of a request row's meaning, assumption 5).
Model's choices: assumptions 2, 5, 6, 15, 17. -/
def Obligations.RequestRowIsItsFrame : Prop :=
  Sys2Proof.Claims.RequestRowIsItsFrameDecoded ∧ Sys2Proof.Claims.RequestThatMustWaitIsQueued

/-! ## Carrier Table and Policy Store requests -/

/-- STAGE_OPEN. -/
def Sys2Proof.Claims.StageOpenCopiesTheLiveConfiguration : Prop :=
  ∀ (tag : Byte) (s : State), requestReady s →
    let u := settle s
    let answer (r : Reply) (v : State) : Prop := exec (.stageOpen tag) s = .next (replied tag .stageOpen r v)
    (u.carriers.staging = .closed → u.policy.pendingSwitch = none →
      answer (done [])
        { u with carriers := { u.carriers with
            staging := .opened
              { entries := u.carriers.entries, slotsPerFrame := u.carriers.slotsPerFrame,
                workingCopy := u.policy.workingCopy } } }) ∧
    (u.carriers.staging = .closed → u.policy.pendingSwitch ≠ none → answer (refuse .switchPending []) u) ∧
    (u.carriers.staging ≠ .closed → answer (refuse .alreadyOpen []) u)

/-- STAGE_CARRIER. -/
def Sys2Proof.Claims.StageCarrierReplacesOneStagedEntry : Prop :=
  ∀ (tag index : Byte) (raw : RawCarrier) (s : State), requestReady s →
    let u := settle s
    let answer (r : Reply) (v : State) : Prop :=
      exec (.stageCarrier tag index raw) s = .next (replied tag (.stageCarrier index raw) r v)
    let legal : List Bool :=
      [decide (index.toNat ≤ 7), decide (raw.enabled.toNat ≤ 1), decide (raw.role.toNat ≤ 1),
        decide (raw.anchor.toNat ≤ 7), decide (raw.zone.toNat ≤ 2), decide (raw.priority.toNat ≤ 3),
        decide (raw.floor.toNat ≤ 127), decide (raw.ceiling.toNat ≤ 127),
        decide (-16 ≤ raw.gain.toInt ∧ raw.gain.toInt ≤ 15)]
    ((∀ set, u.carriers.staging ≠ .opened set) → answer (refuse .notOpen []) u) ∧
    ∀ set, u.carriers.staging = .opened set →
      (∀ n, n < 9 → (∀ k, k < n → legal[k]? = some true) → legal[n]? = some false →
        answer (refuse .badField [BitVec.ofNat 8 n]) u) ∧
      ((∀ b ∈ legal, b = true) → ∃ (i : Fin 8) (e : CarrierEntry),
        i.val = index.toNat ∧ carrierBytes e =
          [raw.enabled, raw.role, raw.anchor, raw.zone, raw.priority, raw.floor, raw.ceiling, raw.gain] ∧
        answer (done [])
          { u with carriers := { u.carriers with staging := .opened { set with entries := set.entries.set i e } } })

/-- STAGE_PARAM; where a per-zone field's zone and value both fail, the zone is named (assumption 18). -/
def Sys2Proof.Claims.StageParamEditsOneStagedField : Prop :=
  ∀ (tag field zone : Byte) (value : Word32) (s : State), requestReady s →
    let u := settle s
    let f := field.toNat
    let v := value.toNat
    let answer (r : Reply) (w : State) : Prop :=
      exec (.stageParam tag field zone value) s = .next (replied tag (.stageParam field zone value) r w)
    let put (set : StagingSet) : State := { u with carriers := { u.carriers with staging := .opened set } }
    ((∀ set, u.carriers.staging ≠ .opened set) → answer (refuse .notOpen []) u) ∧
    ∀ set, u.carriers.staging = .opened set →
      (29 < f → answer (refuse .badField [0]) u) ∧
      (f = 0 → ∀ n, slotCount n = v → answer (done []) (put { set with slotsPerFrame := n })) ∧
      (f = 0 → (∀ n, slotCount n ≠ v) → answer (refuse .badField [2]) u) ∧
      (1 ≤ f → f ≤ 9 → 4 ≤ zone.toNat → answer (refuse .badField [1]) u) ∧
      ∀ lo hi, fieldRange f = some (lo, hi) → (f ≤ 9 → zone.toNat < 4) →
        (v < lo ∨ hi < v → answer (refuse .badField [2]) u) ∧
        (lo ≤ v → v ≤ hi → ∃ w : Context,
          answer (done []) (put { set with workingCopy := w }) ∧
          ∀ g y, 1 ≤ g → g ≤ 29 → contextGet w g y =
            (if g = f ∧ (f ≤ 9 → zoneCode y = zone.toNat) then v else contextGet set.workingCopy g y))

/-- The fixed ranges of the context fields, by number. -/
def Sys2Proof.Claims.FieldRanges : Prop :=
  ([1, 2, 3].map fieldRange = List.replicate 3 (some (1, 510)) ∧ fieldRange 4 = some (0, 31) ∧
    [5, 6, 7, 8].map fieldRange = List.replicate 4 (some (0, 127)) ∧ fieldRange 9 = some (0, 1) ∧
    fieldRange 10 = some (1, 16) ∧ fieldRange 11 = some (1, 8) ∧ fieldRange 12 = some (2, 64) ∧
    fieldRange 13 = some (1, 63) ∧ [14, 15].map fieldRange = List.replicate 2 (some (10, 4000)) ∧
    fieldRange 16 = some (0, 1) ∧ fieldRange 17 = some (1, 2000) ∧ fieldRange 18 = some (8, 128) ∧
    fieldRange 19 = some (50, 400) ∧ fieldRange 20 = some (8, 15) ∧ fieldRange 21 = some (0, 4294967295) ∧
    fieldRange 22 = some (0, 1) ∧ fieldRange 23 = some (2, 8) ∧
    [24, 25, 26, 27, 28].map fieldRange = List.replicate 5 (some (0, 1)) ∧ fieldRange 29 = some (0, 5)) ∧
  (∀ f : Nat, f = 0 ∨ 29 < f → fieldRange f = none) ∧
  ∀ c : Context, contextInRange c = true ↔ ∀ (f lo hi : Nat) (z : Zone), fieldRange f = some (lo, hi) →
    lo ≤ contextGet c f z ∧ contextGet c f z ≤ hi

/-- The fields of a context by number; those of numbers 1 to 9 hold one value for each zone. -/
def Sys2Proof.Claims.FieldsByNumber : Prop :=
  ∀ (c : Context) (z : Zone),
    let flag (b : Bool) : Nat := if b then 1 else 0
    [1, 2, 3, 4, 5, 6, 7, 8, 9].map (fun f => contextGet c f z) =
      [zoneGet c.warmEntry z, zoneGet c.hotEntry z, zoneGet c.criticalEntry z, zoneGet c.hysteresis z,
        zoneGet c.warmCap z, zoneGet c.hotOnCap z, zoneGet c.hotOffCap z, zoneGet c.criticalCap z,
        if zoneGet c.criticalAction z = .inhibit then 1 else 0] ∧
    [10, 11, 12, 13, 14, 15, 16, 17, 18, 19, 20, 21, 22, 23, 24, 25, 26, 27, 28, 29].map (fun f => contextGet c f z) =
      [c.samplePeriod, c.confirmCount, c.cycleLength, c.duty, c.supplyLowCap, c.supplyCriticalCap, flag c.shed,
        c.averageLimit, c.window, c.interval, c.paceThreshold, c.reserve, flag c.hardStop, c.horizon, flag c.exitSensor,
        flag c.exitCritical, flag c.exitExhausted, flag c.exitOvershoot, flag c.exitTiming, c.fallback.val]

/-- STAGE_CARRIER and STAGE_PARAM, and the ranges of the fields (R25, R26, R145).
Model's choices: assumptions 4, 5, 17, 18. -/
def Obligations.StagedEditsAreChecked : Prop :=
  Sys2Proof.Claims.StageCarrierReplacesOneStagedEntry ∧ Sys2Proof.Claims.StageParamEditsOneStagedField ∧
    Sys2Proof.Claims.FieldRanges ∧ Sys2Proof.Claims.FieldsByNumber

/-- STAGE_COMMIT: the carrier part is checked before the context part, and the first failing check is reported. -/
def Sys2Proof.Claims.StageCommitReportsTheFirstFailure : Prop :=
  ∀ (tag : Byte) (s : State), requestReady s →
    let u := settle s
    let answer (r : Reply) (v : State) : Prop := exec (.stageCommit tag) s = .next (replied tag .stageCommit r v)
    ((∀ set, u.carriers.staging ≠ .opened set) → answer (refuse .notOpen []) u) ∧
    ∀ set, u.carriers.staging = .opened set →
      let floorFails (i : Fin 8) : Prop := set.entries[i].ceiling < set.entries[i].floor
      let anchorFails (i : Fin 8) : Prop :=
        set.entries[i].enabled = true ∧ set.entries[i].role = .secondary ∧
          ¬ (set.entries[set.entries[i].anchor].enabled = true ∧ set.entries[set.entries[i].anchor].role = .anchor)
      (∀ i : Fin 8, (∀ j, j < i → ¬ floorFails j ∧ ¬ anchorFails j) →
        (floorFails i → answer (refuse .inconsistent [0, BitVec.ofNat 8 i.val, 6]) u) ∧
        (¬ floorFails i → anchorFails i → answer (refuse .inconsistent [0, BitVec.ofNat 8 i.val, 3]) u)) ∧
      ((∀ i, ¬ floorFails i ∧ ¬ anchorFails i) →
        (∀ k, contextFirstFault set.workingCopy = some k →
          answer (refuse .inconsistent
            [1, (match k.zone with | none => 0xFF | some z => BitVec.ofNat 8 (zoneCode z)), BitVec.ofNat 8 k.field]) u) ∧
        (contextFirstFault set.workingCopy = none →
          answer (done []) { u with carriers := { u.carriers with staging := .commitPending set } }))

/-- A carrier table is consistent where every floor is at or below its ceiling and every enabled SECONDARY names an enabled
ANCHOR; a context, where every field lies in its range and no check of R146 fails. -/
def Sys2Proof.Claims.ConsistencyOfTablesAndContexts : Prop :=
  (∀ entries : Vector CarrierEntry 8, carriersConsistent entries = true ↔ ∀ i : Fin 8,
    entries[i].floor ≤ entries[i].ceiling ∧
      (entries[i].enabled = true → entries[i].role = .secondary →
        entries[entries[i].anchor].enabled = true ∧ entries[entries[i].anchor].role = .anchor)) ∧
  ∀ c : Context, contextConsistent c = true ↔ contextInRange c = true ∧ contextFirstFault c = none

/-- STAGE_COMMIT, and when a carrier table and a context are consistent (R21, R27, R147).
Model's choices: assumptions 4, 5, 17. -/
def Obligations.StageCommitChecksTheSet : Prop :=
  Sys2Proof.Claims.StageCommitReportsTheFirstFailure ∧ Sys2Proof.Claims.ConsistencyOfTablesAndContexts

/-- The consistency checks of a context in the order of R146, each with the field and the zone it reports: a context is
consistent when every check holds, and the first check that fails is the one reported. -/
def Obligations.ContextChecksInOrder : Prop :=
  ∀ c : Context,
    let warm := zoneGet c.warmEntry
    let hot := zoneGet c.hotEntry
    let crit := zoneGet c.criticalEntry
    let hyst := zoneGet c.hysteresis
    let perZone (field : Nat) (check : Zone → Prop) : List (Prop × Nat × Option Zone) :=
      [(check .pa, field, some .pa), (check .antA, field, some .antA), (check .antB, field, some .antB),
        (check .caseZone, field, some .caseZone)]
    let checks : List (Prop × Nat × Option Zone) :=
      perZone 2 (fun z => warm z < hot z) ++ perZone 3 (fun z => hot z < crit z) ++
        perZone 4 (fun z => (hyst z : Int) < (hot z : Int) - warm z ∧ (hyst z : Int) < (crit z : Int) - hot z) ++
        perZone 6 (fun z => zoneGet c.hotOnCap z ≤ zoneGet c.warmCap z) ++
        perZone 7 (fun z => zoneGet c.hotOffCap z ≤ zoneGet c.hotOnCap z) ++
        [(c.duty < c.cycleLength, 13, none), (c.supplyCriticalCap ≤ c.supplyLowCap, 15, none),
          (3000 ≤ c.window * c.interval ∧ c.window * c.interval ≤ 51200, 19, none),
          (c.reserve ≤ c.averageLimit * c.window * c.interval * 5, 21, none)]
    (contextFirstFault c = none ↔ ∀ k ∈ checks, k.1) ∧
      ∀ before failing after, checks = before ++ failing :: after → (∀ k ∈ before, k.1) → ¬ failing.1 →
        ∃ f, contextFirstFault c = some f ∧ f.field = failing.2.1 ∧ f.zone = failing.2.2

/-- STAGE_DROP. -/
def Sys2Proof.Claims.StageDropDiscardsTheSet : Prop :=
  ∀ (tag : Byte) (s : State), requestReady s →
    let u := settle s
    let answer (r : Reply) (v : State) : Prop := exec (.stageDrop tag) s = .next (replied tag .stageDrop r v)
    let closed : State := { u with carriers := { u.carriers with staging := .closed } }
    (u.carriers.staging = .closed → answer (refuse .notOpen []) u) ∧
    (∀ set, u.carriers.staging = .opened set → answer (done []) closed) ∧
    (∀ set, u.carriers.staging = .commitPending set →
      answer (done []) (raised (.configDropped u.timing.frameCounter) closed))

/-- STAGE_OPEN and STAGE_DROP (R24, R28).
Model's choices: assumptions 4, 5, 17. -/
def Obligations.StagingOpensAndDrops : Prop :=
  Sys2Proof.Claims.StageOpenCopiesTheLiveConfiguration ∧ Sys2Proof.Claims.StageDropDiscardsTheSet

/-- EXCHANGE and RELOAD.
Model's choices: assumptions 4, 5, 17. -/
def Obligations.SwitchRequestsBecomePending : Prop :=
  ∀ (tag k : Byte) (s : State), requestReady s →
    let u := settle s
    let answer (r : Reply) (v : State) : Prop := exec (.exchange tag k) s = .next (replied tag (.exchange k) r v)
    let answer' (r : Reply) (v : State) : Prop := exec (.reload tag) s = .next (replied tag .reload r v)
    let busy := u.carriers.staging ≠ .closed
    (5 < k.toNat → answer (refuse .badField [0]) u) ∧
    (busy → (k.toNat ≤ 5 → answer (refuse .stagingBusy []) u) ∧ answer' (refuse .stagingBusy []) u) ∧
    (¬ busy → u.policy.pendingSwitch ≠ none →
      (k.toNat ≤ 5 → answer (refuse .switchPending []) u) ∧ answer' (refuse .switchPending []) u) ∧
    (¬ busy → u.policy.pendingSwitch = none →
      (∀ i : Fin 6, i.val = k.toNat →
        answer (done []) { u with policy := { u.policy with pendingSwitch := some (.exchange i) } }) ∧
      answer' (done []) { u with policy := { u.policy with pendingSwitch := some .reload } })

/-! ## Requests that read -/

/-- READ_CARRIER, READ_PARAM, READ_ZONE, READ_STATE, RING_READ and TRACE_READ are answered DONE with what they name, and
change nothing but the reply queue. -/
def Sys2Proof.Claims.ReadRequestsAnswerAndChangeNothing : Prop :=
  ∀ (tag : Byte) (s : State), requestReady s →
    let u := settle s
    (∀ i : Fin 8, exec (.readCarrier tag (BitVec.ofNat 8 i.val)) s = .next
      (replied tag (.readCarrier (BitVec.ofNat 8 i.val))
        (done (carrierBytes u.carriers.entries[i] ++ [BitVec.ofNat 8 (slotCount u.carriers.slotsPerFrame)])) u)) ∧
    (∀ k : Fin 6, exec (.readParam tag (BitVec.ofNat 8 k.val)) s = .next
      (replied tag (.readParam (BitVec.ofNat 8 k.val))
        (done (BitVec.ofNat 8 u.policy.activeIndex.val :: contextBytes u.policy.slots[k])) u)) ∧
    exec (.readParam tag 6) s = .next
      (replied tag (.readParam 6)
        (done (BitVec.ofNat 8 u.policy.activeIndex.val :: contextBytes u.policy.workingCopy)) u) ∧
    (∀ z : Zone, exec (.readZone tag (BitVec.ofNat 8 (zoneCode z))) s = .next
      (replied tag (.readZone (BitVec.ofNat 8 (zoneCode z)))
        (done (zoneRecordBytes (zoneGet u.heat.zones z) ++
          [BitVec.ofNat 8 u.heat.dutyCounter,
            if u.heat.dutyCounter ≤ u.policy.workingCopy.duty then 0 else 1])) u)) ∧
    exec (.readState tag) s = .next (replied tag .readState (done (summaryBytes u)) u) ∧
    exec (.traceRead tag) s = .next
      (replied tag .traceRead
        (done
          ((match u.engine.armed with
            | none => [0, 0, 0, 0]
            | some a => 1 :: byte2 (a.frame.setWidth 16).toNat ++ [a.slot]) ++
          (match u.engine.snapshot with
            | none => [0]
            | some p => 1 :: snapshotBytes p))) u) ∧
    ∀ start count : Byte, start.toNat ≤ 127 → 1 ≤ count.toNat → count.toNat ≤ 8 →
      exec (.ringRead tag start count) s = .next
        (replied tag (.ringRead start count)
          (done (BitVec.ofNat 8 u.ring.writePosition.val :: byte2 u.ring.framesInInterval ++
            byte2 u.ring.latchedLength ++
            [boolByte u.ring.lowerHeld, boolByte u.ring.upperHeld, boolByte u.ring.exhausted] ++
            (List.range count.toNat).flatMap fun k =>
              let p := Fin.ofNat 128 (start.toNat + k)
              BitVec.ofNat 8 p.val :: intervalRecordBytes (recordAt u p))) u)

/-- The read requests refuse an index, source, zone, start or count outside its range with BAD_FIELD, and change
nothing but the reply queue. -/
def Sys2Proof.Claims.ReadRequestsRefuseBadFields : Prop :=
  ∀ (tag x y : Byte) (s : State), requestReady s →
    let u := settle s
    (7 < x.toNat → exec (.readCarrier tag x) s = .next (replied tag (.readCarrier x) (refuse .badField [0]) u)) ∧
    (6 < x.toNat → exec (.readParam tag x) s = .next (replied tag (.readParam x) (refuse .badField [0]) u)) ∧
    (3 < x.toNat → exec (.readZone tag x) s = .next (replied tag (.readZone x) (refuse .badField [0]) u)) ∧
    (127 < x.toNat → exec (.ringRead tag x y) s = .next (replied tag (.ringRead x y) (refuse .badField [0]) u)) ∧
    (x.toNat ≤ 127 → y.toNat = 0 ∨ 8 < y.toNat →
      exec (.ringRead tag x y) s = .next (replied tag (.ringRead x y) (refuse .badField [1]) u))

/-- The one-byte codes, and numbers in one, two and four bytes. -/
def Sys2Proof.Claims.CodesAndBytes : Prop :=
  ([TimingState.free, .aligning, .locked, .coasting].map timingStateCode = [0, 1, 2, 3] ∧
    [ZoneState.level .cool, .level .warm, .level .hot, .level .critical, .faulted].map zoneStateCode = [0, 1, 2, 3, 4] ∧
    [Level.cool, .warm, .hot, .critical].map levelCode = [0, 1, 2, 3] ∧
    [SupplyState.good, .low, .critical].map supplyStateCode = [0, 1, 2] ∧
    [RecordState.empty, .presumed, .opened, .closed].map recordStateCode = [0, 1, 2, 3] ∧
    [Role.anchor, .secondary].map roleCode = [0, 1] ∧
    [CarrierZone.pa, .antA, .antB].map carrierZoneCode = [0, 1, 2] ∧
    [Zone.pa, .antA, .antB, .caseZone].map zoneCode = [0, 1, 2, 3] ∧
    [Reason.none, .inhibit, .disabled, .window, .zone, .duty, .shed, .anchor, .supply, .exposure].map reasonCode =
      [0, 1, 2, 3, 4, 5, 6, 7, 8, 9] ∧
    [StoreStatus.good, .isPartial, .bad].map storeStatusCode = [0, 1, 2] ∧
    [SlotsPerFrame.one, .two, .four, .eight, .sixteen].map slotCount = [1, 2, 4, 8, 16]) ∧
  (powerByte .off = 0xFF ∧ (∀ c, powerByte (.code c) = oneByte c) ∧ boolByte true = 1 ∧ boolByte false = 0) ∧
  (∀ v : Nat, byte2 v = bigEndian 2 v ∧ byte4 v = fourBytes v) ∧
  ∀ v : Int, signedBytes 2 v = bigEndian 2 (v % 65536).toNat

/-- The layouts of a carrier entry, a zone record, an interval record, an Exit Record and a Decision Snapshot. -/
def Sys2Proof.Claims.RecordLayouts : Prop :=
  (∀ e : CarrierEntry, carrierBytes e =
    [boolByte e.enabled, oneByte (roleCode e.role), oneByte e.anchor.val, oneByte (carrierZoneCode e.zone),
      oneByte e.priority.val, oneByte e.floor, oneByte e.ceiling, BitVec.ofInt 8 e.gain]) ∧
  (∀ r : ZoneRecord, zoneRecordBytes r =
    [oneByte (zoneStateCode r.state)] ++ bigEndian 2 r.lastRaw.toNat ++
      bigEndian 2 (match r.temperature with | none => 0 | some t => t) ++
      [match r.candidate with | none => 0xFF | some l => oneByte (levelCode l), oneByte r.agreeCount]) ∧
  (∀ r : IntervalRecord, intervalRecordBytes r =
    [oneByte (recordStateCode r.state)] ++ fourBytes r.number ++ fourBytes r.energy ++ fourBytes r.anchorEnergy ++
      bigEndian 2 r.grants ++ bigEndian 2 r.throttled ++
      [oneByte r.unreported, oneByte r.corrected, oneByte r.unmatched,
        match r.peak with | none => 0xFF | some c => oneByte c] ++
      bigEndian 2 r.signature.toNat) ∧
  (∀ r : ExitRecord, exitRecordBytes r =
    [oneByte r.causes.toNat, oneByte r.fromIndex.val, oneByte r.toIndex.val] ++ bigEndian 4 r.frameCount.toNat ++
      [boolByte r.absorbed]) ∧
  ∀ p : Snapshot, snapshotBytes p =
    bigEndian 4 p.position.toNat ++ [oneByte p.carriers.length] ++
      p.carriers.flatMap (fun g => [oneByte g.index.val, powerByte g.requested] ++ g.afterStages.map powerByte ++
        [powerByte g.granted, oneByte (reasonCode g.reason)]) ++
      [oneByte (zoneStateCode p.zoneStates.pa), oneByte (zoneStateCode p.zoneStates.antA),
        oneByte (zoneStateCode p.zoneStates.antB), oneByte (zoneStateCode p.zoneStates.caseZone),
        oneByte (supplyStateCode p.supply), if p.phase = .on then 0 else 1] ++
      fourBytes p.windowSum ++ fourBytes p.budget ++ fourBytes p.headroom ++
      [oneByte p.utilisation, oneByte p.activeIndex.val]

/-- The 42 bytes of the state summary in their order. -/
def Sys2Proof.Claims.SummaryLayout : Prop :=
  ∀ s : State, (summaryBytes s).length = 42 ∧ summaryBytes s =
    [oneByte (timingStateCode s.timing.state)] ++ bigEndian 4 s.timing.frameCounter.toNat ++
      [oneByte s.policy.activeIndex.val] ++
      (match s.policy.pendingSwitch with
        | none => [0, 0xFF]
        | some (.exchange k) => [1, oneByte k.val]
        | some .reload => [2, 0xFF]) ++
      [match s.carriers.staging with | .closed => 0 | .opened _ => 1 | .commitPending _ => 2,
        oneByte (zoneStateCode s.heat.zones.pa.state), oneByte (zoneStateCode s.heat.zones.antA.state),
        oneByte (zoneStateCode s.heat.zones.antB.state), oneByte (zoneStateCode s.heat.zones.caseZone.state),
        oneByte (supplyStateCode s.supply.state), oneByte s.heat.dutyCounter,
        if s.heat.dutyCounter ≤ s.policy.workingCopy.duty then 0 else 1, if s.inhibit.txinh then 1 else 0,
        (if s.inhibit.causes.zoneCrit then 1 else 0) ||| (if s.inhibit.causes.exposure then 2 else 0)] ++
      fourBytes (windowSum s) ++ fourBytes (budget s) ++
      [oneByte (utilisation s), oneByte s.openGrants.entries.length] ++ bigEndian 4 s.openGrants.expiryMark.toNat ++
      [oneByte (storeStatusCode s.policy.storeStatus)] ++
      (match s.policy.exitRecord with
        | none => List.replicate 9 0
        | some r => 1 :: exitRecordBytes r)

/-- The six requests that read: READ_CARRIER, READ_PARAM, READ_ZONE, READ_STATE, RING_READ and TRACE_READ, and the bytes of
their replies (R22, R50, R98, R144, R150, R176, R188, R193).
Model's choices: assumptions 4, 5, 17. -/
def Obligations.ReadRequestsAnswerOrRefuse : Prop :=
  Sys2Proof.Claims.ReadRequestsAnswerAndChangeNothing ∧ Sys2Proof.Claims.ReadRequestsRefuseBadFields ∧
    Sys2Proof.Claims.CodesAndBytes ∧ Sys2Proof.Claims.RecordLayouts ∧ Sys2Proof.Claims.SummaryLayout

/-- RING_RELEASE. -/
def Sys2Proof.Claims.RingReleaseClearsAHeldFlag : Prop :=
  ∀ (tag half : Byte) (s : State), requestReady s →
    let u := settle s
    let answer (r : Reply) (v : State) : Prop := exec (.ringRelease tag half) s = .next (replied tag (.ringRelease half) r v)
    (half = 0 → answer (done []) { u with ring := { u.ring with lowerHeld := false } }) ∧
    (half = 1 → answer (done []) { u with ring := { u.ring with upperHeld := false } }) ∧
    (1 < half.toNat → answer (refuse .badField [0]) u)

/-! ## Change Reporter -/

/-- A change raised: an enabled source's place becomes pending with the new detail and ALERT_N is asserted; a disabled
source's change has no effect. -/
def Sys2Proof.Claims.RaisedChangeIsKept : Prop :=
  ∀ (c : Change) (s : State),
    (s.changes.mask.getLsbD (changeSource c) = true → ∃ v, raiseChange c s = v ∧
      v.changes.places[changeSource c] = some c ∧
      (∀ i : Fin 15, i ≠ changeSource c → v.changes.places[i] = s.changes.places[i]) ∧
      v.changes.alert = true ∧ v.changes.mask = s.changes.mask ∧ v.changes.clearMode = s.changes.clearMode ∧
      onlyChanges [.changes] s v) ∧
    (s.changes.mask.getLsbD (changeSource c) = false → raiseChange c s = s)

/-- The number of the source of each change. -/
def Sys2Proof.Claims.ChangesHaveTheirSources : Prop :=
  (∀ z st t, (changeSource (.zone z st t)).val = zoneCode z) ∧
  (∀ a b f, changeSource (.supply a b f) = 4) ∧
  (∀ e f, changeSource (.timing e f) = 5) ∧
  (∀ f, changeSource (.configApplied f) = 6 ∧ changeSource (.configDropped f) = 6) ∧
  (∀ k i f, changeSource (.switchApplied k i f) = 7) ∧ (∀ w, changeSource (.switchCancelled w) = 7) ∧
  (∀ r, changeSource (.exit r) = 8) ∧
  (∀ l c f, changeSource (.inhibit l c f) = 9) ∧
  (∀ p, changeSource (.traceCaptured p) = 10 ∧ changeSource (.traceMissed p) = 10) ∧
  (∀ h n, changeSource (.ringHalf h n) = 11 ∧ changeSource (.ringOverrun h n) = 12) ∧
  (∀ p, changeSource (.overshoot p) = 13) ∧ ∀ st k, changeSource (.store st k) = 14

/-- A change raised takes the place of its source (R170, R172). -/
def Obligations.RaisedChangeTakesItsPlace : Prop :=
  Sys2Proof.Claims.RaisedChangeIsKept ∧ Sys2Proof.Claims.ChangesHaveTheirSources

/-- CHANGES_READ returns every place, the mask and the mode; in ON_READ it clears what it returns, in ON_ACK nothing. -/
def Sys2Proof.Claims.ChangesReadReturnsAndClears : Prop :=
  ∀ (tag : Byte) (s : State), requestReady s →
    let u := settle s
    let reply := done (byte2 u.changes.mask.toNat ++ [if u.changes.clearMode = .onRead then 0 else 1] ++
      byte2 (pendingSet u.changes.places).toNat ++ u.changes.places.toList.flatMap placeBytes)
    (u.changes.clearMode = .onAck → exec (.changesRead tag) s = .next (replied tag .changesRead reply u)) ∧
    (u.changes.clearMode = .onRead → ∃ v, exec (.changesRead tag) s = .next (replied tag .changesRead reply v) ∧
      (∀ i : Fin 15, v.changes.places[i] = none) ∧ v.changes.alert = false ∧ v.changes.mask = u.changes.mask ∧
      v.changes.clearMode = .onRead ∧ onlyChanges [.changes] u v)

/-- CHANGES_ACK clears the named places, in either clear mode. -/
def Sys2Proof.Claims.ChangesAckClearsNamedPlaces : Prop :=
  ∀ (tag : Byte) (sources : Word16) (s : State), requestReady s →
    let u := settle s
    ∃ v, exec (.changesAck tag sources) s = .next (replied tag (.changesAck sources) (done []) v) ∧
      (∀ i : Fin 15, v.changes.places[i] = if sources.getLsbD i then none else u.changes.places[i]) ∧
      (v.changes.alert = true ↔ ∃ i : Fin 15, v.changes.places[i].isSome = true) ∧
      v.changes.mask = u.changes.mask ∧ v.changes.clearMode = u.changes.clearMode ∧ onlyChanges [.changes] u v

/-- CHANGES_MASK replaces mask and mode together and clears the places of sources now disabled; another mode is
refused. -/
def Sys2Proof.Claims.ChangesMaskReplacesMaskAndMode : Prop :=
  ∀ (tag : Byte) (mask : Word16) (mode : Byte) (s : State), requestReady s →
    let u := settle s
    (mode.toNat ≤ 1 → ∃ v, exec (.changesMask tag mask mode) s = .next (replied tag (.changesMask mask mode) (done []) v) ∧
      (∀ i : Fin 15, v.changes.mask.getLsbD i = mask.getLsbD i) ∧
      v.changes.clearMode = (if mode = 0 then .onRead else .onAck) ∧
      (∀ i : Fin 15, v.changes.places[i] = if mask.getLsbD i then u.changes.places[i] else none) ∧
      (v.changes.alert = true ↔ ∃ i : Fin 15, v.changes.places[i].isSome = true) ∧ onlyChanges [.changes] u v) ∧
    (1 < mode.toNat →
      exec (.changesMask tag mask mode) s = .next (replied tag (.changesMask mask mode) (refuse .badField [0]) u))

/-- A place in the CHANGES_READ reply: 8 bytes, the fields of its change from the first byte and 0 after them, all 0 where
clear; and the pending set. -/
def Sys2Proof.Claims.PlaceLayouts : Prop :=
  let padded (bytes : List Byte) : List Byte := bytes ++ List.replicate (8 - bytes.length) 0
  let place (c : Change) (bytes : List Byte) : Prop := placeBytes (some c) = padded bytes
  placeBytes none = List.replicate 8 0 ∧ (∀ c, (placeBytes (some c)).length = 8) ∧
  (∀ z st (t : Option Nat), place (.zone z st t)
    (oneByte (zoneStateCode st) :: bigEndian 2 (match t with | none => 0 | some v => v))) ∧
  (∀ a b f, place (.supply a b f)
    ([oneByte (supplyStateCode a), oneByte (supplyStateCode b)] ++ bigEndian 4 f.toNat)) ∧
  (∀ f, place (.timing .alignStarted f) (0 :: bigEndian 4 f.toNat) ∧
    place (.timing .aligned f) (1 :: bigEndian 4 f.toNat) ∧ place (.timing .alignTimeout f) (2 :: bigEndian 4 f.toNat) ∧
    place (.timing .lost f) (3 :: bigEndian 4 f.toNat) ∧ place (.timing .relocked f) (4 :: bigEndian 4 f.toNat) ∧
    place (.timing .coastLimit f) (5 :: bigEndian 4 f.toNat) ∧
    place (.configApplied f) (0 :: bigEndian 4 f.toNat) ∧ place (.configDropped f) (1 :: bigEndian 4 f.toNat)) ∧
  (∀ i f, place (.switchApplied .exchange i f) ([0, 0, oneByte i.val] ++ bigEndian 4 f.toNat) ∧
    place (.switchApplied .reload i f) ([0, 1, oneByte i.val] ++ bigEndian 4 f.toNat)) ∧
  (∀ k, place (.switchCancelled (.exchange k)) [1, 0, oneByte k.val, 0, 0, 0, 0]) ∧
  place (.switchCancelled .reload) [1, 1, 0xFF, 0, 0, 0, 0] ∧
  (∀ r, place (.exit r) (exitRecordBytes r)) ∧
  (∀ (l : Bool) (c : Causes) f, place (.inhibit l c f)
    ([if l then 1 else 0, (if c.zoneCrit then 1 else 0) ||| (if c.exposure then 2 else 0)] ++ bigEndian 4 f.toNat)) ∧
  (∀ p, place (.traceCaptured p) (0 :: bigEndian 4 p.toNat) ∧ place (.traceMissed p) (1 :: bigEndian 4 p.toNat) ∧
    place (.overshoot p) (bigEndian 4 p.toNat)) ∧
  (∀ n, place (.ringHalf .lower n) (0 :: fourBytes n) ∧ place (.ringHalf .upper n) (1 :: fourBytes n) ∧
    place (.ringOverrun .lower n) (0 :: fourBytes n) ∧ place (.ringOverrun .upper n) (1 :: fourBytes n)) ∧
  (∀ st k, place (.store st k) [oneByte (storeStatusCode st), oneByte k.toNat]) ∧
  ∀ (places : Vector (Option Change) 15) (i : Fin 15), (pendingSet places).getLsbD i = places[i].isSome

/-- CHANGES_READ, CHANGES_ACK and CHANGES_MASK, and the bytes of a place (R173, R174, R175, R194).
Model's choices: assumptions 4, 5, 17. -/
def Obligations.ChangesAreReadAcknowledgedAndMasked : Prop :=
  Sys2Proof.Claims.ChangesReadReturnsAndClears ∧ Sys2Proof.Claims.PlaceLayouts ∧
    Sys2Proof.Claims.ChangesAckClearsNamedPlaces ∧ Sys2Proof.Claims.ChangesMaskReplacesMaskAndMode

/-! ## Trace and soft reset -/

/-- ARM and DISARM. -/
def Sys2Proof.Claims.TraceArmsAndDisarms : Prop :=
  ∀ (tag : Byte) (frame : Word16) (slot : Byte) (s : State), requestReady s →
    let u := settle s
    let offset := frameOffset frame u.timing.frameCounter
    let holds := u.timing.state = .locked ∨ u.timing.state = .coasting
    let n := slotCount u.carriers.slotsPerFrame
    let answer (r : Reply) (v : State) : Prop :=
      exec (.arm tag frame slot) s = .next (replied tag (.traceSet frame slot 1) r v)
    (¬ holds → answer (refuse .noTiming [BitVec.ofNat 8 (timingStateCode u.timing.state)]) u) ∧
    (holds → n ≤ slot.toNat → answer (refuse .badField [0]) u) ∧
    (holds → slot.toNat < n → offset < 0 → answer (refuse .stale (signedBytes 2 offset)) u) ∧
    (holds → slot.toNat < n → 8 < offset → answer (refuse .ahead (signedBytes 2 offset)) u) ∧
    (holds → slot.toNat < n → 0 ≤ offset → offset ≤ 8 →
      let a := resolveFrame frame u.timing.frameCounter
      answer (done [])
        { u with engine := { u.engine with
            armed := some { frame := a, slot, position := slotPosition a u.carriers.slotsPerFrame slot } } }) ∧
    exec (.disarm tag frame slot) s = .next
      (replied tag (.traceSet frame slot 0) (done []) { u with engine := { u.engine with armed := none } })

/-- A TRACE_SET whose action is neither ARM nor DISARM, taken from the receive queue, is refused with BAD_FIELD, item 1,
in every timing state. -/
def Sys2Proof.Claims.TraceSetRefusesAnotherAction : Prop :=
  ∀ (t : Moment) (tag : Byte) (frame : Word16) (slot action : Byte) (rest : List RxFrame) (s : State),
    s.pins.rstN = true → s.link.decoder = .running → s.link.replyQueue.length < 4 →
    s.link.receiveQueue = { kind := 0x14, tag, payload := byte2 frame.toNat ++ [slot, action] } :: rest →
    1 < action.toNat →
    let v := settle { s with now := max s.now t }
    let u : State := { v with link := { v.link with receiveQueue := rest } }
    exec (.requestDecode t) s = .next
      { u with link := addReply 0x14 tag false { status := .badField, detail := [1] } u.link }

/-- RING_RELEASE, and TRACE_SET with ARM, DISARM and another action (R95, R143).
Model's choices: assumptions 2, 4, 5, 17. -/
def Obligations.HalvesReleaseAndTraceArms : Prop :=
  Sys2Proof.Claims.RingReleaseClearsAHeldFlag ∧ Sys2Proof.Claims.TraceArmsAndDisarms ∧
    Sys2Proof.Claims.TraceSetRefusesAnotherAction

/-- RESET_PART: DONE joins the reply queue, the receive queue is emptied, and every block takes its soft-reset values.
Model's choices: assumptions 2, 4, 5, 17. -/
def Obligations.ResetPartTakesSoftResetValues : Prop :=
  ∀ (t : Moment) (tag : Byte) (s : State), requestReady s →
    let u := settle { s with now := max s.now t }
    ∃ v, exec (.resetPart t tag) s = .next v ∧
      v.timing =
        { state := .free, frameCounter := u.timing.frameCounter, alignTarget := 0, alignCount := 0, coastCount := 0,
          lastFrameStart := none, lastPacerEvent := none, strobeLoss := none, pacer := some (u.now + 30000) } ∧
      v.carriers.slotsPerFrame = .two ∧ v.carriers.staging = .closed ∧
      (∀ i : Fin 8, v.carriers.entries[i] =
        { enabled := false, role := .secondary, anchor := 0, zone := .pa, priority := 3, floor := 0, ceiling := 127,
          gain := 0 }) ∧
      v.engine = { armed := none, snapshot := none } ∧ v.openGrants = (massClose u).openGrants ∧
      v.openGrants.entries = [] ∧ v.ring = (massClose u).ring ∧
      v.policy = { u.policy with pendingSwitch := none, exitHold := false } ∧
      (∀ i : Fin 15, v.changes.places[i] = none) ∧ v.changes.alert = false ∧ v.changes.mask = s.loaded.mask ∧
      v.changes.clearMode = s.loaded.clearMode ∧
      v.link = addReply 0x16 tag true (done []) { u.link with receiveQueue := [] } ∧
      onlyChanges [.timing, .carriers, .engine, .openGrants, .ring, .policy, .changes, .link] u v

/-! ## Grant requests -/

/-- An acceptable GRANT_REQ is taken in the order of its seven steps: withdrawal, reading, the ten stages, charge, entry,
trace, reply. -/
def Sys2Proof.Claims.AcceptedGrantTakesItsSteps : Prop :=
  ∀ (tag : Byte) (frame : Word16) (slot : Byte) (ps : List Pair) (s : State), requestReady s →
    let u := settle s
    let a := resolveFrame frame u.timing.frameCounter
    let p := slotPosition a u.carriers.slotsPerFrame slot
    u.timing.state = .locked ∨ u.timing.state = .coasting → slot.toNat < slotCount u.carriers.slotsPerFrame →
    legalList ps → 0 ≤ frameOffset frame u.timing.frameCounter → frameOffset frame u.timing.frameCounter ≤ 8 →
    let w := withdrawEntry p u
    let d := decideLanes w (lanesOf w ps)
    let e := entryOf w p a d.final
    let charged := chargeDecision e d.final w
    let inserted := insertEntry e charged
    let reply := done (d.final.flatMap (fun l =>
        [BitVec.ofNat 8 l.index.val, powerByte l.value, BitVec.ofNat 8 (reasonCode l.reason)]) ++
      [BitVec.ofNat 8 (utilisation charged),
        if w.heat.dutyCounter ≤ w.policy.workingCopy.duty then 0 else 1,
        BitVec.ofNat 8 (supplyStateCode w.supply.state)])
    exec (.grantReq tag frame slot (spelled ps)) s = .next
      (replied tag (.grantReq frame slot (spelled ps)) reply
        (if w.engine.armed.any (fun x => x.frame == a && x.slot == slot) then
          raised (.traceCaptured p)
            { inserted with engine := { armed := none, snapshot := some (snapshotOf w p d) } }
        else inserted))

/-- The lanes of a request, in request order: each starts at the requested value with reason NONE. -/
def Sys2Proof.Claims.LanesCarryTheRequest : Prop :=
  ∀ (s : State) (ps : List Pair), lanesOf s ps = ps.map fun p =>
    { index := p.index, entry := s.carriers.entries[p.index], requested := p.value, value := p.value, reason := .none }

/-- The radiated code, clamped to 0..159; the slot durations; the energy of one carrier, rounded up to a whole microjoule;
the slot energy and the anchor share. -/
def Sys2Proof.Claims.EnergiesOfADecision : Prop :=
  (∀ (gain : Int) (c : Nat), (radiatedCode gain c : Int) = max 0 (min 159 ((c : Int) + gain))) ∧
  [SlotsPerFrame.one, .two, .four, .eight, .sixteen].map slotDuration = [10000, 5000, 2500, 1250, 625] ∧
  (∀ (gain : Int) (d c : Nat),
    let microwatts := tablePower (radiatedCode gain c)
    let e := carrierEnergy gain d (.code c)
    carrierEnergy gain d .off = 0 ∧ microwatts * d ≤ e * 1000000 ∧ e * 1000000 < microwatts * d + 1000000) ∧
  ∀ (d : Nat) (ls : List Lane),
    slotEnergy d ls = (ls.map fun l => carrierEnergy l.entry.gain d l.value).sum ∧
      anchorShare d ls =
        ((ls.filter fun l => l.entry.role == .anchor).map fun l => carrierEnergy l.entry.gain d l.value).sum

/-- The open grant entry of a decision. -/
def Sys2Proof.Claims.EntryHoldsTheDecision : Prop :=
  ∀ (s : State) (p a : Word32) (ls : List Lane),
    let d := slotDuration s.carriers.slotsPerFrame
    entryOf s p a ls =
      { position := p, frame := a
        carriers := ls.map fun l => { index := l.index, granted := l.value, role := l.entry.role }
        charge := slotEnergy d ls, anchorCharge := anchorShare d ls, ringPosition := s.ring.writePosition
        intervalNumber := (recordAt s s.ring.writePosition).number }

/-- The Decision Snapshot of a decision: its position and inputs, and for each listed carrier in request order its index,
requested value, value after each of stages 2 to 10, grant and reason. -/
def Sys2Proof.Claims.SnapshotHoldsTheDecision : Prop :=
  ∀ (s : State) (p : Word32) (ls : List Lane),
    let d := decideLanes s ls
    let x := snapshotOf s p d
    (x.position = p ∧ (∀ z, zoneGet x.zoneStates z = (zoneGet s.heat.zones z).state) ∧ x.supply = s.supply.state ∧
      x.phase = (if s.heat.dutyCounter ≤ s.policy.workingCopy.duty then .on else .off) ∧ x.windowSum = windowSum s ∧
      x.budget = budget s ∧ x.headroom = headroom s ∧ x.utilisation = utilisation s ∧
      x.activeIndex = s.policy.activeIndex) ∧
    d.history.length = 9 ∧ d.final.length = ls.length ∧ x.carriers.length = ls.length ∧
    ∀ (n : Nat) (l m : Lane), ls[n]? = some l → d.final[n]? = some m →
      ∃ g, x.carriers[n]? = some g ∧ g.index = l.index ∧ g.requested = l.requested ∧ g.granted = m.value ∧
        g.reason = m.reason ∧ g.afterStages.length = 9 ∧
        ∀ (k : Nat) (xs : List Lane), d.history[k]? = some xs →
          ∃ y, xs[n]? = some y ∧ y.index = l.index ∧ g.afterStages[k]? = some y.value

/-- An accepted GRANT_REQ: its seven steps, the lanes it decides over, the energies of its decision, its open grant entry and
its Decision Snapshot (R69, R72, R90, R92, R93, R96).
Model's choices: assumptions 4, 5, 17. -/
def Obligations.GrantRequestTakesItsSteps : Prop :=
  Sys2Proof.Claims.AcceptedGrantTakesItsSteps ∧ Sys2Proof.Claims.LanesCarryTheRequest ∧
    Sys2Proof.Claims.EnergiesOfADecision ∧ Sys2Proof.Claims.EntryHoldsTheDecision ∧
    Sys2Proof.Claims.SnapshotHoldsTheDecision

/-- The checks of GRANT_REQ in their order; a refused request changes nothing but the reply queue, and a list of no pairs
or of more than 8 is refused with BAD_LENGTH. -/
def Sys2Proof.Claims.GrantRequestRefusals : Prop :=
  ∀ (tag : Byte) (frame : Word16) (slot : Byte) (raw : List RawPair) (s : State), requestReady s →
    let u := settle s
    let offset := frameOffset frame u.timing.frameCounter
    let refused (r : Reply) : Prop :=
      exec (.grantReq tag frame slot raw) s = .next (replied tag (.grantReq frame slot raw) r u)
    let holds := u.timing.state = .locked ∨ u.timing.state = .coasting
    (raw.length = 0 ∨ 8 < raw.length → 3 + 2 * raw.length ≤ 250 →
      refused (refuse .badLength [BitVec.ofNat 8 (3 + 2 * raw.length)])) ∧
    (1 ≤ raw.length → raw.length ≤ 8 →
      (¬ holds → refused (refuse .noTiming [BitVec.ofNat 8 (timingStateCode u.timing.state)])) ∧
      (holds → slotCount u.carriers.slotsPerFrame ≤ slot.toNat → refused (refuse .badField [0])) ∧
      (holds → slot.toNat < slotCount u.carriers.slotsPerFrame →
        (∀ before bad after, raw = before ++ bad :: after → (∀ x ∈ before, legalPair x) → ¬ legalPair bad →
          refused (refuse .badField [BitVec.ofNat 8 (before.length + 1)])) ∧
        ((∀ x ∈ raw, legalPair x) →
          (∀ before x after, raw = before ++ x :: after → (before.map RawPair.index).Nodup →
            (∀ y ∈ before, y.index ∉ (x :: after).map RawPair.index) → x.index ∈ after.map RawPair.index →
            refused (refuse .duplicate [x.index])) ∧
          ((raw.map RawPair.index).Nodup → offset < 0 → refused (refuse .stale (signedBytes 2 offset))) ∧
          ((raw.map RawPair.index).Nodup → 8 < offset → refused (refuse .ahead (signedBytes 2 offset))))))

/-- The withdrawal of a re-grant: the entry leaves the list, exactly its charges leave the record that carries its
interval number, nothing else of the record moves, and exhaustion is compared. Where the withdrawal ends exhaustion,
Inhibit Control takes the notice at once: the decision reads the level of the recomputed cause set. Without an entry
nothing changes.
Model's choices: assumption 4. -/
def Obligations.RegrantWithdrawsTheEarlierEntry : Prop :=
  ∀ (p : Word32) (s : State),
    ((∀ e ∈ s.openGrants.entries, e.position ≠ p) → withdrawEntry p s = s) ∧
    ∀ e, s.openGrants.entries.find? (fun x => x.position == p) = some e →
      let v := withdrawEntry p s
      let r := recordAt s e.ringPosition
      v.openGrants = { s.openGrants with entries := s.openGrants.entries.filter fun x => x.position != p } ∧
      recordAt v e.ringPosition =
        (if r.number = e.intervalNumber then
          { r with energy := r.energy - e.charge, anchorEnergy := r.anchorEnergy - e.anchorCharge }
        else r) ∧
      (∀ q : Fin 128, q ≠ e.ringPosition → recordAt v q = recordAt s q) ∧
      v.ring = { s.ring with records := v.ring.records, exhausted := windowExhausted v } ∧
      (let released := s.ring.exhausted = true ∧ v.ring.exhausted = false
       let c := causesOf v
       (¬ released ∨ c = s.inhibit.causes → v.inhibit = s.inhibit ∧ v.changes = s.changes) ∧
        (released → c ≠ s.inhibit.causes →
          v.inhibit = { causes := c, txinh := c.zoneCrit || c.exposure } ∧
          v.changes = reported (.inhibit (c.zoneCrit || c.exposure) c s.timing.frameCounter) s.changes) ∧
        (released → s.inhibit.txinh = (s.inhibit.causes.zoneCrit || s.inhibit.causes.exposure) →
          v.inhibit.txinh = (c.zoneCrit || c.exposure)) ∧
        (released → Notice.exhaustion ∉ s.work.notices → v.work = s.work) ∧
        (¬ released → v.work = toldOfExposure s.ring.exhausted (windowExhausted v) s.work)) ∧
      onlyChanges [.openGrants, .ring, .work, .inhibit, .changes] s v

/-- A decision's charge: energies, counts, peak and signature of the OPEN record, and the comparison of exhaustion. -/
def Obligations.DecisionChargesTheOpenRecord : Prop :=
  ∀ (e : OpenGrant) (ls : List Lane) (s : State),
    let v := chargeDecision e ls s
    let w := s.ring.writePosition
    let r := recordAt s w
    let codes := ls.filterMap fun l => match l.value with
      | .off => none
      | .code c => some (radiatedCode l.entry.gain c)
    ∃ peak : Option Nat,
      (codes = [] → peak = r.peak) ∧
      (codes ≠ [] → ∃ c, peak = some c ∧ (c ∈ codes ∨ r.peak = some c) ∧ (∀ x ∈ codes, x ≤ c) ∧ r.peak.getD 0 ≤ c) ∧
      recordAt v w =
        { r with
          energy := min 4294967295 (r.energy + e.charge)
          anchorEnergy := min 4294967295 (r.anchorEnergy + e.anchorCharge)
          grants := if r.grants < 65535 then r.grants + 1 else r.grants
          throttled :=
            if (ls.any fun l => l.reason != .none) && decide (r.throttled < 65535) then r.throttled + 1 else r.throttled
          peak
          signature := crcFold r.signature
            (byte4 e.position.toNat ++ e.carriers.flatMap fun c => [BitVec.ofNat 8 c.index.val, powerByte c.granted]) } ∧
      (∀ q : Fin 128, q ≠ w → recordAt v q = recordAt s q) ∧
      v.ring = { s.ring with records := v.ring.records, exhausted := windowExhausted v } ∧
      v.work = toldOfExposure s.ring.exhausted (windowExhausted v) s.work ∧
      onlyChanges [.ring, .work] s v

/-- A new entry joins the list at its place; a full list first closes its lowest entry as granted. Where the positions
lie within half the circle of 2^32, an ascending list stays ascending. -/
def Obligations.EntryJoinsInOrder : Prop :=
  ∀ (e : OpenGrant) (s : State),
    let v := insertEntry e s
    (s.openGrants.entries.length < 16 → v.openGrants.entries.Perm (e :: s.openGrants.entries) ∧
      v.openGrants.expiryMark = s.openGrants.expiryMark ∧ onlyChanges [.openGrants] s v) ∧
    (∀ x rest, s.openGrants.entries = x :: rest → 16 ≤ s.openGrants.entries.length →
      v.openGrants.entries.Perm (e :: rest) ∧
      v.openGrants.expiryMark =
        (if above x.position s.openGrants.expiryMark then x.position else s.openGrants.expiryMark) ∧
      (∀ q : Fin 128,
        let r := recordAt s q
        recordAt v q =
          if q = x.ringPosition ∧ r.number = x.intervalNumber then
            { r with unreported := if r.unreported < 255 then r.unreported + 1 else r.unreported }
          else r) ∧
      v.ring = { s.ring with records := v.ring.records } ∧ onlyChanges [.openGrants, .ring] s v) ∧
    ∀ base : Word32, (∀ x ∈ e :: s.openGrants.entries, (x.position - base).toNat < 2147483648) →
      (∀ x ∈ s.openGrants.entries, x.position ≠ e.position) →
      s.openGrants.entries.Pairwise (fun x y => below x.position y.position = true) →
      v.openGrants.entries.Pairwise (fun x y => below x.position y.position = true)

/-! ## The decision -/

/-- No stage raises a value: each lane of the decision is at or below the requested one, of the same carrier. -/
def Obligations.NoStageRaisesAValue : Prop :=
  ∀ (s : State) (ls : List Lane),
    List.Forall₂ (fun l m => m.index = l.index ∧ m.entry = l.entry ∧ m.requested = l.requested ∧
      powerAbove m.value l.value = false) ls (decideLanes s ls).final ∧
    ∀ f ∈ laterStages s, ∀ xs : List Lane,
      List.Forall₂ (fun l m => m.index = l.index ∧ m.entry = l.entry ∧ powerAbove m.value l.value = false) xs (f xs)

/-- While TXINH is asserted every listed carrier is granted OFF with reason INHIBIT. -/
def Sys2Proof.Claims.TxinhGrantsOffToAll : Prop :=
  ∀ (s : State) (ls : List Lane), s.inhibit.txinh = true →
    (decideLanes s ls).final = ls.map (fun l => { l with value := .off, reason := .inhibit }) ∧
    (decideLanes s ls).history.length = 9 ∧
    ∀ xs ∈ (decideLanes s ls).history, ∀ l ∈ xs, l.value = .off

/-- A granted code is at or below its carrier's ceiling and its stage 4 limits, of an enabled carrier. -/
def Sys2Proof.Claims.GrantedCodesRespectCaps : Prop :=
  ∀ (s : State) (ls : List Lane), ∀ l ∈ (decideLanes s ls).final, ∀ c, l.value = .code c →
    l.entry.enabled = true ∧ c ≤ l.entry.ceiling ∧ ∀ x ∈ zoneLimits s l.entry, c ≤ x.1

/-- With a consistent carrier table, a SECONDARY is granted OFF in every grant in which its anchor is granted OFF or is
not listed. -/
def Obligations.SecondaryNeedsItsAnchor : Prop :=
  ∀ (s : State) (ps : List Pair), tableKept s.carriers.entries → (ps.map Pair.index).Nodup →
    ∀ l ∈ (decideLanes s (lanesOf s ps)).final, l.entry.role = .secondary → l.value ≠ .off →
      ∃ m ∈ (decideLanes s (lanesOf s ps)).final, m.index = l.entry.anchor ∧ m.value ≠ .off

/-- With the supply CRITICAL and shed yes every SECONDARY is granted OFF; with TXINH released, its reason is SHED. -/
def Sys2Proof.Claims.ShedGrantsSecondariesOff : Prop :=
  ∀ (s : State) (ls : List Lane), s.supply.state = .critical → s.policy.workingCopy.shed = true →
    (∀ l ∈ (decideLanes s ls).final, l.entry.role = .secondary → l.value = .off) ∧
    (s.inhibit.txinh = false → ∀ l ∈ (decideLanes s ls).final, l.entry.role = .secondary → l.reason = .shed)

/-- The nine stages after INHIBIT, each with what it makes of every lane: DISABLED turns off, WINDOW holds to the ceiling,
ZONE and DUTY to the lowest limit, SHED turns off, ANCHOR turns off, SUPPLY reduces to the cap, ANCHOR, EXPOSURE turns
off when exhausted, paces, then takes its two passes, ANCHOR. A lane a stage does not lower or cover is left as it is. -/
def Sys2Proof.Claims.EachStageDoesItsWork : Prop :=
  ∀ (s : State) (ls : List Lane), s.inhibit.txinh = false → (ls.map Lane.index).Nodup →
    let c := s.policy.workingCopy
    let every : Lane → Bool := fun _ => true
    let secondary : Lane → Bool := fun l => l.entry.role == .secondary
    let duration := slotDuration s.carriers.slotsPerFrame
    ∃ h2 h3 h4 h5 h6 h7 h8 h9 h10 : List Lane,
      decideLanes s ls = { history := [h2, h3, h4, h5, h6, h7, h8, h9, h10], final := h10 } ∧
      List.Forall₂ (fun l => offWhere (l.entry.enabled = false) .disabled l) ls h2 ∧
      List.Forall₂ (fun l => heldTo l.entry.ceiling .window l) h2 h3 ∧
      List.Forall₂ (heldByZones s) h3 h4 ∧
      List.Forall₂ (shedLane s) h4 h5 ∧
      anchored h5 h6 ∧
      (s.supply.state = .good → h7 = h6) ∧
      (s.supply.state = .low → reduced conductedPower every (c.supplyLowCap * 1000) true .supply h6 h7) ∧
      (s.supply.state = .critical → reduced conductedPower every (c.supplyCriticalCap * 1000) true .supply h6 h7) ∧
      anchored h7 h8 ∧
      (∃ x y z : List Lane,
        List.Forall₂ (offWhere (budget s ≤ windowSum s) .exposure) h8 x ∧
        (c.paceThreshold ≤ utilisation s → reduced radiatedPower every (c.averageLimit * 1000) false .exposure x y) ∧
        (utilisation s < c.paceThreshold → y = x) ∧
        reduced radiatedPower secondary ((headroom s - c.reserve) * 1000000 / duration) false .exposure y z ∧
        reduced radiatedPower every (headroom s * 1000000 / duration) false .exposure z h9) ∧
      anchored h9 h10

/-- A request within every limit is granted as it stands: with TXINH released, no carrier listed at a code is disabled,
above its ceiling or a zone limit, or a SECONDARY without its anchor or shed, and the sums fit the supply cap, the
average limit while pacing, and the headroom. Every reason is then NONE. -/
def Sys2Proof.Claims.AGrantWithinEveryLimitIsAsRequested : Prop :=
  ∀ (s : State) (ps : List Pair), s.inhibit.txinh = false → (ps.map Pair.index).Nodup →
    let c := s.policy.workingCopy
    let ls : List Lane := ps.map fun p =>
      { index := p.index, entry := s.carriers.entries[p.index], requested := p.value, value := p.value, reason := .none }
    let every : Lane → Bool := fun _ => true
    let secondary : Lane → Bool := fun l => l.entry.role == .secondary
    let duration := slotDuration s.carriers.slotsPerFrame
    (∀ l ∈ ls, ∀ k, l.value = .code k →
      l.entry.enabled = true ∧ k ≤ l.entry.ceiling ∧ (∀ x ∈ zoneLimits s l.entry, k ≤ x.1) ∧
        (l.entry.role = .secondary → ∃ a ∈ ls, a.index = l.entry.anchor ∧ a.value ≠ .off)) →
    (s.supply.state = .critical → c.shed = true → ∀ l ∈ ls, l.entry.role = .anchor) →
    (s.supply.state = .low → powerSum conductedPower every ls ≤ c.supplyLowCap * 1000) →
    (s.supply.state = .critical → powerSum conductedPower every ls ≤ c.supplyCriticalCap * 1000) →
    windowSum s < budget s →
    (c.paceThreshold ≤ utilisation s → powerSum radiatedPower every ls ≤ c.averageLimit * 1000) →
    powerSum radiatedPower secondary ls * duration ≤ (headroom s - c.reserve) * 1000000 →
    powerSum radiatedPower every ls * duration ≤ headroom s * 1000000 →
    (decideLanes s (lanesOf s ps)).final = ls

/-- The ten stages: INHIBIT ends the decision; every later stage does its own work and no more; granted codes respect the
caps; SHED covers the secondaries; a request within every limit is granted as requested (R73 to R81, R85 to R89). -/
def Obligations.StagesCoverAndCap : Prop :=
  Sys2Proof.Claims.TxinhGrantsOffToAll ∧ Sys2Proof.Claims.EachStageDoesItsWork ∧
    Sys2Proof.Claims.GrantedCodesRespectCaps ∧ Sys2Proof.Claims.ShedGrantsSecondariesOff ∧
    Sys2Proof.Claims.AGrantWithinEveryLimitIsAsRequested

/-- The reduction procedure over distinct carriers: it ends with its sum at or below its allowance, and makes of every lane
what the walk in reduce order makes of it, the highest candidate code within the allowance, OFF where there is none,
and value and reason kept where the walk passes over a lane or does not reach it. -/
def Obligations.ReductionEndsWithinItsAllowance : Prop :=
  ∀ (r : Reduction) (ls : List Lane), (ls.map Lane.index).Nodup →
    let power := if r.radiated then radiatedPower else conductedPower
    let counts : Lane → Bool := fun l => !r.secondariesOnly || l.entry.role == .secondary
    powerSum power counts (reduce r ls) ≤ r.allowance ∧
      reduced power counts r.allowance r.floors r.reason ls (reduce r ls)

/-- While the supply is LOW or CRITICAL, the conducted powers of a grant sum to at most that state's cap. -/
def Obligations.SupplyCapHolds : Prop :=
  ∀ (s : State) (ls : List Lane), (ls.map Lane.index).Nodup →
    (∀ l ∈ ls, legalPower l.value ∧ entryInRange l.entry = true) →
    let conducted := ((decideLanes s ls).final.map fun l => match l.value with
      | .off => 0
      | .code c => tablePower c).sum
    (s.supply.state = .low → conducted ≤ s.policy.workingCopy.supplyLowCap * 1000) ∧
    (s.supply.state = .critical → conducted ≤ s.policy.workingCopy.supplyCriticalCap * 1000)

/-- The exposure limits of a grant: nothing in an exhausted window; L while pacing; the exact energy of the slot within
the headroom, that of the non-anchors within the headroom less the reserve; and the charge, rounded up, above the
headroom by less than one microjoule for each carrier granted a code. -/
def Obligations.ExposureLimitsHold : Prop :=
  ∀ (s : State) (ls : List Lane), (ls.map Lane.index).Nodup →
    (∀ l ∈ ls, legalPower l.value ∧ entryInRange l.entry = true) →
    let final := (decideLanes s ls).final
    let power (l : Lane) : Nat := match l.value with
      | .off => 0
      | .code c => tablePower (radiatedCode l.entry.gain c)
    let total := (final.map power).sum
    let others := ((final.filter fun l => l.entry.role == .secondary).map power).sum
    let d := slotDuration s.carriers.slotsPerFrame
    let n := (final.filter fun l => isCode l.value).length
    (windowExhausted s = true → n = 0) ∧
    (s.policy.workingCopy.paceThreshold ≤ utilisation s → total ≤ s.policy.workingCopy.averageLimit * 1000) ∧
    total * d ≤ headroom s * 1000000 ∧
    others * d ≤ (headroom s - s.policy.workingCopy.reserve) * 1000000 ∧
    (n = 0 → slotEnergy d final = 0) ∧ (0 < n → slotEnergy d final < headroom s + n)

/-- The Power Conversion Table is 1000 × 10^((−40 + c/2)/10) microwatts rounded to the nearest whole number, and does not
decrease. -/
def Obligations.PowerTableIsRounded : Prop :=
  (∀ c : Fin 160,
    (2 * tablePower c.val - 1) ^ 20 * 10 ^ 20 ≤ 10 ^ c.val * 2 ^ 20 ∧
      10 ^ c.val * 2 ^ 20 < (2 * tablePower c.val + 1) ^ 20 * 10 ^ 20) ∧
    ∀ a b : Nat, a ≤ b → b ≤ 159 → tablePower a ≤ tablePower b

/-! ## Transmit reports -/

/-- The checks of TX_REPORT in their order; a refused report changes nothing but the reply queue, and a list of no pairs
or of more than 8 is refused with BAD_LENGTH. -/
def Sys2Proof.Claims.TransmitReportRefusals : Prop :=
  ∀ (tag : Byte) (frame : Word16) (slot : Byte) (raw : List RawPair) (s : State), requestReady s →
    let u := settle s
    let refused (r : Reply) : Prop :=
      exec (.txReport tag frame slot raw) s = .next (replied tag (.txReport frame slot raw) r u)
    let holds := u.timing.state = .locked ∨ u.timing.state = .coasting
    (raw.length = 0 ∨ 8 < raw.length → 3 + 2 * raw.length ≤ 250 →
      refused (refuse .badLength [BitVec.ofNat 8 (3 + 2 * raw.length)])) ∧
    (1 ≤ raw.length → raw.length ≤ 8 →
      (¬ holds → refused (refuse .noTiming [BitVec.ofNat 8 (timingStateCode u.timing.state)])) ∧
      (holds → slotCount u.carriers.slotsPerFrame ≤ slot.toNat → refused (refuse .badField [0])) ∧
      (holds → slot.toNat < slotCount u.carriers.slotsPerFrame →
        (∀ before bad after, raw = before ++ bad :: after → (∀ x ∈ before, legalPair x) → ¬ legalPair bad →
          refused (refuse .badField [BitVec.ofNat 8 (before.length + 1)])) ∧
        ((∀ x ∈ raw, legalPair x) →
          ∀ before x after, raw = before ++ x :: after → (before.map RawPair.index).Nodup →
            (∀ y ∈ before, y.index ∉ (x :: after).map RawPair.index) → x.index ∈ after.map RawPair.index →
            refused (refuse .duplicate [x.index]))))

/-- The refusals of GRANT_REQ and TX_REPORT (R67, R68, R111, R189).
Model's choices: assumptions 4, 5, 17. -/
def Obligations.GrantAndReportRefusals : Prop :=
  Sys2Proof.Claims.GrantRequestRefusals ∧ Sys2Proof.Claims.TransmitReportRefusals

/-- The energies a report counts on a hit: over the entry's carriers at the reported value, or the granted one where the
report lacks it, with the recorded role, and over the carriers the report alone names with their live role; each with
the live gain offset and slot duration. -/
def Sys2Proof.Claims.HitCountsEachCarrier : Prop :=
  ∀ (s : State) (e : OpenGrant) (ps : List Pair),
    let live (i : Fin 8) : CarrierEntry := s.carriers.entries[i]
    let energy (i : Fin 8) (v : Power) : Nat := carrierEnergy (live i).gain (slotDuration s.carriers.slotsPerFrame) v
    let counted (c : GrantedCarrier) : Nat :=
      energy c.index (match ps.find? fun p => p.index == c.index with
        | some p => p.value
        | none => c.granted)
    let alone := ps.filter fun p => !e.carriers.any fun c => c.index == p.index
    actualEnergy s (countHit s e ps) =
        (e.carriers.map counted).sum + (alone.map fun p => energy p.index p.value).sum ∧
      actualAnchorEnergy s (countHit s e ps) =
        ((e.carriers.filter fun c => c.role == .anchor).map counted).sum +
          ((alone.filter fun p => (live p.index).role == .anchor).map fun p => energy p.index p.value).sum

/-- A report on an entry overshoots where it reports a carrier at a code that the entry does not list, or lists at OFF or
at a lower code. -/
def Sys2Proof.Claims.OvershootIsAboveTheGrant : Prop :=
  ∀ (e : OpenGrant) (ps : List Pair), (ps.map Pair.index).Nodup →
    (hitOvershoots e ps = true ↔ ∃ p ∈ ps, ∃ k, p.value = .code k ∧
      ((∀ c ∈ e.carriers, c.index ≠ p.index) ∨
        ∃ c ∈ e.carriers, c.index = p.index ∧ (c.granted = .off ∨ ∃ g, c.granted = .code g ∧ g < k)))

/-- A report that hits an entry: the record that carries the entry's interval number is corrected by the actual less the
charged energies, the entry leaves the list with the mark as it stands, and an overshoot raises its change and its fault
event. -/
def Sys2Proof.Claims.HitIsSettled : Prop :=
  ∀ (tag : Byte) (frame : Word16) (slot : Byte) (ps : List Pair) (s : State) (e : OpenGrant), requestReady s →
    let u := settle s
    let p := slotPosition (resolveFrame frame u.timing.frameCounter) u.carriers.slotsPerFrame slot
    u.timing.state = .locked ∨ u.timing.state = .coasting → slot.toNat < slotCount u.carriers.slotsPerFrame →
    legalList ps → u.openGrants.entries.find? (fun x => x.position == p) = some e →
    let counted := countHit u e ps
    let actual := actualEnergy u counted
    let anchors := actualAnchorEnergy u counted
    let exceeds := hitOvershoots e ps
    let r := recordAt u e.ringPosition
    ∃ v, exec (.txReport tag frame slot (spelled ps)) s = .next
        (replied tag (.txReport frame slot (spelled ps))
          { status := if exceeds then .overshoot else .done, detail := byte4 p.toNat ++ byte4 e.charge ++ byte4 actual } v) ∧
      v.openGrants = { u.openGrants with entries := u.openGrants.entries.filter fun x => x.position != p } ∧
      (r.number = e.intervalNumber → e.charge ≤ r.energy → e.anchorCharge ≤ r.anchorEnergy → r.corrected ≤ 255 →
        recordAt v e.ringPosition =
          { r with
            energy := if e.charge ≤ actual then min 4294967295 (r.energy + (actual - e.charge)) else r.energy + actual - e.charge
            anchorEnergy :=
              if e.anchorCharge ≤ anchors then min 4294967295 (r.anchorEnergy + (anchors - e.anchorCharge))
              else r.anchorEnergy + anchors - e.anchorCharge
            corrected := min 255 (r.corrected + 1) }) ∧
      (r.number ≠ e.intervalNumber → v.ring.records = u.ring.records) ∧
      (∀ q : Fin 128, q ≠ e.ringPosition → recordAt v q = recordAt u q) ∧
      v.ring = { u.ring with records := v.ring.records, exhausted := windowExhausted v } ∧
      v.changes = (if exceeds then reported (.overshoot p) u.changes else u.changes) ∧
      (let told := toldOfExposure u.ring.exhausted (windowExhausted v) u.work
       v.work = { told with faults := v.work.faults } ∧
        v.work.faults.Perm (told.faults ++ if exceeds then [.overshoot] else [])) ∧
      onlyChanges [.openGrants, .ring, .changes, .work] u v

/-- A report that hits an entry: its effects, the energies it counts, and what an overshoot is (R113 to R116, R119, R120).
Model's choices: assumptions 4, 5, 17. -/
def Obligations.ReportHitCorrectsItsRecord : Prop :=
  Sys2Proof.Claims.HitIsSettled ∧ Sys2Proof.Claims.HitCountsEachCarrier ∧ Sys2Proof.Claims.OvershootIsAboveTheGrant

/-- A report with no entry at or below the expiry mark is answered LATE: no record, count, entry or mark changes, and
nothing is raised. -/
def Sys2Proof.Claims.LateReportChangesNothing : Prop :=
  ∀ (tag : Byte) (frame : Word16) (slot : Byte) (ps : List Pair) (s : State), requestReady s →
    let u := settle s
    let p := slotPosition (resolveFrame frame u.timing.frameCounter) u.carriers.slotsPerFrame slot
    u.timing.state = .locked ∨ u.timing.state = .coasting → slot.toNat < slotCount u.carriers.slotsPerFrame →
    legalList ps → (∀ e ∈ u.openGrants.entries, e.position ≠ p) → atOrBelow p u.openGrants.expiryMark = true →
    exec (.txReport tag frame slot (spelled ps)) s = .next
      (replied tag (.txReport frame slot (spelled ps))
        { status := .late, detail := byte4 p.toNat ++ byte4 u.openGrants.expiryMark.toNat } u)

/-- A report with no entry above the expiry mark is charged to the OPEN record and answered UNMATCHED; one that reports a
code raises OVERSHOOT, change and fault event. -/
def Sys2Proof.Claims.UnmatchedReportIsCharged : Prop :=
  ∀ (tag : Byte) (frame : Word16) (slot : Byte) (ps : List Pair) (s : State), requestReady s →
    let u := settle s
    let p := slotPosition (resolveFrame frame u.timing.frameCounter) u.carriers.slotsPerFrame slot
    u.timing.state = .locked ∨ u.timing.state = .coasting → slot.toNat < slotCount u.carriers.slotsPerFrame →
    legalList ps → (∀ e ∈ u.openGrants.entries, e.position ≠ p) → atOrBelow p u.openGrants.expiryMark = false →
    let counted := countReported u ps
    let actual := actualEnergy u counted
    let exceeds := ps.any fun x => isCode x.value
    let w := u.ring.writePosition
    let r := recordAt u w
    ∃ v, exec (.txReport tag frame slot (spelled ps)) s = .next
        (replied tag (.txReport frame slot (spelled ps))
          { status := .unmatched, detail := byte4 p.toNat ++ byte4 actual } v) ∧
      recordAt v w =
        { r with
          energy := min 4294967295 (r.energy + actual)
          anchorEnergy := min 4294967295 (r.anchorEnergy + actualAnchorEnergy u counted)
          unmatched := if r.unmatched < 255 then r.unmatched + 1 else r.unmatched } ∧
      (∀ q : Fin 128, q ≠ w → recordAt v q = recordAt u q) ∧
      v.ring = { u.ring with records := v.ring.records, exhausted := windowExhausted v } ∧
      v.changes = (if exceeds then reported (.overshoot p) u.changes else u.changes) ∧
      (let told := toldOfExposure u.ring.exhausted (windowExhausted v) u.work
       v.work = { told with faults := v.work.faults } ∧
        v.work.faults.Perm (told.faults ++ if exceeds then [.overshoot] else [])) ∧
      onlyChanges [.ring, .changes, .work] u v

/-- The energies an unmatched report counts: every pair at its reported value, with its live role, gain offset and slot
duration. -/
def Sys2Proof.Claims.UnmatchedCountsEachPair : Prop :=
  ∀ (s : State) (ps : List Pair),
    let live (i : Fin 8) : CarrierEntry := s.carriers.entries[i]
    let energy (p : Pair) : Nat := carrierEnergy (live p.index).gain (slotDuration s.carriers.slotsPerFrame) p.value
    actualEnergy s (countReported s ps) = (ps.map energy).sum ∧
      actualAnchorEnergy s (countReported s ps) = ((ps.filter fun p => (live p.index).role == .anchor).map energy).sum

/-- A report with no entry: LATE at or below the expiry mark, UNMATCHED above it (R114, R117, R118).
Model's choices: assumptions 4, 5, 17. -/
def Obligations.LateAndUnmatchedReports : Prop :=
  Sys2Proof.Claims.LateReportChangesNothing ∧ Sys2Proof.Claims.UnmatchedReportIsCharged ∧
    Sys2Proof.Claims.UnmatchedCountsEachPair

/-! ## Invariants -/

/-- Every invariant holds right after reset (the reset image is the model's choice, assumption 9).
Model's choices: assumptions 8, 9, 10, 12, 15, 17. -/
def Obligations.InvariantsHoldAtReset : Prop :=
  changesKept State.reset.changes ∧ linkKept State.reset.link ∧ timingKept State.reset.timing ∧ startUpKept State.reset ∧
    configKept State.reset ∧ ringKept State.reset.ring ∧ grantsKept State.reset ∧ inhibitKept State.reset ∧
    exposureKept State.reset ∧ switchKept State.reset ∧ dutyKept State.reset

/-- Every step keeps the Change Set and ALERT_N in agreement, and every flag within the mask. -/
def Obligations.StepKeepsTheChangeSet : Prop :=
  ∀ s t : State, changesKept s.changes → step s = .next t → changesKept t.changes

/-- Every step keeps the Link Port's queues, reply order and partial frame in their bounds.
Model's choices: assumptions 15, 17. -/
def Obligations.StepKeepsTheLinkPort : Prop :=
  ∀ s t : State, linkKept s.link → step s = .next t → linkKept t.link

/-- Every step keeps the part still while the start-up load is in progress. -/
def Sys2Proof.Claims.StepKeepsTheStartUpStill : Prop :=
  ∀ s t : State, startUpKept s → step s = .next t → startUpKept t

/-- Every step keeps the timing record legal, while RST_N is high before and after it. -/
def Sys2Proof.Claims.StepKeepsTheTimingRecordLegal : Prop :=
  ∀ s t : State, startUpKept s → (s.pins.rstN = true → timingKept s.timing) → step s = .next t →
    t.pins.rstN = true → timingKept t.timing

/-- Every step keeps the timing record legal, and the part still while the start-up load is in progress (R1, R164, R185). -/
def Obligations.StepKeepsTheTimingRecord : Prop :=
  Sys2Proof.Claims.StepKeepsTheStartUpStill ∧ Sys2Proof.Claims.StepKeepsTheTimingRecordLegal

/-- Every step keeps the carrier table, the staging set, the working copy and the slots consistent. -/
def Sys2Proof.Claims.StepKeepsTheConfigurationConsistent : Prop :=
  ∀ s t : State, configKept s → step s = .next t → configKept t

/-- Every step keeps exactly one interval record OPEN, the one at the write position. -/
def Sys2Proof.Claims.StepKeepsOneOpenRecord : Prop :=
  ∀ s t : State, ringKept s.ring → step s = .next t → ringKept t.ring

/-- Every step keeps the Open Grant List within 16 distinct slot positions, and empty, with the trace disarmed, while the
part does not hold timing. -/
def Sys2Proof.Claims.StepKeepsTheOpenGrantList : Prop :=
  ∀ s t : State, grantsKept s → step s = .next t → grantsKept t

/-- Every step keeps the account: one OPEN record, and a legal Open Grant List (R97, R99, R100, R124). -/
def Obligations.StepKeepsTheAccount : Prop :=
  Sys2Proof.Claims.StepKeepsOneOpenRecord ∧ Sys2Proof.Claims.StepKeepsTheOpenGrantList

/-- Every step keeps TXINH in agreement with the cause set, and the cause set with the zones, the exhausted item and the
working copy. -/
def Obligations.StepKeepsTxinhAndExposure : Prop :=
  ∀ s t : State, startUpKept s → inhibitKept s ∧ exposureKept s → step s = .next t → inhibitKept t ∧ exposureKept t

/-- Every step keeps switches and staging sets apart, and an exit hold with its Exit Record. -/
def Sys2Proof.Claims.StepKeepsSwitchesApartFromStaging : Prop :=
  ∀ s t : State, switchKept s → step s = .next t → switchKept t

/-- Every step keeps the duty counter within the cycle length, and 0 exactly while no zone is HOT or FAULTED. -/
def Sys2Proof.Claims.StepKeepsTheDutyCounter : Prop :=
  ∀ s t : State, configKept s ∧ dutyKept s → step s = .next t → dutyKept t

/-- Every step keeps the configuration: tables and contexts consistent, switches apart from staging, the duty counter in
its range (R21, R24, R51, R147, R151, R158). -/
def Obligations.StepKeepsTheConfiguration : Prop :=
  Sys2Proof.Claims.StepKeepsTheConfigurationConsistent ∧ Sys2Proof.Claims.StepKeepsSwitchesApartFromStaging ∧ Sys2Proof.Claims.StepKeepsTheDutyCounter
end

