-- ==== Sys2Proof/Laws/State.lean ====
section
/-!
SUPPORT. What each replacement of one block's record leaves in every field of the state, one lemma per field per
update, each true by rfl.
-/

namespace Sys2Proof.Machine

/-! ## setTiming -/

@[simp] theorem setTiming_timing (s : State) x : (s.setTiming x).timing = x := rfl
@[simp] theorem setTiming_carriers (s : State) x : (s.setTiming x).carriers = s.carriers := rfl
@[simp] theorem setTiming_heat (s : State) x : (s.setTiming x).heat = s.heat := rfl
@[simp] theorem setTiming_supply (s : State) x : (s.setTiming x).supply = s.supply := rfl
@[simp] theorem setTiming_engine (s : State) x : (s.setTiming x).engine = s.engine := rfl
@[simp] theorem setTiming_openGrants (s : State) x : (s.setTiming x).openGrants = s.openGrants := rfl
@[simp] theorem setTiming_ring (s : State) x : (s.setTiming x).ring = s.ring := rfl
@[simp] theorem setTiming_policy (s : State) x : (s.setTiming x).policy = s.policy := rfl
@[simp] theorem setTiming_inhibit (s : State) x : (s.setTiming x).inhibit = s.inhibit := rfl
@[simp] theorem setTiming_changes (s : State) x : (s.setTiming x).changes = s.changes := rfl
@[simp] theorem setTiming_link (s : State) x : (s.setTiming x).link = s.link := rfl
@[simp] theorem setTiming_pins (s : State) x : (s.setTiming x).pins = s.pins := rfl
@[simp] theorem setTiming_loaded (s : State) x : (s.setTiming x).loaded = s.loaded := rfl
@[simp] theorem setTiming_image (s : State) x : (s.setTiming x).image = s.image := rfl
@[simp] theorem setTiming_work (s : State) x : (s.setTiming x).work = s.work := rfl
@[simp] theorem setTiming_now (s : State) x : (s.setTiming x).now = s.now := rfl
@[simp] theorem setTiming_pending (s : State) x : (s.setTiming x).pending = s.pending := rfl

/-! ## setCarriers -/

@[simp] theorem setCarriers_timing (s : State) x : (s.setCarriers x).timing = s.timing := rfl
@[simp] theorem setCarriers_carriers (s : State) x : (s.setCarriers x).carriers = x := rfl
@[simp] theorem setCarriers_heat (s : State) x : (s.setCarriers x).heat = s.heat := rfl
@[simp] theorem setCarriers_supply (s : State) x : (s.setCarriers x).supply = s.supply := rfl
@[simp] theorem setCarriers_engine (s : State) x : (s.setCarriers x).engine = s.engine := rfl
@[simp] theorem setCarriers_openGrants (s : State) x : (s.setCarriers x).openGrants = s.openGrants := rfl
@[simp] theorem setCarriers_ring (s : State) x : (s.setCarriers x).ring = s.ring := rfl
@[simp] theorem setCarriers_policy (s : State) x : (s.setCarriers x).policy = s.policy := rfl
@[simp] theorem setCarriers_inhibit (s : State) x : (s.setCarriers x).inhibit = s.inhibit := rfl
@[simp] theorem setCarriers_changes (s : State) x : (s.setCarriers x).changes = s.changes := rfl
@[simp] theorem setCarriers_link (s : State) x : (s.setCarriers x).link = s.link := rfl
@[simp] theorem setCarriers_pins (s : State) x : (s.setCarriers x).pins = s.pins := rfl
@[simp] theorem setCarriers_loaded (s : State) x : (s.setCarriers x).loaded = s.loaded := rfl
@[simp] theorem setCarriers_image (s : State) x : (s.setCarriers x).image = s.image := rfl
@[simp] theorem setCarriers_work (s : State) x : (s.setCarriers x).work = s.work := rfl
@[simp] theorem setCarriers_now (s : State) x : (s.setCarriers x).now = s.now := rfl
@[simp] theorem setCarriers_pending (s : State) x : (s.setCarriers x).pending = s.pending := rfl

/-! ## setHeat -/

@[simp] theorem setHeat_timing (s : State) x : (s.setHeat x).timing = s.timing := rfl
@[simp] theorem setHeat_carriers (s : State) x : (s.setHeat x).carriers = s.carriers := rfl
@[simp] theorem setHeat_heat (s : State) x : (s.setHeat x).heat = x := rfl
@[simp] theorem setHeat_supply (s : State) x : (s.setHeat x).supply = s.supply := rfl
@[simp] theorem setHeat_engine (s : State) x : (s.setHeat x).engine = s.engine := rfl
@[simp] theorem setHeat_openGrants (s : State) x : (s.setHeat x).openGrants = s.openGrants := rfl
@[simp] theorem setHeat_ring (s : State) x : (s.setHeat x).ring = s.ring := rfl
@[simp] theorem setHeat_policy (s : State) x : (s.setHeat x).policy = s.policy := rfl
@[simp] theorem setHeat_inhibit (s : State) x : (s.setHeat x).inhibit = s.inhibit := rfl
@[simp] theorem setHeat_changes (s : State) x : (s.setHeat x).changes = s.changes := rfl
@[simp] theorem setHeat_link (s : State) x : (s.setHeat x).link = s.link := rfl
@[simp] theorem setHeat_pins (s : State) x : (s.setHeat x).pins = s.pins := rfl
@[simp] theorem setHeat_loaded (s : State) x : (s.setHeat x).loaded = s.loaded := rfl
@[simp] theorem setHeat_image (s : State) x : (s.setHeat x).image = s.image := rfl
@[simp] theorem setHeat_work (s : State) x : (s.setHeat x).work = s.work := rfl
@[simp] theorem setHeat_now (s : State) x : (s.setHeat x).now = s.now := rfl
@[simp] theorem setHeat_pending (s : State) x : (s.setHeat x).pending = s.pending := rfl

/-! ## setSupply -/

@[simp] theorem setSupply_timing (s : State) x : (s.setSupply x).timing = s.timing := rfl
@[simp] theorem setSupply_carriers (s : State) x : (s.setSupply x).carriers = s.carriers := rfl
@[simp] theorem setSupply_heat (s : State) x : (s.setSupply x).heat = s.heat := rfl
@[simp] theorem setSupply_supply (s : State) x : (s.setSupply x).supply = x := rfl
@[simp] theorem setSupply_engine (s : State) x : (s.setSupply x).engine = s.engine := rfl
@[simp] theorem setSupply_openGrants (s : State) x : (s.setSupply x).openGrants = s.openGrants := rfl
@[simp] theorem setSupply_ring (s : State) x : (s.setSupply x).ring = s.ring := rfl
@[simp] theorem setSupply_policy (s : State) x : (s.setSupply x).policy = s.policy := rfl
@[simp] theorem setSupply_inhibit (s : State) x : (s.setSupply x).inhibit = s.inhibit := rfl
@[simp] theorem setSupply_changes (s : State) x : (s.setSupply x).changes = s.changes := rfl
@[simp] theorem setSupply_link (s : State) x : (s.setSupply x).link = s.link := rfl
@[simp] theorem setSupply_pins (s : State) x : (s.setSupply x).pins = s.pins := rfl
@[simp] theorem setSupply_loaded (s : State) x : (s.setSupply x).loaded = s.loaded := rfl
@[simp] theorem setSupply_image (s : State) x : (s.setSupply x).image = s.image := rfl
@[simp] theorem setSupply_work (s : State) x : (s.setSupply x).work = s.work := rfl
@[simp] theorem setSupply_now (s : State) x : (s.setSupply x).now = s.now := rfl
@[simp] theorem setSupply_pending (s : State) x : (s.setSupply x).pending = s.pending := rfl

/-! ## setEngine -/

@[simp] theorem setEngine_timing (s : State) x : (s.setEngine x).timing = s.timing := rfl
@[simp] theorem setEngine_carriers (s : State) x : (s.setEngine x).carriers = s.carriers := rfl
@[simp] theorem setEngine_heat (s : State) x : (s.setEngine x).heat = s.heat := rfl
@[simp] theorem setEngine_supply (s : State) x : (s.setEngine x).supply = s.supply := rfl
@[simp] theorem setEngine_engine (s : State) x : (s.setEngine x).engine = x := rfl
@[simp] theorem setEngine_openGrants (s : State) x : (s.setEngine x).openGrants = s.openGrants := rfl
@[simp] theorem setEngine_ring (s : State) x : (s.setEngine x).ring = s.ring := rfl
@[simp] theorem setEngine_policy (s : State) x : (s.setEngine x).policy = s.policy := rfl
@[simp] theorem setEngine_inhibit (s : State) x : (s.setEngine x).inhibit = s.inhibit := rfl
@[simp] theorem setEngine_changes (s : State) x : (s.setEngine x).changes = s.changes := rfl
@[simp] theorem setEngine_link (s : State) x : (s.setEngine x).link = s.link := rfl
@[simp] theorem setEngine_pins (s : State) x : (s.setEngine x).pins = s.pins := rfl
@[simp] theorem setEngine_loaded (s : State) x : (s.setEngine x).loaded = s.loaded := rfl
@[simp] theorem setEngine_image (s : State) x : (s.setEngine x).image = s.image := rfl
@[simp] theorem setEngine_work (s : State) x : (s.setEngine x).work = s.work := rfl
@[simp] theorem setEngine_now (s : State) x : (s.setEngine x).now = s.now := rfl
@[simp] theorem setEngine_pending (s : State) x : (s.setEngine x).pending = s.pending := rfl

/-! ## setOpenGrants -/

@[simp] theorem setOpenGrants_timing (s : State) x : (s.setOpenGrants x).timing = s.timing := rfl
@[simp] theorem setOpenGrants_carriers (s : State) x : (s.setOpenGrants x).carriers = s.carriers := rfl
@[simp] theorem setOpenGrants_heat (s : State) x : (s.setOpenGrants x).heat = s.heat := rfl
@[simp] theorem setOpenGrants_supply (s : State) x : (s.setOpenGrants x).supply = s.supply := rfl
@[simp] theorem setOpenGrants_engine (s : State) x : (s.setOpenGrants x).engine = s.engine := rfl
@[simp] theorem setOpenGrants_openGrants (s : State) x : (s.setOpenGrants x).openGrants = x := rfl
@[simp] theorem setOpenGrants_ring (s : State) x : (s.setOpenGrants x).ring = s.ring := rfl
@[simp] theorem setOpenGrants_policy (s : State) x : (s.setOpenGrants x).policy = s.policy := rfl
@[simp] theorem setOpenGrants_inhibit (s : State) x : (s.setOpenGrants x).inhibit = s.inhibit := rfl
@[simp] theorem setOpenGrants_changes (s : State) x : (s.setOpenGrants x).changes = s.changes := rfl
@[simp] theorem setOpenGrants_link (s : State) x : (s.setOpenGrants x).link = s.link := rfl
@[simp] theorem setOpenGrants_pins (s : State) x : (s.setOpenGrants x).pins = s.pins := rfl
@[simp] theorem setOpenGrants_loaded (s : State) x : (s.setOpenGrants x).loaded = s.loaded := rfl
@[simp] theorem setOpenGrants_image (s : State) x : (s.setOpenGrants x).image = s.image := rfl
@[simp] theorem setOpenGrants_work (s : State) x : (s.setOpenGrants x).work = s.work := rfl
@[simp] theorem setOpenGrants_now (s : State) x : (s.setOpenGrants x).now = s.now := rfl
@[simp] theorem setOpenGrants_pending (s : State) x : (s.setOpenGrants x).pending = s.pending := rfl

/-! ## setRing -/

@[simp] theorem setRing_timing (s : State) x : (s.setRing x).timing = s.timing := rfl
@[simp] theorem setRing_carriers (s : State) x : (s.setRing x).carriers = s.carriers := rfl
@[simp] theorem setRing_heat (s : State) x : (s.setRing x).heat = s.heat := rfl
@[simp] theorem setRing_supply (s : State) x : (s.setRing x).supply = s.supply := rfl
@[simp] theorem setRing_engine (s : State) x : (s.setRing x).engine = s.engine := rfl
@[simp] theorem setRing_openGrants (s : State) x : (s.setRing x).openGrants = s.openGrants := rfl
@[simp] theorem setRing_ring (s : State) x : (s.setRing x).ring = x := rfl
@[simp] theorem setRing_policy (s : State) x : (s.setRing x).policy = s.policy := rfl
@[simp] theorem setRing_inhibit (s : State) x : (s.setRing x).inhibit = s.inhibit := rfl
@[simp] theorem setRing_changes (s : State) x : (s.setRing x).changes = s.changes := rfl
@[simp] theorem setRing_link (s : State) x : (s.setRing x).link = s.link := rfl
@[simp] theorem setRing_pins (s : State) x : (s.setRing x).pins = s.pins := rfl
@[simp] theorem setRing_loaded (s : State) x : (s.setRing x).loaded = s.loaded := rfl
@[simp] theorem setRing_image (s : State) x : (s.setRing x).image = s.image := rfl
@[simp] theorem setRing_work (s : State) x : (s.setRing x).work = s.work := rfl
@[simp] theorem setRing_now (s : State) x : (s.setRing x).now = s.now := rfl
@[simp] theorem setRing_pending (s : State) x : (s.setRing x).pending = s.pending := rfl

/-! ## setPolicy -/

@[simp] theorem setPolicy_timing (s : State) x : (s.setPolicy x).timing = s.timing := rfl
@[simp] theorem setPolicy_carriers (s : State) x : (s.setPolicy x).carriers = s.carriers := rfl
@[simp] theorem setPolicy_heat (s : State) x : (s.setPolicy x).heat = s.heat := rfl
@[simp] theorem setPolicy_supply (s : State) x : (s.setPolicy x).supply = s.supply := rfl
@[simp] theorem setPolicy_engine (s : State) x : (s.setPolicy x).engine = s.engine := rfl
@[simp] theorem setPolicy_openGrants (s : State) x : (s.setPolicy x).openGrants = s.openGrants := rfl
@[simp] theorem setPolicy_ring (s : State) x : (s.setPolicy x).ring = s.ring := rfl
@[simp] theorem setPolicy_policy (s : State) x : (s.setPolicy x).policy = x := rfl
@[simp] theorem setPolicy_inhibit (s : State) x : (s.setPolicy x).inhibit = s.inhibit := rfl
@[simp] theorem setPolicy_changes (s : State) x : (s.setPolicy x).changes = s.changes := rfl
@[simp] theorem setPolicy_link (s : State) x : (s.setPolicy x).link = s.link := rfl
@[simp] theorem setPolicy_pins (s : State) x : (s.setPolicy x).pins = s.pins := rfl
@[simp] theorem setPolicy_loaded (s : State) x : (s.setPolicy x).loaded = s.loaded := rfl
@[simp] theorem setPolicy_image (s : State) x : (s.setPolicy x).image = s.image := rfl
@[simp] theorem setPolicy_work (s : State) x : (s.setPolicy x).work = s.work := rfl
@[simp] theorem setPolicy_now (s : State) x : (s.setPolicy x).now = s.now := rfl
@[simp] theorem setPolicy_pending (s : State) x : (s.setPolicy x).pending = s.pending := rfl

/-! ## setInhibit -/

@[simp] theorem setInhibit_timing (s : State) x : (s.setInhibit x).timing = s.timing := rfl
@[simp] theorem setInhibit_carriers (s : State) x : (s.setInhibit x).carriers = s.carriers := rfl
@[simp] theorem setInhibit_heat (s : State) x : (s.setInhibit x).heat = s.heat := rfl
@[simp] theorem setInhibit_supply (s : State) x : (s.setInhibit x).supply = s.supply := rfl
@[simp] theorem setInhibit_engine (s : State) x : (s.setInhibit x).engine = s.engine := rfl
@[simp] theorem setInhibit_openGrants (s : State) x : (s.setInhibit x).openGrants = s.openGrants := rfl
@[simp] theorem setInhibit_ring (s : State) x : (s.setInhibit x).ring = s.ring := rfl
@[simp] theorem setInhibit_policy (s : State) x : (s.setInhibit x).policy = s.policy := rfl
@[simp] theorem setInhibit_inhibit (s : State) x : (s.setInhibit x).inhibit = x := rfl
@[simp] theorem setInhibit_changes (s : State) x : (s.setInhibit x).changes = s.changes := rfl
@[simp] theorem setInhibit_link (s : State) x : (s.setInhibit x).link = s.link := rfl
@[simp] theorem setInhibit_pins (s : State) x : (s.setInhibit x).pins = s.pins := rfl
@[simp] theorem setInhibit_loaded (s : State) x : (s.setInhibit x).loaded = s.loaded := rfl
@[simp] theorem setInhibit_image (s : State) x : (s.setInhibit x).image = s.image := rfl
@[simp] theorem setInhibit_work (s : State) x : (s.setInhibit x).work = s.work := rfl
@[simp] theorem setInhibit_now (s : State) x : (s.setInhibit x).now = s.now := rfl
@[simp] theorem setInhibit_pending (s : State) x : (s.setInhibit x).pending = s.pending := rfl

/-! ## setChanges -/

@[simp] theorem setChanges_timing (s : State) x : (s.setChanges x).timing = s.timing := rfl
@[simp] theorem setChanges_carriers (s : State) x : (s.setChanges x).carriers = s.carriers := rfl
@[simp] theorem setChanges_heat (s : State) x : (s.setChanges x).heat = s.heat := rfl
@[simp] theorem setChanges_supply (s : State) x : (s.setChanges x).supply = s.supply := rfl
@[simp] theorem setChanges_engine (s : State) x : (s.setChanges x).engine = s.engine := rfl
@[simp] theorem setChanges_openGrants (s : State) x : (s.setChanges x).openGrants = s.openGrants := rfl
@[simp] theorem setChanges_ring (s : State) x : (s.setChanges x).ring = s.ring := rfl
@[simp] theorem setChanges_policy (s : State) x : (s.setChanges x).policy = s.policy := rfl
@[simp] theorem setChanges_inhibit (s : State) x : (s.setChanges x).inhibit = s.inhibit := rfl
@[simp] theorem setChanges_changes (s : State) x : (s.setChanges x).changes = x := rfl
@[simp] theorem setChanges_link (s : State) x : (s.setChanges x).link = s.link := rfl
@[simp] theorem setChanges_pins (s : State) x : (s.setChanges x).pins = s.pins := rfl
@[simp] theorem setChanges_loaded (s : State) x : (s.setChanges x).loaded = s.loaded := rfl
@[simp] theorem setChanges_image (s : State) x : (s.setChanges x).image = s.image := rfl
@[simp] theorem setChanges_work (s : State) x : (s.setChanges x).work = s.work := rfl
@[simp] theorem setChanges_now (s : State) x : (s.setChanges x).now = s.now := rfl
@[simp] theorem setChanges_pending (s : State) x : (s.setChanges x).pending = s.pending := rfl

/-! ## setLink -/

@[simp] theorem setLink_timing (s : State) x : (s.setLink x).timing = s.timing := rfl
@[simp] theorem setLink_carriers (s : State) x : (s.setLink x).carriers = s.carriers := rfl
@[simp] theorem setLink_heat (s : State) x : (s.setLink x).heat = s.heat := rfl
@[simp] theorem setLink_supply (s : State) x : (s.setLink x).supply = s.supply := rfl
@[simp] theorem setLink_engine (s : State) x : (s.setLink x).engine = s.engine := rfl
@[simp] theorem setLink_openGrants (s : State) x : (s.setLink x).openGrants = s.openGrants := rfl
@[simp] theorem setLink_ring (s : State) x : (s.setLink x).ring = s.ring := rfl
@[simp] theorem setLink_policy (s : State) x : (s.setLink x).policy = s.policy := rfl
@[simp] theorem setLink_inhibit (s : State) x : (s.setLink x).inhibit = s.inhibit := rfl
@[simp] theorem setLink_changes (s : State) x : (s.setLink x).changes = s.changes := rfl
@[simp] theorem setLink_link (s : State) x : (s.setLink x).link = x := rfl
@[simp] theorem setLink_pins (s : State) x : (s.setLink x).pins = s.pins := rfl
@[simp] theorem setLink_loaded (s : State) x : (s.setLink x).loaded = s.loaded := rfl
@[simp] theorem setLink_image (s : State) x : (s.setLink x).image = s.image := rfl
@[simp] theorem setLink_work (s : State) x : (s.setLink x).work = s.work := rfl
@[simp] theorem setLink_now (s : State) x : (s.setLink x).now = s.now := rfl
@[simp] theorem setLink_pending (s : State) x : (s.setLink x).pending = s.pending := rfl

/-! ## setPins -/

@[simp] theorem setPins_timing (s : State) x : (s.setPins x).timing = s.timing := rfl
@[simp] theorem setPins_carriers (s : State) x : (s.setPins x).carriers = s.carriers := rfl
@[simp] theorem setPins_heat (s : State) x : (s.setPins x).heat = s.heat := rfl
@[simp] theorem setPins_supply (s : State) x : (s.setPins x).supply = s.supply := rfl
@[simp] theorem setPins_engine (s : State) x : (s.setPins x).engine = s.engine := rfl
@[simp] theorem setPins_openGrants (s : State) x : (s.setPins x).openGrants = s.openGrants := rfl
@[simp] theorem setPins_ring (s : State) x : (s.setPins x).ring = s.ring := rfl
@[simp] theorem setPins_policy (s : State) x : (s.setPins x).policy = s.policy := rfl
@[simp] theorem setPins_inhibit (s : State) x : (s.setPins x).inhibit = s.inhibit := rfl
@[simp] theorem setPins_changes (s : State) x : (s.setPins x).changes = s.changes := rfl
@[simp] theorem setPins_link (s : State) x : (s.setPins x).link = s.link := rfl
@[simp] theorem setPins_pins (s : State) x : (s.setPins x).pins = x := rfl
@[simp] theorem setPins_loaded (s : State) x : (s.setPins x).loaded = s.loaded := rfl
@[simp] theorem setPins_image (s : State) x : (s.setPins x).image = s.image := rfl
@[simp] theorem setPins_work (s : State) x : (s.setPins x).work = s.work := rfl
@[simp] theorem setPins_now (s : State) x : (s.setPins x).now = s.now := rfl
@[simp] theorem setPins_pending (s : State) x : (s.setPins x).pending = s.pending := rfl

/-! ## setLoaded -/

@[simp] theorem setLoaded_timing (s : State) x : (s.setLoaded x).timing = s.timing := rfl
@[simp] theorem setLoaded_carriers (s : State) x : (s.setLoaded x).carriers = s.carriers := rfl
@[simp] theorem setLoaded_heat (s : State) x : (s.setLoaded x).heat = s.heat := rfl
@[simp] theorem setLoaded_supply (s : State) x : (s.setLoaded x).supply = s.supply := rfl
@[simp] theorem setLoaded_engine (s : State) x : (s.setLoaded x).engine = s.engine := rfl
@[simp] theorem setLoaded_openGrants (s : State) x : (s.setLoaded x).openGrants = s.openGrants := rfl
@[simp] theorem setLoaded_ring (s : State) x : (s.setLoaded x).ring = s.ring := rfl
@[simp] theorem setLoaded_policy (s : State) x : (s.setLoaded x).policy = s.policy := rfl
@[simp] theorem setLoaded_inhibit (s : State) x : (s.setLoaded x).inhibit = s.inhibit := rfl
@[simp] theorem setLoaded_changes (s : State) x : (s.setLoaded x).changes = s.changes := rfl
@[simp] theorem setLoaded_link (s : State) x : (s.setLoaded x).link = s.link := rfl
@[simp] theorem setLoaded_pins (s : State) x : (s.setLoaded x).pins = s.pins := rfl
@[simp] theorem setLoaded_loaded (s : State) x : (s.setLoaded x).loaded = x := rfl
@[simp] theorem setLoaded_image (s : State) x : (s.setLoaded x).image = s.image := rfl
@[simp] theorem setLoaded_work (s : State) x : (s.setLoaded x).work = s.work := rfl
@[simp] theorem setLoaded_now (s : State) x : (s.setLoaded x).now = s.now := rfl
@[simp] theorem setLoaded_pending (s : State) x : (s.setLoaded x).pending = s.pending := rfl

/-! ## setImage -/

@[simp] theorem setImage_timing (s : State) x : (s.setImage x).timing = s.timing := rfl
@[simp] theorem setImage_carriers (s : State) x : (s.setImage x).carriers = s.carriers := rfl
@[simp] theorem setImage_heat (s : State) x : (s.setImage x).heat = s.heat := rfl
@[simp] theorem setImage_supply (s : State) x : (s.setImage x).supply = s.supply := rfl
@[simp] theorem setImage_engine (s : State) x : (s.setImage x).engine = s.engine := rfl
@[simp] theorem setImage_openGrants (s : State) x : (s.setImage x).openGrants = s.openGrants := rfl
@[simp] theorem setImage_ring (s : State) x : (s.setImage x).ring = s.ring := rfl
@[simp] theorem setImage_policy (s : State) x : (s.setImage x).policy = s.policy := rfl
@[simp] theorem setImage_inhibit (s : State) x : (s.setImage x).inhibit = s.inhibit := rfl
@[simp] theorem setImage_changes (s : State) x : (s.setImage x).changes = s.changes := rfl
@[simp] theorem setImage_link (s : State) x : (s.setImage x).link = s.link := rfl
@[simp] theorem setImage_pins (s : State) x : (s.setImage x).pins = s.pins := rfl
@[simp] theorem setImage_loaded (s : State) x : (s.setImage x).loaded = s.loaded := rfl
@[simp] theorem setImage_image (s : State) x : (s.setImage x).image = x := rfl
@[simp] theorem setImage_work (s : State) x : (s.setImage x).work = s.work := rfl
@[simp] theorem setImage_now (s : State) x : (s.setImage x).now = s.now := rfl
@[simp] theorem setImage_pending (s : State) x : (s.setImage x).pending = s.pending := rfl

/-! ## setWork -/

@[simp] theorem setWork_timing (s : State) x : (s.setWork x).timing = s.timing := rfl
@[simp] theorem setWork_carriers (s : State) x : (s.setWork x).carriers = s.carriers := rfl
@[simp] theorem setWork_heat (s : State) x : (s.setWork x).heat = s.heat := rfl
@[simp] theorem setWork_supply (s : State) x : (s.setWork x).supply = s.supply := rfl
@[simp] theorem setWork_engine (s : State) x : (s.setWork x).engine = s.engine := rfl
@[simp] theorem setWork_openGrants (s : State) x : (s.setWork x).openGrants = s.openGrants := rfl
@[simp] theorem setWork_ring (s : State) x : (s.setWork x).ring = s.ring := rfl
@[simp] theorem setWork_policy (s : State) x : (s.setWork x).policy = s.policy := rfl
@[simp] theorem setWork_inhibit (s : State) x : (s.setWork x).inhibit = s.inhibit := rfl
@[simp] theorem setWork_changes (s : State) x : (s.setWork x).changes = s.changes := rfl
@[simp] theorem setWork_link (s : State) x : (s.setWork x).link = s.link := rfl
@[simp] theorem setWork_pins (s : State) x : (s.setWork x).pins = s.pins := rfl
@[simp] theorem setWork_loaded (s : State) x : (s.setWork x).loaded = s.loaded := rfl
@[simp] theorem setWork_image (s : State) x : (s.setWork x).image = s.image := rfl
@[simp] theorem setWork_work (s : State) x : (s.setWork x).work = x := rfl
@[simp] theorem setWork_now (s : State) x : (s.setWork x).now = s.now := rfl
@[simp] theorem setWork_pending (s : State) x : (s.setWork x).pending = s.pending := rfl

/-! ## setNow -/

@[simp] theorem setNow_timing (s : State) x : (s.setNow x).timing = s.timing := rfl
@[simp] theorem setNow_carriers (s : State) x : (s.setNow x).carriers = s.carriers := rfl
@[simp] theorem setNow_heat (s : State) x : (s.setNow x).heat = s.heat := rfl
@[simp] theorem setNow_supply (s : State) x : (s.setNow x).supply = s.supply := rfl
@[simp] theorem setNow_engine (s : State) x : (s.setNow x).engine = s.engine := rfl
@[simp] theorem setNow_openGrants (s : State) x : (s.setNow x).openGrants = s.openGrants := rfl
@[simp] theorem setNow_ring (s : State) x : (s.setNow x).ring = s.ring := rfl
@[simp] theorem setNow_policy (s : State) x : (s.setNow x).policy = s.policy := rfl
@[simp] theorem setNow_inhibit (s : State) x : (s.setNow x).inhibit = s.inhibit := rfl
@[simp] theorem setNow_changes (s : State) x : (s.setNow x).changes = s.changes := rfl
@[simp] theorem setNow_link (s : State) x : (s.setNow x).link = s.link := rfl
@[simp] theorem setNow_pins (s : State) x : (s.setNow x).pins = s.pins := rfl
@[simp] theorem setNow_loaded (s : State) x : (s.setNow x).loaded = s.loaded := rfl
@[simp] theorem setNow_image (s : State) x : (s.setNow x).image = s.image := rfl
@[simp] theorem setNow_work (s : State) x : (s.setNow x).work = s.work := rfl
@[simp] theorem setNow_now (s : State) x : (s.setNow x).now = x := rfl
@[simp] theorem setNow_pending (s : State) x : (s.setNow x).pending = s.pending := rfl

end Sys2Proof.Machine
end

