-- ==== Sys2Proof/Laws/Frame.lean ====
section
/-!
SUPPORT. Frames: which blocks each shared operation can change, said once for each. A frame gives one field with
`frame_<field>`: `frame_timing (massClose_frame s) (by decide) : (massClose s).timing = s.timing`.
-/

set_option Elab.async false

namespace Sys2Proof.Machine

/-! ## Frames in general -/

theorem onlyChanges_iff {bs : List Block} {s t : State} : onlyChanges bs s t ↔
    t.pending = s.pending ∧ (.timing ∉ bs → t.timing = s.timing) ∧ (.carriers ∉ bs → t.carriers = s.carriers) ∧
    (.heat ∉ bs → t.heat = s.heat) ∧ (.supply ∉ bs → t.supply = s.supply) ∧ (.engine ∉ bs → t.engine = s.engine) ∧
    (.openGrants ∉ bs → t.openGrants = s.openGrants) ∧ (.ring ∉ bs → t.ring = s.ring) ∧
    (.policy ∉ bs → t.policy = s.policy) ∧ (.inhibit ∉ bs → t.inhibit = s.inhibit) ∧
    (.changes ∉ bs → t.changes = s.changes) ∧ (.link ∉ bs → t.link = s.link) ∧ (.pins ∉ bs → t.pins = s.pins) ∧
    (.loaded ∉ bs → t.loaded = s.loaded) ∧ (.image ∉ bs → t.image = s.image) ∧ (.work ∉ bs → t.work = s.work) ∧
    (.clock ∉ bs → t.now = s.now) := by
  constructor
  · intro h
    exact ⟨h.1, h.2 .timing, h.2 .carriers, h.2 .heat, h.2 .supply, h.2 .engine, h.2 .openGrants, h.2 .ring,
      h.2 .policy, h.2 .inhibit, h.2 .changes, h.2 .link, h.2 .pins, h.2 .loaded, h.2 .image, h.2 .work, h.2 .clock⟩
  · rintro ⟨h0, h1, h2, h3, h4, h5, h6, h7, h8, h9, h10, h11, h12, h13, h14, h15, h16⟩
    refine ⟨h0, fun b => ?_⟩
    cases b <;> assumption

section fields
variable {bs : List Block} {s t : State} (h : onlyChanges bs s t)
include h

theorem frame_pending : t.pending = s.pending := h.1
theorem frame_timing (hb : .timing ∉ bs) : t.timing = s.timing := h.2 .timing hb
theorem frame_carriers (hb : .carriers ∉ bs) : t.carriers = s.carriers := h.2 .carriers hb
theorem frame_heat (hb : .heat ∉ bs) : t.heat = s.heat := h.2 .heat hb
theorem frame_supply (hb : .supply ∉ bs) : t.supply = s.supply := h.2 .supply hb
theorem frame_engine (hb : .engine ∉ bs) : t.engine = s.engine := h.2 .engine hb
theorem frame_openGrants (hb : .openGrants ∉ bs) : t.openGrants = s.openGrants := h.2 .openGrants hb
theorem frame_ring (hb : .ring ∉ bs) : t.ring = s.ring := h.2 .ring hb
theorem frame_policy (hb : .policy ∉ bs) : t.policy = s.policy := h.2 .policy hb
theorem frame_inhibit (hb : .inhibit ∉ bs) : t.inhibit = s.inhibit := h.2 .inhibit hb
theorem frame_changes (hb : .changes ∉ bs) : t.changes = s.changes := h.2 .changes hb
theorem frame_link (hb : .link ∉ bs) : t.link = s.link := h.2 .link hb
theorem frame_pins (hb : .pins ∉ bs) : t.pins = s.pins := h.2 .pins hb
theorem frame_loaded (hb : .loaded ∉ bs) : t.loaded = s.loaded := h.2 .loaded hb
theorem frame_image (hb : .image ∉ bs) : t.image = s.image := h.2 .image hb
theorem frame_work (hb : .work ∉ bs) : t.work = s.work := h.2 .work hb
theorem frame_now (hb : .clock ∉ bs) : t.now = s.now := h.2 .clock hb

end fields

theorem frame_refl (bs : List Block) (s : State) : onlyChanges bs s s :=
  ⟨rfl, fun b _ => by cases b <;> rfl⟩

theorem frame_wider {bs cs : List Block} {s t : State} (h : onlyChanges bs s t) (hb : bs ⊆ cs) : onlyChanges cs s t :=
  ⟨h.1, fun b hc => h.2 b fun m => hc (hb m)⟩

theorem frame_trans {bs : List Block} {s t u : State} (h : onlyChanges bs s t) (k : onlyChanges bs t u) :
    onlyChanges bs s u := by
  refine ⟨k.1.trans h.1, fun b hb => ?_⟩
  have h1 := h.2 b hb
  have h2 := k.2 b hb
  cases b <;> exact Eq.trans h2 h1

/-- Two operations in a row, each within the blocks `ds`. -/
theorem frame_then {bs cs ds : List Block} {s t u : State} (h : onlyChanges bs s t) (k : onlyChanges cs t u)
    (hb : bs ⊆ ds := by simp) (hc : cs ⊆ ds := by simp) : onlyChanges ds s u :=
  frame_trans (frame_wider h hb) (frame_wider k hc)

theorem frame_foldl {α : Type} {bs : List Block} (f : State → α → State) (hf : ∀ s x, onlyChanges bs s (f s x))
    (xs : List α) (s : State) : onlyChanges bs s (xs.foldl f s) := by
  induction xs generalizing s with
  | nil => exact frame_refl bs s
  | cons x xs ih => exact frame_trans (hf s x) (ih (f s x))

/-! ## Operations over one block -/

theorem advanceTo_frame (t : Moment) (s : State) : onlyChanges [.clock] s (advanceTo t s) := by
  simp [onlyChanges_iff, advanceTo]

theorem raiseFault_frame (c : FaultClass) (s : State) : onlyChanges [.work] s (raiseFault c s) := by
  simp [onlyChanges_iff, raiseFault]

theorem sendNotice_frame (n : Notice) (s : State) : onlyChanges [.work] s (sendNotice n s) := by
  simp [onlyChanges_iff, sendNotice]

theorem raiseChange_frame (c : Change) (s : State) : onlyChanges [.changes] s (raiseChange c s) := by
  unfold raiseChange; split <;> simp [onlyChanges_iff]

theorem mapRecord_frame (p : Fin 128) (f : IntervalRecord → IntervalRecord) (s : State) :
    onlyChanges [.ring] s (mapRecord p f s) := by simp [onlyChanges_iff, mapRecord]

theorem mapNamedRecord_frame (e : OpenGrant) (f : IntervalRecord → IntervalRecord) (s : State) :
    onlyChanges [.ring] s (mapNamedRecord e f s) := by
  unfold mapNamedRecord; split
  · exact mapRecord_frame _ _ _
  · exact frame_refl _ _

theorem recomputeExposure_frame (s : State) : onlyChanges [.ring, .work] s (recomputeExposure s) := by
  simp only [recomputeExposure]; split
  · exact frame_refl _ _
  · split <;> simp [onlyChanges_iff, raiseFault, sendNotice]

theorem recomputeInhibit_frame (s : State) : onlyChanges [.inhibit, .changes] s (recomputeInhibit s) := by
  unfold recomputeInhibit; split
  · exact frame_refl _ _
  · exact frame_then (bs := [.inhibit]) (by simp [onlyChanges_iff]) (raiseChange_frame _ _)

/-! ## Averaging Ring -/

theorem countInterval_frame (s : State) : onlyChanges [.ring] s (countInterval s) := by
  simp [onlyChanges_iff, countInterval]

theorem turnInterval_frame (s : State) : onlyChanges [.ring] s (turnInterval s) := by
  simp [onlyChanges_iff, turnInterval]

theorem halvesAt_frame (p : Fin 128) (closed opening : Nat) (s : State) :
    onlyChanges [.ring, .changes] s (halvesAt p closed opening s) := by
  have key : ∀ (b : Bool) (c d : Change) (f : State → Ring),
      onlyChanges [.ring, .changes] s
        (raiseChange d ((if b then raiseChange c s else s).setRing (f (if b then raiseChange c s else s)))) := by
    intro b c d f
    refine frame_then (bs := [.ring, .changes]) ?_ (raiseChange_frame _ _)
    refine frame_then (bs := [.changes]) (cs := [.ring])
      (t := if b = true then raiseChange c s else s) ?_ (by simp [onlyChanges_iff])
    split
    · exact raiseChange_frame _ _
    · exact frame_refl _ _
  unfold halvesAt
  split
  · exact key _ _ _ (fun s => { s.ring with upperHeld := false, lowerHeld := true })
  · split
    · exact key _ _ _ (fun s => { s.ring with lowerHeld := false, upperHeld := true })
    · exact frame_refl _ _

theorem closeInterval_frame (s : State) : onlyChanges [.ring, .changes, .work] s (closeInterval s) :=
  frame_then (frame_then (ds := [.ring, .changes]) (halvesAt_frame _ _ _ s) (turnInterval_frame _))
    (recomputeExposure_frame _)

theorem fillRing_frame (presumption : Nat) (s : State) : onlyChanges [.ring] s (fillRing presumption s) := by
  simp [onlyChanges_iff, fillRing]

/-! ## Open Grant List -/

theorem offerMark_frame (p : Word32) (s : State) : onlyChanges [.openGrants] s (offerMark p s) := by
  unfold offerMark; split <;> simp [onlyChanges_iff]

theorem setEntries_frame (es : List OpenGrant) (s : State) : onlyChanges [.openGrants] s (setEntries es s) := by
  simp [onlyChanges_iff, setEntries]

theorem settleAsGranted_frame (s : State) (e : OpenGrant) :
    onlyChanges [.openGrants, .ring] s (settleAsGranted s e) :=
  frame_then (mapNamedRecord_frame e _ s) (offerMark_frame _ _)

theorem closeEntries_frame (p : OpenGrant → Bool) (s : State) :
    onlyChanges [.openGrants, .ring] s (closeEntries p s) :=
  frame_then (setEntries_frame _ s) (frame_foldl _ settleAsGranted_frame _ _)

theorem massClose_frame (s : State) : onlyChanges [.openGrants, .ring] s (massClose s) := closeEntries_frame _ s

theorem liftMark_frame (s : State) : onlyChanges [.openGrants] s (liftMark s) := by
  unfold liftMark; split <;> simp [onlyChanges_iff]

theorem expiryCheck_frame (s : State) : onlyChanges [.openGrants, .ring] s (expiryCheck s) :=
  frame_then (closeEntries_frame _ s) (liftMark_frame _)

theorem withoutEntry_frame (p : Word32) (s : State) : onlyChanges [.openGrants] s (withoutEntry p s) :=
  setEntries_frame _ s

theorem evictIfFull_frame (s : State) : onlyChanges [.openGrants, .ring] s (evictIfFull s) := by
  unfold evictIfFull
  split
  · exact frame_refl _ _
  · split
    · exact frame_refl _ _
    · exact frame_then (setEntries_frame _ s) (settleAsGranted_frame _ _)

theorem insertEntry_frame (e : OpenGrant) (s : State) : onlyChanges [.openGrants, .ring] s (insertEntry e s) :=
  frame_then (evictIfFull_frame s) (setEntries_frame _ _)

theorem noteOvershoot_frame (b : Bool) (p : Word32) (s : State) :
    onlyChanges [.changes, .work] s (noteOvershoot b p s) := by
  unfold noteOvershoot; split
  · exact frame_then (raiseChange_frame _ s) (raiseFault_frame _ _)
  · exact frame_refl _ _

theorem settleHit_frame (e : OpenGrant) (actual anchors : Nat) (s : State) :
    onlyChanges [.openGrants, .ring, .work] s (settleHit e actual anchors s) :=
  frame_then
    (frame_then (ds := [.openGrants, .ring]) (mapNamedRecord_frame e _ s) (withoutEntry_frame _ _))
    (recomputeExposure_frame _)

theorem chargeUnmatched_frame (actual anchors : Nat) (s : State) :
    onlyChanges [.ring, .work] s (chargeUnmatched actual anchors s) :=
  frame_then (mapRecord_frame _ _ s) (recomputeExposure_frame _)

theorem matchReport_frame (p : Word32) (pairs : List Pair) (s : State) :
    onlyChanges [.openGrants, .ring, .changes, .work] s (matchReport p pairs s).1 := by
  unfold matchReport
  split
  · exact frame_then (settleHit_frame _ _ _ s) (noteOvershoot_frame _ _ _)
  · split
    · exact frame_refl _ _
    · exact frame_then (chargeUnmatched_frame _ _ s) (noteOvershoot_frame _ _ _)

/-! ## Grant Engine -/

theorem chargeDecision_frame (e : OpenGrant) (ls : List Lane) (s : State) :
    onlyChanges [.ring, .work] s (chargeDecision e ls s) :=
  frame_then (mapRecord_frame _ _ s) (recomputeExposure_frame _)

theorem takeReleaseNow_frame (before s : State) :
    onlyChanges [.work, .inhibit, .changes] s (takeReleaseNow before s) := by
  unfold takeReleaseNow; split
  · exact frame_then (bs := [.work]) (by simp [onlyChanges_iff]) (recomputeInhibit_frame _)
  · exact frame_refl _ _

theorem withdrawEntry_frame (p : Word32) (s : State) :
    onlyChanges [.openGrants, .ring, .work, .inhibit, .changes] s (withdrawEntry p s) := by
  unfold withdrawEntry
  split
  · exact frame_refl _ _
  · exact frame_then
      (frame_then (ds := [.openGrants, .ring, .work])
        (frame_then (ds := [.openGrants, .ring]) (mapNamedRecord_frame _ _ s) (withoutEntry_frame _ _))
        (recomputeExposure_frame _))
      (takeReleaseNow_frame _ _)

theorem captureTrace_frame (frame : Word32) (slot : Byte) (p : Snapshot) (s : State) :
    onlyChanges [.engine, .changes] s (captureTrace frame slot p s) := by
  unfold captureTrace; split
  · exact frame_then (bs := [.engine]) (by simp [onlyChanges_iff]) (raiseChange_frame _ _)
  · exact frame_refl _ _

theorem missTrace_frame (s : State) : onlyChanges [.engine, .changes] s (missTrace s) := by
  unfold missTrace; split
  · exact frame_refl _ _
  · exact frame_then (bs := [.engine]) (by simp [onlyChanges_iff]) (raiseChange_frame _ _)

theorem traceMissCheck_frame (s : State) : onlyChanges [.engine, .changes] s (traceMissCheck s) := by
  unfold traceMissCheck; split
  · exact frame_refl _ _
  · split
    · exact missTrace_frame s
    · exact frame_refl _ _

theorem grantSlot_frame (position frame : Word32) (slot : Byte) (pairs : List Pair) (s : State) :
    onlyChanges [.engine, .openGrants, .ring, .changes, .work] s (grantSlot position frame slot pairs s).1 :=
  frame_then
    (frame_then (ds := [.openGrants, .ring, .work]) (chargeDecision_frame _ _ s) (insertEntry_frame _ _))
    (captureTrace_frame _ _ _ _)

/-! ## Policy Store -/

theorem clampDuty_frame (s : State) : onlyChanges [.heat] s (clampDuty s) := by
  unfold clampDuty; split <;> simp [onlyChanges_iff]

theorem replaceWorkingCopy_frame (c : Context) (s : State) :
    onlyChanges [.policy, .heat, .ring, .work] s (replaceWorkingCopy c s) :=
  frame_then
    (frame_then (ds := [.policy, .heat, .ring, .work])
      (frame_then (bs := [.policy]) (ds := [.policy, .heat]) (by simp [onlyChanges_iff]) (clampDuty_frame _))
      (recomputeExposure_frame _))
    (sendNotice_frame _ _)

theorem saveWorkingCopy_frame (s : State) : onlyChanges [.policy] s (saveWorkingCopy s) := by
  simp [onlyChanges_iff, saveWorkingCopy]

theorem loadSlot_frame (k : Fin 6) (s : State) : onlyChanges [.policy, .heat, .ring, .work] s (loadSlot k s) :=
  frame_then (bs := [.policy]) (by simp [onlyChanges_iff]) (replaceWorkingCopy_frame _ _)

theorem performSwitch_frame (w : Switch) (s : State) :
    onlyChanges [.policy, .heat, .ring, .work] s (performSwitch w s) := by
  cases w with
  | exchange k => exact frame_then (saveWorkingCopy_frame s) (loadSlot_frame k _)
  | reload => exact frame_then (bs := [.policy]) (by simp [onlyChanges_iff]) (loadSlot_frame _ _)

theorem applySwitch_frame (w : Switch) (s : State) :
    onlyChanges [.policy, .heat, .ring, .changes, .work] s (applySwitch w s) :=
  frame_then
    (frame_then (bs := [.policy]) (ds := [.policy, .heat, .ring, .work]) (by simp [onlyChanges_iff])
      (performSwitch_frame w _))
    (raiseChange_frame _ _)

theorem cancelSwitch_frame (s : State) : onlyChanges [.policy, .changes, .work] s (cancelSwitch s) := by
  unfold cancelSwitch; split
  · exact frame_refl _ _
  · exact frame_then (bs := [.policy, .work]) (by simp [onlyChanges_iff]) (raiseChange_frame _ _)

theorem clearHold_frame (s : State) : onlyChanges [.policy, .work] s (clearHold s) := by
  simp [onlyChanges_iff, clearHold]

theorem dropStagingOnExit_frame (s : State) :
    onlyChanges [.carriers, .changes, .work] s (dropStagingOnExit s) := by
  unfold dropStagingOnExit; split
  · exact frame_refl _ _
  all_goals exact frame_then (bs := [.carriers, .work]) (by simp [onlyChanges_iff]) (raiseChange_frame _ _)

theorem writeExit_frame (r : ExitRecord) (s : State) : onlyChanges [.policy, .changes] s (writeExit r s) :=
  frame_then (bs := [.policy]) (by simp [onlyChanges_iff]) (raiseChange_frame _ _)

theorem fallbackExit_frame (c : FaultClass) (f : Fin 6) (s : State) :
    onlyChanges [.policy, .carriers, .heat, .ring, .changes, .work] s (fallbackExit c f s) := by
  have h1 : onlyChanges [.policy, .heat, .ring, .work] s (loadSlot f (saveWorkingCopy s)) :=
    frame_then (saveWorkingCopy_frame s) (loadSlot_frame f _)
  have h2 : onlyChanges [.policy, .carriers, .changes, .work] (loadSlot f (saveWorkingCopy s))
      (dropStagingOnExit (cancelSwitch (loadSlot f (saveWorkingCopy s)))) :=
    frame_then (cancelSwitch_frame _) (dropStagingOnExit_frame _)
  have h3 := frame_then (ds := [.policy, .carriers, .heat, .ring, .changes, .work]) h1 h2
  exact frame_then (frame_then (cs := [.policy]) (ds := [.policy, .carriers, .heat, .ring, .changes, .work]) h3
    (by simp [onlyChanges_iff])) (writeExit_frame _ _)

theorem absorbedExit_frame (c : FaultClass) (s : State) : onlyChanges [.policy, .changes] s (absorbedExit c s) :=
  writeExit_frame _ s

theorem mergeExit_frame (c : FaultClass) (s : State) : onlyChanges [.policy, .changes] s (mergeExit c s) := by
  unfold mergeExit; split
  · exact frame_refl _ _
  · exact writeExit_frame _ s

theorem takeFault_frame (c : FaultClass) (s : State) :
    onlyChanges [.policy, .carriers, .heat, .ring, .changes, .work] s (takeFault c s) := by
  unfold takeFault
  split
  · split
    · exact frame_wider (mergeExit_frame c s) (by simp)
    · split
      · exact frame_wider (absorbedExit_frame c s) (by simp)
      · exact fallbackExit_frame c _ s
  · exact frame_refl _ _

theorem requestSwitch_frame (w : Switch) (s : State) : onlyChanges [.policy] s (requestSwitch w s).1 := by
  unfold requestSwitch
  split
  · exact frame_refl _ _
  · split
    · exact frame_refl _ _
    · simp [onlyChanges_iff]

/-! ## Carrier Table -/

theorem setStaging_frame (x : Staging) (s : State) : onlyChanges [.carriers] s (setStaging x s) := by
  simp [onlyChanges_iff, setStaging]

theorem massCloseOnChange_frame (old : SlotsPerFrame) (s : State) :
    onlyChanges [.openGrants, .ring] s (massCloseOnChange old s) := by
  unfold massCloseOnChange; split
  · exact frame_refl _ _
  · exact massClose_frame s

theorem applySet_frame (set : StagingSet) (s : State) :
    onlyChanges [.carriers, .policy, .heat, .openGrants, .ring, .changes, .work] s (applySet set s) :=
  frame_then
    (frame_then (ds := [.carriers, .policy, .heat, .openGrants, .ring, .work])
      (frame_then (bs := [.carriers]) (ds := [.carriers, .policy, .heat, .ring, .work])
        (by simp [onlyChanges_iff]) (replaceWorkingCopy_frame set.workingCopy _))
      (massCloseOnChange_frame _ _))
    (raiseChange_frame _ _)

/-! ## Heat Zone Monitor and Supply Monitor -/

theorem announceZone_frame (z : Zone) (old : ZoneState) (new : ZoneRecord) (s : State) :
    onlyChanges [.changes, .work] s (announceZone z old new s) := by
  unfold announceZone
  split
  · exact frame_refl _ _
  · refine frame_then (bs := [.changes, .work]) ?_ (sendNotice_frame _ _)
    split
    · exact frame_then (raiseChange_frame _ s) (raiseFault_frame _ _)
    · exact frame_wider (raiseChange_frame _ s) (by simp)

theorem updateZone_frame (c : Context) (ts : PerZone Raw) (s : State) (z : Zone) :
    onlyChanges [.heat, .changes, .work] s (updateZone c ts s z) :=
  frame_then (bs := [.heat]) (by simp [onlyChanges_iff]) (announceZone_frame z _ _ _)

theorem startStopDuty_frame (before : Bool) (s : State) : onlyChanges [.heat, .work] s (startStopDuty before s) := by
  unfold startStopDuty
  split
  · simp [onlyChanges_iff]
  · split
    · simp [onlyChanges_iff]
    · exact frame_refl _ _

theorem dutyStep_frame (s : State) : onlyChanges [.heat] s (dutyStep s) := by
  unfold dutyStep
  split
  · exact frame_refl _ _
  · split <;> simp [onlyChanges_iff]

theorem stepSampleCounter_frame (s : State) : onlyChanges [.heat, .work] s (stepSampleCounter s) := by
  refine frame_then (bs := [.heat]) (cs := [.work])
    (t := s.setHeat (sampleStep s.policy.workingCopy.samplePeriod s.heat)) (by simp [onlyChanges_iff]) ?_
  unfold stepSampleCounter
  unfold markSampleFrame
  split
  · simp [onlyChanges_iff]
  · exact frame_refl _ _

theorem takeSample_frame (ts : PerZone Raw) (s : State) :
    onlyChanges [.heat, .changes, .work, .pins] s (takeSample ts s) :=
  frame_then
    (frame_then (bs := [.pins, .work]) (ds := [.heat, .changes, .work, .pins]) (by simp [onlyChanges_iff])
      (frame_foldl (bs := [.heat, .changes, .work]) _ (updateZone_frame _ ts) zones _))
    (startStopDuty_frame _ _)

theorem startUpSample_frame (ts : PerZone Raw) (s : State) : onlyChanges [.heat] s (startUpSample ts s) := by
  simp [onlyChanges_iff, startUpSample]

theorem readSupply_frame (s : State) : onlyChanges [.supply, .changes] s (readSupply s) := by
  simp only [readSupply]
  split
  · simp [onlyChanges_iff]
  · exact frame_then (bs := [.supply]) (by simp [onlyChanges_iff]) (raiseChange_frame _ _)

/-! ## Frame events -/

/-- The blocks a part of a frame event can change. -/
abbrev lateBlocks : List Block := [.openGrants, .ring, .heat, .supply, .engine, .changes, .work]

theorem doWork_frame (w : FrameWork) (s : State) : onlyChanges lateBlocks s (doWork w s) := by
  cases w
  · exact frame_wider (expiryCheck_frame s) (by simp)
  · exact frame_wider (countInterval_frame s) (by simp)
  · exact frame_wider (stepSampleCounter_frame s) (by simp)
  · exact frame_wider (dutyStep_frame s) (by simp)
  · exact frame_wider (readSupply_frame s) (by simp)
  · exact frame_wider (traceMissCheck_frame s) (by simp)

theorem takeLateWork_frame (s : State) (w : FrameWork) : onlyChanges lateBlocks s (takeLateWork s w) := by
  unfold takeLateWork
  split
  · exact frame_then (bs := [.work]) (by simp [onlyChanges_iff]) (doWork_frame w _)
  · exact frame_refl _ _

theorem takeLateWorks_frame (ws : List FrameWork) (s : State) : onlyChanges lateBlocks s (takeLateWorks ws s) :=
  frame_foldl _ takeLateWork_frame ws s

theorem frameEvent_frame (lv : Levels) (late : List FrameWork) (s : State) :
    onlyChanges [.openGrants, .ring, .heat, .supply, .engine, .changes, .work, .pins] s (frameEvent lv late s) :=
  frame_then (bs := [.pins, .work]) (by simp [onlyChanges_iff]) (takeLateWorks_frame _ _)

/-- The blocks the outstanding work can change: all but the link, the clock, the load and the image. -/
abbrev settleBlocks : List Block :=
  [.timing, .carriers, .heat, .supply, .engine, .openGrants, .ring, .policy, .inhibit, .changes, .pins, .work]

theorem sampleIfDue_frame (ts : PerZone Raw) (s : State) :
    onlyChanges [.openGrants, .ring, .heat, .supply, .engine, .changes, .work, .pins] s (sampleIfDue ts s) := by
  unfold sampleIfDue
  split
  · exact frame_then (takeLateWork_frame s _) (takeSample_frame ts _)
  · exact frame_refl _ _

theorem closeIfDue_frame (s : State) : onlyChanges lateBlocks s (closeIfDue s) := by
  unfold closeIfDue
  split
  · exact frame_then (takeLateWork_frame s _) (closeInterval_frame _)
  · exact frame_refl _ _

theorem applyCommitted_frame (s : State) :
    onlyChanges [.carriers, .policy, .heat, .openGrants, .ring, .changes, .work] s (applyCommitted s) := by
  simp only [applyCommitted]
  split
  · simp [onlyChanges_iff]
  · simp [onlyChanges_iff]
  · exact frame_then (bs := [.work]) (by simp [onlyChanges_iff]) (applySet_frame _ _)

theorem applyIfDue_frame (first : List FrameWork) (s : State) :
    onlyChanges [.carriers, .policy, .heat, .supply, .engine, .openGrants, .ring, .changes, .work] s
      (applyIfDue first s) := by
  unfold applyIfDue
  split
  · exact frame_then (takeLateWorks_frame first s) (applyCommitted_frame _)
  · exact frame_refl _ _

theorem clearHoldIfDue_frame (s : State) : onlyChanges [.policy, .work] s (clearHoldIfDue s) := by
  unfold clearHoldIfDue
  split
  · exact clearHold_frame s
  · exact frame_refl _ _

theorem applyPendingSwitch_frame (s : State) :
    onlyChanges [.policy, .heat, .ring, .changes, .work] s (applyPendingSwitch s) := by
  simp only [applyPendingSwitch]
  split
  · simp [onlyChanges_iff]
  · exact frame_then (bs := [.work]) (by simp [onlyChanges_iff]) (applySwitch_frame _ _)

theorem switchIfDue_frame (first : List FrameWork) (s : State) :
    onlyChanges [.policy, .heat, .supply, .engine, .openGrants, .ring, .changes, .work] s (switchIfDue first s) := by
  unfold switchIfDue
  split
  · exact frame_then
      (frame_then (ds := [.policy, .heat, .supply, .engine, .openGrants, .ring, .changes, .work])
        (takeLateWorks_frame first s) (clearHoldIfDue_frame _))
      (applyPendingSwitch_frame _)
  · exact frame_refl _ _

theorem timingBreak_frame (s : State) : onlyChanges [.openGrants, .ring, .engine, .changes] s (timingBreak s) :=
  frame_then (massClose_frame s) (missTrace_frame _)

theorem alignTimeoutIfDue_frame (s : State) : onlyChanges [.timing, .changes] s (alignTimeoutIfDue s) := by
  unfold alignTimeoutIfDue
  split
  · exact frame_then (bs := [.timing]) (by simp [onlyChanges_iff]) (raiseChange_frame _ _)
  · exact frame_refl _ _

theorem coastLimitIfDue_frame (s : State) :
    onlyChanges [.timing, .openGrants, .ring, .engine, .changes, .work] s (coastLimitIfDue s) := by
  unfold coastLimitIfDue
  split
  · exact frame_then
      (frame_then (ds := [.timing, .openGrants, .ring, .engine, .changes])
        (frame_then (bs := [.timing]) (ds := [.timing, .openGrants, .ring, .engine, .changes])
          (by simp [onlyChanges_iff]) (timingBreak_frame _))
        (raiseChange_frame _ _))
      (raiseFault_frame _ _)
  · exact frame_refl _ _

theorem faultIfRaised_frame (c : FaultClass) (first : List FrameWork) (s : State) :
    onlyChanges [.policy, .carriers, .heat, .supply, .engine, .openGrants, .ring, .changes, .work] s
      (faultIfRaised c first s) := by
  unfold faultIfRaised
  split
  · exact frame_then
      (frame_then (cs := [.work]) (ds := lateBlocks) (takeLateWorks_frame first s) (by simp [onlyChanges_iff]))
      (takeFault_frame c _)
  · exact frame_refl _ _

theorem noticeIfSent_frame (n : Notice) (s : State) :
    onlyChanges [.inhibit, .changes, .work] s (noticeIfSent n s) := by
  unfold noticeIfSent
  split
  · exact frame_then (bs := [.work]) (by simp [onlyChanges_iff]) (recomputeInhibit_frame _)
  · exact frame_refl _ _

theorem drainFaults_frame (n : Nat) (s : State) :
    onlyChanges [.policy, .carriers, .heat, .ring, .changes, .work] s (drainFaults n s) := by
  induction n generalizing s with
  | zero => exact frame_refl _ _
  | succ n ih =>
    unfold drainFaults
    split
    · exact frame_refl _ _
    · exact frame_trans (frame_then (bs := [.work]) (by simp [onlyChanges_iff]) (takeFault_frame _ _)) (ih _)

theorem drainNotices_frame (s : State) : onlyChanges [.inhibit, .changes, .work] s (drainNotices s) := by
  unfold drainNotices
  split
  · exact frame_refl _ _
  · exact frame_then (bs := [.work]) (by simp [onlyChanges_iff]) (recomputeInhibit_frame _)

theorem settle_eq (s : State) : settle s =
    drainNotices (drainAllFaults (coastLimitIfDue (alignTimeoutIfDue (switchIfDue [] (applyIfDue [] (clearHoldIfDue
      (sampleIfDue (closeIfDue (takeLateWorks frameWorks s)).pins.levels.ts
        (closeIfDue (takeLateWorks frameWorks s))))))))) := rfl

theorem drainAllFaults_frame (s : State) :
    onlyChanges [.policy, .carriers, .heat, .ring, .changes, .work] s (drainAllFaults s) := drainFaults_frame _ s

theorem settle_frame (s : State) : onlyChanges settleBlocks s (settle s) := by
  rw [settle_eq]
  refine frame_trans ?_ (frame_wider (drainNotices_frame _) (by simp))
  refine frame_trans ?_ (frame_wider (drainAllFaults_frame _) (by simp))
  refine frame_trans ?_ (frame_wider (coastLimitIfDue_frame _) (by simp))
  refine frame_trans ?_ (frame_wider (alignTimeoutIfDue_frame _) (by simp))
  refine frame_trans ?_ (frame_wider (switchIfDue_frame [] _) (by simp))
  refine frame_trans ?_ (frame_wider (applyIfDue_frame [] _) (by simp))
  refine frame_trans ?_ (frame_wider (clearHoldIfDue_frame _) (by simp))
  refine frame_trans ?_ (frame_wider (sampleIfDue_frame _ _) (by simp))
  refine frame_trans ?_ (frame_wider (closeIfDue_frame _) (by simp))
  exact frame_wider (takeLateWorks_frame frameWorks s) (by simp)

/-! ## Requests -/

theorem softReset_frame (s : State) :
    onlyChanges [.timing, .carriers, .engine, .openGrants, .ring, .policy, .changes, .link] s (softReset s) :=
  frame_then
    (bs := [.openGrants, .ring]) (cs := [.timing, .carriers, .engine, .policy, .changes, .link]) (massClose_frame s)
    (by simp [onlyChanges_iff, softReset])

theorem checkLookahead_eq (frame : Word16) (s : State) :
    checkLookahead frame s =
      if frameOffset frame s.timing.frameCounter < 0 then
        some (refuse .stale (signedBytes 2 (frameOffset frame s.timing.frameCounter)))
      else if 8 < frameOffset frame s.timing.frameCounter then
        some (refuse .ahead (signedBytes 2 (frameOffset frame s.timing.frameCounter)))
      else none := rfl

/-- No request touches its owner's surroundings: the pins, the load, the image, the clock; and the link is touched by
RESET_PART alone. -/
theorem ownRequest_frame (req : Request) (s : State) :
    onlyChanges [.timing, .carriers, .engine, .openGrants, .ring, .policy, .inhibit, .changes, .work, .link] s
      (ownRequest req s).1 := by
  cases req
  case align f =>
    simp only [ownRequest, takeAlign]
    refine frame_then (bs := [.timing, .openGrants, .ring, .engine, .changes]) ?_ (raiseChange_frame _ _)
    split
    · exact frame_then (bs := [.timing]) (by simp [onlyChanges_iff]) (timingBreak_frame _)
    · simp [onlyChanges_iff]
  case grantReq f slot pairs =>
    simp only [ownRequest, takeGrantReq]
    split
    · exact frame_refl _ _
    · split
      · exact frame_refl _ _
      · exact frame_then (withdrawEntry_frame _ s) (grantSlot_frame _ _ _ _ _)
  case txReport f slot pairs =>
    simp only [ownRequest, takeTxReport]
    split
    · exact frame_refl _ _
    · exact frame_wider (matchReport_frame _ _ s) (by simp)
  case stageOpen =>
    simp only [ownRequest, takeStageOpen]
    split
    · split
      · exact frame_refl _ _
      · exact frame_wider (setStaging_frame _ s) (by simp)
    · exact frame_refl _ _
    · exact frame_refl _ _
  case stageCarrier i e =>
    simp only [ownRequest, takeStageCarrier]
    split
    · exact frame_refl _ _
    · exact frame_refl _ _
    · split
      · exact frame_refl _ _
      · exact frame_refl _ _
      · exact frame_wider (setStaging_frame _ s) (by simp)
  case stageParam f z v =>
    simp only [ownRequest, takeStageParam]
    split
    · exact frame_refl _ _
    · exact frame_refl _ _
    · split
      · exact frame_refl _ _
      · exact frame_wider (setStaging_frame _ s) (by simp)
  case stageCommit =>
    simp only [ownRequest, takeStageCommit]
    split
    · exact frame_refl _ _
    · exact frame_refl _ _
    · split
      · exact frame_refl _ _
      · exact frame_wider (setStaging_frame _ s) (by simp)
  case stageDrop =>
    simp only [ownRequest, takeStageDrop]
    split
    · exact frame_refl _ _
    · exact frame_wider (setStaging_frame _ s) (by simp)
    · exact frame_then (setStaging_frame _ s) (raiseChange_frame _ _)
  case readCarrier i => simp only [ownRequest, takeReadCarrier]; split <;> exact frame_refl _ _
  case readParam i =>
    simp only [ownRequest, takeReadParam]
    split
    · exact frame_refl _ _
    · split <;> exact frame_refl _ _
  case readZone z => simp only [ownRequest, takeReadZone]; split <;> exact frame_refl _ _
  case readState => exact frame_refl _ _
  case exchange k =>
    simp only [ownRequest, takeExchange]
    split
    · exact frame_wider (requestSwitch_frame _ s) (by simp)
    · exact frame_refl _ _
  case reload => exact frame_wider (requestSwitch_frame _ s) (by simp)
  case ringRead start count =>
    simp only [ownRequest, takeRingRead]
    split
    · exact frame_refl _ _
    · split <;> exact frame_refl _ _
  case ringRelease half =>
    simp only [ownRequest, takeRingRelease]
    split
    · simp [onlyChanges_iff]
    · split
      · simp [onlyChanges_iff]
      · exact frame_refl _ _
  case changesRead =>
    simp only [ownRequest, takeChangesRead]
    split
    · simp [onlyChanges_iff]
    · exact frame_refl _ _
  case changesAck sources => simp [onlyChanges_iff, ownRequest, takeChangesAck]
  case changesMask mask mode =>
    simp only [ownRequest, takeChangesMask]
    split
    · exact frame_refl _ _
    · simp [onlyChanges_iff]
  case traceSet f slot action =>
    simp only [ownRequest, takeTraceSet]
    split
    · simp only [armTrace]
      split
      · exact frame_refl _ _
      · split
        · exact frame_refl _ _
        · split
          · exact frame_refl _ _
          · simp [onlyChanges_iff]
    · split
      · simp [onlyChanges_iff, disarmTrace]
      · exact frame_refl _ _
  case traceRead => exact frame_refl _ _
  case resetPart => exact frame_wider (softReset_frame s) (by simp)

/-! ## Commands -/

/-- The blocks a command other than POWER_ON, RST_N_ASSERTED and START_UP_LOAD_COMPLETE can change. -/
abbrev commandBlocks : List Block :=
  [.timing, .carriers, .heat, .supply, .engine, .openGrants, .ring, .policy, .inhibit, .changes, .link, .pins, .work,
    .clock]

theorem setLink_frame (l : LinkPort) (s : State) : onlyChanges [.link] s (s.setLink l) := by simp [onlyChanges_iff]

theorem setTiming_frame (u : Timing) (s : State) : onlyChanges [.timing] s (s.setTiming u) := by
  simp [onlyChanges_iff]

theorem settleAt_frame (t : Moment) (s : State) : onlyChanges commandBlocks s (advanceTo t (settle s)) :=
  frame_then (settle_frame s) (advanceTo_frame t _)

theorem timedEvent_frame (lv : Levels) (late : List FrameWork) (u : Timing) (s : State) :
    onlyChanges commandBlocks s (frameEvent lv late (s.setTiming u)) :=
  frame_then (setTiming_frame u s) (frameEvent_frame lv late _)

theorem timedChange_frame (c : Change) (lv : Levels) (late : List FrameWork) (u : Timing) (s : State) :
    onlyChanges commandBlocks s (raiseChange c (frameEvent lv late (s.setTiming u))) :=
  frame_then (timedEvent_frame lv late u s) (raiseChange_frame c _)

theorem pacerExpires_frame (lv : Levels) (late : List FrameWork) (s : State) :
    onlyChanges commandBlocks s (pacerExpires lv late s) := by
  simp only [pacerExpires]
  split
  · exact frame_refl _ _
  · exact frame_trans (settleAt_frame _ s) (timedEvent_frame _ _ _ _)

theorem strobeCounts_frame (lv : Levels) (late : List FrameWork) (s : State) :
    onlyChanges commandBlocks s (strobeCounts lv late s) := by
  unfold strobeCounts
  split
  · exact frame_refl _ _
  · exact timedEvent_frame _ _ _ _

theorem strobeRelocks_frame (lv : Levels) (late : List FrameWork) (s : State) :
    onlyChanges commandBlocks s (strobeRelocks lv late s) := by
  unfold strobeRelocks
  split
  · exact frame_then (setTiming_frame _ s) (raiseChange_frame _ _)
  · exact timedChange_frame _ _ _ _ _

theorem strobeAligns_frame (lv : Levels) (late : List FrameWork) (s : State) :
    onlyChanges commandBlocks s (strobeAligns lv late s) := timedChange_frame _ _ _ _ _

theorem strobeTaken_frame (lv : Levels) (late : List FrameWork) (s : State) :
    onlyChanges commandBlocks s (strobeTaken lv late s) := by
  unfold strobeTaken
  split
  · exact frame_refl _ s
  · exact strobeAligns_frame lv late s
  · exact strobeCounts_frame lv late s
  · exact strobeRelocks_frame lv late s

theorem strobeArrives_frame (t : Moment) (lv : Levels) (late : List FrameWork) (s : State) :
    onlyChanges commandBlocks s (strobeArrives t lv late s) :=
  frame_trans (settleAt_frame t s) (strobeTaken_frame lv late _)

theorem strobeLost_frame (lv : Levels) (late : List FrameWork) (s : State) :
    onlyChanges commandBlocks s (strobeLost lv late s) := by
  simp only [strobeLost]
  split
  · exact frame_refl _ _
  · exact frame_trans (settleAt_frame _ s) (timedChange_frame _ _ _ _ _)

theorem answerRequest_frame (tag : Byte) (req : Request) (s : State) :
    onlyChanges commandBlocks s (answerRequest tag req s) := by
  unfold answerRequest
  split
  · exact frame_then (ownRequest_frame req s) (setLink_frame _ _)
  · exact frame_wider (setLink_frame _ s) (by simp)

theorem answerFrame_frame (f : RxFrame) (s : State) : onlyChanges commandBlocks s (answerFrame f s) := by
  unfold answerFrame
  split
  · split
    · exact answerRequest_frame _ _ _
    · exact frame_wider (setLink_frame _ s) (by simp)
  · exact frame_wider (setLink_frame _ s) (by simp)

theorem decodeOldest_frame (t : Moment) (s : State) : onlyChanges commandBlocks s (decodeOldest t s) := by
  simp only [decodeOldest]
  split
  · exact frame_refl _ _
  · split
    · refine frame_trans (frame_then (advanceTo_frame t s) (settle_frame _)) ?_
      exact frame_trans (frame_wider (setLink_frame _ _) (by simp)) (answerFrame_frame _ _)
    · exact frame_refl _ _

theorem arriveRequest_frame (tag : Byte) (req : Request) (s : State) :
    onlyChanges commandBlocks s (arriveRequest tag req s) := by
  unfold arriveRequest
  split
  · exact frame_trans (frame_wider (settle_frame s) (by simp)) (answerRequest_frame _ _ _)
  · exact frame_wider (setLink_frame _ s) (by simp)

theorem startUpReading_frame (s : State) : onlyChanges [.supply] s (startUpReading s) := by
  simp [onlyChanges_iff, startUpReading]

theorem startUpInhibit_frame (s : State) : onlyChanges [.inhibit] s (startUpInhibit s) := by
  simp [onlyChanges_iff, startUpInhibit]

theorem startBlocks_frame (lv : Levels) (s : State) :
    onlyChanges [.timing, .heat, .supply, .ring, .inhibit, .changes, .pins] s (startBlocks lv s) := by
  simp only [startBlocks]
  refine frame_trans ?_ (frame_wider (setTiming_frame _ _) (by simp))
  refine frame_trans ?_ (frame_wider (startUpInhibit_frame _) (by simp))
  refine frame_trans ?_ (frame_wider (fillRing_frame _ _) (by simp))
  refine frame_trans ?_ (frame_wider (startUpReading_frame _) (by simp))
  refine frame_trans ?_ (frame_wider (startUpSample_frame _ _) (by simp))
  simp [onlyChanges_iff]

theorem storeChange_frame (s : State) : onlyChanges [.changes] s (storeChange s) := by
  unfold storeChange
  split
  · exact frame_refl _ _
  · exact raiseChange_frame _ s

theorem startUpCompletes_frame (t : Moment) (lv : Levels) (s : State) :
    onlyChanges [.timing, .heat, .supply, .ring, .inhibit, .changes, .link, .pins, .clock] s
      (startUpCompletes t lv s) := by
  unfold startUpCompletes
  split
  · refine frame_trans (frame_wider (advanceTo_frame t s) (by simp)) ?_
    refine frame_trans (frame_wider (startBlocks_frame lv _) (by simp)) ?_
    exact frame_then (storeChange_frame _) (setLink_frame _ _)
  · exact frame_refl _ _

theorem enterReset_frame (t : Moment) (s : State) :
    onlyChanges [.timing, .inhibit, .link, .pins, .work, .clock] s (enterReset t s) := by
  simp [onlyChanges_iff, enterReset, advanceTo]

end Sys2Proof.Machine
end

