-- ==== Sys2Proof/Laws/Changes.lean ====
section
/-!
SUPPORT. The Change Reporter: a raised change in the words of the claims, the places after a set or a clearing, and
ALERT_N as "some place is pending".
-/

set_option Elab.async false

namespace Sys2Proof.Machine

theorem anyPending_iff (places : Vector (Option Change) 15) :
    anyPending places = true ↔ ∃ i : Fin 15, places[i].isSome = true := by
  simp only [anyPending, List.any_eq_true, Vector.mem_toList_iff, Vector.mem_iff_getElem]
  constructor
  · rintro ⟨x, ⟨i, hi, rfl⟩, hx⟩
    exact ⟨⟨i, hi⟩, hx⟩
  · rintro ⟨i, hi⟩
    exact ⟨_, ⟨i.val, i.isLt, rfl⟩, hi⟩

theorem anyPending_set (places : Vector (Option Change) 15) (i : Fin 15) (c : Change) :
    anyPending (places.set i (some c)) = true := by
  rw [anyPending_iff]; exact ⟨i, by simp⟩

theorem anyPending_empty : anyPending (Vector.replicate 15 none) = false := by decide

theorem keepPlaces_get (keep : BitVec 15) (places : Vector (Option Change) 15) (i : Fin 15) :
    (keepPlaces keep places)[i] = if keep.getLsbD i then places[i] else none := by
  simp [keepPlaces]

theorem keepPlaces_none (places : Vector (Option Change) 15) (i : Fin 15) : (keepPlaces 0 places)[i] = none := by
  rw [keepPlaces_get]; simp only [BitVec.ofNat_eq_ofNat, BitVec.getLsbD_zero, Bool.false_eq_true, if_false]

theorem anyPending_keepNone (places : Vector (Option Change) 15) : anyPending (keepPlaces 0 places) = false := by
  rw [Bool.eq_false_iff, ne_eq, anyPending_iff]
  rintro ⟨i, hi⟩
  rw [keepPlaces_none] at hi
  exact absurd hi (by simp)

/-- A change raised is `raised`: the reporter takes it, and nothing else changes (R172). -/
theorem raiseChange_eq (c : Change) (s : State) : raiseChange c s = raised c s := by
  unfold raiseChange raised reported
  split <;> simp [State.setChanges, withPlaces, anyPending_set]

theorem raiseChange_changes (c : Change) (s : State) : (raiseChange c s).changes = reported c s.changes := by
  rw [raiseChange_eq]; rfl

theorem raiseFault_eq (c : FaultClass) (s : State) : raiseFault c s = faulted c s := rfl

theorem reported_mask (c : Change) (r : ChangeReporter) : (reported c r).mask = r.mask := by
  unfold reported; split <;> rfl

theorem reported_clearMode (c : Change) (r : ChangeReporter) : (reported c r).clearMode = r.clearMode := by
  unfold reported; split <;> rfl

theorem reported_disabled {c : Change} {r : ChangeReporter} (h : r.mask.getLsbD (changeSource c) = false) :
    reported c r = r := by
  unfold reported; rw [if_neg (by rw [h]; exact Bool.false_ne_true)]

/-- A reported change leaves the reporter with its places, its mask and ALERT_N in agreement (R172). -/
theorem reported_kept (c : Change) (r : ChangeReporter) (h : changesKept r) : changesKept (reported c r) := by
  unfold reported
  split
  case isFalse => exact h
  case isTrue hm =>
    refine ⟨(anyPending_set _ _ _).symm, fun i d hd => ?_⟩
    simp only [Fin.getElem_fin, Vector.getElem_set] at hd
    split at hd
    case isTrue hi =>
      cases hd
      have : changeSource c = i := Fin.ext hi
      subst this
      exact ⟨rfl, hm⟩
    case isFalse => exact h.2 i d hd

theorem raiseChange_kept (c : Change) (s : State) (h : changesKept s.changes) :
    changesKept (raiseChange c s).changes := by
  rw [raiseChange_changes]; exact reported_kept c _ h

/-- Clearing places keeps the agreement, whatever mask within the places kept stands with them (R173 to R175). -/
theorem withPlaces_kept {r : ChangeReporter} (m : BitVec 15) (keep : BitVec 15) (mode : ClearMode)
    (h : changesKept r) (hm : ∀ i : Fin 15, keep.getLsbD i = true → r.mask.getLsbD i = true → m.getLsbD i = true) :
    changesKept (withPlaces { r with mask := m, clearMode := mode } (keepPlaces keep r.places)) := by
  refine ⟨rfl, fun i c hc => ?_⟩
  simp only [withPlaces, keepPlaces_get] at hc
  split at hc
  case isTrue hk => exact ⟨(h.2 i c hc).1, hm i hk (h.2 i c hc).2⟩
  case isFalse => cases hc

end Sys2Proof.Machine
end

