-- ==== Sys2Proof/Laws/Decision.lean ====
section
/-!
SUPPORT. The stages of a decision, lane by lane, in the words of the claims: what turning off, capping and the zone
limits make of one lane (R73, R76 to R78), and the sums and order of the reduction procedure (R82, R83).
-/

namespace Sys2Proof.Machine

/-! ## One lane -/

theorem offWhen_offWhere (p : Lane → Bool) (r : Reason) (l : Lane) : offWhere (p l = true) r l (offWhen p r l) := by
  refine ⟨fun h k => ?_, fun h => ?_⟩
  · have : isCode l.value = true := by cases e : l.value with
      | off => exact absurd e k
      | code c => rfl
    simp [offWhen, this, h, lowerLane]
  · rcases h with h | h <;> simp [offWhen, h, isCode]

theorem capAt_heldTo (limit : Nat) (r : Reason) (l : Lane) : heldTo limit r l (capAt limit r l) := by
  refine ⟨fun c h k => by simp [capAt, h, k, lowerLane], fun h => ?_⟩
  unfold capAt
  cases e : l.value with
  | off => rfl
  | code c => simp only [if_neg (Nat.not_lt.2 (h c e))]

/-- One zone's limit as the claims list it. -/
def limitList : Option ZoneLimit → List (Nat × Bool)
  | none => []
  | some z => [(z.limit, z.hotOff)]

theorem zoneLimits_eq (s : State) (e : CarrierEntry) :
    zoneLimits s e =
      limitList (zoneLimit s (heatZone e.zone) e.floor) ++ limitList (zoneLimit s .caseZone e.floor) := by
  have hz : ∀ z : Zone,
      (let c := s.policy.workingCopy
       let hot : Nat × Bool :=
        if s.heat.dutyCounter ≤ c.duty then (max (zoneGet c.hotOnCap z) e.floor, false)
        else (max (zoneGet c.hotOffCap z) e.floor, true)
       match (zoneGet s.heat.zones z).state with
        | .level .cool => []
        | .level .warm => [(max (zoneGet c.warmCap z) e.floor, false)]
        | .level .hot => [hot]
        | .faulted => [hot]
        | .level .critical => [(zoneGet c.criticalCap z, false)]) = limitList (zoneLimit s z e.floor) := by
    intro z
    unfold zoneLimit dutyPhase
    rcases (zoneGet s.heat.zones z).state with (_ | _ | _ | _) | _ <;>
      by_cases h : s.heat.dutyCounter ≤ s.policy.workingCopy.duty <;> simp [limitList, h]
  unfold zoneLimits
  rw [List.flatMap_cons, List.flatMap_cons, List.flatMap_nil, List.append_nil]
  exact congrArg₂ _ (by cases e.zone <;> exact hz _) (hz .caseZone)

/-- Stage 4 on one lane (R78). -/
theorem zoneLane_heldByZones (s : State) (l : Lane) : heldByZones s l (zoneLane s l) := by
  unfold heldByZones zoneLane stage4Limit
  rw [zoneLimits_eq]
  generalize zoneLimit s (heatZone l.entry.zone) l.entry.floor = a
  generalize zoneLimit s .caseZone l.entry.floor = b
  rcases a with _ | ⟨x, p⟩ <;> rcases b with _ | ⟨y, q⟩
  · simp [limitList, lowerLimit]
  · simpa [limitList, lowerLimit] using capAt_heldTo y (if q = true then .duty else .zone) l
  · simpa [limitList, lowerLimit] using capAt_heldTo x (if p = true then .duty else .zone) l
  · refine ⟨by simp [limitList], ?_⟩
    have hc := fun n d => capAt_heldTo n (if d = true then .duty else .zone) l
    rcases Nat.lt_trichotomy x y with h | h | h
    · have := hc x p
      intro z hz hm
      have hzx : z.1 ≤ x := hm (x, p) (by simp [limitList])
      have : z = (x, p) := by
        rcases List.mem_append.1 hz with e | e <;> simp only [limitList, List.mem_singleton] at e
        · exact e
        · subst e; exact absurd hzx (Nat.not_le.2 h)
      subst this
      have hne : x ≠ y := Nat.ne_of_lt h
      cases p <;> cases q <;> simp_all [limitList, lowerLimit]
    · subst h
      intro z hz _
      have hzx : z.1 = x := by
        rcases List.mem_append.1 hz with e | e <;> simp only [limitList, List.mem_singleton] at e <;> simp [e]
      have := hc x (p || q)
      rw [hzx]
      cases p <;> cases q <;> simp_all [limitList, lowerLimit]
    · intro z hz hm
      have hzy : z.1 ≤ y := hm (y, q) (by simp [limitList])
      have : z = (y, q) := by
        rcases List.mem_append.1 hz with e | e <;> simp only [limitList, List.mem_singleton] at e
        · subst e; exact absurd hzy (Nat.not_le.2 h)
        · exact e
      subst this
      have := hc y q
      have hne : y ≠ x := Nat.ne_of_lt h
      have hlt : ¬ x < y := Nat.not_lt.2 (Nat.le_of_lt h)
      have hl : lowerLimit (some ⟨x, p⟩) (some ⟨y, q⟩) = some ⟨y, q⟩ := by simp only [lowerLimit, if_neg hlt, if_pos h]
      rw [hl]
      cases p <;> cases q <;> simp_all [limitList]

/-! ## Sums -/

/-- The sum of a reduction is the sum of the powers of its lanes (R83). -/
theorem laneSum_eq (r : Reduction) (ls : List Lane) :
    laneSum r ls =
      powerSum (if r.radiated then radiatedPower else conductedPower)
        (fun l => !r.secondariesOnly || l.entry.role == .secondary) ls := by
  unfold laneSum powerSum
  induction ls with
  | nil => rfl
  | cons l rest ih =>
    rw [List.map_cons, List.sum_cons, ih, List.filter_cons]
    unfold lanePower eligible isSecondary measure
    cases hv : l.value <;> cases hs : (!r.secondariesOnly || l.entry.role == .secondary) <;>
      cases hr : r.radiated <;> simp [hv, radiatedPower, conductedPower]

end Sys2Proof.Machine
end

