-- ==== Sys2Proof/Laws/Ring.lean ====
section
/-!
SUPPORT. The Averaging Ring: records after a change of one record, what the window figures rest on, and everything the
comparison of exhaustion can do.
-/

set_option Elab.async false

namespace Sys2Proof.Machine

/-! ## Records -/

/-- A record is read through the ring's records alone. -/
theorem recordAt_congr {s t : State} (h : t.ring.records = s.ring.records) (q : Fin 128) :
    recordAt t q = recordAt s q := by simp only [recordAt, h]

theorem recordAt_frame {bs : List Block} {s t : State} (h : onlyChanges bs s t) (hb : .ring ∉ bs) (q : Fin 128) :
    recordAt t q = recordAt s q := recordAt_congr (by rw [frame_ring h hb]) q

theorem mapRecord_get (p q : Fin 128) (f : IntervalRecord → IntervalRecord) (s : State) :
    recordAt (mapRecord p f s) q = if q = p then f (recordAt s p) else recordAt s q := by
  simp only [recordAt, mapRecord, setRing_ring, Fin.getElem_fin, Vector.getElem_set, Fin.ext_iff]
  by_cases h : p.val = q.val
  · simp [h]
  · simp [h, Ne.symm h]

theorem mapRecord_ring (p : Fin 128) (f : IntervalRecord → IntervalRecord) (s : State) :
    (mapRecord p f s).ring = { s.ring with records := (mapRecord p f s).ring.records } := rfl

/-- The record an entry names is changed exactly where it carries the entry's interval number (R124). -/
theorem mapNamedRecord_get (e : OpenGrant) (q : Fin 128) (f : IntervalRecord → IntervalRecord) (s : State) :
    recordAt (mapNamedRecord e f s) q =
      if q = e.ringPosition ∧ (recordAt s e.ringPosition).number = e.intervalNumber then f (recordAt s q)
      else recordAt s q := by
  unfold mapNamedRecord
  by_cases hn : (recordAt s e.ringPosition).number = e.intervalNumber
  · rw [if_pos hn, mapRecord_get]
    by_cases hq : q = e.ringPosition
    · subst hq; rw [if_pos rfl, if_pos ⟨rfl, hn⟩]
    · simp [hq]
  · rw [if_neg hn, if_neg fun h => hn h.2]

theorem mapNamedRecord_ring (e : OpenGrant) (f : IntervalRecord → IntervalRecord) (s : State) :
    (mapNamedRecord e f s).ring = { s.ring with records := (mapNamedRecord e f s).ring.records } := by
  unfold mapNamedRecord; split <;> rfl

/-! ## Window figures -/

/-- The window figures rest on the records, the write position and the working copy alone (R135, R136). -/
theorem windowSum_congr {s t : State} (hr : t.ring.records = s.ring.records)
    (hw : t.ring.writePosition = s.ring.writePosition) (hc : t.policy.workingCopy = s.policy.workingCopy) :
    windowSum t = windowSum s := by
  simp only [windowSum, windowRecords, hr, hw, hc]

theorem windowExhausted_congr {s t : State} (hr : t.ring.records = s.ring.records)
    (hw : t.ring.writePosition = s.ring.writePosition) (hc : t.policy.workingCopy = s.policy.workingCopy) :
    windowExhausted t = windowExhausted s := by
  have hb : budget t = budget s := by simp only [budget, hc]
  unfold windowExhausted
  rw [windowSum_congr hr hw hc, hb]

/-- The window sum rests on the records' energies, the write position and the working copy (R135). -/
theorem windowSum_of_energies {s t : State} (he : ∀ q, (recordAt t q).energy = (recordAt s q).energy)
    (hw : t.ring.writePosition = s.ring.writePosition) (hc : t.policy.workingCopy = s.policy.workingCopy) :
    windowSum t = windowSum s := by
  have hk : ∀ k, (t.ring.records[(s.ring.writePosition.val + 128 - k) % 128]'(Nat.mod_lt _ (by decide))).energy =
      (s.ring.records[(s.ring.writePosition.val + 128 - k) % 128]'(Nat.mod_lt _ (by decide))).energy :=
    fun k => he ⟨(s.ring.writePosition.val + 128 - k) % 128, Nat.mod_lt _ (by decide)⟩
  simp only [windowSum, windowRecords, hc, hw, List.map_map, Function.comp_def, hk]

theorem windowExhausted_of_energies {s t : State} (he : ∀ q, (recordAt t q).energy = (recordAt s q).energy)
    (hw : t.ring.writePosition = s.ring.writePosition) (hc : t.policy.workingCopy = s.policy.workingCopy) :
    windowExhausted t = windowExhausted s := by
  have hb : budget t = budget s := by simp only [budget, hc]
  unfold windowExhausted
  rw [windowSum_of_energies he hw hc, hb]

/-- The comparison sets the exhausted item to the condition, and nothing else of the ring (R137). -/
theorem recomputeExposure_ring (s : State) :
    (recomputeExposure s).ring = { s.ring with exhausted := windowExhausted s } := by
  simp only [recomputeExposure]
  split
  case isTrue h => rw [h]
  case isFalse => split <;> rfl

/-- What the comparison raises: on a change a notice, and on the onset EXHAUSTED as well (R137). -/
theorem recomputeExposure_work (s : State) :
    (recomputeExposure s).work =
      if windowExhausted s = s.ring.exhausted then s.work
      else { s.work with
        notices := s.work.notices ++ [.exhaustion]
        faults := if windowExhausted s then s.work.faults ++ [.exhausted] else s.work.faults } := by
  simp only [recomputeExposure]
  split
  · rfl
  · split <;> rfl

/-- What the comparison raises, in the words of the claims. -/
theorem recomputeExposure_told (s : State) :
    (recomputeExposure s).work = toldOfExposure s.ring.exhausted (windowExhausted s) s.work := by
  rw [recomputeExposure_work, toldOfExposure]
  cases windowExhausted s <;> cases s.ring.exhausted <;> simp

theorem recomputeExposure_get (s : State) (q : Fin 128) : recordAt (recomputeExposure s) q = recordAt s q :=
  recordAt_congr (by rw [recomputeExposure_ring]) q

theorem recomputeExposure_exhausted (s : State) :
    (recomputeExposure s).ring.exhausted = windowExhausted (recomputeExposure s) := by
  rw [windowExhausted_congr (s := s) (t := recomputeExposure s) (by rw [recomputeExposure_ring])
    (by rw [recomputeExposure_ring]) (by rw [frame_policy (recomputeExposure_frame s) (by decide)])]
  rw [recomputeExposure_ring]

/-- After the comparison the exhausted item agrees with the figures, whatever it held before (R137). -/
theorem recomputeExposure_kept (s : State) : exposureKept (recomputeExposure s) := recomputeExposure_exhausted s

theorem recomputeExposure_same {s : State} (h : exposureKept s) : recomputeExposure s = s := by
  unfold recomputeExposure; rw [if_pos h.symm]

/-! ## Intervals -/

theorem closeDue_iff (s : State) : closeDue s = true ↔ s.ring.latchedLength ≤ s.ring.framesInInterval := by
  simp [closeDue]

theorem halvesAt_other {p : Fin 128} (h : p ≠ 64) (k : p ≠ 0) (closed opening : Nat) (s : State) :
    halvesAt p closed opening s = s := by simp [halvesAt, h, k]

/-- At a close only the two held flags of the ring move with the halves (R141, R142). -/
theorem halvesAt_ring (p : Fin 128) (closed opening : Nat) (s : State) :
    (halvesAt p closed opening s).ring =
      if p = 64 then { s.ring with lowerHeld := true, upperHeld := false }
      else if p = 0 then { s.ring with lowerHeld := false, upperHeld := true }
      else s.ring := by
  unfold halvesAt
  have key : ∀ (b : Bool) (c : Change), (if b = true then raiseChange c s else s).ring = s.ring := by
    intro b c
    split
    · exact frame_ring (raiseChange_frame _ _) (by decide)
    · rfl
  split
  · rw [frame_ring (raiseChange_frame _ _) (by decide), setRing_ring, key]
  · split
    · rw [frame_ring (raiseChange_frame _ _) (by decide), setRing_ring, key]
    · rfl

theorem halvesAt_get (p : Fin 128) (closed opening : Nat) (s : State) (q : Fin 128) :
    recordAt (halvesAt p closed opening s) q = recordAt s q := by
  refine recordAt_congr ?_ q
  rw [halvesAt_ring]
  split
  · rfl
  · split <;> rfl

/-- The changes of the halves at a close, OVERRUN before HALF (R141, R142). -/
theorem halvesAt_changes (p : Fin 128) (closed opening : Nat) (s : State) :
    (halvesAt p closed opening s).changes =
      if p = 64 then
        reported (.ringHalf .lower closed)
          (if s.ring.upperHeld then reported (.ringOverrun .upper opening) s.changes else s.changes)
      else if p = 0 then
        reported (.ringHalf .upper closed)
          (if s.ring.lowerHeld then reported (.ringOverrun .lower opening) s.changes else s.changes)
      else s.changes := by
  unfold halvesAt
  split
  · rw [raiseChange_changes, setRing_changes]; split <;> simp [raiseChange_changes]
  · split
    · rw [raiseChange_changes, setRing_changes]; split <;> simp [raiseChange_changes]
    · rfl

/-- The records after the writer has moved on: the record left is CLOSED, the record entered is new (R128). -/
theorem turnInterval_get (s : State) (q : Fin 128) :
    recordAt (turnInterval s) q =
      if q = positionAfter s.ring.writePosition then newRecord s.ring.nextNumber
      else if q = s.ring.writePosition then { recordAt s q with state := .closed }
      else recordAt s q := by
  simp only [recordAt, turnInterval, setRing_ring, Fin.getElem_fin, Vector.getElem_set, Fin.ext_iff]
  by_cases h1 : (positionAfter s.ring.writePosition).val = q.val
  · simp [h1]
  · rw [if_neg h1, if_neg (Ne.symm h1)]
    by_cases h2 : s.ring.writePosition.val = q.val
    · simp [h2]
    · simp [h2, Ne.symm h2]

theorem positionAfter_ne (p : Fin 128) : positionAfter p ≠ p := by
  unfold positionAfter; intro h
  have := congrArg Fin.val h
  rw [Fin.val_add] at this
  omega

end Sys2Proof.Machine
end

