-- ==== Sys2Proof/Laws/OpenGrants.lean ====
section
/-!
SUPPORT. The Open Grant List: what closing entries as granted does to the list, the mark and the records, and where a
new entry goes.
-/

set_option Elab.async false

namespace Sys2Proof.Machine

/-! ## Closing as granted -/

/-- The mark after one offer: the position offered where it is above the mark, else the mark (R101). -/
def laterMark (m p : Word32) : Word32 := if above p m then p else m

theorem offerMark_mark (p : Word32) (s : State) :
    (offerMark p s).openGrants.expiryMark = laterMark s.openGrants.expiryMark p := by
  unfold offerMark laterMark; split <;> rfl

theorem offerMark_entries (p : Word32) (s : State) :
    (offerMark p s).openGrants.entries = s.openGrants.entries := by unfold offerMark; split <;> rfl

theorem settleAsGranted_entries (s : State) (e : OpenGrant) :
    (settleAsGranted s e).openGrants.entries = s.openGrants.entries := by
  unfold settleAsGranted
  rw [offerMark_entries, frame_openGrants (mapNamedRecord_frame _ _ _) (by decide)]

theorem settleAsGranted_mark (s : State) (e : OpenGrant) :
    (settleAsGranted s e).openGrants.expiryMark = laterMark s.openGrants.expiryMark e.position := by
  unfold settleAsGranted
  rw [offerMark_mark, frame_openGrants (mapNamedRecord_frame _ _ _) (by decide)]

theorem settleAsGranted_get (s : State) (e : OpenGrant) (q : Fin 128) :
    (recordAt (settleAsGranted s e) q) =
      if q = e.ringPosition ∧ (recordAt s e.ringPosition).number = e.intervalNumber then
        unreportedRecord (recordAt s q)
      else (recordAt s q) := by
  unfold settleAsGranted
  rw [recordAt_frame (offerMark_frame _ _) (by decide), mapNamedRecord_get]

theorem settleAsGranted_ring (s : State) (e : OpenGrant) :
    (settleAsGranted s e).ring = { s.ring with records := (settleAsGranted s e).ring.records } := by
  have h : (settleAsGranted s e).ring = (mapNamedRecord e unreportedRecord s).ring :=
    frame_ring (offerMark_frame _ _) (by decide)
  rw [h]; exact mapNamedRecord_ring _ _ _

/-! ### Several entries closed in a row -/

theorem settleAll_entries (es : List OpenGrant) (s : State) :
    (es.foldl settleAsGranted s).openGrants.entries = s.openGrants.entries := by
  induction es generalizing s with
  | nil => rfl
  | cons e es ih => rw [List.foldl_cons, ih, settleAsGranted_entries]

theorem settleAll_mark (es : List OpenGrant) (s : State) :
    (es.foldl settleAsGranted s).openGrants.expiryMark =
      es.foldl (fun m e => laterMark m e.position) s.openGrants.expiryMark := by
  induction es generalizing s with
  | nil => rfl
  | cons e es ih => rw [List.foldl_cons, ih, settleAsGranted_mark]; rfl

theorem settleAll_ring (es : List OpenGrant) (s : State) :
    (es.foldl settleAsGranted s).ring = { s.ring with records := (es.foldl settleAsGranted s).ring.records } := by
  induction es generalizing s with
  | nil => rfl
  | cons e es ih =>
    rw [List.foldl_cons, ih, settleAsGranted_ring s e]

/-- Each record's unreported count rises by the number of closed entries that name it, up to 255, and nothing else of
it moves (R102). -/
theorem settleAll_get (es : List OpenGrant) (s : State) (q : Fin 128) (h : (recordAt s q).unreported ≤ 255) :
    (recordAt (es.foldl settleAsGranted s) q) =
      { (recordAt s q) with
        unreported := min 255 ((recordAt s q).unreported +
          (es.filter fun e => decide (e.ringPosition = q ∧ e.intervalNumber = (recordAt s q).number)).length) } := by
  induction es generalizing s with
  | nil =>
    show recordAt s q = _
    simp only [List.filter_nil, List.length_nil, Nat.add_zero, Nat.min_eq_right h]
  | cons e es ih =>
    have hg := settleAsGranted_get s e q
    rw [List.foldl_cons]
    by_cases hc : e.ringPosition = q ∧ e.intervalNumber = (recordAt s q).number
    · have hq : q = e.ringPosition ∧ (recordAt s e.ringPosition).number = e.intervalNumber := by
        obtain ⟨rfl, hn⟩ := hc; exact ⟨rfl, hn.symm⟩
      rw [if_pos hq] at hg
      have hn : (unreportedRecord (recordAt s q)).number = (recordAt s q).number := rfl
      have hu : (unreportedRecord (recordAt s q)).unreported = countUp 255 (recordAt s q).unreported := rfl
      rw [ih _ (by rw [hg, hu, countUp]; split <;> omega), hg, List.filter_cons_of_pos (by rw [decide_eq_true_eq]; exact hc),
        List.length_cons, hn, hu]
      generalize (List.filter _ es).length = n
      have hm : min 255 (countUp 255 (recordAt s q).unreported + n) =
          min 255 ((recordAt s q).unreported + (n + 1)) := by
        rw [countUp]; split <;> omega
      rw [hm]; rfl
    · have hn : ¬ (q = e.ringPosition ∧ (recordAt s e.ringPosition).number = e.intervalNumber) := by
        rintro ⟨rfl, hx⟩; exact hc ⟨rfl, hx.symm⟩
      rw [if_neg hn] at hg
      rw [ih _ (by rw [hg]; exact h), hg, List.filter_cons_of_neg (by rw [decide_eq_true_eq]; exact hc)]

theorem closeEntries_entries (p : OpenGrant → Bool) (s : State) :
    (closeEntries p s).openGrants.entries = s.openGrants.entries.filter fun e => !p e := by
  unfold closeEntries; rw [settleAll_entries]; rfl

theorem closeEntries_mark (p : OpenGrant → Bool) (s : State) :
    (closeEntries p s).openGrants.expiryMark =
      (s.openGrants.entries.filter p).foldl (fun m e => laterMark m e.position) s.openGrants.expiryMark := by
  unfold closeEntries; rw [settleAll_mark]; rfl

theorem closeEntries_ring (p : OpenGrant → Bool) (s : State) :
    (closeEntries p s).ring = { s.ring with records := (closeEntries p s).ring.records } := by
  unfold closeEntries; rw [settleAll_ring]; rfl

theorem closeEntries_get (p : OpenGrant → Bool) (s : State) (q : Fin 128)
    (h : (recordAt s q).unreported ≤ 255) :
    (recordAt (closeEntries p s) q) =
      { (recordAt s q) with
        unreported := min 255 ((recordAt s q).unreported +
          ((s.openGrants.entries.filter p).filter fun e =>
            decide (e.ringPosition = q ∧ e.intervalNumber = (recordAt s q).number)).length) } := by
  unfold closeEntries; exact settleAll_get _ _ _ h

theorem massClose_entries (s : State) : (massClose s).openGrants.entries = [] := by
  unfold massClose; rw [closeEntries_entries]; simp

/-! ### Closing as granted keeps the exposure account -/

theorem settleAsGranted_energy (s : State) (e : OpenGrant) (q : Fin 128) :
    (recordAt (settleAsGranted s e) q).energy = (recordAt s q).energy := by
  rw [settleAsGranted_get]; split <;> rfl

theorem settleAsGranted_exposure (s : State) (e : OpenGrant) (h : exposureKept s) :
    exposureKept (settleAsGranted s e) := by
  have hx := windowExhausted_of_energies (settleAsGranted_energy s e) (by rw [settleAsGranted_ring])
    (by rw [frame_policy (settleAsGranted_frame s e) (by decide)])
  unfold exposureKept at *
  rw [hx, settleAsGranted_ring]; exact h

/-- The charges of closed entries stay in their records, so no window figure moves (R102, R140). -/
theorem closeEntries_exposure (p : OpenGrant → Bool) (s : State) (h : exposureKept s) :
    exposureKept (closeEntries p s) := by
  have key : ∀ (es : List OpenGrant) (t : State), exposureKept t → exposureKept (es.foldl settleAsGranted t) := by
    intro es
    induction es with
    | nil => intro t ht; exact ht
    | cons e es ih => intro t ht; exact ih _ (settleAsGranted_exposure t e ht)
  exact key _ _ h

theorem massClose_exposure (s : State) (h : exposureKept s) : exposureKept (massClose s) :=
  closeEntries_exposure _ s h

/-! ## A new entry -/

theorem insertByPosition_perm (e : OpenGrant) (es : List OpenGrant) : (insertByPosition e es).Perm (e :: es) := by
  induction es with
  | nil => exact List.Perm.refl _
  | cons x es ih =>
    unfold insertByPosition
    split
    · exact List.Perm.refl _
    · exact (List.Perm.cons x ih).trans (List.Perm.swap e x es)

theorem insertByPosition_length (e : OpenGrant) (es : List OpenGrant) :
    (insertByPosition e es).length = es.length + 1 := (insertByPosition_perm e es).length_eq

theorem evictIfFull_length (s : State) (h : s.openGrants.entries.length ≤ 16) :
    (evictIfFull s).openGrants.entries.length ≤ 15 := by
  unfold evictIfFull
  split
  case isTrue hl => have : openListSize = 16 := rfl; omega
  case isFalse =>
    split
    case h_1 he => rw [he]; exact Nat.zero_le _
    case h_2 e rest he =>
      rw [settleAsGranted_entries]
      rw [he, List.length_cons] at h
      exact Nat.le_of_succ_le_succ h

/-- A new entry never takes the list past its 16 places (R100, R105). -/
theorem insertEntry_length (e : OpenGrant) (s : State) (h : s.openGrants.entries.length ≤ 16) :
    (insertEntry e s).openGrants.entries.length ≤ 16 := by
  show (insertByPosition e (evictIfFull s).openGrants.entries).length ≤ 16
  rw [insertByPosition_length]
  exact Nat.succ_le_succ (evictIfFull_length s h)

/-! ## The checks of a request -/

theorem holdsTiming_iff (s : State) :
    holdsTiming s = true ↔ s.timing.state = .locked ∨ s.timing.state = .coasting := by
  simp [holdsTiming]

theorem slotLegal_iff (n : SlotsPerFrame) (slot : Byte) : slotLegal n slot = true ↔ slot.toNat < slotCount n := by
  simp [slotLegal]

end Sys2Proof.Machine
end

