-- ==== Sys2Proof/Laws/Policy.lean ====
section
/-!
SUPPORT. The Policy Store: everything a replacement of the working copy does, the switches, and the exits, block by
block.
-/

set_option Elab.async false

namespace Sys2Proof.Machine

/-! ## Replacement of the working copy -/

/-- The duty counter is lowered to the cycle length where it stands above it (R54). -/
theorem clampDuty_heat (s : State) :
    (clampDuty s).heat =
      { s.heat with dutyCounter := min s.heat.dutyCounter s.policy.workingCopy.cycleLength } := by
  unfold clampDuty
  split
  case isTrue h => rw [setHeat_heat, Nat.min_eq_right (Nat.le_of_lt h)]
  case isFalse h => rw [Nat.min_eq_left (Nat.le_of_not_lt h)]

theorem replaceWorkingCopy_policy (c : Context) (s : State) :
    (replaceWorkingCopy c s).policy = { s.policy with workingCopy := c } := by
  unfold replaceWorkingCopy
  rw [frame_policy (sendNotice_frame _ _) (by decide), frame_policy (recomputeExposure_frame _) (by decide),
    frame_policy (clampDuty_frame _) (by decide), setPolicy_policy]

theorem replaceWorkingCopy_heat (c : Context) (s : State) :
    (replaceWorkingCopy c s).heat = { s.heat with dutyCounter := min s.heat.dutyCounter c.cycleLength } := by
  unfold replaceWorkingCopy
  rw [frame_heat (sendNotice_frame _ _) (by decide), frame_heat (recomputeExposure_frame _) (by decide),
    clampDuty_heat]
  rfl

/-- After a replacement the exhausted item agrees with the new parameters (R139). -/
theorem replaceWorkingCopy_exposure (c : Context) (s : State) : exposureKept (replaceWorkingCopy c s) :=
  recomputeExposure_kept _

theorem replaceWorkingCopy_get (c : Context) (s : State) (q : Fin 128) :
    recordAt (replaceWorkingCopy c s) q = recordAt s q := by
  unfold replaceWorkingCopy
  rw [recordAt_frame (sendNotice_frame _ _) (by decide), recomputeExposure_get,
    recordAt_frame (clampDuty_frame _) (by decide)]
  rfl

theorem replaceWorkingCopy_ring (c : Context) (s : State) :
    (replaceWorkingCopy c s).ring = { s.ring with exhausted := windowExhausted (replaceWorkingCopy c s) } := by
  have h : (replaceWorkingCopy c s).ring = _ :=
    (frame_ring (sendNotice_frame _ _) (by decide)).trans
      (recomputeExposure_ring (clampDuty (s.setPolicy { s.policy with workingCopy := c })))
  have hr : (clampDuty (s.setPolicy { s.policy with workingCopy := c })).ring = s.ring := by
    rw [frame_ring (clampDuty_frame _) (by decide), setPolicy_ring]
  rw [hr] at h
  have hx := replaceWorkingCopy_exposure c s
  rw [exposureKept, h] at hx
  rw [← hx, h]

theorem sendNotice_mem (n : Notice) (s : State) : n ∈ (sendNotice n s).work.notices := by simp [sendNotice]

/-- The working copy's readers are told (R149, R167). -/
theorem replaceWorkingCopy_notice (c : Context) (s : State) :
    Notice.workingCopy ∈ (replaceWorkingCopy c s).work.notices := sendNotice_mem _ _

/-- The work a replacement leaves: the comparison's, then the notice of the replacement (R139, R149, R167). -/
theorem replaceWorkingCopy_told (c : Context) (s : State) :
    (replaceWorkingCopy c s).work =
      toldOfReplacement s.ring.exhausted (windowExhausted (replaceWorkingCopy c s)) s.work := by
  have hx : (replaceWorkingCopy c s).ring.exhausted = windowExhausted (replaceWorkingCopy c s) :=
    replaceWorkingCopy_exposure c s
  have ht := recomputeExposure_told (clampDuty (s.setPolicy { s.policy with workingCopy := c }))
  rw [frame_ring (clampDuty_frame _) (by decide), frame_work (clampDuty_frame _) (by decide), setPolicy_ring,
    setPolicy_work] at ht
  rw [← hx]
  unfold replaceWorkingCopy
  rw [frame_ring (sendNotice_frame _ _) (by decide), recomputeExposure_ring]
  simp only [sendNotice, toldOfReplacement, ← ht, setWork_work]

/-! ## Switches -/

/-- The active slot takes the working copy; every other slot is kept (R149). -/
theorem savedSlots_get (p : PolicyStore) (k : Fin 6) :
    (savedSlots p).get k = if k = p.activeIndex then p.workingCopy else p.slots.get k := by
  show (p.slots.set p.activeIndex p.workingCopy)[k] = if k = p.activeIndex then p.workingCopy else p.slots[k]
  simp only [Fin.getElem_fin, Vector.getElem_set, Fin.ext_iff]
  by_cases h : p.activeIndex.val = k.val
  · rw [if_pos h, if_pos h.symm]
  · rw [if_neg h, if_neg (Ne.symm h)]

theorem loadSlot_policy (k : Fin 6) (s : State) :
    (loadSlot k s).policy = { s.policy with workingCopy := s.policy.slots.get k, activeIndex := k } := by
  unfold loadSlot
  rw [replaceWorkingCopy_policy]; rfl

theorem loadSlot_heat (k : Fin 6) (s : State) :
    (loadSlot k s).heat =
      { s.heat with dutyCounter := min s.heat.dutyCounter (s.policy.slots.get k).cycleLength } := by
  unfold loadSlot
  rw [replaceWorkingCopy_heat]; rfl

theorem loadSlot_exposure (k : Fin 6) (s : State) : exposureKept (loadSlot k s) := replaceWorkingCopy_exposure _ _

theorem loadSlot_notice (k : Fin 6) (s : State) : Notice.workingCopy ∈ (loadSlot k s).work.notices :=
  replaceWorkingCopy_notice _ _

theorem performSwitch_exposure (w : Switch) (s : State) : exposureKept (performSwitch w s) := by
  cases w <;> exact loadSlot_exposure _ _

theorem performSwitch_notice (w : Switch) (s : State) :
    Notice.workingCopy ∈ (performSwitch w s).work.notices := by
  cases w <;> exact loadSlot_notice _ _

/-- EXCHANGE: the active slot takes the working copy, and slot k is loaded (R153). -/
theorem performExchange_policy (k : Fin 6) (s : State) :
    (performSwitch (.exchange k) s).policy =
      { s.policy with
        slots := savedSlots s.policy
        workingCopy := (savedSlots s.policy).get k
        activeIndex := k } := by
  show (loadSlot k (saveWorkingCopy s)).policy = _
  rw [loadSlot_policy]; rfl

/-- RELOAD: every slot is rewritten from the image, and the active slot loaded again (R153). -/
theorem performReload_policy (s : State) :
    (performSwitch .reload s).policy =
      { s.policy with
        slots := loadedSlots s.image.toList
        workingCopy := (loadedSlots s.image.toList).get s.policy.activeIndex } := by
  show (loadSlot s.policy.activeIndex _).policy = _
  rw [loadSlot_policy]; rfl

theorem applySwitch_exposure (w : Switch) (s : State) : exposureKept (applySwitch w s) := by
  have h := performSwitch_exposure w (s.setPolicy { s.policy with pendingSwitch := none })
  simp only [applySwitch, exposureKept]
  rw [frame_ring (raiseChange_frame _ _) (by decide), h]
  exact (windowExhausted_congr (by rw [frame_ring (raiseChange_frame _ _) (by decide)])
    (by rw [frame_ring (raiseChange_frame _ _) (by decide)])
    (by rw [frame_policy (raiseChange_frame _ _) (by decide)])).symm

/-! ## Exposure through an operation that leaves its blocks alone -/

theorem exposureKept_frame {bs : List Block} {s t : State} (h : onlyChanges bs s t) (hr : .ring ∉ bs)
    (hp : .policy ∉ bs) (hs : exposureKept s) : exposureKept t := by
  unfold exposureKept at *
  rw [frame_ring h hr, hs]
  exact (windowExhausted_congr (by rw [frame_ring h hr]) (by rw [frame_ring h hr]) (by rw [frame_policy h hp])).symm

/-! ## Exits -/

theorem writeExit_eq (r : ExitRecord) (s : State) :
    writeExit r s = raised (.exit r) (s.setPolicy { s.policy with exitRecord := some r }) := raiseChange_eq _ _

theorem cancelSwitch_exposure (s : State) (h : exposureKept s) : exposureKept (cancelSwitch s) := by
  unfold cancelSwitch
  split
  · exact h
  · exact exposureKept_frame (raiseChange_frame _ _) (by decide) (by decide) h

theorem setPolicy_exposure {s : State} {p : PolicyStore} (hp : p.workingCopy = s.policy.workingCopy)
    (h : exposureKept s) : exposureKept (s.setPolicy p) :=
  h.trans (windowExhausted_congr (s := s) (t := s.setPolicy p) rfl rfl hp).symm

theorem writeExit_exposure (r : ExitRecord) (s : State) (h : exposureKept s) : exposureKept (writeExit r s) := by
  unfold writeExit
  exact exposureKept_frame (raiseChange_frame _ _) (by decide) (by decide) (setPolicy_exposure rfl h)

theorem fallbackExit_exposure (c : FaultClass) (f : Fin 6) (s : State) : exposureKept (fallbackExit c f s) := by
  have h1 := cancelSwitch_exposure _ (loadSlot_exposure f (saveWorkingCopy s))
  have h2 := exposureKept_frame (dropStagingOnExit_frame _) (by decide) (by decide) h1
  simp only [fallbackExit]
  exact writeExit_exposure _ _ (setPolicy_exposure rfl h2)

theorem cancelSwitch_notices (s : State) : (cancelSwitch s).work.notices = s.work.notices := by
  unfold cancelSwitch
  split
  · rfl
  · rw [frame_work (raiseChange_frame _ _) (by decide)]; rfl

theorem dropStagingOnExit_notices (s : State) : (dropStagingOnExit s).work.notices = s.work.notices := by
  unfold dropStagingOnExit
  split
  · rfl
  all_goals rw [frame_work (raiseChange_frame _ _) (by decide)]; rfl

theorem dropStagingOnExit_carriers (s : State) :
    (dropStagingOnExit s).carriers = { s.carriers with staging := .closed } := by
  unfold dropStagingOnExit
  split
  case h_1 h => rw [← h]
  all_goals rw [frame_carriers (raiseChange_frame _ _) (by decide)]; rfl

theorem dropStagingOnExit_changes (s : State) :
    (dropStagingOnExit s).changes =
      if stagingExists s then reported (.configDropped s.timing.frameCounter) s.changes else s.changes := by
  unfold dropStagingOnExit stagingExists
  split
  · rfl
  all_goals rw [raiseChange_changes]; rfl

theorem cancelSwitch_policy (s : State) : (cancelSwitch s).policy = { s.policy with pendingSwitch := none } := by
  unfold cancelSwitch
  split
  case h_1 h => rw [← h]
  case h_2 => rw [frame_policy (raiseChange_frame _ _) (by decide)]; rfl

theorem cancelSwitch_changes (s : State) :
    (cancelSwitch s).changes =
      match s.policy.pendingSwitch with
      | none => s.changes
      | some w => reported (.switchCancelled w) s.changes := by
  unfold cancelSwitch
  cases s.policy.pendingSwitch with
  | none => rfl
  | some w =>
    show (raiseChange _ _).changes = _
    rw [raiseChange_changes]; rfl

end Sys2Proof.Machine
end

