-- ==== Sys2Proof/Laws/Requests.lean ====
section
/-!
SUPPORT. Requests: what the row of a request does when it is taken at once, and when its frame must wait; the checks
of pairs.
-/

set_option Elab.async false

namespace Sys2Proof.Machine

theorem whileUp_high {f : State → State} {s : State} (h : s.pins.rstN = true) : whileUp f s = .next (f s) := by
  simp [whileUp, h]

theorem whileUp_low {f : State → State} {s : State} (h : s.pins.rstN = false) : whileUp f s = .next s := by
  simp [whileUp, h]

theorem requestReady_iff (s : State) :
    requestReady s ↔ s.pins.rstN = true ∧ takenAtOnce s.link = true := by
  have h4 : queueSize = 4 := rfl
  simp only [requestReady, takenAtOnce, decoderFree, List.isEmpty_iff, Bool.and_eq_true, decide_eq_true_eq]
  rw [h4]
  tauto

theorem requestReady_advance {t : Moment} {s : State} (h : requestReady s) : requestReady (advanceTo t s) := h

/-- A request taken at once, whose number of pairs is accepted: its owner's effect and reply, after the work of earlier
frame events (R182). -/
theorem arriveRequest_ready {s : State} (h : requestReady s) (tag : Byte) (req : Request)
    (hl : lengthAccepted req = true) :
    arriveRequest tag req s = replied tag req (ownRequest req (settle s)).2 (ownRequest req (settle s)).1 := by
  rw [requestReady_iff] at h
  simp [arriveRequest, h.2, answerRequest, hl, sendReply, replied, State.setLink]

/-- A request of too few or too many pairs, taken at once: BAD_LENGTH, and its owner is not asked (R182). -/
theorem arriveRequest_badLength {s : State} (h : requestReady s) (tag : Byte) (req : Request)
    (hl : lengthAccepted req = false) :
    arriveRequest tag req s =
      (settle s).setLink (addReply (requestKind req) tag false
        (refuse .badLength (byte1 (requestPayload req).length)) (settle s).link) := by
  rw [requestReady_iff] at h
  simp [arriveRequest, h.2, answerRequest, hl]

/-- A request that cannot be taken at once joins the receive queue, or draws BUSY (R181). -/
theorem arriveRequest_waits {s : State} (h : takenAtOnce s.link = false) (tag : Byte) (req : Request) :
    arriveRequest tag req s = s.setLink (enqueueFrame (requestFrame tag req) s.link) := by
  simp [arriveRequest, h]

/-- The row of a request that is taken at once (R182). -/
theorem exec_row_ready {c : Instr} {t : Moment} {tag : Byte} {req : Request} {s : State} (hr : rowOf t tag req = some c)
    (h : requestReady s) (ht : t ≤ s.now) (hl : lengthAccepted req = true) :
    exec c s = .next (replied tag req (ownRequest req (settle s)).2 (ownRequest req (settle s)).1) := by
  have hp := h.1
  have key := arriveRequest_ready h tag req hl
  have hn : advanceTo t s = s := by simp [advanceTo, State.setNow, Nat.max_eq_left ht]
  cases req <;> simp only [rowOf, Option.some.injEq] at hr
  case traceSet f slot action =>
    split at hr
    case isTrue ha =>
      subst ha; cases hr
      exact (whileUp_high hp).trans (congrArg _ key)
    case isFalse =>
      split at hr
      case isTrue ha =>
        subst ha; cases hr
        exact (whileUp_high hp).trans (congrArg _ key)
      case isFalse => cases hr
  case align f =>
    subst hr
    refine (whileUp_high (f := fun s => arriveRequest tag (.align f) (advanceTo t s)) hp).trans ?_
    rw [hn, key]
  case resetPart =>
    subst hr
    refine (whileUp_high (f := fun s => arriveRequest tag .resetPart (advanceTo t s)) hp).trans ?_
    rw [hn, key]
  all_goals subst hr; exact (whileUp_high hp).trans (congrArg _ key)

end Sys2Proof.Machine
end

