-- ==== Sys2Proof/Laws/Settle.lean ====
section
/-!
SUPPORT. Completing outstanding work: where none is outstanding `settle` does nothing; parts already taken are not taken
again; and no part of the work of a frame event reads the Link Port, so `settle` commutes with a change of it.
-/

set_option Elab.async false

namespace Sys2Proof.Machine

/-! ## Nothing outstanding -/

theorem takeLateWork_of_not_mem {s : State} {w : FrameWork} (h : w ∉ s.work.late) : takeLateWork s w = s := by
  unfold takeLateWork; rw [if_neg h]

theorem takeLateWorks_of_nil {s : State} (h : s.work.late = []) (ws : List FrameWork) : takeLateWorks ws s = s := by
  unfold takeLateWorks
  induction ws with
  | nil => rfl
  | cons w ws ih =>
    rw [List.foldl_cons, takeLateWork_of_not_mem (by rw [h]; exact List.not_mem_nil), ih]

theorem settled_iff (s : State) :
    settled s = true ↔
      s.work = noWork ∧ closeDue s = false ∧ alignTimeoutDue s = false ∧ coastLimitDue s = false := by
  simp [settled, and_assoc]

/-- Where nothing is outstanding, completing the work changes nothing (assumption 4). -/
theorem settle_of_settled {s : State} (h : settled s = true) : settle s = s := by
  rw [settled_iff] at h
  obtain ⟨hw, hc, ha, hl⟩ := h
  have hlate : s.work.late = [] := by rw [hw]; rfl
  have h1 : takeLateWorks frameWorks s = s := takeLateWorks_of_nil hlate _
  have h2 : closeIfDue s = s := by
    unfold closeIfDue
    rw [takeLateWork_of_not_mem (by rw [hlate]; exact List.not_mem_nil), if_neg (by rw [hc]; exact Bool.false_ne_true)]
  have h3 : sampleIfDue s.pins.levels.ts s = s := by
    unfold sampleIfDue
    rw [takeLateWork_of_not_mem (by rw [hlate]; exact List.not_mem_nil),
      if_neg (by rw [hw]; exact Bool.false_ne_true)]
  have h4 : clearHoldIfDue s = s := by
    unfold clearHoldIfDue; rw [if_neg (by rw [hw]; exact Bool.false_ne_true)]
  have h5 : applyIfDue [] s = s := by
    unfold applyIfDue; rw [if_neg (by rw [hw]; exact Bool.false_ne_true)]
  have h6 : switchIfDue [] s = s := by
    unfold switchIfDue; rw [if_neg (by rw [hw]; exact Bool.false_ne_true)]
  have h7 : alignTimeoutIfDue s = s := by
    unfold alignTimeoutIfDue; rw [if_neg (by rw [ha]; exact Bool.false_ne_true)]
  have h8 : coastLimitIfDue s = s := by
    unfold coastLimitIfDue; rw [if_neg (by rw [hl]; exact Bool.false_ne_true)]
  have h9 : drainAllFaults s = s := by
    unfold drainAllFaults drainFaults; rw [hw]; rfl
  have h10 : drainNotices s = s := by
    unfold drainNotices; rw [if_pos (by rw [hw]; rfl)]
  rw [settle_eq, h1, h2, h3, h4, h5, h6, h7, h8, h9, h10]

/-! ## The Link Port apart -/

/-- An operation neither reads nor writes the Link Port. -/
def linkApart (f : State → State) : Prop := ∀ (l : LinkPort) (s : State), f (s.setLink l) = (f s).setLink l

theorem linkApart_comp {f g : State → State} (hf : linkApart f) (hg : linkApart g) : linkApart fun s => g (f s) :=
  fun l s => by show g (f (s.setLink l)) = _; rw [hf, hg]

theorem linkApart_foldl {α : Type} (f : State → α → State) (hf : ∀ x, linkApart fun s => f s x) (xs : List α) :
    linkApart fun s => xs.foldl f s := by
  intro l s
  show xs.foldl f (s.setLink l) = (xs.foldl f s).setLink l
  induction xs generalizing s with
  | nil => rfl
  | cons x xs ih =>
    have h : f (s.setLink l) x = (f s x).setLink l := hf x l s
    rw [List.foldl_cons, List.foldl_cons, h, ih]

theorem linkApart_ite {c : State → Prop} [∀ s, Decidable (c s)] {f g : State → State}
    (hc : ∀ l s, c (s.setLink l) = c s) (hf : linkApart f) (hg : linkApart g) :
    linkApart fun s => if c s then f s else g s := by
  intro l s
  have hx := hc l s
  by_cases h : c s
  · show (if c (s.setLink l) then f (s.setLink l) else g (s.setLink l)) = (if c s then f s else g s).setLink l
    rw [if_pos h, if_pos (hx.mpr h), hf]
  · show (if c (s.setLink l) then f (s.setLink l) else g (s.setLink l)) = (if c s then f s else g s).setLink l
    rw [if_neg h, if_neg (fun k => h (hx.mp k)), hg]

theorem linkApart_id : linkApart fun s => s := fun _ _ => rfl

theorem raiseFault_apart (c : FaultClass) : linkApart (raiseFault c) := fun _ _ => rfl

theorem sendNotice_apart (n : Notice) : linkApart (sendNotice n) := fun _ _ => rfl

theorem raiseChange_apart (c : Change) : linkApart (raiseChange c) := by
  intro l s; rw [raiseChange_eq, raiseChange_eq]; rfl

theorem mapRecord_apart (p : Fin 128) (f : IntervalRecord → IntervalRecord) : linkApart (mapRecord p f) :=
  fun _ _ => rfl

theorem mapNamedRecord_apart (e : OpenGrant) (f : IntervalRecord → IntervalRecord) : linkApart (mapNamedRecord e f) := by
  unfold mapNamedRecord
  exact linkApart_ite (fun _ _ => rfl) (mapRecord_apart _ _) linkApart_id

theorem recomputeExposure_apart : linkApart recomputeExposure := by
  intro l s
  have hw : windowExhausted (s.setLink l) = windowExhausted s := windowExhausted_congr rfl rfl rfl
  simp only [recomputeExposure, hw, setLink_ring]
  split
  · rfl
  · split <;> rfl

theorem recomputeInhibit_apart : linkApart recomputeInhibit := by
  intro l s
  have hc : causesOf (s.setLink l) = causesOf s := rfl
  unfold recomputeInhibit
  rw [hc, setLink_inhibit]
  split
  · rfl
  · rw [raiseChange_eq, raiseChange_eq]; rfl

theorem offerMark_apart (p : Word32) : linkApart (offerMark p) := by
  intro l s; unfold offerMark; rw [setLink_openGrants]; split <;> rfl

theorem settleAsGranted_apart (e : OpenGrant) : linkApart fun s => settleAsGranted s e :=
  linkApart_comp (f := mapNamedRecord e unreportedRecord) (mapNamedRecord_apart e unreportedRecord)
    (offerMark_apart e.position)

theorem closeEntries_apart (p : State → OpenGrant → Bool) (hp : ∀ l s, p (s.setLink l) = p s) :
    linkApart fun s => closeEntries (p s) s := by
  intro l s
  show closeEntries (p (s.setLink l)) (s.setLink l) = _
  rw [hp]
  exact linkApart_foldl settleAsGranted settleAsGranted_apart (s.openGrants.entries.filter (p s)) l
    (setEntries (s.openGrants.entries.filter fun e => !p s e) s)

theorem massClose_apart : linkApart massClose := closeEntries_apart (fun _ _ => true) fun _ _ => rfl

theorem liftMark_apart : linkApart liftMark := by
  intro l s
  have hb : lagBound (s.setLink l) = lagBound s := rfl
  unfold liftMark
  rw [hb, setLink_openGrants]
  split <;> rfl

theorem expiryCheck_apart : linkApart expiryCheck :=
  linkApart_comp (f := fun s => closeEntries (expired s) s) (closeEntries_apart expired fun _ _ => rfl) liftMark_apart

theorem countInterval_apart : linkApart countInterval := fun _ _ => rfl

theorem markSampleFrame_apart : linkApart markSampleFrame := by
  unfold markSampleFrame
  exact linkApart_ite (fun _ _ => rfl) (fun _ _ => rfl) linkApart_id

theorem stepSampleCounter_apart : linkApart stepSampleCounter := fun l s =>
  markSampleFrame_apart l (s.setHeat (sampleStep s.policy.workingCopy.samplePeriod s.heat))

theorem dutyStep_apart : linkApart dutyStep := by
  unfold dutyStep
  exact linkApart_ite (fun _ _ => rfl) linkApart_id
    (linkApart_ite (fun _ _ => rfl) (fun _ _ => rfl) (fun _ _ => rfl))

theorem readSupply_apart : linkApart readSupply := by
  unfold readSupply
  exact linkApart_ite (fun _ _ => rfl) (fun _ _ => rfl)
    (fun l s => by rw [raiseChange_eq, raiseChange_eq]; rfl)

theorem missTrace_apart : linkApart missTrace := by
  intro l s
  unfold missTrace
  rw [setLink_engine]
  split
  · rfl
  · rw [raiseChange_eq, raiseChange_eq]; rfl

theorem traceMissCheck_apart : linkApart traceMissCheck := by
  intro l s
  unfold traceMissCheck
  rw [setLink_engine, setLink_timing]
  split
  · rfl
  · split
    · exact missTrace_apart l s
    · rfl

theorem doWork_apart (w : FrameWork) : linkApart (doWork w) := by
  cases w
  · exact expiryCheck_apart
  · exact countInterval_apart
  · exact stepSampleCounter_apart
  · exact dutyStep_apart
  · exact readSupply_apart
  · exact traceMissCheck_apart

theorem takeLateWork_apart (w : FrameWork) : linkApart fun s => takeLateWork s w := by
  unfold takeLateWork
  exact linkApart_ite (fun _ _ => rfl)
    (fun l s => doWork_apart w l (s.setWork { s.work with late := s.work.late.filter fun v => v != w })) linkApart_id

theorem takeLateWorks_apart (ws : List FrameWork) : linkApart (takeLateWorks ws) :=
  linkApart_foldl takeLateWork takeLateWork_apart ws

theorem halvesAt_apart (p : Fin 128) (closed opening : Nat) : linkApart (halvesAt p closed opening) := by
  intro l s
  unfold halvesAt
  rw [setLink_ring]
  have key : ∀ (b : Bool) (c d : Change) (f : Ring → Ring),
      raiseChange d ((if b = true then raiseChange c (s.setLink l) else s.setLink l).setRing
        (f (if b = true then raiseChange c (s.setLink l) else s.setLink l).ring)) =
      (raiseChange d ((if b = true then raiseChange c s else s).setRing
        (f (if b = true then raiseChange c s else s).ring))).setLink l := by
    intro b c d f
    split <;> simp only [raiseChange_eq] <;> rfl
  split
  · exact key s.ring.upperHeld _ _ fun r => { r with upperHeld := false, lowerHeld := true }
  · split
    · exact key s.ring.lowerHeld _ _ fun r => { r with lowerHeld := false, upperHeld := true }
    · rfl

theorem closeInterval_apart : linkApart closeInterval := by
  intro l s
  have h := halvesAt_apart (positionAfter s.ring.writePosition) (openRecord s).number s.ring.nextNumber l s
  show recomputeExposure (turnInterval (halvesAt (positionAfter s.ring.writePosition) (openRecord s).number
    s.ring.nextNumber (s.setLink l))) = _
  rw [h]
  exact recomputeExposure_apart l
    (turnInterval (halvesAt (positionAfter s.ring.writePosition) (openRecord s).number s.ring.nextNumber s))

theorem closeIfDue_apart : linkApart closeIfDue := by
  intro l s
  unfold closeIfDue
  have h := takeLateWork_apart .intervalCount l s
  simp only at h
  rw [h]
  have hc : closeDue ((takeLateWork s .intervalCount).setLink l) = closeDue (takeLateWork s .intervalCount) := rfl
  rw [hc]
  split
  · exact closeInterval_apart l _
  · rfl

theorem announceZone_apart (z : Zone) (old : ZoneState) (new : ZoneRecord) : linkApart (announceZone z old new) := by
  intro l s
  unfold announceZone
  split
  · rfl
  · cases enteringFault new.state <;> simp only [raiseChange_eq] <;> rfl

theorem updateZone_apart (c : Context) (ts : PerZone Raw) (z : Zone) : linkApart fun s => updateZone c ts s z := by
  intro l s
  exact announceZone_apart z _ _ l (s.setHeat { s.heat with zones := _ })

theorem startStopDuty_apart (before : Bool) : linkApart (startStopDuty before) := by
  unfold startStopDuty
  exact linkApart_ite (fun _ _ => rfl) (fun _ _ => rfl)
    (linkApart_ite (fun _ _ => rfl) (fun _ _ => rfl) linkApart_id)

theorem takeSample_apart (ts : PerZone Raw) : linkApart (takeSample ts) := by
  intro l s
  have h := linkApart_foldl (updateZone s.policy.workingCopy ts)
    (fun z => updateZone_apart s.policy.workingCopy ts z) zones l
    ((s.setPins { s.pins with levels := { s.pins.levels with ts := ts } }).setWork
      { s.work with sampleDue := false })
  show startStopDuty (anyDutyZone s.heat.zones) (zones.foldl (updateZone s.policy.workingCopy ts)
    (((s.setPins { s.pins with levels := { s.pins.levels with ts := ts } }).setWork
      { s.work with sampleDue := false }).setLink l)) = _
  simp only at h
  rw [h, startStopDuty_apart]
  rfl

theorem sampleIfDue_apart (ts : PerZone Raw) : linkApart (sampleIfDue ts) := by
  intro l s
  unfold sampleIfDue
  have h := takeLateWork_apart .sampleCounter l s
  simp only at h
  rw [h, setLink_work]
  split
  · exact takeSample_apart ts l _
  · rfl

theorem clearHold_apart : linkApart clearHold := fun _ _ => rfl

theorem clearHoldIfDue_apart : linkApart clearHoldIfDue := by
  intro l s; unfold clearHoldIfDue; rw [setLink_work]; split <;> rfl

theorem clampDuty_apart : linkApart clampDuty := by
  intro l s; unfold clampDuty; rw [setLink_policy, setLink_heat]; split <;> rfl

theorem replaceWorkingCopy_apart (c : Context) : linkApart (replaceWorkingCopy c) := by
  intro l s
  have h := clampDuty_apart l (s.setPolicy { s.policy with workingCopy := c })
  show sendNotice .workingCopy (recomputeExposure (clampDuty
    ((s.setPolicy { s.policy with workingCopy := c }).setLink l))) = _
  rw [h, recomputeExposure_apart, sendNotice_apart]
  rfl

theorem loadSlot_apart (k : Fin 6) : linkApart (loadSlot k) := by
  intro l s
  exact replaceWorkingCopy_apart s.policy.slots[k] l (s.setPolicy { s.policy with activeIndex := k })

theorem saveWorkingCopy_apart : linkApart saveWorkingCopy := fun _ _ => rfl

theorem performSwitch_apart (w : Switch) : linkApart (performSwitch w) := by
  cases w with
  | exchange k => exact linkApart_comp (f := saveWorkingCopy) saveWorkingCopy_apart (loadSlot_apart k)
  | reload =>
    intro l s
    exact loadSlot_apart s.policy.activeIndex l (s.setPolicy { s.policy with slots := loadedSlots s.image.toList })

theorem applySwitch_apart (w : Switch) : linkApart (applySwitch w) := by
  intro l s
  have h := performSwitch_apart w l (s.setPolicy { s.policy with pendingSwitch := none })
  simp only [applySwitch]
  show raiseChange _ (performSwitch w ((s.setPolicy { s.policy with pendingSwitch := none }).setLink l)) = _
  have h2 : performSwitch w ((s.setLink l).setPolicy { (s.setLink l).policy with pendingSwitch := none }) =
      (performSwitch w (s.setPolicy { s.policy with pendingSwitch := none })).setLink l := h
  rw [h2, h, raiseChange_eq, raiseChange_eq]; rfl

theorem applyPendingSwitch_apart : linkApart applyPendingSwitch := by
  intro l s
  simp only [applyPendingSwitch, setLink_work, setWork_policy, setLink_policy]
  split
  · rfl
  · exact applySwitch_apart _ l (s.setWork { s.work with switchDue := false })

theorem switchIfDue_apart (first : List FrameWork) : linkApart (switchIfDue first) := by
  intro l s
  unfold switchIfDue
  rw [setLink_work]
  split
  · rw [takeLateWorks_apart, clearHoldIfDue_apart, applyPendingSwitch_apart]
  · rfl

theorem massCloseOnChange_apart (old : SlotsPerFrame) : linkApart (massCloseOnChange old) := by
  intro l s
  unfold massCloseOnChange
  rw [setLink_carriers]
  split
  · rfl
  · exact massClose_apart l s

theorem applySet_apart (set : StagingSet) : linkApart (applySet set) := by
  intro l s
  have h := replaceWorkingCopy_apart set.workingCopy l
    (s.setCarriers { entries := set.entries, slotsPerFrame := set.slotsPerFrame, staging := .closed })
  have h2 := massCloseOnChange_apart s.carriers.slotsPerFrame l
    (replaceWorkingCopy set.workingCopy
      (s.setCarriers { entries := set.entries, slotsPerFrame := set.slotsPerFrame, staging := .closed }))
  rw [← h] at h2
  have h3 : applySet set (s.setLink l) = raiseChange (.configApplied s.timing.frameCounter)
      (massCloseOnChange s.carriers.slotsPerFrame (replaceWorkingCopy set.workingCopy
        ((s.setCarriers
          { entries := set.entries, slotsPerFrame := set.slotsPerFrame, staging := .closed }).setLink l))) := by
    simp only [applySet]
    rw [frame_timing (massCloseOnChange_frame _ _) (by decide),
      frame_timing (replaceWorkingCopy_frame _ _) (by decide)]
    rfl
  have h4 : applySet set s = raiseChange (.configApplied s.timing.frameCounter)
      (massCloseOnChange s.carriers.slotsPerFrame (replaceWorkingCopy set.workingCopy
        (s.setCarriers { entries := set.entries, slotsPerFrame := set.slotsPerFrame, staging := .closed }))) := by
    simp only [applySet]
    rw [frame_timing (massCloseOnChange_frame _ _) (by decide),
      frame_timing (replaceWorkingCopy_frame _ _) (by decide)]
    rfl
  rw [h3, h4, h2, raiseChange_eq, raiseChange_eq]; rfl

theorem applyCommitted_apart : linkApart applyCommitted := by
  intro l s
  simp only [applyCommitted, setLink_work, setWork_carriers, setLink_carriers]
  split
  · rfl
  · rfl
  · exact applySet_apart _ l (s.setWork { s.work with applyDue := false })

theorem applyIfDue_apart (first : List FrameWork) : linkApart (applyIfDue first) := by
  intro l s
  unfold applyIfDue
  rw [setLink_work]
  split
  · rw [takeLateWorks_apart, applyCommitted_apart]
  · rfl

theorem alignTimeoutIfDue_apart : linkApart alignTimeoutIfDue := by
  intro l s
  have h : alignTimeoutDue (s.setLink l) = alignTimeoutDue s := rfl
  unfold alignTimeoutIfDue
  rw [h]
  split
  · rw [raiseChange_eq, raiseChange_eq]; rfl
  · rfl

theorem timingBreak_apart : linkApart timingBreak :=
  linkApart_comp (f := massClose) massClose_apart missTrace_apart

theorem coastLimitIfDue_apart : linkApart coastLimitIfDue := by
  intro l s
  have h : coastLimitDue (s.setLink l) = coastLimitDue s := rfl
  have hb := timingBreak_apart l (s.setTiming { s.timing with state := .free, coastCount := 0 })
  unfold coastLimitIfDue
  rw [h]
  split
  · show raiseFault .timing (raiseChange _ (timingBreak
      ((s.setTiming { s.timing with state := .free, coastCount := 0 }).setLink l))) = _
    rw [hb, raiseChange_eq, raiseChange_eq]; rfl
  · rfl

theorem cancelSwitch_apart : linkApart cancelSwitch := by
  intro l s
  unfold cancelSwitch
  rw [setLink_policy]
  split
  · rfl
  · rw [raiseChange_eq, raiseChange_eq]; rfl

theorem dropStagingOnExit_apart : linkApart dropStagingOnExit := by
  intro l s
  unfold dropStagingOnExit
  rw [setLink_carriers]
  split
  · rfl
  all_goals rw [raiseChange_eq, raiseChange_eq]; rfl

theorem writeExit_apart (r : ExitRecord) : linkApart (writeExit r) := by
  intro l s; rw [writeExit_eq, writeExit_eq]; rfl

theorem fallbackExit_apart (c : FaultClass) (f : Fin 6) : linkApart (fallbackExit c f) := by
  intro l s
  have h := linkApart_comp (f := fun s => cancelSwitch (loadSlot f (saveWorkingCopy s)))
    (linkApart_comp (f := fun s => loadSlot f (saveWorkingCopy s))
      (linkApart_comp (f := saveWorkingCopy) saveWorkingCopy_apart (loadSlot_apart f)) cancelSwitch_apart)
    dropStagingOnExit_apart l s
  simp only at h
  simp only [fallbackExit]
  rw [h]
  exact writeExit_apart _ l
    ((dropStagingOnExit (cancelSwitch (loadSlot f (saveWorkingCopy s)))).setPolicy
      { (dropStagingOnExit (cancelSwitch (loadSlot f (saveWorkingCopy s)))).policy with exitHold := true })

theorem takeFault_apart (c : FaultClass) : linkApart (takeFault c) := by
  intro l s
  unfold takeFault
  rw [setLink_policy]
  split
  · split
    · unfold mergeExit
      rw [setLink_policy]
      split
      · rfl
      · exact writeExit_apart _ l s
    · split
      · exact writeExit_apart _ l s
      · exact fallbackExit_apart c _ l s
  · rfl

theorem drainFaults_apart (n : Nat) : linkApart (drainFaults n) := by
  induction n with
  | zero => exact fun _ _ => rfl
  | succ n ih =>
    intro l s
    simp only [drainFaults, setLink_work]
    cases hf : s.work.faults with
    | nil => rfl
    | cons c rest =>
      have h := takeFault_apart c l (s.setWork { s.work with faults := rest })
      show drainFaults n (takeFault c ((s.setWork { s.work with faults := rest }).setLink l)) = _
      rw [h, ih]

theorem drainAllFaults_apart : linkApart drainAllFaults := fun l s => drainFaults_apart _ l s

theorem drainNotices_apart : linkApart drainNotices := by
  intro l s
  unfold drainNotices
  rw [setLink_work]
  split
  · rfl
  · exact recomputeInhibit_apart l (s.setWork { s.work with notices := [] })

/-- Completing the work of earlier frame events neither reads nor writes the Link Port. -/
theorem settle_apart : linkApart settle := by
  intro l s
  rw [settle_eq, settle_eq]
  rw [takeLateWorks_apart, closeIfDue_apart, setLink_pins, sampleIfDue_apart, clearHoldIfDue_apart, applyIfDue_apart,
    switchIfDue_apart, alignTimeoutIfDue_apart, coastLimitIfDue_apart, drainAllFaults_apart, drainNotices_apart]

end Sys2Proof.Machine
end

