-- ==== Sys2Proof/WellFormed.lean ====
section
/-!
DEFINITION. Which commands are well formed: what the link and a frame event can carry at all. A command outside
these bounds spells nothing the UG-24 can be given; the fields' own ranges are the part's business (BAD_FIELD and
BAD_LENGTH), so they are not checked here.
-/

namespace Sys2Proof

/-- The payload of n pairs, 3 + 2n bytes, fits the 250 bytes a frame can carry (R177, R191). -/
def pairsFit (pairs : List RawPair) : Bool := decide (3 + 2 * pairs.length ≤ 250)

/-- A frame on the link has at least its six fixed bytes and at most 256 (R177). -/
def frameFits (bytes : List RxByte) : Bool := decide (6 ≤ bytes.length ∧ bytes.length ≤ 256)

/-- The parts of one frame event are each named at most once. -/
def worksOnce (w : List FrameWork) : Bool := decide w.Nodup

/-- A command that spells something the part can be given. -/
def Instr.wellFormed : Instr → Bool
  | .powerOn _ => true
  | .rstNAsserted _ => true
  | .startUpLoadComplete _ _ => true
  | .pacerExpiry _ late => worksOnce late
  | .frameStrobe _ _ late => worksOnce late
  | .strobeLossTimeout _ late => worksOnce late
  | .alignTimeout => true
  | .coastLimit => true
  | .sample _ => true
  | .intervalClose => true
  | .stagingApply first => worksOnce first
  | .switchApply first => worksOnce first
  | .exitHoldClear => true
  | .policyFaultEvent _ first => worksOnce first
  | .inhibitNotice _ => true
  | .frameReceived _ bytes => frameFits bytes
  | .byteGapTimeout => true
  | .requestDecode _ => true
  | .transmitComplete => true
  | .align _ _ _ => true
  | .grantReq _ _ _ pairs => pairsFit pairs
  | .txReport _ _ _ pairs => pairsFit pairs
  | .stageOpen _ => true
  | .stageCarrier _ _ _ => true
  | .stageParam _ _ _ _ => true
  | .stageCommit _ => true
  | .stageDrop _ => true
  | .readCarrier _ _ => true
  | .readParam _ _ => true
  | .readZone _ _ => true
  | .readState _ => true
  | .exchange _ _ => true
  | .reload _ => true
  | .ringRead _ _ _ => true
  | .ringRelease _ _ => true
  | .changesRead _ => true
  | .changesAck _ _ => true
  | .changesMask _ _ _ => true
  | .arm _ _ _ => true
  | .disarm _ _ _ => true
  | .traceRead _ => true
  | .resetPart _ _ => true
  | .byteOnRxd _ _ => true

end Sys2Proof
end

