-- ==== Sys2Proof/Tests/Slice0.lean ====
section
/-!
SUPPORT. Tests on small states: what WellFormed refuses, worked examples of the spec, and for every statement with
hypotheses a state and operands that meet them, at the boundaries of their ranges. Claims are checked by `decide`.
-/

set_option Elab.async false

namespace Sys2Proof.Tests

open Sys2Proof.Machine

/-! ## Fixtures -/

/-- Some item of the state a command ends in. -/
def look {α : Type} (c : Instr) (s : State) (f : State → α) : Option α :=
  match exec c s with
  | .next t => some (f t)
  | .fault _ => none
  | .refused _ => none

/-- The part after start-up, in FREE, with TXINH released. -/
def up : State :=
  { State.reset with
    link := { State.reset.link with decoder := .running }
    inhibit := { State.reset.inhibit with txinh := false }
    timing := { State.reset.timing with pacer := some 60000 } }

/-- `up` in LOCKED at frame 70,000, its last frame start at moment 90000. -/
def locked : State :=
  { up with
    now := 90000
    timing :=
      { up.timing with
        state := .locked, frameCounter := 70000, lastFrameStart := some 90000, strobeLoss := some 135000, pacer := none } }

/-- `up` in COASTING with a coast count, its last pacer event at moment 90000. -/
def coasting (n : Nat) : State :=
  { up with
    now := 90000
    timing :=
      { up.timing with
        state := .coasting, frameCounter := 70000, coastCount := n, lastPacerEvent := some 90000, pacer := some 120000 } }

/-- `up` in ALIGNING with an align count. -/
def aligning (n : Nat) : State :=
  { up with timing := { up.timing with state := .aligning, alignTarget := 4472, alignCount := n } }

/-- RST_N held low. -/
def low : State := { State.reset with pins := { State.reset.pins with rstN := false } }

/-- A carrier entry that is enabled. -/
def entry (role : Role) (priority : Fin 4) (floor : Nat) : CarrierEntry :=
  { enabled := true, role, anchor := 0, zone := .pa, priority, floor, ceiling := 127, gain := 0 }

/-- An anchor 0, a secondary 1 that names it, and six disabled entries. -/
def table (p q : Fin 4) : Vector CarrierEntry 8 :=
  ((Vector.replicate 8 resetEntry).set 0 (entry .anchor p 110)).set 1 (entry .secondary q 0)

/-- A staging set over that table. -/
def set : StagingSet := { entries := table 0 3, slotsPerFrame := .two, workingCopy := safeContext 1 }

/-- `s` with a staging state. -/
def staged (g : Staging) (s : State) : State := { s with carriers := { s.carriers with staging := g } }

/-- `s` with a pending switch. -/
def switching (w : Switch) (s : State) : State := { s with policy := { s.policy with pendingSwitch := some w } }

/-- An open grant of frame 70,000, slot 1, charged to the record at position 0. -/
def grant : OpenGrant :=
  { position := 140001, frame := 70000, carriers := [{ index := 0, granted := .code 80, role := .anchor }], charge := 5,
    anchorCharge := 5, ringPosition := 0, intervalNumber := 1 }

/-- `s` with that grant open. -/
def granted (s : State) : State := { s with openGrants := { s.openGrants with entries := [grant] } }

/-- `s` with a trace armed for a frame. -/
def armed (f : Word32) (s : State) : State :=
  { s with engine := { s.engine with armed := some { frame := f, slot := 0, position := f * 2 } } }

/-- Levels of the input pins, every sensor at one raw code. -/
def levels (a b : Bool) (raw : Raw) : Levels := { bata := a, batb := b, ts := zoneAll raw }

/-- An image with both check words right and nothing else. -/
def checkedImage : Vector Byte imageSize :=
  (((Config.blankImage.set 0 0x3C).set 1 0x96).set 461 0xC3).set 462 0x69

/-- A pair whose value is a code. -/
def pair (i : Fin 8) (c : Nat) : Pair := { index := i, value := .code c }

/-! ## What WellFormed refuses -/

theorem test_wellFormed_refuses_work_named_twice :
    (Instr.pacerExpiry (levels true true 1) [.expiry, .expiry]).wellFormed = false ∧
      (Instr.frameStrobe 0 (levels true true 1) [.supply, .supply]).wellFormed = false ∧
      (Instr.strobeLossTimeout (levels true true 1) [.dutyStep, .expiry, .dutyStep]).wellFormed = false ∧
      (Instr.stagingApply [.expiry, .expiry]).wellFormed = false ∧
      (Instr.switchApply [.traceMiss, .traceMiss]).wellFormed = false ∧
      (Instr.policyFaultEvent .timing [.supply, .supply]).wellFormed = false ∧
      (Instr.stagingApply [.expiry, .supply]).wellFormed = true := by decide

theorem test_wellFormed_refuses_frames_of_wrong_size :
    (Instr.frameReceived 0 (List.replicate 5 { value := 0, stopBit := true })).wellFormed = false ∧
      (Instr.frameReceived 0 (List.replicate 6 { value := 0, stopBit := true })).wellFormed = true ∧
      (Instr.frameReceived 0 (List.replicate 256 { value := 0, stopBit := true })).wellFormed = true ∧
      (Instr.frameReceived 0 (List.replicate 257 { value := 0, stopBit := true })).wellFormed = false := by
  decide +kernel

theorem test_wellFormed_refuses_pairs_no_frame_carries :
    (Instr.grantReq 0 0 0 (List.replicate 124 { index := 0, value := 0 })).wellFormed = false ∧
      (Instr.grantReq 0 0 0 (List.replicate 123 { index := 0, value := 0 })).wellFormed = true ∧
      (Instr.txReport 0 0 0 (List.replicate 124 { index := 0, value := 0 })).wellFormed = false ∧
      (Instr.txReport 0 0 0 (List.replicate 123 { index := 0, value := 0 })).wellFormed = true := by
  decide +kernel

/-! ## Worked examples of the spec -/

theorem test_frame_numbers_resolve_as_R15_shows :
    resolveFrame 4464 70000 = 70000 ∧ resolveFrame 4472 70000 = 70008 ∧ resolveFrame 4460 70000 = 69996 ∧
      resolveFrame 65535 70000 = 65535 ∧ resolveFrame 37231 70000 = 102767 ∧ frameOffset 37231 70000 = 32767 ∧
      resolveFrame 37232 70000 = 37232 ∧ frameOffset 37232 70000 = -32768 ∧ resolveFrame 65533 5 = 4294967293 := by
  decide

theorem test_power_table_anchors :
    tablePower 0 = 0 ∧ tablePower 60 = 100 ∧ tablePower 80 = 1000 ∧ tablePower 113 = 44668 ∧ tablePower 116 = 63096 ∧
      tablePower 159 = 8912509 := by decide

theorem test_check_of_the_nine_digits :
    crcFold 0xFFFF [0x31, 0x32, 0x33, 0x34, 0x35, 0x36, 0x37, 0x38, 0x39] = 0x29B1 := by decide +kernel

theorem test_candidates_of_R43 :
    candidateLevel (safeContext 0) .pa .cool 150 = .cool ∧ candidateLevel (safeContext 0) .pa .cool 171 = .hot ∧
      candidateLevel (safeContext 0) .pa .warm 145 = .warm ∧ candidateLevel (safeContext 0) .pa .warm 144 = .cool ∧
      candidateLevel (safeContext 0) .pa .hot 164 = .warm ∧ candidateLevel (safeContext 0) .pa .critical 185 = .critical ∧
      candidateLevel (safeContext 0) .pa .critical 184 = .hot ∧ candidateLevel (safeContext 0) .pa .critical 144 = .cool := by
  decide

/-- The state of the example of section 5.10, with the priorities of its two carriers. -/
def singlePass (p q : Fin 4) : State :=
  { locked with
    carriers := { locked.carriers with entries := table p q }
    supply := { locked.supply with state := .critical }
    policy := { locked.policy with workingCopy := { safeContext 0 with shed := false, supplyCriticalCap := 50 } } }

theorem test_a_single_pass_does_not_give_back :
    ((decideLanes (singlePass 3 0) (lanesOf (singlePass 3 0) [pair 0 116, pair 1 114])).final.map
        fun l => (l.value, l.reason)) = [(.off, .supply), (.off, .anchor)] ∧
      ((decideLanes (singlePass 0 3) (lanesOf (singlePass 0 3) [pair 0 116, pair 1 114])).final.map
        fun l => (l.value, l.reason)) = [(.code 113, .supply), (.off, .supply)] := by decide +kernel

/-! ## Steps -/

theorem test_power_on_of_a_blank_image_is_reset : exec (.powerOn 0) State.reset = .next State.reset := rfl

theorem test_start_up_with_a_bad_store_is_exhausted :
    look (.startUpLoadComplete 0 (levels true true 100)) State.reset
        (fun t => (t.ring.exhausted, t.inhibit.txinh, (recordAt t 127).energy, t.timing.pacer, t.link.decoder)) =
      some (true, true, 100000, some 30000, .running) := by decide +kernel

theorem test_grant_is_charged_and_reported :
    look (.grantReq 9 4472 1 [{ index := 0, value := 116 }])
        { locked with carriers := { locked.carriers with entries := table 0 3 } }
        (fun t => (t.openGrants.entries.map fun e => (e.position, e.charge), (recordAt t 0).energy,
          t.link.transmitter.map fun f => (f.kind, f.payload))) =
      some ([(140017, 316)], 316, some (0x82, [0, 0, 116, 0, 0, 0, 0])) := by decide +kernel

theorem test_a_lost_strobe_coasts :
    look (.strobeLossTimeout (levels true true 100) []) locked
        (fun t => (t.timing.state, t.timing.frameCounter, t.timing.coastCount, t.timing.pacer, t.ring.framesInInterval)) =
      some (.coasting, 70001, 1, some 165000, 1) := by decide +kernel

/-! ## States that meet the hypotheses of the statements: queue, power and timing -/

theorem witness_StepTakesFrontCommand :
    { up with pending := [.alignTimeout] }.pending = [.alignTimeout] ∧ up.pending = [] ∧
      step { up with pending := [.alignTimeout] } = exec .alignTimeout { up with pending := [] } := ⟨rfl, rfl, rfl⟩

/-- A BAD image by its very last check byte, and a RELOAD that is due. -/
def badReload : State :=
  { switching .reload up with image := checkedImage.set 462 0x68, work := { noWork with switchDue := true } }

theorem witness_BadImageGivesSafeContexts :
    (badReload.image[0] = 0x3C ∧ badReload.image[1] = 0x96 ∧ badReload.image[461] = 0xC3 ∧ badReload.image[462] = 0x68) ∧
      badReload.pins.rstN = true ∧ badReload.work.switchDue = true ∧ badReload.policy.pendingSwitch = some .reload := by
  decide +kernel

/-- An image whose last slot holds a consistent context's record, and whose first slot holds zeros. -/
def goodImage : Vector Byte imageSize :=
  ⟨([0x3C, 0x96] ++ List.replicate 375 0 ++ contextBytes (safeContext 3) ++ List.replicate 9 0 ++ [0xC3, 0x69]).toArray,
    by decide +kernel⟩

theorem witness_ImageContextsLoadBack :
    contextConsistent (safeContext 3) = true ∧ (contextBytes (safeContext 3)).length = 75 ∧
      (goodImage[0] = 0x3C ∧ goodImage[1] = 0x96 ∧ goodImage[461] = 0xC3 ∧ goodImage[462] = 0x69) ∧
      (goodImage.toList.drop (2 + 75 * 5)).take 75 = contextBytes (safeContext 3) ∧
      contextOfBytes ((goodImage.toList.drop (2 + 75 * 0)).take 75) = none := by decide +kernel

/-- A good image whose other items stand at the ends of their ranges, and one with each of them just outside. -/
theorem witness_GoodCheckWordsLoadTheOtherItems :
    ((0xE0 : Byte).toInt = -32 ∧ (31 : Byte).toInt = 31 ∧ (32 : Byte).toInt = 32 ∧ (0xDF : Byte).toInt = -33) ∧
      look (.powerOn 0) { State.reset with image := ((goodImage.set 452 0xE0).set 456 16).set 457 5 }
          (fun t => (t.policy.offsets.pa, t.loaded.presumption, t.policy.activeIndex, t.policy.storeStatus)) =
        some (-32, 16, 5, .isPartial) ∧
      look (.powerOn 0) { State.reset with image := ((goodImage.set 452 32).set 456 17).set 460 2 }
          (fun t => (t.policy.offsets.pa, t.loaded.presumption, t.changes.clearMode, t.policy.storeStatus)) =
        some (0, 16, .onAck, .isPartial) := by decide +kernel

theorem witness_RstNLowSilencesThePart :
    low.pins.rstN = false ∧ (∀ t, Instr.traceRead 0 ≠ .powerOn t) ∧ ∀ t, Instr.traceRead 0 ≠ .rstNAsserted t :=
  ⟨rfl, nofun, nofun⟩

theorem witness_StartUpLoadCompletes : State.reset.pins.rstN = true ∧ State.reset.link.decoder = .held := by decide

theorem witness_StartUpRecordIsSetDirectly :
    ((0 : Raw).toNat = 0 ∧ (511 : Raw).toNat = 511 ∧ (1 : Raw).toNat ≠ 0 ∧ (510 : Raw).toNat ≠ 511) ∧
      (startUpRecord (safeContext 0) .pa 0 191).state = .level .critical ∧
      (startUpRecord (safeContext 0) .pa 0 150).state = .level .cool := by decide

theorem witness_FramesAndSlotPositionsResolve :
    ((102767 : Word32).setWidth 16 = (37231 : Word16) ∧ ((102767 : Word32) - 70000).toInt = 32767) ∧
      ((37232 : Word32).setWidth 16 = (37232 : Word16) ∧ ((37232 : Word32) - 70000).toInt = -32768) ∧
      slotPosition 4294967295 .sixteen 15 = 4294967295 ∧ below 4294967295 0 = true ∧
      above 0 4294967295 = true ∧ above 2147483648 0 = true ∧ above 0 2147483648 = true ∧
      below 0 2147483648 = false := by decide

/-- A position 2^31 from the mark is above it, so the mark becomes that position (R16, R101). -/
theorem test_offerMark_atHalfTheCircle :
    (offerMark 2147483648 State.reset).openGrants.expiryMark = 2147483648 ∧
      (offerMark 2147483649 State.reset).openGrants.expiryMark = 0 := by decide

theorem witness_PacerExpiryIsFrameEvent :
    up.pins.rstN = true ∧ up.timing.pacer = some 60000 ∧ locked.pins.rstN = true ∧ locked.timing.pacer = none := by
  decide

theorem witness_StrobeCountedOrIgnored :
    up.pins.rstN = true ∧ (settle up).timing.state = .free ∧ locked.pins.rstN = true ∧
      (settle locked).timing.state = .locked ∧ (settle locked).timing.lastFrameStart = some 90000 ∧
      max (settle locked).now 104999 < 90000 + 15000 ∧ 90000 + 15000 ≤ max (settle locked).now 105000 := by decide +kernel

theorem witness_StrobeLocksTheUnit :
    (aligning 4).pins.rstN = true ∧ (settle (aligning 4)).timing.state = .aligning ∧ (coasting 99).pins.rstN = true ∧
      (settle (coasting 99)).timing.state = .coasting ∧ (settle (coasting 99)).timing.lastPacerEvent = some 90000 ∧
      max (settle (coasting 99)).now 104999 < 90000 + 15000 ∧ 90000 + 15000 ≤ max (settle (coasting 99)).now 105000 := by
  decide +kernel

theorem witness_StrobeLossCoasts :
    locked.pins.rstN = true ∧ locked.timing.strobeLoss = some 135000 ∧ up.pins.rstN = true ∧ up.timing.strobeLoss = none := by
  decide

theorem witness_TimingLimitsReturnToFree :
    ((aligning 5).pins.rstN = true ∧ (aligning 5).timing.state = .aligning ∧ 5 ≤ (aligning 5).timing.alignCount) ∧
      (aligning 4).timing.alignCount < 5 ∧ up.timing.state ≠ .aligning ∧
      ((coasting 100).pins.rstN = true ∧ (coasting 100).timing.state = .coasting ∧ 100 ≤ (coasting 100).timing.coastCount ∧
        (coasting 100).engine.armed = none) ∧
      (armed 70001 (coasting 100)).engine.armed = some { frame := 70001, slot := 0, position := 140002 } ∧
      (coasting 99).timing.coastCount < 100 ∧ up.timing.state ≠ .coasting := by decide

/-- The requests are taken at once in FREE, ALIGNING, LOCKED and COASTING. -/
theorem witness_requestReady :
    requestReady up ∧ requestReady (aligning 0) ∧ requestReady locked ∧ requestReady (coasting 1) := by
  unfold requestReady
  decide

theorem witness_AlignEntersAligning : requestReady locked ∧ requestReady up :=
  ⟨witness_requestReady.2.2.1, witness_requestReady.1⟩

/-! ## The work of a frame event -/

/-- `up` with a duty counter and a state of zone PA. -/
def zoned (n : Nat) (z : ZoneState) : State :=
  { up with heat :=
    { up.heat with dutyCounter := n, zones := { up.heat.zones with pa := { unsampledZone with state := z } } } }

/-- `up` with the levels of BATA and BATB last read and a supply record. -/
def supplied (a b : Bool) (r : SupplyMonitor) : State :=
  { up with pins := { up.pins with levels := levels a b 100 }, supply := r }

theorem witness_FrameEventPartsTakeTheirSteps :
    (up.heat.dutyCounter = 0 ∧ (zoned 7 .faulted).heat.dutyCounter ≠ 0 ∧ 7 < up.policy.workingCopy.cycleLength ∧
        up.policy.workingCopy.cycleLength ≤ (zoned 8 (.level .hot)).heat.dutyCounter ∧
        anyDutyZone (zoned 0 (.level .hot)).heat.zones = true) ∧
      (up.heat.sampleCounter = up.heat.samplePeriod ∧
        { up.heat with sampleCounter := 3 }.sampleCounter ≠ up.heat.samplePeriod) ∧
      (supplyReading true true = .good ∧ supplyReading true false ≠ .good ∧ supplyReading false false = .critical) ∧
      (69999 - (armed 69999 locked).timing.frameCounter).toInt = -1 ∧
      (70000 - (armed 70000 locked).timing.frameCounter).toInt = 0 ∧
      (2147553648 - (armed 2147553648 locked).timing.frameCounter).toInt = -2147483648 ∧
      locked.engine.armed = none := by decide

/-- A supply confirmation one reading before its end, and one reading before that. -/
theorem witness_SupplyIsFiltered :
    let s := supplied true false { state := .good, candidate := some (supplyReading true false), agreeCount := 2 }
    let t := supplied true false { state := .good, candidate := some (supplyReading true false), agreeCount := 1 }
    supplyReading s.pins.levels.bata s.pins.levels.batb ≠ s.supply.state ∧
      supplyReading s.pins.levels.bata s.pins.levels.batb ≠ .critical ∧ 3 ≤ s.supply.agreeCount + 1 ∧
      t.supply.agreeCount + 1 < 3 := by decide

theorem witness_PartTakenMakesItsStep :
    FrameWork.expiry ∉ up.work.late ∧ (∀ w ∈ frameWorks, w ∈ { noWork with late := frameWorks }.late) ∧
      up.pins.rstN = true := by decide

/-- An entry whose horizon the counter has just reached, one frame before it, and a record whose count is full. -/
theorem witness_EntriesCloseAsGranted :
    (∀ p : Fin 128, (recordAt (granted locked) p).unreported ≤ 255) ∧
      (∀ p : Fin 128, (recordAt (mapRecord 0 (fun r => { r with unreported := 255 }) (granted locked)) p).unreported ≤ 255) ∧
      (70004 - (grant.frame + BitVec.ofNat 32 locked.policy.workingCopy.horizon)).toInt = 0 ∧
      (70003 - (grant.frame + BitVec.ofNat 32 locked.policy.workingCopy.horizon)).toInt = -1 := by decide +kernel

/-- A zone record in a state, two samples into the confirmation of WARM. -/
def inState (z : ZoneState) : ZoneRecord :=
  { state := z, lastRaw := 160, temperature := some 160, candidate := some .warm, agreeCount := 2 }

theorem witness_ZoneRecordFollowsItsReading :
    ((511 : Raw).toNat = 511 ∧ (0 : Raw).toNat = 0 ∧ (510 : Raw).toNat ≠ 0 ∧ (510 : Raw).toNat ≠ 511 ∧
        (1 : Raw).toNat ≠ 0 ∧ (1 : Raw).toNat ≠ 511) ∧
      (inState .faulted).state = .faulted ∧ (inState (.level .cool)).state = .level .cool ∧
      candidateLevel (safeContext 0) .pa .cool 150 = .cool ∧ candidateLevel (safeContext 0) .pa .cool 151 = .warm ∧
      candidateLevel (safeContext 0) .pa .cool 191 = .critical ∧
      (safeContext 0).confirmCount ≤ (inState (.level .cool)).agreeCount + 1 ∧
      { inState (.level .cool) with agreeCount := 1 }.agreeCount + 1 < (safeContext 0).confirmCount ∧
      ¬ (entryThreshold (safeContext 0) .pa .warm ≤ 150) := by decide

theorem witness_SampleUpdatesEveryZone :
    up.pins.rstN = true ∧ (takeLateWork up .sampleCounter).work.sampleDue = false ∧
      (takeLateWork
        { up with heat := { up.heat with sampleCounter := 3 }, work := { noWork with late := [.sampleCounter] } }
        .sampleCounter).work.sampleDue = true := by decide

/-- `up` with a write position, and the frames of its interval counted so far. -/
def atFrame (p : Fin 128) (n : Nat) : State :=
  { up with ring := { up.ring with writePosition := p, framesInInterval := n } }

theorem witness_IntervalCloseTurnsTheRing :
    (atFrame 63 99).pins.rstN = true ∧
      (takeLateWork (atFrame 63 99) .intervalCount).ring.framesInInterval <
        (takeLateWork (atFrame 63 99) .intervalCount).ring.latchedLength ∧
      (takeLateWork (atFrame 63 100) .intervalCount).ring.latchedLength ≤
        (takeLateWork (atFrame 63 100) .intervalCount).ring.framesInInterval ∧
      (takeLateWork (atFrame 63 100) .intervalCount).ring.writePosition + 1 = 64 ∧
      (takeLateWork (atFrame 127 100) .intervalCount).ring.writePosition + 1 = 0 ∧
      (takeLateWork (atFrame 0 100) .intervalCount).ring.writePosition + 1 = 1 := by decide

theorem witness_ExhaustionIsCompared :
    windowExhausted up = false ∧ up.ring.exhausted = false ∧
      (let s := mapRecord 0 (fun r => { r with energy := 6000000 }) up
       decide (s.policy.workingCopy.averageLimit * s.policy.workingCopy.window * s.policy.workingCopy.interval * 10 ≤
        windowSum s) = true ∧ s.ring.exhausted = false) ∧
      { up.ring with exhausted := true }.exhausted = true := by decide +kernel

/-- The window just below its budget and at it; the record behind the window does not count. -/
theorem witness_WindowFiguresFollowTheRecords :
    (let s := mapRecord 0 (fun r => { r with energy := 5999999 }) up
     windowSum s < budget s ∧ headroom s = 1 ∧ utilisation s = 15) ∧
      (let s := mapRecord 68 (fun r => { r with energy := 6000000 }) up
       budget s ≤ windowSum s ∧ headroom s = 0 ∧ utilisation s = 16) ∧
      windowSum (mapRecord 67 (fun r => { r with energy := 6000000 }) up) = 0 := by decide +kernel

/-- `s` with one step due, or events waiting. -/
def owing (w : Outstanding) (s : State) : State := { s with work := w }

theorem witness_StagingApplyMakesTheSetLive :
    up.pins.rstN = true ∧ up.work.applyDue = false ∧
      (let s := owing { noWork with applyDue := true } (staged (.commitPending set) up)
       s.pins.rstN = true ∧ s.work.applyDue = true ∧ (takeLateWorks [] s).carriers.staging = .commitPending set ∧
        set.slotsPerFrame = (takeLateWorks [] s).carriers.slotsPerFrame) ∧
      { set with slotsPerFrame := .four }.slotsPerFrame ≠ up.carriers.slotsPerFrame := by decide +kernel

theorem witness_SwitchApplyLoadsASlot :
    up.work.switchDue = false ∧
      (let s := owing { noWork with switchDue := true, holdClearDue := true } (switching (.exchange 5) up)
       s.pins.rstN = true ∧ s.work.switchDue = true ∧
        (takeLateWorks [.expiry] s).policy.pendingSwitch = some (.exchange 5)) ∧
      (owing { noWork with switchDue := true } (switching .reload up)).policy.pendingSwitch = some .reload := by
  decide +kernel

/-- `up` with a fault event of a class waiting, and a fallback. -/
def faulting (c : FaultClass) (f : Fin 6) : State :=
  owing { noWork with faults := [c] }
    { up with policy := { up.policy with workingCopy := { safeContext 0 with fallback := f } } }

theorem witness_PolicyFaultsAndTheExitHold :
    (FaultClass.timing ∉ up.work.faults ∧ FaultClass.timing ∈ (faulting .timing 5).work.faults) ∧
      exitFlag (faulting .overshoot 5).policy.workingCopy .overshoot = false ∧
      (exitFlag (faulting .timing 5).policy.workingCopy .timing = true ∧ (faulting .timing 5).policy.exitHold = false ∧
        (faulting .timing 5).policy.workingCopy.fallback ≠ (faulting .timing 5).policy.activeIndex) ∧
      (faulting .sensor 0).policy.workingCopy.fallback = (faulting .sensor 0).policy.activeIndex ∧
      (let p := { (faulting .critical 5).policy with
        exitHold := true
        exitRecord := some { causes := 1, fromIndex := 0, toIndex := 5, frameCount := 7, absorbed := false } }
       p.exitHold = true ∧ p.exitRecord.isSome = true ∧ exitFlag p.workingCopy .critical = true) ∧
      up.work.holdClearDue = false ∧ (owing { noWork with holdClearDue := true } up).work.holdClearDue = true := by
  decide +kernel

theorem witness_InhibitNoticeRecomputes :
    Notice.exhaustion ∉ up.work.notices ∧
      Notice.exhaustion ∈ (owing { noWork with notices := [.exhaustion] } up).work.notices ∧
      (let z := { up.heat.zones with caseZone := { unsampledZone with state := .level .critical } }
       (zoneGet z .caseZone).state = .level .critical ∧
        zoneGet up.policy.workingCopy.criticalAction .caseZone = .inhibit) ∧
      causesOf up = up.inhibit.causes := by decide +kernel

/-! ## Link Port -/

/-- `up` with a receive state. -/
def receiving (r : Receive) : State := { up with link := { up.link with receive := r } }

theorem witness_BytesAreCollected :
    (up.pins.rstN = true ∧ up.link.receive = .hunting) ∧
      (receiving (.receiving [1, 2, 250, 0] 9)).link.receive = .receiving [1, 2, 250, 0] 9 ∧
      partialKept (.receiving [1, 2] 9) ∧ partialKept (.receiving [1, 2, 250, 0] 9) ∧
      partialKept (.receiving [1, 2, 1, 7, 0x55] 9) ∧ ([1, 2] : List Byte).length = 2 ∧
      (250 < (251 : Byte).toNat ∧ (250 : Byte).toNat ≤ 250) ∧
      (([0] : List Byte).length < (250 : Byte).toNat + 1 ∧ ([7, 0x55] : List Byte) = [7] ++ [0x55] ∧
        ([7] : List Byte).length = (1 : Byte).toNat) := by
  refine ⟨by decide, by decide, trivial, ?_, ?_, by decide, by decide, by decide⟩ <;>
    exact ⟨by decide, by decide⟩

/-- A frame on the link. -/
def aFrame : RxFrame := { kind := 0x15, tag := 3, payload := [] }

/-- `up` with frames waiting in the receive queue. -/
def queued (fs : List RxFrame) : State := { up with link := { up.link with receiveQueue := fs } }

theorem witness_FrameIsJudged :
    up.link.receive = .hunting ∧ (List.replicate 250 (0 : Byte)).length ≤ 250 ∧
      (∃ c1 c0 : Byte, frameCheck 0x15 3 [] = c1 ++ c0) ∧ (∃ c1 c0 : Byte, frameCheck 0x15 3 [] ≠ c1 ++ c0) ∧
      (queued [aFrame, aFrame, aFrame]).link.receiveQueue.length < 4 ∧
      4 ≤ (queued [aFrame, aFrame, aFrame, aFrame]).link.receiveQueue.length ∧ up.link.portQueue.length < 8 := by
  refine ⟨by decide, by decide +kernel, ⟨(frameCheck 0x15 3 []).extractLsb' 8 8, (frameCheck 0x15 3 []).extractLsb' 0 8, ?_⟩,
    ⟨0, 0, ?_⟩, by decide, by decide, by decide⟩ <;> decide +kernel

theorem witness_DecoderAnswersTheOldestFrame :
    (State.reset.link.decoder = .held ∧ up.link.receiveQueue = []) ∧
      ((queued [aFrame]).link.decoder = .running ∧ (queued [aFrame]).link.receiveQueue = aFrame :: [] ∧
        (queued [aFrame]).link.replyQueue.length < 4) ∧
      ((23 : Byte).toNat ≠ 0 ∧ 22 < (23 : Byte).toNat ∧ (0 : Byte).toNat = 0) ∧
      (([1] : List Byte).length ∉ kindLengths 22 ∧ (22 : Byte).toNat ≠ 0 ∧ (22 : Byte).toNat ≤ 22) ∧
      aFrame.payload.length ∈ kindLengths aFrame.kind.toNat := by decide

/-- A reply frame. -/
def reply : TxFrame := { kind := 0x95, tag := 3, payload := [0], check := 0 }

/-- `up` sending, with replies waiting. -/
def sending (ds : List DecoderReply) (ps : List PortReply) : State :=
  { up with link := { up.link with transmitter := some reply, replyQueue := ds, portQueue := ps } }

theorem witness_RepliesAreQueuedAndSentInOrder :
    up.link.transmitter = none ∧
      ((sending [] []).link.transmitter = some reply ∧ (sending [] []).link.decoder = .running) ∧
      (sending [] [{ frame := reply, behind := 0 }]).link.portQueue = [{ frame := reply, behind := 0 }] ∧
      (let s := sending [{ frame := reply, isReset := true }] [{ frame := reply, behind := 1 }]
       s.link.portQueue = [{ frame := reply, behind := 1 }] ∧
        s.link.replyQueue = [{ frame := reply, isReset := true }]) ∧
      (up.link.decoder = .running ∧ up.link.replyQueue = [] ∧ up.link.portQueue = []) := by decide

theorem witness_ArbiterChoosesTheNextReply :
    State.reset.link.decoder = .held ∧ (sending [] []).link.transmitter ≠ none ∧
      (let l := { (sending [{ frame := reply, isReset := true }] [{ frame := reply, behind := 1 }]).link with
        transmitter := none }
       l.decoder = .running ∧ l.transmitter = none ∧ (arbitrate l).portQueue = [{ frame := reply, behind := 0 }]) ∧
      (let l := { (sending [] [{ frame := reply, behind := 0 }]).link with transmitter := none }
       l.portQueue = [{ frame := reply, behind := 0 }] ∧ (arbitrate l).portQueue = []) := by decide

theorem witness_RequestRowIsItsFrame :
    (rowOf 0 3 .traceRead = some (.traceRead 3) ∧ rowOf 0 3 (.traceSet 1 0 2) = none) ∧ requestReady up ∧
      up.link.receive = .hunting ∧
      (requestPayload (.grantReq 0 0 (List.replicate 8 { index := 0, value := 0 }))).length ≤ 250 ∧ (0 : Moment) ≤ up.now ∧
      (let s := queued [aFrame, aFrame, aFrame]
       s.pins.rstN = true ∧ ¬ requestReady s ∧ s.link.receiveQueue.length < 4) ∧
      (let s := queued [aFrame, aFrame, aFrame, aFrame]
       ¬ requestReady s ∧ 4 ≤ s.link.receiveQueue.length ∧ s.link.portQueue.length < 8) ∧
      8 ≤ (sending [] (List.replicate 8 { frame := reply, behind := 0 })).link.portQueue.length := by
  unfold requestReady
  decide

theorem witness_RequestPayloadReadsBack :
    requestOfBytes 0x06 [29, 0, 0, 0, 0, 5] = some (.stageParam 29 0 5) ∧ requestOfBytes 0x16 [] = some .resetPart := by
  decide +kernel

/-! ## Carrier Table and Policy Store requests -/

theorem witness_StagingOpensAndDrops :
    requestReady up ∧ (settle up).carriers.staging = .closed ∧ (settle up).policy.pendingSwitch = none ∧
      (settle (switching .reload up)).policy.pendingSwitch ≠ none ∧
      (settle (staged (.opened set) up)).carriers.staging = .opened set ∧
      (settle (staged (.commitPending set) up)).carriers.staging = .commitPending set := by
  unfold requestReady
  decide +kernel

/-- The bytes of a carrier entry, its gain offset at the given byte. -/
def rawEntry (role gain : Byte) : RawCarrier :=
  { enabled := 1, role, anchor := 7, zone := 2, priority := 3, floor := 127, ceiling := 127, gain }

theorem witness_StagedEditsAreChecked :
    (requestReady (staged (.opened set) up) ∧ (settle (staged (.opened set) up)).carriers.staging = .opened set ∧
        (settle up).carriers.staging = .closed) ∧
      ((rawEntry 1 0xF0).gain.toInt = -16 ∧ (rawEntry 1 0x0F).gain.toInt = 15 ∧ (rawEntry 1 0x10).gain.toInt = 16 ∧
        (7 : Byte).toNat ≤ 7 ∧ ¬ (8 : Byte).toNat ≤ 7 ∧ ¬ (rawEntry 2 0).role.toNat ≤ 1) ∧
      (29 < (30 : Byte).toNat ∧ slotCount .sixteen = (16 : Word32).toNat ∧ (∀ n, slotCount n ≠ (3 : Word32).toNat) ∧
        4 ≤ (4 : Byte).toNat) ∧
      (fieldRange 1 = some (1, 510) ∧ fieldRange 29 = some (0, 5) ∧ fieldRange 21 = some (0, 4294967295)) ∧
      ((0 : Word32).toNat < 1 ∧ 510 < (511 : Word32).toNat ∧ 1 ≤ (1 : Word32).toNat ∧ (510 : Word32).toNat ≤ 510) := by
  refine ⟨⟨by unfold requestReady; decide, by decide +kernel, by decide +kernel⟩, by decide, ?_, by decide, by decide⟩
  exact ⟨by decide, by decide, fun n => by cases n <;> decide, by decide⟩

theorem witness_FieldRanges :
    fieldRange 0 = none ∧ fieldRange 30 = none ∧ contextInRange (safeContext 0) = true ∧
      contextInRange { safeContext 0 with window := 7 } = false := by decide

/-- A staging set whose last entry has a floor above its ceiling. -/
def floorAbove : StagingSet := { set with entries := set.entries.set 7 { resetEntry with floor := 127, ceiling := 126 } }

/-- A staging set whose anchor is not enabled. -/
def anchorLost : StagingSet := { set with entries := set.entries.set 0 resetEntry }

theorem witness_StageCommitChecksTheSet :
    requestReady (staged (.opened set) up) ∧ (settle (staged (.opened floorAbove) up)).carriers.staging = .opened floorAbove ∧
      floorAbove.entries[7].ceiling < floorAbove.entries[7].floor ∧ carriersConsistent set.entries = true ∧
      (anchorLost.entries[1].enabled = true ∧ anchorLost.entries[1].role = .secondary ∧
        ¬ (anchorLost.entries[anchorLost.entries[1].anchor].enabled = true ∧
          anchorLost.entries[anchorLost.entries[1].anchor].role = .anchor)) ∧
      contextFirstFault set.workingCopy = none ∧
      ((contextFirstFault { set.workingCopy with duty := 8 }).map fun k => (k.field, k.zone)) = some (13, none) ∧
      (settle up).carriers.staging = .closed := by
  unfold requestReady
  decide +kernel

theorem witness_ContextChecksInOrder :
    ((contextFirstFault { safeContext 0 with warmEntry := zoneAll 171, cycleLength := 4 }).map fun k => (k.field, k.zone)) =
        some (2, some .pa) ∧
      ((contextFirstFault { safeContext 0 with hysteresis := { zoneAll 6 with caseZone := 10 } }).map
        fun k => (k.field, k.zone)) = some (4, some .caseZone) ∧
      ((contextFirstFault { safeContext 0 with window := 8, interval := 374 }).map fun k => (k.field, k.zone)) =
        some (19, none) ∧
      ((contextFirstFault { safeContext 0 with reserve := 3000001 }).map fun k => (k.field, k.zone)) = some (21, none) ∧
      contextFirstFault { safeContext 0 with window := 8, interval := 375 } = none ∧
      contextFirstFault { safeContext 0 with reserve := 3000000 } = none := by decide

theorem witness_SwitchRequestsBecomePending :
    requestReady up ∧ 5 < (6 : Byte).toNat ∧ (5 : Byte).toNat ≤ 5 ∧ (5 : Fin 6).val = (5 : Byte).toNat ∧
      (settle (staged (.opened set) up)).carriers.staging ≠ .closed ∧ (settle up).carriers.staging = .closed ∧
      (settle up).policy.pendingSwitch = none ∧ (settle (switching .reload up)).policy.pendingSwitch ≠ none := by
  unfold requestReady
  decide +kernel

/-! ## Requests that read, changes, trace -/

theorem witness_ReadRequestsAnswerOrRefuse :
    requestReady up ∧ ((127 : Byte).toNat ≤ 127 ∧ 1 ≤ (1 : Byte).toNat ∧ (8 : Byte).toNat ≤ 8) ∧ 7 < (8 : Byte).toNat ∧
      6 < (7 : Byte).toNat ∧ 3 < (4 : Byte).toNat ∧ 127 < (128 : Byte).toNat ∧ 8 < (9 : Byte).toNat ∧ (0 : Byte).toNat = 0 := by
  unfold requestReady
  decide

theorem witness_RaisedChangeTakesItsPlace :
    up.changes.mask.getLsbD (changeSource (.overshoot 1)) = true ∧
      { up.changes with mask := 0 }.mask.getLsbD (changeSource (.overshoot 1)) = false := by decide

theorem witness_ChangesAreReadAcknowledgedAndMasked :
    requestReady up ∧ (settle up).changes.clearMode = .onAck ∧
      (settle { up with changes := { up.changes with clearMode := .onRead } }).changes.clearMode = .onRead ∧
      (1 : Byte).toNat ≤ 1 ∧ 1 < (2 : Byte).toNat := by
  unfold requestReady
  decide +kernel

theorem witness_HalvesReleaseAndTraceArms :
    requestReady locked ∧ 1 < (2 : Byte).toNat ∧
      ((settle up).timing.state ≠ .locked ∧ (settle up).timing.state ≠ .coasting ∧ (settle locked).timing.state = .locked) ∧
      (slotCount (settle locked).carriers.slotsPerFrame ≤ (2 : Byte).toNat ∧
        (1 : Byte).toNat < slotCount (settle locked).carriers.slotsPerFrame) ∧
      (frameOffset 4463 (settle locked).timing.frameCounter = -1 ∧ frameOffset 4464 (settle locked).timing.frameCounter = 0 ∧
        frameOffset 4472 (settle locked).timing.frameCounter = 8 ∧
        frameOffset 4473 (settle locked).timing.frameCounter = 9) := by
  unfold requestReady
  decide +kernel

/-- A TRACE_SET whose action is 2, and the reply it draws. -/
theorem witness_TraceSetRefusesAnotherAction :
    let s := queued [{ kind := 0x14, tag := 3, payload := byte2 (4464 : Word16).toNat ++ [0, 2] }]
    (s.pins.rstN = true ∧ s.link.decoder = .running ∧ s.link.replyQueue.length < 4 ∧ 1 < (2 : Byte).toNat) ∧
      look (.requestDecode 0) s (fun t => t.link.transmitter.map fun f => (f.kind, f.payload)) =
        some (some (0x94, [5, 1])) := by decide +kernel

theorem witness_ResetPartTakesSoftResetValues : requestReady (granted (armed 70001 locked)) := by
  unfold requestReady
  decide

/-! ## Grants and reports -/

theorem witness_GrantRequestTakesItsSteps :
    requestReady locked ∧ (settle locked).timing.state = .locked ∧
      (1 : Byte).toNat < slotCount (settle locked).carriers.slotsPerFrame ∧ legalList [pair 7 127] ∧
      0 ≤ frameOffset 4464 (settle locked).timing.frameCounter ∧ frameOffset 4472 (settle locked).timing.frameCounter ≤ 8 ∧
      (settle (coasting 1)).timing.state = .coasting := by
  refine ⟨witness_requestReady.2.2.1, by decide +kernel, by decide +kernel, ⟨by decide, by decide, by decide, ?_⟩,
    by decide +kernel, by decide +kernel, by decide +kernel⟩
  intro p hp
  simp only [List.mem_singleton] at hp
  subst hp
  exact (by decide : 127 ≤ 127)

/-- Pairs of bytes for carriers 0 and 7, and one for no carrier. -/
def rawPair (i v : Byte) : RawPair := { index := i, value := v }

theorem witness_GrantAndReportRefusals :
    requestReady locked ∧ (¬ ((settle up).timing.state = .locked ∨ (settle up).timing.state = .coasting)) ∧
      (settle locked).timing.state = .locked ∧
      (slotCount (settle locked).carriers.slotsPerFrame ≤ (2 : Byte).toNat ∧
        (1 : Byte).toNat < slotCount (settle locked).carriers.slotsPerFrame) ∧
      (legalPair (rawPair 7 127) ∧ legalPair (rawPair 0 0xFF) ∧ ¬ legalPair (rawPair 8 0) ∧ ¬ legalPair (rawPair 0 128)) ∧
      (([rawPair 7 127, rawPair 0 0xFF].map RawPair.index).Nodup ∧
        (rawPair 7 1).index ∈ [rawPair 7 127, rawPair 0 0xFF].map RawPair.index) ∧
      (frameOffset 4463 (settle locked).timing.frameCounter < 0 ∧ 8 < frameOffset 4473 (settle locked).timing.frameCounter) ∧
      (8 < (List.replicate 9 (rawPair 0 0)).length ∧ 3 + 2 * (List.replicate 9 (rawPair 0 0)).length ≤ 250) ∧
      ([] : List RawPair).length = 0 := by
  unfold requestReady legalPair
  decide +kernel

theorem witness_RegrantWithdrawsTheEarlierEntry :
    (∀ e ∈ locked.openGrants.entries, e.position ≠ 140001) ∧
      (granted locked).openGrants.entries.find? (fun x => x.position == 140001) = some grant ∧
      (recordAt (granted locked) grant.ringPosition).number = grant.intervalNumber ∧
      (recordAt (granted locked) 1).number ≠ grant.intervalNumber ∧
      { locked.ring with exhausted := true }.exhausted = true := by decide +kernel

/-- `granted locked`, exhausted by the grant's own charge, with hard stop, and TXINH asserted for it. -/
def exhaustedByGrant : State :=
  let s := mapRecord 0 (fun r => { r with energy := 6000000, anchorEnergy := 5 }) (granted locked)
  { s with
    ring := { s.ring with exhausted := true }
    inhibit := { causes := { zoneCrit := false, exposure := true }, txinh := true } }

/-- A withdrawal that ends exhaustion, with the level the decision reads after it. -/
theorem witness_ReleaseAtTheWithdrawal :
    (exhaustedByGrant.ring.exhausted = true ∧ (withdrawEntry 140001 exhaustedByGrant).ring.exhausted = false ∧
        exhaustedByGrant.inhibit.txinh =
          (exhaustedByGrant.inhibit.causes.zoneCrit || exhaustedByGrant.inhibit.causes.exposure) ∧
        Notice.exhaustion ∉ exhaustedByGrant.work.notices) ∧
      causesOf (withdrawEntry 140001 exhaustedByGrant) ≠ exhaustedByGrant.inhibit.causes ∧
      (withdrawEntry 140001 exhaustedByGrant).inhibit.txinh = false := by decide +kernel

/-- Open grants of sixteen frames in a row. -/
def sixteen : List OpenGrant := (List.range 16).map fun k => { grant with position := BitVec.ofNat 32 (140000 + k) }

theorem witness_EntryJoinsInOrder :
    locked.openGrants.entries.length < 16 ∧ 16 ≤ sixteen.length ∧
      (∀ x ∈ { grant with position := 140016 } :: sixteen, (x.position - 140000).toNat < 2147483648) ∧
      (∀ x ∈ sixteen, x.position ≠ 140016) ∧ sixteen.Pairwise (fun x y => below x.position y.position = true) ∧
      below 139999 140000 = true := by decide +kernel

/-! ## The decision -/

theorem witness_SecondaryNeedsItsAnchor :
    tableKept (table 0 3) ∧ ([pair 0 100, pair 1 100].map Pair.index).Nodup ∧
      (let s := { locked with carriers := { locked.carriers with entries := table 0 3 } }
       (decideLanes s (lanesOf s [pair 0 100, pair 1 100])).final.any fun l =>
        l.entry.role == .secondary && l.value != .off) = true := by
  unfold tableKept
  decide +kernel

theorem witness_StagesCoverAndCap :
    State.reset.inhibit.txinh = true ∧
      (let s := { locked with
        supply := { locked.supply with state := .critical }, carriers := { locked.carriers with entries := table 0 3 } }
       s.supply.state = .critical ∧ s.policy.workingCopy.shed = true ∧ s.inhibit.txinh = false ∧
        ((decideLanes s (lanesOf s [pair 0 127, pair 1 127])).final.map fun l => (l.entry.role, l.value, l.reason)) =
          [(.anchor, .code 126, .supply), (.secondary, .off, .shed)]) := by decide +kernel

/-- `locked` with the table of an anchor and a secondary. -/
def tabled : State := { locked with carriers := { locked.carriers with entries := table 0 3 } }

/-- Zones that limit: PA FAULTED in duty phase OFF, CASE at a warm cap equal to the hot-off cap; and no zone at all. -/
theorem witness_zoneLimits :
    (let s := { tabled with
      heat := { up.heat with
        dutyCounter := 5
        zones := { up.heat.zones with
          pa := { unsampledZone with state := .faulted }, caseZone := { unsampledZone with state := .level .warm } } }
      policy := { locked.policy with workingCopy := { safeContext 0 with warmCap := zoneAll 100 } } }
     zoneLimits s (entry .anchor 0 0) = [(100, true), (100, false)] ∧
      zoneLimits s (entry .anchor 0 110) = [(110, true), (110, false)] ∧
      (zoneLane s { index := 0, entry := entry .anchor 0 110, requested := .code 127, value := .code 127, reason := .none }) =
        { index := 0, entry := entry .anchor 0 110, requested := .code 127, value := .code 110, reason := .duty }) ∧
      zoneLimits tabled (entry .anchor 0 0) = [] := by decide +kernel

/-- A request within every limit, with the supply LOW and with it CRITICAL without shed. -/
theorem witness_AGrantWithinEveryLimitIsAsRequested :
    let s := { tabled with supply := { tabled.supply with state := .low } }
    let ls := lanesOf s [pair 0 100, pair 1 90]
    (s.inhibit.txinh = false ∧ (ls.map Lane.index).Nodup ∧ windowSum s < budget s ∧ s.supply.state = .low) ∧
      (∀ l ∈ ls, l.entry.enabled = true ∧ l.value ≠ .off ∧ zoneLimits s l.entry = [] ∧ l.entry.ceiling = 127) ∧
      powerSum conductedPower (fun _ => true) ls ≤ s.policy.workingCopy.supplyLowCap * 1000 ∧
      powerSum radiatedPower (fun l => l.entry.role == .secondary) ls * 5000 ≤
        (headroom s - s.policy.workingCopy.reserve) * 1000000 ∧
      powerSum radiatedPower (fun _ => true) ls * slotDuration s.carriers.slotsPerFrame ≤ headroom s * 1000000 ∧
      utilisation s < s.policy.workingCopy.paceThreshold ∧ (decideLanes s ls).final = ls := by decide +kernel

/-- Every case of a reduction: a lane turned OFF, one set to a lower code, one not reached. -/
theorem witness_ReductionTakesTheLeastImportantFirst :
    let s := tabled
    let ls := lanesOf s [pair 0 100, pair 1 100]
    let r (a : Nat) : Reduction :=
      { radiated := false, secondariesOnly := false, allowance := a, floors := false, reason := .supply }
    ((reduce (r 19999) ls).map fun l => (l.value, l.reason)) = [(.code 100, .none), (.code 99, .supply)] ∧
      ((reduce (r 9999) ls).map fun l => (l.value, l.reason)) = [(.code 99, .supply), (.off, .supply)] ∧
      ((reduce (r 20000) ls).map fun l => (l.value, l.reason)) = [(.code 100, .none), (.code 100, .none)] ∧
      (match ls with
        | [a, b] => takenBefore b a && !takenBefore a b
        | _ => false) = true := by decide +kernel

theorem witness_ReductionEndsWithinItsAllowance :
    ((lanesOf locked [pair 0 127, pair 7 127]).map Lane.index).Nodup := by decide +kernel

theorem witness_SupplyCapHolds_and_ExposureLimitsHold :
    let s := { locked with carriers := { locked.carriers with entries := table 0 3 } }
    let ls := lanesOf s [pair 0 127, pair 1 127]
    (ls.map Lane.index).Nodup ∧ (∀ l ∈ ls, entryInRange l.entry = true) ∧
      (ls.map fun l => l.value) = [.code 127, .code 127] ∧ { s.supply with state := .low }.state = .low ∧
      windowExhausted s = false ∧
      windowExhausted (mapRecord 0 (fun r => { r with energy := 6000000 }) s) = true ∧
      s.policy.workingCopy.paceThreshold ≤ utilisation (mapRecord 0 (fun r => { r with energy := 5000000 }) s) ∧
      ((decideLanes s ls).final.filter fun l => isCode l.value).length = 2 := by decide +kernel

/-! ## Transmit reports -/

/-- The report of slot 1 of frame 70,000 hits the open grant. -/
theorem witness_ReportHitCorrectsItsRecord :
    requestReady (granted locked) ∧ (settle (granted locked)).timing.state = .locked ∧
      (1 : Byte).toNat < slotCount (settle (granted locked)).carriers.slotsPerFrame ∧
      (settle (granted locked)).openGrants.entries.find? (fun x => x.position ==
        slotPosition (resolveFrame 4464 (settle (granted locked)).timing.frameCounter)
          (settle (granted locked)).carriers.slotsPerFrame 1) = some grant ∧
      (let r := { recordAt (granted locked) 0 with energy := 5, anchorEnergy := 5, corrected := 255 }
       r.number = grant.intervalNumber ∧ grant.charge ≤ r.energy ∧ grant.anchorCharge ≤ r.anchorEnergy ∧
        r.corrected ≤ 255) ∧
      (recordAt (granted locked) 1).number ≠ grant.intervalNumber ∧ (hitOvershoots grant [pair 0 81] = true) ∧
      hitOvershoots grant [pair 0 80] = false := by
  unfold requestReady
  decide +kernel

theorem witness_LateAndUnmatchedReports :
    requestReady locked ∧ (settle locked).openGrants.entries = [] ∧ atOrBelow 140001 140001 = true ∧
      atOrBelow 140001 140000 = false ∧ legalList [pair 0 0] ∧ atOrBelow 140001 (settle locked).openGrants.expiryMark = false := by
  refine ⟨witness_requestReady.2.2.1, by decide +kernel, by decide, by decide, ⟨by decide, by decide, by decide, ?_⟩,
    by decide +kernel⟩
  intro p hp
  simp only [List.mem_singleton] at hp
  subst hp
  exact Nat.zero_le 127

/-! ## The invariants hold of a part that is up, and a step leads on from it -/

theorem witness_step : step up = .next up ∧ up.pins.rstN = true := ⟨rfl, rfl⟩

theorem witness_StepKeepsTheChangeSet : changesKept up.changes := by
  refine ⟨by decide, fun i c h => ?_⟩
  have : ∀ j : Fin 15, up.changes.places[j] = none := by decide
  rw [this i] at h
  cases h

theorem witness_StepKeepsTheLinkPort : linkKept up.link := by
  unfold linkKept
  exact ⟨trivial, by decide⟩

theorem witness_StepKeepsTheTimingRecord : startUpKept up ∧ timingKept up.timing ∧ timingKept locked.timing := by
  unfold startUpKept timingKept
  decide +kernel

theorem witness_StepKeepsTheConfiguration : configKept up ∧ switchKept up ∧ dutyKept up := by
  refine ⟨⟨?_, trivial, by decide +kernel, by decide +kernel⟩, ?_, ?_⟩
  · unfold tableKept
    decide +kernel
  · unfold switchKept
    decide
  · unfold dutyKept
    decide

theorem witness_StepKeepsTheAccount : ringKept up.ring ∧ grantsKept (granted locked) := by
  unfold ringKept grantsKept
  decide +kernel

theorem witness_StepKeepsTxinhAndExposure : inhibitKept up ∧ exposureKept up := by
  unfold inhibitKept exposureKept
  decide +kernel

end Sys2Proof.Tests
end

