-- ==== Sys2Proof/Proofs/Rows.lean ====
section
/-!
PROOFS. What a row can do at all, said once: while RST_N is low only POWER_ON and RST_N_ASSERTED act, and while it is
high every row is one of the operations `Taken` lists. Then what the requests' owners and the Link Port's operations
leave alone, owner by owner.
-/

namespace Sys2Proof.Machine

/-! ## Everything a row can do while RST_N is high -/

theorem advanceTo_zero (s : State) : advanceTo 0 s = s := by simp [advanceTo, State.setNow]

/-- Everything a row other than POWER_ON and RST_N_ASSERTED can do while RST_N is high, the request rows as one and the
rows of the Link Port that take no frame as one. -/
inductive Taken (s : State) : State → Prop where
  | startUp (t : Moment) (lv : Levels) : Taken s (startUpCompletes t lv s)
  | pacer (lv : Levels) (late : List FrameWork) : Taken s (pacerExpires lv late s)
  | strobe (t : Moment) (lv : Levels) (late : List FrameWork) : Taken s (strobeArrives t lv late s)
  | strobeLoss (lv : Levels) (late : List FrameWork) : Taken s (strobeLost lv late s)
  | alignTimeout : Taken s (alignTimeoutIfDue s)
  | coastLimit : Taken s (coastLimitIfDue s)
  | sample (ts : PerZone Raw) : Taken s (sampleIfDue ts s)
  | intervalClose : Taken s (closeIfDue s)
  | stagingApply (first : List FrameWork) : Taken s (applyIfDue first s)
  | switchApply (first : List FrameWork) : Taken s (switchIfDue first s)
  | exitHoldClear : Taken s (clearHoldIfDue s)
  | policyFault (c : FaultClass) (first : List FrameWork) : Taken s (faultIfRaised c first s)
  | inhibitNotice (n : Notice) : Taken s (noticeIfSent n s)
  | linkRow (t : Moment) (l : LinkPort) (h : l.decoder = s.link.decoder) : Taken s ((advanceTo t s).setLink l)
  | decode (t : Moment) : Taken s (decodeOldest t s)
  | request (t : Moment) (tag : Byte) (req : Request) : Taken s (arriveRequest tag req (advanceTo t s))

/-- A request row that carries no moment leaves the clock as it stands. -/
theorem Taken.timeless (s : State) (tag : Byte) (req : Request) : Taken s (arriveRequest tag req s) := by
  have h := Taken.request (s := s) 0 tag req
  rwa [advanceTo_zero] at h

/-! ### The decoder's state in the Link Port's operations -/

theorem sendDecoderReply_decoder (l : LinkPort) : (sendDecoderReply l).decoder = l.decoder := by
  unfold sendDecoderReply; split <;> rfl

theorem arbitrate_decoder (l : LinkPort) : (arbitrate l).decoder = l.decoder := by
  unfold arbitrate
  split
  · split
    · rfl
    · exact sendDecoderReply_decoder l
  · rfl

theorem addReply_decoder (kind tag : Byte) (b : Bool) (r : Reply) (l : LinkPort) :
    (addReply kind tag b r l).decoder = l.decoder := arbitrate_decoder _

theorem addPortReply_decoder (kind tag : Byte) (r : Reply) (l : LinkPort) :
    (addPortReply kind tag r l).decoder = l.decoder := by
  unfold addPortReply
  split
  · exact arbitrate_decoder _
  · rfl

theorem enqueueFrame_decoder (f : RxFrame) (l : LinkPort) : (enqueueFrame f l).decoder = l.decoder := by
  unfold enqueueFrame
  split
  · rfl
  · exact addPortReply_decoder _ _ _ l

theorem judgeFrame_decoder (f : RxFrame) (check : Word16) (l : LinkPort) :
    (judgeFrame f check l).decoder = l.decoder := by
  unfold judgeFrame
  split
  · exact enqueueFrame_decoder f l
  · exact addPortReply_decoder _ _ _ l

theorem collect_decoder (t : Moment) (bytes : List Byte) (l : LinkPort) :
    (collect t bytes l).decoder = l.decoder := by
  unfold collect
  split
  · split
    · rfl
    · split
      · rfl
      · exact judgeFrame_decoder _ _ _
  · rfl

theorem takeByte_decoder (t : Moment) (l : LinkPort) (b : RxByte) : (takeByte t l b).decoder = l.decoder := by
  unfold takeByte
  split
  · split <;> rfl
  · split
    · exact collect_decoder _ _ l
    · rfl

theorem takeBytes_decoder (t : Moment) (bs : List RxByte) (l : LinkPort) :
    (bs.foldl (takeByte t) l).decoder = l.decoder := by
  induction bs generalizing l with
  | nil => rfl
  | cons b bs ih => rw [List.foldl_cons, ih, takeByte_decoder]

theorem finishSending_decoder (l : LinkPort) : (finishSending l).decoder = l.decoder := by
  unfold finishSending
  split
  · rfl
  · exact arbitrate_decoder _

/-! ### The rows -/

theorem gapExpires_taken (s : State) : Taken s (gapExpires s) := by
  unfold gapExpires
  split
  · have h := Taken.linkRow (s := s) 0 s.link rfl
    rwa [advanceTo_zero] at h
  · exact Taken.linkRow _ _ rfl

theorem transmitDone_taken (s : State) : Taken s (transmitDone s) := by
  have h := Taken.linkRow (s := s) 0 (finishSending s.link) (finishSending_decoder _)
  rwa [advanceTo_zero] at h

/-- What the outcome of a row is made of: the power rows act always, every other row only while RST_N is high. -/
inductive RowOutcome (s : State) : State → Prop where
  | powerOn (t : Moment) : RowOutcome s (poweredOn (max s.now t) s.image s.pins.levels s.pending)
  | rstNAsserted (t : Moment) : RowOutcome s (enterReset t s)
  | low (h : s.pins.rstN = false) : RowOutcome s s
  | high {u : State} (h : s.pins.rstN = true) (k : Taken s u) : RowOutcome s u

theorem whileUp_outcome {f : State → State} {s t : State} (h : whileUp f s = .next t) (k : Taken s (f s)) :
    RowOutcome s t := by
  cases hp : s.pins.rstN with
  | false =>
    rw [whileUp_low hp] at h
    cases h; exact .low hp
  | true =>
    rw [whileUp_high hp] at h
    cases h; exact .high hp k

/-- Every row's outcome is one of those listed (R178, R185). -/
theorem exec_outcome {c : Instr} {s t : State} (h : exec c s = .next t) : RowOutcome s t := by
  cases c with
  | powerOn m => cases h; exact .powerOn m
  | rstNAsserted m => cases h; exact .rstNAsserted m
  | startUpLoadComplete m lv => exact whileUp_outcome h (.startUp m lv)
  | pacerExpiry lv late => exact whileUp_outcome h (.pacer lv late)
  | frameStrobe m lv late => exact whileUp_outcome h (.strobe m lv late)
  | strobeLossTimeout lv late => exact whileUp_outcome h (.strobeLoss lv late)
  | alignTimeout => exact whileUp_outcome h .alignTimeout
  | coastLimit => exact whileUp_outcome h .coastLimit
  | sample ts => exact whileUp_outcome h (.sample ts)
  | intervalClose => exact whileUp_outcome h .intervalClose
  | stagingApply first => exact whileUp_outcome h (.stagingApply first)
  | switchApply first => exact whileUp_outcome h (.switchApply first)
  | exitHoldClear => exact whileUp_outcome h .exitHoldClear
  | policyFaultEvent c first => exact whileUp_outcome h (.policyFault c first)
  | inhibitNotice n => exact whileUp_outcome h (.inhibitNotice n)
  | frameReceived m bytes => exact whileUp_outcome h (.linkRow m _ (takeBytes_decoder _ _ _))
  | byteOnRxd m b => exact whileUp_outcome h (.linkRow m _ (takeByte_decoder _ _ _))
  | byteGapTimeout => exact whileUp_outcome h (gapExpires_taken s)
  | transmitComplete => exact whileUp_outcome h (transmitDone_taken s)
  | requestDecode m => exact whileUp_outcome h (.decode m)
  | align m tag f =>
    exact whileUp_outcome (f := fun s => arriveRequest tag (.align f) (advanceTo m s)) h (.request m tag (.align f))
  | resetPart m tag =>
    exact whileUp_outcome (f := fun s => arriveRequest tag .resetPart (advanceTo m s)) h (.request m tag .resetPart)
  | _ => exact whileUp_outcome h (.timeless s _ _)

/-- A step idles, or runs the row at the front of the queue. -/
theorem step_outcome {s t : State} (h : step s = .next t) :
    t = s ∨ ∃ rest, RowOutcome { s with pending := rest } t := by
  unfold step at h
  split at h
  · cases h; exact .inl rfl
  · exact .inr ⟨_, exec_outcome h⟩

/-! ## What the owners of requests leave alone -/

theorem takeGrantReq_frame (f : Word16) (slot : Byte) (ps : List RawPair) (s : State) :
    onlyChanges [.engine, .openGrants, .ring, .inhibit, .changes, .work] s (takeGrantReq f slot ps s).1 := by
  unfold takeGrantReq
  split
  · exact frame_refl _ _
  · split
    · exact frame_refl _ _
    · exact frame_then (withdrawEntry_frame _ s) (grantSlot_frame _ _ _ _ _)

theorem takeTxReport_frame (f : Word16) (slot : Byte) (ps : List RawPair) (s : State) :
    onlyChanges [.openGrants, .ring, .changes, .work] s (takeTxReport f slot ps s).1 := by
  unfold takeTxReport
  split
  · exact frame_refl _ _
  · exact matchReport_frame _ _ s

theorem takeStageOpen_frame (s : State) : onlyChanges [.carriers] s (takeStageOpen s).1 := by
  unfold takeStageOpen
  split
  · split
    · exact frame_refl _ _
    · exact setStaging_frame _ s
  · exact frame_refl _ _
  · exact frame_refl _ _

theorem takeStageCarrier_frame (i : Byte) (e : RawCarrier) (s : State) :
    onlyChanges [.carriers] s (takeStageCarrier i e s).1 := by
  unfold takeStageCarrier
  split
  · exact frame_refl _ _
  · exact frame_refl _ _
  · split
    · exact frame_refl _ _
    · exact frame_refl _ _
    · exact setStaging_frame _ s

theorem takeStageParam_frame (f z : Byte) (v : Word32) (s : State) :
    onlyChanges [.carriers] s (takeStageParam f z v s).1 := by
  unfold takeStageParam
  split
  · exact frame_refl _ _
  · exact frame_refl _ _
  · split
    · exact frame_refl _ _
    · exact setStaging_frame _ s

theorem takeStageCommit_frame (s : State) : onlyChanges [.carriers] s (takeStageCommit s).1 := by
  unfold takeStageCommit
  split
  · exact frame_refl _ _
  · exact frame_refl _ _
  · split
    · exact frame_refl _ _
    · exact setStaging_frame _ s

theorem takeStageDrop_frame (s : State) : onlyChanges [.carriers, .changes] s (takeStageDrop s).1 := by
  unfold takeStageDrop
  split
  · exact frame_refl _ _
  · exact frame_wider (setStaging_frame _ s) (by simp)
  · exact frame_then (setStaging_frame _ s) (raiseChange_frame _ _)

theorem takeExchange_frame (k : Byte) (s : State) : onlyChanges [.policy] s (takeExchange k s).1 := by
  unfold takeExchange
  split
  · exact requestSwitch_frame _ s
  · exact frame_refl _ _

theorem takeRingRelease_frame (half : Byte) (s : State) : onlyChanges [.ring] s (takeRingRelease half s).1 := by
  unfold takeRingRelease
  split
  · simp [onlyChanges_iff]
  · split
    · simp [onlyChanges_iff]
    · exact frame_refl _ _

theorem takeChangesRead_frame (s : State) : onlyChanges [.changes] s (takeChangesRead s).1 := by
  unfold takeChangesRead
  split
  · simp [onlyChanges_iff]
  · exact frame_refl _ _

theorem takeChangesMask_frame (mask : Word16) (mode : Byte) (s : State) :
    onlyChanges [.changes] s (takeChangesMask mask mode s).1 := by
  unfold takeChangesMask
  split
  · exact frame_refl _ _
  · simp [onlyChanges_iff]

theorem armTrace_frame (f : Word16) (slot : Byte) (s : State) : onlyChanges [.engine] s (armTrace f slot s).1 := by
  unfold armTrace
  split
  · exact frame_refl _ _
  · split
    · exact frame_refl _ _
    · split
      · exact frame_refl _ _
      · simp [onlyChanges_iff]

theorem takeTraceSet_frame (f : Word16) (slot action : Byte) (s : State) :
    onlyChanges [.engine] s (takeTraceSet f slot action s).1 := by
  unfold takeTraceSet
  split
  · exact armTrace_frame f slot s
  · split
    · simp [onlyChanges_iff, disarmTrace]
    · exact frame_refl _ _

/-- The requests that read change nothing (R22, R50, R98, R144, R150, R176). -/
theorem reads_change_nothing (s : State) :
    (∀ i, (takeReadCarrier i s).1 = s) ∧ (∀ i, (takeReadParam i s).1 = s) ∧ (∀ z, (takeReadZone z s).1 = s) ∧
      (takeReadState s).1 = s ∧ (∀ a n, (takeRingRead a n s).1 = s) ∧ (takeTraceRead s).1 = s := by
  refine ⟨fun i => ?_, fun i => ?_, fun z => ?_, rfl, fun a n => ?_, rfl⟩
  · unfold takeReadCarrier; split <;> rfl
  · unfold takeReadParam
    split
    · rfl
    · split <;> rfl
  · unfold takeReadZone; split <;> rfl
  · unfold takeRingRead
    split
    · rfl
    · split <;> rfl

/-- The blocks the owner of a request other than ALIGN and RESET_PART can change. -/
abbrev ownerBlocks : List Block :=
  [.carriers, .engine, .openGrants, .ring, .policy, .inhibit, .changes, .work]

/-- Of the requests, ALIGN and RESET_PART alone reach the Frame Timing Unit, and RESET_PART alone the Link Port. -/
theorem ownRequest_quiet {req : Request} (ha : ∀ f, req ≠ .align f) (hr : req ≠ .resetPart) (s : State) :
    onlyChanges ownerBlocks s (ownRequest req s).1 := by
  obtain ⟨carrier, param, zone, summary, ring, trace⟩ := reads_change_nothing s
  have unchanged : ∀ {t : State}, t = s → onlyChanges ownerBlocks s t := fun h => h ▸ frame_refl _ _
  cases req with
  | align f => exact absurd rfl (ha f)
  | resetPart => exact absurd rfl hr
  | grantReq f slot ps => exact frame_wider (takeGrantReq_frame f slot ps s) (by simp)
  | txReport f slot ps => exact frame_wider (takeTxReport_frame f slot ps s) (by simp)
  | stageOpen => exact frame_wider (takeStageOpen_frame s) (by simp)
  | stageCarrier i e => exact frame_wider (takeStageCarrier_frame i e s) (by simp)
  | stageParam f z v => exact frame_wider (takeStageParam_frame f z v s) (by simp)
  | stageCommit => exact frame_wider (takeStageCommit_frame s) (by simp)
  | stageDrop => exact frame_wider (takeStageDrop_frame s) (by simp)
  | readCarrier i => exact unchanged (carrier i)
  | readParam i => exact unchanged (param i)
  | readZone z => exact unchanged (zone z)
  | readState => exact unchanged summary
  | exchange k => exact frame_wider (takeExchange_frame k s) (by simp)
  | reload => exact frame_wider (requestSwitch_frame _ s) (by simp)
  | ringRead start count => exact unchanged (ring start count)
  | ringRelease half => exact frame_wider (takeRingRelease_frame half s) (by simp)
  | changesRead => exact frame_wider (takeChangesRead_frame s) (by simp)
  | changesAck sources => simp [onlyChanges_iff, ownRequest, takeChangesAck]
  | changesMask mask mode => exact frame_wider (takeChangesMask_frame mask mode s) (by simp)
  | traceSet f slot action => exact frame_wider (takeTraceSet_frame f slot action s) (by simp)
  | traceRead => exact unchanged trace

/-- ALIGN reaches the unit's record, what a timing break reaches, and the Change Reporter (R5, R14). -/
theorem takeAlign_frame (f : Word16) (s : State) :
    onlyChanges [.timing, .openGrants, .ring, .engine, .changes] s (takeAlign f s).1 := by
  unfold takeAlign
  refine frame_then (bs := [.timing, .openGrants, .ring, .engine, .changes]) ?_ (raiseChange_frame _ _)
  split
  · exact frame_then (setTiming_frame _ s) (timingBreak_frame _)
  · exact frame_wider (setTiming_frame _ s) (by simp)

theorem ownRequest_decoder (req : Request) (s : State) : (ownRequest req s).1.link.decoder = s.link.decoder := by
  by_cases ha : ∃ f, req = .align f
  · obtain ⟨f, rfl⟩ := ha
    exact congrArg LinkPort.decoder (frame_link (takeAlign_frame f s) (by decide))
  · by_cases hr : req = .resetPart
    · subst hr
      have reset : (softReset s).link.decoder = (massClose s).link.decoder := rfl
      exact reset.trans (by rw [frame_link (massClose_frame s) (by decide)])
    · rw [frame_link (ownRequest_quiet (fun f h => ha ⟨f, h⟩) hr s) (by decide)]

theorem answerRequest_decoder (tag : Byte) (req : Request) (s : State) :
    (answerRequest tag req s).link.decoder = s.link.decoder := by
  unfold answerRequest
  split
  · exact (addReply_decoder _ _ _ _ _).trans (ownRequest_decoder req s)
  · exact addReply_decoder _ _ _ _ _

theorem answerFrame_decoder (f : RxFrame) (s : State) : (answerFrame f s).link.decoder = s.link.decoder := by
  unfold answerFrame
  split
  · split
    · exact answerRequest_decoder _ _ s
    · exact addReply_decoder _ _ _ _ _
  · exact addReply_decoder _ _ _ _ _

theorem settle_decoder (s : State) : (settle s).link.decoder = s.link.decoder := by
  rw [frame_link (settle_frame s) (by decide)]

theorem decodeOldest_decoder (t : Moment) (s : State) : (decodeOldest t s).link.decoder = s.link.decoder := by
  simp only [decodeOldest]
  split
  · rfl
  · split
    · rw [answerFrame_decoder, setLink_link, settle_decoder]; rfl
    · rfl

theorem arriveRequest_decoder (tag : Byte) (req : Request) (s : State) :
    (arriveRequest tag req s).link.decoder = s.link.decoder := by
  unfold arriveRequest
  split
  · exact (answerRequest_decoder tag req _).trans (settle_decoder s)
  · exact enqueueFrame_decoder _ _

end Sys2Proof.Machine
end

