-- ==== Sys2Proof/Proofs/TimingRecord.lean ====
section
/-!
PROOFS. The timing record of R1 as an invariant. `timingKept` is shown of each record the Frame Timing Unit can be
given, one lemma per record (R4 to R12); while the start-up load is in progress every row but the power rows and
START_UP_LOAD_COMPLETE touches the Link Port and the clock alone; and a row keeps both because `RowOutcome` and `Taken`
list everything it can do.
-/

namespace Sys2Proof.Machine

/-! ## The record after the work of earlier frame events -/

/-- The record once its two limits are taken: ALIGNING ends at the fifth pacer frame event and COASTING at the
hundredth, both in FREE (R6, R12). -/
def limitedTiming (u : Timing) : Timing :=
  if u.state = .aligning ∧ 5 ≤ u.alignCount then { u with state := .free, alignCount := 0 }
  else if u.state = .coasting ∧ 100 ≤ u.coastCount then { u with state := .free, coastCount := 0 }
  else u

theorem alignTimeoutDue_iff (s : State) :
    alignTimeoutDue s = true ↔ s.timing.state = .aligning ∧ 5 ≤ s.timing.alignCount := by
  have limit : alignLimit = 5 := rfl
  simp [alignTimeoutDue, limit]

theorem coastLimitDue_iff (s : State) :
    coastLimitDue s = true ↔ s.timing.state = .coasting ∧ 100 ≤ s.timing.coastCount := by
  have limit : coastLimit = 100 := rfl
  simp [coastLimitDue, limit]

theorem alignTimeoutIfDue_timing (s : State) :
    (alignTimeoutIfDue s).timing =
      if s.timing.state = .aligning ∧ 5 ≤ s.timing.alignCount then { s.timing with state := .free, alignCount := 0 }
      else s.timing := by
  simp only [alignTimeoutIfDue, alignTimeoutDue_iff]
  split
  · exact frame_timing (raiseChange_frame _ _) (by decide)
  · rfl

theorem coastLimitIfDue_timing (s : State) :
    (coastLimitIfDue s).timing =
      if s.timing.state = .coasting ∧ 100 ≤ s.timing.coastCount then { s.timing with state := .free, coastCount := 0 }
      else s.timing := by
  simp only [coastLimitIfDue, coastLimitDue_iff]
  split
  · rw [frame_timing (raiseFault_frame _ _) (by decide), frame_timing (raiseChange_frame _ _) (by decide),
      frame_timing (timingBreak_frame _) (by decide), setTiming_timing]
  · rfl

/-- Of the work of earlier frame events the two limits alone touch the record (R6, R12). -/
theorem settle_timing (s : State) : (settle s).timing = limitedTiming s.timing := by
  rw [settle_eq, frame_timing (drainNotices_frame _) (by decide), frame_timing (drainAllFaults_frame _) (by decide),
    coastLimitIfDue_timing, alignTimeoutIfDue_timing, frame_timing (switchIfDue_frame _ _) (by decide),
    frame_timing (applyIfDue_frame _ _) (by decide), frame_timing (clearHoldIfDue_frame _) (by decide),
    frame_timing (sampleIfDue_frame _ _) (by decide), frame_timing (closeIfDue_frame _) (by decide),
    frame_timing (takeLateWorks_frame _ _) (by decide), limitedTiming]
  by_cases h : s.timing.state = .aligning ∧ 5 ≤ s.timing.alignCount
  · rw [if_pos h, if_pos h, if_neg (by simp)]
  · rw [if_neg h, if_neg h]

theorem limitedTiming_pacer (u : Timing) : (limitedTiming u).pacer = u.pacer := by
  unfold limitedTiming
  split
  · rfl
  · split <;> rfl

theorem limitedTiming_strobeLoss (u : Timing) : (limitedTiming u).strobeLoss = u.strobeLoss := by
  unfold limitedTiming
  split
  · rfl
  · split <;> rfl

/-- Once the limits are taken, a count that can still rise is below its limit (R6, R12). -/
theorem limitedTiming_below (u : Timing) :
    ((limitedTiming u).state = .aligning → (limitedTiming u).alignCount < 5) ∧
      ((limitedTiming u).state = .coasting → (limitedTiming u).coastCount < 100) := by
  unfold limitedTiming
  split
  · exact ⟨nofun, nofun⟩
  · next hAlign =>
    split
    · exact ⟨nofun, nofun⟩
    · next hCoast =>
      exact ⟨fun h => Nat.lt_of_not_le fun k => hAlign ⟨h, k⟩, fun h => Nat.lt_of_not_le fun k => hCoast ⟨h, k⟩⟩

/-! ## Each record the unit can be given is legal (R1) -/

/-- The record of a unit that is not LOCKED, its timer and last frame start absent. -/
theorem timingKept_unlocked {u : Timing} (hs : u.state ≠ .locked) (hl : u.strobeLoss = none)
    (hf : u.lastFrameStart = none) (hp : u.state = .coasting → u.lastPacerEvent.isSome = true)
    (ha : u.state ≠ .aligning → u.alignCount = 0) (hc : u.state ≠ .coasting → u.coastCount = 0)
    (ha5 : u.alignCount ≤ 5) (hc100 : u.coastCount ≤ 100) : timingKept u :=
  ⟨by simp [hs, hl], by simp [hl, hf], fun h => absurd h hs, hp, ha, hc, ha5, hc100⟩

/-- Outside LOCKED a legal record has neither a running strobe-loss timer nor a last frame start (R8, R9). -/
theorem timingKept.unlocked {u : Timing} (h : timingKept u) (hs : u.state ≠ .locked) :
    u.strobeLoss = none ∧ u.lastFrameStart = none := by
  obtain ⟨hLocked, hTimer, -⟩ := h
  have hl : u.strobeLoss = none := by
    rw [← Option.not_isSome_iff_eq_none]
    exact fun k => hs (hLocked.2 k)
  rw [hl] at hTimer
  exact ⟨hl, Option.map_eq_none_iff.1 hTimer.symm⟩

theorem limitedTiming_kept {u : Timing} (h : timingKept u) : timingKept (limitedTiming u) := by
  have ⟨_, _, _, _, hAlign, hCoast, _, _⟩ := h
  unfold limitedTiming
  split
  · next hs =>
    obtain ⟨hl, hf⟩ := h.unlocked (by simp [hs])
    exact timingKept_unlocked nofun hl hf nofun (fun _ => rfl) (fun _ => hCoast (by simp [hs])) (Nat.zero_le _)
      (by simp [hCoast, hs])
  · split
    · next hs =>
      obtain ⟨hl, hf⟩ := h.unlocked (by simp [hs])
      exact timingKept_unlocked nofun hl hf nofun (fun _ => hAlign (by simp [hs])) (fun _ => rfl)
        (by simp [hAlign, hs]) (Nat.zero_le _)
    · exact h

/-- A pacer expiry (R3, R4): the pacer runs, so the unit is not LOCKED, and no count has reached its limit. -/
theorem pacerTiming_kept {u : Timing} {e f : Moment} (h : timingKept u) (hp : u.pacer = some f)
    (ha : u.state = .aligning → u.alignCount < 5) (hc : u.state = .coasting → u.coastCount < 100) :
    timingKept (pacerTiming e u) := by
  have ⟨_, _, hStill, _, hAlign, hCoast, hAlign5, hCoast100⟩ := h
  have hs : u.state ≠ .locked := fun k => by simp [hStill k] at hp
  obtain ⟨hl, hf⟩ := h.unlocked hs
  refine timingKept_unlocked hs hl hf (fun _ => rfl) (fun k => ?_) (fun k => ?_) ?_ ?_
  · exact (if_neg k).trans (hAlign k)
  · exact (if_neg k).trans (hCoast k)
  · show (if u.state = .aligning then u.alignCount + 1 else u.alignCount) ≤ 5
    split
    · next k => exact ha k
    · exact hAlign5
  · show (if u.state = .coasting then u.coastCount + 1 else u.coastCount) ≤ 100
    split
    · next k => exact hc k
    · exact hCoast100

/-- A strobe that locks the unit, whatever the record before it (R7, R11). -/
theorem lockTiming_kept (m : Moment) (u : Timing) (c : Word32) :
    timingKept { lockTiming m u with frameCounter := c } := by simp [timingKept, lockTiming]

/-- A strobe counted in LOCKED (R8). -/
theorem countedTiming_kept {u : Timing} (h : timingKept u) (hs : u.state = .locked) (m : Moment) (c : Word32) :
    timingKept { u with
      frameCounter := c, lastFrameStart := some m, strobeLoss := some (m + strobeLossTime) } := by
  obtain ⟨-, -, hStill, hPacer, hAlign, hCoast, hAlign5, hCoast100⟩ := h
  exact ⟨by simp [hs], rfl, hStill, hPacer, hAlign, hCoast, hAlign5, hCoast100⟩

/-- Strobe loss: the timer ran, so the unit was LOCKED and no alignment was counted (R9). -/
theorem coastTiming_kept {u : Timing} {e f : Moment} (h : timingKept u) (hl : u.strobeLoss = some f) :
    timingKept (coastTiming e u) := by
  obtain ⟨hLocked, -, -, -, hAlign, -, hAlign5, -⟩ := h
  have hs : u.state = .locked := hLocked.2 (by simp [hl])
  exact timingKept_unlocked nofun rfl rfl (fun _ => rfl) (fun _ => hAlign (by simp [hs])) (fun k => absurd rfl k)
    hAlign5 (by show 1 ≤ 100; decide)

/-- ALIGN, from every timing state (R5). -/
theorem alignTiming_kept (m : Moment) (n : Word16) (u : Timing) : timingKept (alignTiming m n u) :=
  timingKept_unlocked nofun rfl rfl nofun (fun k => absurd rfl k) (fun _ => rfl) (Nat.zero_le _) (Nat.zero_le _)

/-- The soft-reset values (R2). -/
theorem softResetTiming_kept (m : Moment) (u : Timing) : timingKept (softResetTiming m u) :=
  timingKept_unlocked nofun rfl rfl nofun (fun _ => rfl) (fun _ => rfl) (Nat.zero_le _) (Nat.zero_le _)

theorem resetTiming_kept : timingKept State.reset.timing :=
  timingKept_unlocked nofun rfl rfl nofun (fun _ => rfl) (fun _ => rfl) (Nat.zero_le _) (Nat.zero_le _)

/-- The pacer started in FREE, as the completion of the start-up load does (R2, R4). -/
theorem startedPacer_kept {u : Timing} (h : timingKept u) (hs : u.state = .free) (m : Moment) :
    timingKept { u with pacer := some m } := by
  obtain ⟨hLocked, hTimer, -, hPacer, hAlign, hCoast, hAlign5, hCoast100⟩ := h
  exact ⟨hLocked, hTimer, fun k => (nomatch hs.symm.trans k), hPacer, hAlign, hCoast, hAlign5, hCoast100⟩

/-! ## What the frame-event rows do to the record -/

theorem settle_timingKept {s : State} (h : timingKept s.timing) : timingKept (settle s).timing := by
  rw [settle_timing]; exact limitedTiming_kept h

theorem frameEvent_timing (lv : Levels) (late : List FrameWork) (s : State) :
    (frameEvent lv late s).timing = s.timing := frame_timing (frameEvent_frame lv late s) (by decide)

theorem raiseChange_timing (c : Change) (s : State) : (raiseChange c s).timing = s.timing :=
  frame_timing (raiseChange_frame c s) (by decide)

theorem pacerExpires_timing {s : State} {e : Moment} (hp : s.timing.pacer = some e) (lv : Levels)
    (late : List FrameWork) : (pacerExpires lv late s).timing = pacerTiming e (limitedTiming s.timing) := by
  simp only [pacerExpires, hp]
  rw [frameEvent_timing, setTiming_timing, frame_timing (advanceTo_frame e _) (by decide), settle_timing]

theorem strobeLost_timing {s : State} {e : Moment} (hl : s.timing.strobeLoss = some e) (lv : Levels)
    (late : List FrameWork) : (strobeLost lv late s).timing = coastTiming e (limitedTiming s.timing) := by
  simp only [strobeLost, hl]
  rw [raiseChange_timing, frameEvent_timing, setTiming_timing, frame_timing (advanceTo_frame e _) (by decide),
    settle_timing]

theorem pacerExpires_timingKept {s : State} (h : timingKept s.timing) (lv : Levels) (late : List FrameWork) :
    timingKept (pacerExpires lv late s).timing := by
  cases hp : s.timing.pacer with
  | none => simpa only [pacerExpires, hp] using h
  | some e =>
    rw [pacerExpires_timing hp]
    obtain ⟨ha, hc⟩ := limitedTiming_below s.timing
    exact pacerTiming_kept (limitedTiming_kept h) ((limitedTiming_pacer _).trans hp) ha hc

theorem strobeLost_timingKept {s : State} (h : timingKept s.timing) (lv : Levels) (late : List FrameWork) :
    timingKept (strobeLost lv late s).timing := by
  cases hl : s.timing.strobeLoss with
  | none => simpa only [strobeLost, hl] using h
  | some e =>
    rw [strobeLost_timing hl]
    exact coastTiming_kept (limitedTiming_kept h) ((limitedTiming_strobeLoss _).trans hl)

theorem strobeTaken_timingKept {s : State} (h : timingKept s.timing) (lv : Levels) (late : List FrameWork) :
    timingKept (strobeTaken lv late s).timing := by
  unfold strobeTaken
  split
  · exact h
  · simp only [strobeAligns, raiseChange_timing, frameEvent_timing, setTiming_timing]
    exact lockTiming_kept _ _ _
  · next hs =>
    unfold strobeCounts
    split
    · exact h
    · rw [frameEvent_timing, setTiming_timing]
      exact countedTiming_kept h hs _ _
  · unfold strobeRelocks
    split
    · rw [raiseChange_timing, setTiming_timing]
      exact lockTiming_kept _ _ _
    · simp only [raiseChange_timing, frameEvent_timing, setTiming_timing]
      exact lockTiming_kept _ _ _

theorem strobeArrives_timingKept {s : State} (h : timingKept s.timing) (t : Moment) (lv : Levels)
    (late : List FrameWork) : timingKept (strobeArrives t lv late s).timing := by
  have settled : timingKept (advanceTo t (settle s)).timing := by
    rw [frame_timing (advanceTo_frame t _) (by decide)]; exact settle_timingKept h
  exact strobeTaken_timingKept settled lv late

theorem limitRows_timingKept {s : State} (h : timingKept s.timing) :
    timingKept (alignTimeoutIfDue s).timing ∧ timingKept (coastLimitIfDue s).timing := by
  have kept := limitedTiming_kept h
  unfold limitedTiming at kept
  constructor
  · rw [alignTimeoutIfDue_timing]
    split
    · next hd => rwa [if_pos hd] at kept
    · exact h
  · rw [coastLimitIfDue_timing]
    split
    · next hd => rwa [if_neg (by simp [hd]), if_pos hd] at kept
    · exact h

/-! ## What requests do to the record -/

theorem takeAlign_timing (f : Word16) (s : State) : (takeAlign f s).1.timing = alignTiming s.now f s.timing := by
  simp only [takeAlign, raiseChange_timing]
  split
  · rw [frame_timing (timingBreak_frame _) (by decide), setTiming_timing]
  · rfl

theorem softReset_timing (s : State) : (softReset s).timing = softResetTiming s.now s.timing := by
  have reset : (softReset s).timing = softResetTiming (massClose s).now (massClose s).timing := rfl
  rw [reset, frame_now (massClose_frame s) (by decide), frame_timing (massClose_frame s) (by decide)]

theorem ownRequest_timingKept (req : Request) {s : State} (h : timingKept s.timing) :
    timingKept (ownRequest req s).1.timing := by
  by_cases ha : ∃ f, req = .align f
  · obtain ⟨f, rfl⟩ := ha
    show timingKept (takeAlign f s).1.timing
    rw [takeAlign_timing]; exact alignTiming_kept _ _ _
  · by_cases hr : req = .resetPart
    · subst hr
      show timingKept (softReset s).timing
      rw [softReset_timing]; exact softResetTiming_kept _ _
    · rw [frame_timing (ownRequest_quiet (fun f h => ha ⟨f, h⟩) hr s) (by decide)]; exact h

theorem answerRequest_timingKept (tag : Byte) (req : Request) {s : State} (h : timingKept s.timing) :
    timingKept (answerRequest tag req s).timing := by
  unfold answerRequest
  split
  · exact ownRequest_timingKept req h
  · exact h

theorem answerFrame_timingKept (f : RxFrame) {s : State} (h : timingKept s.timing) :
    timingKept (answerFrame f s).timing := by
  unfold answerFrame
  split
  · split
    · exact answerRequest_timingKept _ _ h
    · exact h
  · exact h

theorem decodeOldest_timingKept (t : Moment) {s : State} (h : timingKept s.timing) :
    timingKept (decodeOldest t s).timing := by
  have settled : timingKept (settle (advanceTo t s)).timing := settle_timingKept h
  simp only [decodeOldest]
  split
  · exact h
  · split
    · refine answerFrame_timingKept _ ?_
      rw [setLink_timing]; exact settled
    · exact h

theorem arriveRequest_timingKept (tag : Byte) (req : Request) {s : State} (h : timingKept s.timing) :
    timingKept (arriveRequest tag req s).timing := by
  unfold arriveRequest
  split
  · exact answerRequest_timingKept tag req (settle_timingKept h)
  · exact h

/-! ## The start-up load in progress -/

/-- Nothing is outstanding, the unit is in FREE, and no timer of it runs (R164, R185). -/
def startUpStill (s : State) : Prop :=
  settled s = true ∧ s.timing.state = .free ∧ s.timing.pacer = none ∧ s.timing.strobeLoss = none

theorem startUpKept_iff (s : State) :
    startUpKept s ↔ (s.pins.rstN = true → s.link.decoder = .held → startUpStill s) := Iff.rfl

theorem startUpStill_frame {s t : State} (h : onlyChanges [.link, .clock] s t) (k : startUpStill s) :
    startUpStill t := by
  have timing := frame_timing h (by decide)
  have ring := frame_ring h (by decide)
  have work := frame_work h (by decide)
  simpa only [startUpStill, settled, closeDue, alignTimeoutDue, coastLimitDue, timing, ring, work] using k

theorem takenAtOnce_held {l : LinkPort} (h : l.decoder = .held) : takenAtOnce l = false := by
  simp [takenAtOnce, decoderFree, h]

/-- With nothing outstanding every work row finds nothing due (assumption 1). -/
theorem workRows_of_settled {s : State} (h : settled s = true) :
    (∀ ts, sampleIfDue ts s = s) ∧ closeIfDue s = s ∧ (∀ first, applyIfDue first s = s) ∧
      (∀ first, switchIfDue first s = s) ∧ clearHoldIfDue s = s ∧ (∀ c first, faultIfRaised c first s = s) ∧
      (∀ n, noticeIfSent n s = s) ∧ alignTimeoutIfDue s = s ∧ coastLimitIfDue s = s := by
  obtain ⟨hWork, hClose, hAlign, hCoast⟩ := (settled_iff s).1 h
  have noLate : ∀ w, takeLateWork s w = s := fun w => takeLateWork_of_not_mem (by simp [hWork, noWork])
  refine ⟨fun ts => ?_, ?_, fun first => ?_, fun first => ?_, ?_, fun c first => ?_, fun n => ?_, ?_, ?_⟩
  · simp [sampleIfDue, noLate, hWork, noWork]
  · simp [closeIfDue, noLate, hClose]
  · simp [applyIfDue, hWork, noWork]
  · simp [switchIfDue, hWork, noWork]
  · simp [clearHoldIfDue, hWork, noWork]
  · simp [faultIfRaised, hWork, noWork]
  · simp [noticeIfSent, hWork, noWork]
  · simp [alignTimeoutIfDue, hAlign]
  · simp [coastLimitIfDue, hCoast]

/-- While the decoder is HELD and the part still, every row but the power rows and START_UP_LOAD_COMPLETE touches the
Link Port and the clock alone: timers stand, strobes are ignored in FREE, nothing is due, and requests wait. -/
theorem taken_held {s t : State} (h : Taken s t) (hd : s.link.decoder = .held) (k : startUpStill s) :
    t.link.decoder = .held → onlyChanges [.link, .clock] s t := by
  intro ht
  obtain ⟨hSettled, hFree, hPacer, hLoss⟩ := k
  obtain ⟨sample, close, apply, switch, hold, fault, notice, align, coast⟩ := workRows_of_settled hSettled
  have same : ∀ {u : State}, u = s → onlyChanges [.link, .clock] s u := fun e => e ▸ frame_refl _ _
  cases h with
  | startUp m lv =>
    have running : (startUpCompletes m lv s).link.decoder = .running := by
      simp only [startUpCompletes, hd]
      exact arbitrate_decoder _
    exact nomatch running.symm.trans ht
  | pacer lv late => exact same (by simp [pacerExpires, hPacer])
  | strobe m lv late =>
    have ignored : strobeArrives m lv late s = advanceTo m s := by
      have free : (advanceTo m s).timing.state = .free := hFree
      simp only [strobeArrives, settle_of_settled hSettled, strobeTaken, free]
    rw [ignored]; exact frame_wider (advanceTo_frame m s) (by simp)
  | strobeLoss lv late => exact same (by simp [strobeLost, hLoss])
  | alignTimeout => exact same align
  | coastLimit => exact same coast
  | sample ts => exact same (sample ts)
  | intervalClose => exact same close
  | stagingApply first => exact same (apply first)
  | switchApply first => exact same (switch first)
  | exitHoldClear => exact same hold
  | policyFault c first => exact same (fault c first)
  | inhibitNotice n => exact same (notice n)
  | linkRow m l _ => exact frame_then (advanceTo_frame m s) (setLink_frame l _)
  | decode m =>
    refine same ?_
    simp only [decodeOldest]
    split
    · rfl
    · simp [decoderFree, hd]
  | request m tag req =>
    rw [arriveRequest_waits (takenAtOnce_held (show (advanceTo m s).link.decoder = .held from hd))]
    exact frame_then (advanceTo_frame m s) (setLink_frame _ _)

/-! ## The decoder's state is kept by every row but the power rows -/

theorem frameEvent_link (lv : Levels) (late : List FrameWork) (s : State) :
    (frameEvent lv late s).link = s.link := frame_link (frameEvent_frame lv late s) (by decide)

theorem raiseChange_link (c : Change) (s : State) : (raiseChange c s).link = s.link :=
  frame_link (raiseChange_frame c s) (by decide)

theorem settleAt_link (t : Moment) (s : State) : (advanceTo t (settle s)).link = s.link := by
  rw [frame_link (advanceTo_frame t _) (by decide), frame_link (settle_frame s) (by decide)]

theorem pacerExpires_link (lv : Levels) (late : List FrameWork) (s : State) :
    (pacerExpires lv late s).link = s.link := by
  simp only [pacerExpires]
  split
  · rfl
  · rw [frameEvent_link, setTiming_link, settleAt_link]

theorem strobeLost_link (lv : Levels) (late : List FrameWork) (s : State) :
    (strobeLost lv late s).link = s.link := by
  simp only [strobeLost]
  split
  · rfl
  · rw [raiseChange_link, frameEvent_link, setTiming_link, settleAt_link]

theorem strobeTaken_link (lv : Levels) (late : List FrameWork) (s : State) :
    (strobeTaken lv late s).link = s.link := by
  unfold strobeTaken
  split
  · rfl
  · simp only [strobeAligns, raiseChange_link, frameEvent_link, setTiming_link]
  · unfold strobeCounts
    split
    · rfl
    · rw [frameEvent_link, setTiming_link]
  · unfold strobeRelocks
    split
    · rw [raiseChange_link, setTiming_link]
    · simp only [raiseChange_link, frameEvent_link, setTiming_link]

theorem strobeArrives_link (t : Moment) (lv : Levels) (late : List FrameWork) (s : State) :
    (strobeArrives t lv late s).link = s.link := (strobeTaken_link lv late _).trans (settleAt_link t s)

/-- A decoder that is RUNNING is held again by the power rows alone (R185). -/
theorem taken_running {s t : State} (h : Taken s t) (hd : s.link.decoder = .running) : t.link.decoder = .running := by
  have linkSame : ∀ {u : State}, u.link = s.link → u.link.decoder = .running := fun e => by rw [e, hd]
  cases h with
  | startUp m lv => simp [startUpCompletes, hd]
  | pacer lv late => exact linkSame (pacerExpires_link lv late s)
  | strobe m lv late => exact linkSame (strobeArrives_link m lv late s)
  | strobeLoss lv late => exact linkSame (strobeLost_link lv late s)
  | alignTimeout => exact linkSame (frame_link (alignTimeoutIfDue_frame s) (by decide))
  | coastLimit => exact linkSame (frame_link (coastLimitIfDue_frame s) (by decide))
  | sample ts => exact linkSame (frame_link (sampleIfDue_frame ts s) (by decide))
  | intervalClose => exact linkSame (frame_link (closeIfDue_frame s) (by decide))
  | stagingApply first => exact linkSame (frame_link (applyIfDue_frame first s) (by decide))
  | switchApply first => exact linkSame (frame_link (switchIfDue_frame first s) (by decide))
  | exitHoldClear => exact linkSame (frame_link (clearHoldIfDue_frame s) (by decide))
  | policyFault c first => exact linkSame (frame_link (faultIfRaised_frame c first s) (by decide))
  | inhibitNotice n => exact linkSame (frame_link (noticeIfSent_frame n s) (by decide))
  | linkRow m l hl => exact hl.trans hd
  | decode m => exact (decodeOldest_decoder m s).trans hd
  | request m tag req => exact (arriveRequest_decoder tag req (advanceTo m s)).trans hd

/-! ## The part right after power-on -/

/-- A context a record's bytes give meets every check of R146 (R162). -/
theorem contextOfBytes_checked {bytes : List Byte} {c : Context} (h : contextOfBytes bytes = some c) :
    contextFirstFault c = none := by
  unfold contextOfBytes at h
  generalize recordValues contextLayout bytes = values at h
  simp only [Option.ite_none_right_eq_some, Option.some.injEq] at h
  obtain ⟨-, checked, rfl⟩ := h
  exact Option.isNone_iff_eq_none.1 checked

theorem safeContext_consistent : ∀ k : Fin 6, contextConsistent (safeContext k) = true := by decide +kernel

theorem contextFirstFault_of_consistent {c : Context} (h : contextConsistent c = true) : contextFirstFault c = none := by
  rw [contextConsistent, Bool.and_eq_true] at h
  exact Option.isNone_iff_eq_none.1 h.2

theorem safeContext_checked (k : Fin 6) : contextFirstFault (safeContext k) = none :=
  contextFirstFault_of_consistent (safeContext_consistent k)

/-- Every slot of a load meets every check of R146 (R147, R162). -/
theorem loadedSlot_checked (image : List Byte) (k : Fin 6) : contextFirstFault (loadedSlot image k) = none := by
  unfold loadedSlot imageContext
  split
  · cases h : contextOfBytes (imagePart image (2 + 75 * k.val) 75) with
    | none => exact safeContext_checked k
    | some c => exact contextOfBytes_checked h
  · exact safeContext_checked k

/-- A context that meets the check of field 19 has an interval (R146). -/
theorem interval_pos_of_checked {c : Context} (h : contextFirstFault c = none) : 0 < c.interval := by
  have check := List.find?_eq_none.1 h
    { holds := decide (3000 ≤ c.window * c.interval ∧ c.window * c.interval ≤ 51200), zone := none, field := 19 }
    (by simp [contextChecks])
  have window : 3000 ≤ c.window * c.interval := by
    simp only [Bool.not_eq_true', decide_eq_false_iff_not, not_not] at check
    exact check.1
  exact Nat.pos_of_ne_zero fun k => by simp [k] at window

theorem loadedSlots_get (image : List Byte) (k : Fin 6) : (loadedSlots image)[k] = loadedSlot image k := by
  fin_cases k <;> rfl

theorem loadImage_slots (image : List Byte) : (loadImage image).slots = loadedSlots image := by
  simp only [loadImage]
  split <;> rfl

/-- Right after power-on nothing is outstanding and the unit stands still in FREE, whatever the image (R1, R185): the
interval length the load latches is not 0, so no close is due. -/
theorem poweredOn_still (t : Moment) (image : Vector Byte imageSize) (lv : Levels) (pending : List Instr) :
    startUpStill (poweredOn t image lv pending) := by
  have latched : (poweredOn t image lv pending).ring.latchedLength =
      (loadedSlot image.toList (loadImage image.toList).activeIndex).interval := by
    rw [← loadedSlots_get]; simp only [← loadImage_slots]; rfl
  have close : closeDue (poweredOn t image lv pending) = false := by
    rw [← Bool.not_eq_true, closeDue_iff, latched]
    exact Nat.not_le.2 (interval_pos_of_checked (loadedSlot_checked _ _))
  exact ⟨(settled_iff _).2 ⟨rfl, close, rfl, rfl⟩, rfl, rfl, rfl⟩

/-! ## A row keeps the part still through the start-up load, and the record legal -/

theorem rowOutcome_startUpKept {s t : State} (h : RowOutcome s t) (k : startUpKept s) : startUpKept t := by
  cases h with
  | powerOn m => exact fun _ _ => poweredOn_still _ _ _ _
  | rstNAsserted m => exact fun up => nomatch up
  | low _ => exact k
  | high up taken =>
    intro _ held
    cases hd : s.link.decoder with
    | running => exact nomatch (taken_running taken hd).symm.trans held
    | held =>
      have still : startUpStill s := (startUpKept_iff s).1 k up hd
      exact startUpStill_frame (taken_held taken hd still held) still

theorem startUpCompletes_timingKept {s : State} (k : startUpKept s) (up : s.pins.rstN = true)
    (h : timingKept s.timing) (t : Moment) (lv : Levels) : timingKept (startUpCompletes t lv s).timing := by
  unfold startUpCompletes
  split
  · next hd =>
    obtain ⟨-, hFree, -, -⟩ := k up hd
    have store : ∀ u : State, (storeChange u).timing = u.timing := fun u =>
      frame_timing (storeChange_frame u) (by decide)
    rw [startDecoder, setLink_timing, store]
    exact startedPacer_kept h hFree _
  · exact h

theorem taken_timingKept {s t : State} (h : Taken s t) (k : startUpKept s) (up : s.pins.rstN = true)
    (legal : timingKept s.timing) : timingKept t.timing := by
  have timingSame : ∀ {u : State}, u.timing = s.timing → timingKept u.timing := fun e => by rw [e]; exact legal
  cases h with
  | startUp m lv => exact startUpCompletes_timingKept k up legal m lv
  | pacer lv late => exact pacerExpires_timingKept legal lv late
  | strobe m lv late => exact strobeArrives_timingKept legal m lv late
  | strobeLoss lv late => exact strobeLost_timingKept legal lv late
  | alignTimeout => exact (limitRows_timingKept legal).1
  | coastLimit => exact (limitRows_timingKept legal).2
  | sample ts => exact timingSame (frame_timing (sampleIfDue_frame ts s) (by decide))
  | intervalClose => exact timingSame (frame_timing (closeIfDue_frame s) (by decide))
  | stagingApply first => exact timingSame (frame_timing (applyIfDue_frame first s) (by decide))
  | switchApply first => exact timingSame (frame_timing (switchIfDue_frame first s) (by decide))
  | exitHoldClear => exact timingSame (frame_timing (clearHoldIfDue_frame s) (by decide))
  | policyFault c first => exact timingSame (frame_timing (faultIfRaised_frame c first s) (by decide))
  | inhibitNotice n => exact timingSame (frame_timing (noticeIfSent_frame n s) (by decide))
  | linkRow m l _ => exact timingSame rfl
  | decode m => exact decodeOldest_timingKept m legal
  | request m tag req => exact arriveRequest_timingKept tag req (s := advanceTo m s) legal

theorem rowOutcome_timingKept {s t : State} (h : RowOutcome s t) (k : startUpKept s)
    (legal : s.pins.rstN = true → timingKept s.timing) (up : t.pins.rstN = true) : timingKept t.timing := by
  cases h with
  | powerOn m => exact resetTiming_kept
  | rstNAsserted m => exact nomatch up
  | low _ => exact legal up
  | high high taken => exact taken_timingKept taken k high (legal high)

theorem stepKeepsTheStartUpStill : Claims.StepKeepsTheStartUpStill := by
  intro s t k h
  rcases step_outcome h with rfl | ⟨rest, row⟩
  · exact k
  · exact rowOutcome_startUpKept row k

theorem stepKeepsTheTimingRecordLegal : Claims.StepKeepsTheTimingRecordLegal := by
  intro s t k legal h up
  rcases step_outcome h with rfl | ⟨rest, row⟩
  · exact legal up
  · exact rowOutcome_timingKept row k legal up

/-- Settles O57, by what each row can do (`RowOutcome`, `Taken`) and the legality of each record the unit is given. -/
theorem stepKeepsTheTimingRecord : Obligations.StepKeepsTheTimingRecord :=
  ⟨stepKeepsTheStartUpStill, stepKeepsTheTimingRecordLegal⟩

end Sys2Proof.Machine
end

