-- ==== Sys2Proof/Proofs/TimingRows.lean ====
section
/-!
PROOFS. The rows of the Frame Timing Unit in the words of the claims: each is its branch of the unit's operation, with
the frame event as `delivered` and the change as `raised` (R3 to R14); then the resolution of frame numbers and slot
positions (R15, R16).
-/

namespace Sys2Proof.Machine

/-! ## The rows while RST_N is high -/

theorem exec_pacerExpiry {s : State} (up : s.pins.rstN = true) (lv : Levels) (late : List FrameWork) :
    exec (.pacerExpiry lv late) s = .next (pacerExpires lv late s) := whileUp_high up

theorem exec_frameStrobe {s : State} (up : s.pins.rstN = true) (t : Moment) (lv : Levels) (late : List FrameWork) :
    exec (.frameStrobe t lv late) s = .next (strobeTaken lv late (advanceTo t (settle s))) := whileUp_high up

theorem exec_strobeLossTimeout {s : State} (up : s.pins.rstN = true) (lv : Levels) (late : List FrameWork) :
    exec (.strobeLossTimeout lv late) s = .next (strobeLost lv late s) := whileUp_high up

theorem exec_alignTimeout {s : State} (up : s.pins.rstN = true) :
    exec .alignTimeout s = .next (alignTimeoutIfDue s) := whileUp_high up

theorem exec_coastLimit {s : State} (up : s.pins.rstN = true) :
    exec .coastLimit s = .next (coastLimitIfDue s) := whileUp_high up

@[simp] theorem advanceTo_now (t : Moment) (s : State) : (advanceTo t s).now = max s.now t := rfl

@[simp] theorem advanceTo_timing (t : Moment) (s : State) : (advanceTo t s).timing = s.timing := rfl

/-- A frame event at moment `m` with the record already set is `delivered` (R3). -/
theorem frameEvent_delivered (lv : Levels) (late : List FrameWork) (u : Timing) (m : Moment) (s : State) :
    frameEvent lv late ((advanceTo m s).setTiming u) = delivered lv late u m s := rfl

/-! ## The window of a strobe -/

/-- The window of R8 and R11 is 5 ms, 15000 bit times. -/
theorem withinWindow_iff (m e : Moment) : withinWindow m (some e) = true ↔ m < e + 15000 := by
  have width : strobeWindow = 15000 := rfl
  simp [withinWindow, width]

theorem withinWindow_of_lt {m e : Moment} (h : m < e + 15000) : withinWindow m (some e) = true :=
  (withinWindow_iff m e).2 h

theorem withinWindow_of_le {m e : Moment} (h : e + 15000 ≤ m) : ¬ withinWindow m (some e) = true := fun k =>
  Nat.not_lt.2 h ((withinWindow_iff m e).1 k)

/-! ## The pacer and the strobe-loss timer -/

/-- The pacer's period is 10 ms, 30000 bit times (R4). -/
theorem pacerPeriod_eq : pacerPeriod = 30000 := rfl

/-- The strobe-loss timer's time is 15 ms, 45000 bit times (R8). -/
theorem strobeLossTime_eq : strobeLossTime = 45000 := rfl

theorem pacerExpires_running {s : State} {e : Moment} (h : s.timing.pacer = some e) (lv : Levels)
    (late : List FrameWork) :
    pacerExpires lv late s = delivered lv late (pacerTiming e (settle s).timing) e (settle s) := by
  simp only [pacerExpires, h, advanceTo_timing]
  exact frameEvent_delivered _ _ _ _ _

/-- Settles O9, by the two cases of the pacer; the frame event is `delivered` as it stands. -/
theorem pacerExpiryIsFrameEvent : Obligations.PacerExpiryIsFrameEvent := by
  intro lv late s up
  rw [exec_pacerExpiry up]
  refine ⟨fun stopped => by rw [pacerExpires, stopped], fun e running => ?_⟩
  rw [pacerExpires_running running, pacerTiming, pacerPeriod_eq]

theorem strobeLost_running {s : State} {e : Moment} (h : s.timing.strobeLoss = some e) (lv : Levels)
    (late : List FrameWork) :
    strobeLost lv late s =
      raised (.timing .lost ((settle s).timing.frameCounter + 1))
        (delivered lv late (coastTiming e (settle s).timing) e (settle s)) := by
  simp only [strobeLost, h, raiseChange_eq, advanceTo_timing]
  exact congrArg _ (frameEvent_delivered _ _ _ _ _)

/-- Settles O12, by the two cases of the strobe-loss timer. -/
theorem strobeLossCoasts : Obligations.StrobeLossCoasts := by
  intro lv late s up
  rw [exec_strobeLossTimeout up]
  refine ⟨fun stopped => by rw [strobeLost, stopped], fun e running => ?_⟩
  rw [strobeLost_running running, coastTiming, pacerPeriod_eq]

/-! ## The strobe by timing state -/

theorem strobeTaken_free {s : State} (h : s.timing.state = .free) (lv : Levels) (late : List FrameWork) :
    strobeTaken lv late s = s := by simp only [strobeTaken, h]

theorem strobeTaken_aligning {s : State} (h : s.timing.state = .aligning) (lv : Levels) (late : List FrameWork) :
    strobeTaken lv late s = strobeAligns lv late s := by simp only [strobeTaken, h]

theorem strobeTaken_locked {s : State} (h : s.timing.state = .locked) (lv : Levels) (late : List FrameWork) :
    strobeTaken lv late s = strobeCounts lv late s := by simp only [strobeTaken, h]

theorem strobeTaken_coasting {s : State} (h : s.timing.state = .coasting) (lv : Levels) (late : List FrameWork) :
    strobeTaken lv late s = strobeRelocks lv late s := by simp only [strobeTaken, h]

/-- A strobe in LOCKED, inside the glitch window and outside it (R8). -/
theorem strobeCounts_window {s : State} {t l : Moment} (h : s.timing.lastFrameStart = some l) (lv : Levels)
    (late : List FrameWork) :
    (max s.now t < l + 15000 → strobeCounts lv late (advanceTo t s) = advanceTo t s) ∧
      (l + 15000 ≤ max s.now t → strobeCounts lv late (advanceTo t s) =
        delivered lv late
          { s.timing with
            frameCounter := s.timing.frameCounter + 1, lastFrameStart := some (max s.now t),
            strobeLoss := some (max s.now t + 45000) } t s) := by
  refine ⟨fun inside => ?_, fun outside => ?_⟩ <;> simp only [strobeCounts, advanceTo_timing, advanceTo_now, h]
  · exact if_pos (withinWindow_of_lt inside)
  · rw [if_neg (withinWindow_of_le outside), strobeLossTime_eq]
    exact frameEvent_delivered _ _ _ _ _

/-- Settles O10, by the timing state the settled part is in, then by the glitch window. -/
theorem strobeCountedOrIgnored : Obligations.StrobeCountedOrIgnored := by
  intro t lv late s up
  rw [exec_frameStrobe up]
  generalize settle s = v
  refine ⟨fun free => ?_, fun l locked last => ?_⟩
  · rw [strobeTaken_free (s := advanceTo t v) free]; rfl
  · rw [strobeTaken_locked (s := advanceTo t v) locked]
    obtain ⟨glitch, counted⟩ := strobeCounts_window (t := t) last lv late
    exact ⟨fun inside => congrArg _ (glitch inside), fun outside => congrArg _ (counted outside)⟩

theorem strobeEndsAligning : Claims.StrobeEndsAligning := by
  intro t lv late s up aligning
  rw [exec_frameStrobe up]
  generalize settle s = v at aligning ⊢
  rw [strobeTaken_aligning (s := advanceTo t v) aligning]
  simp only [strobeAligns, raiseChange_eq, lockTiming, strobeLossTime_eq]
  rfl

/-- A strobe in COASTING, inside the re-lock window and outside it (R11). -/
theorem strobeRelocks_window {s : State} {t e : Moment} (h : s.timing.lastPacerEvent = some e) (lv : Levels)
    (late : List FrameWork) :
    (max s.now t < e + 15000 → strobeRelocks lv late (advanceTo t s) =
      raised (.timing .relocked s.timing.frameCounter)
        ((advanceTo t s).setTiming (lockTiming (max s.now t) s.timing))) ∧
      (e + 15000 ≤ max s.now t → strobeRelocks lv late (advanceTo t s) =
        raised (.timing .relocked (s.timing.frameCounter + 1))
          (delivered lv late
            { lockTiming (max s.now t) s.timing with frameCounter := s.timing.frameCounter + 1 } t s)) := by
  refine ⟨fun inside => ?_, fun outside => ?_⟩ <;>
    simp only [strobeRelocks, advanceTo_timing, advanceTo_now, h, raiseChange_eq]
  · exact if_pos (withinWindow_of_lt inside)
  · rw [if_neg (withinWindow_of_le outside)]
    exact congrArg _ (frameEvent_delivered _ _ _ _ _)

theorem strobeRelocksTheUnit : Claims.StrobeRelocks := by
  intro t lv late s e up coasting last
  rw [exec_frameStrobe up]
  generalize settle s = v at coasting last ⊢
  rw [strobeTaken_coasting (s := advanceTo t v) coasting]
  obtain ⟨near, far⟩ := strobeRelocks_window (t := t) last lv late
  rw [lockTiming, strobeLossTime_eq] at near far
  exact ⟨fun inside => congrArg _ (near inside), fun outside => congrArg _ (far outside)⟩

/-- Settles O11, from the claim of each of the two timing states. -/
theorem strobeLocksTheUnit : Obligations.StrobeLocksTheUnit := ⟨strobeEndsAligning, strobeRelocksTheUnit⟩

/-! ## The limits and the timing break -/

theorem alignTimeoutReturnsToFree : Claims.AlignTimeoutReturnsToFree := by
  intro s up
  rw [exec_alignTimeout up]
  refine ⟨fun aligning fifth => ?_, fun early => ?_⟩
  · rw [alignTimeoutIfDue, if_pos ((alignTimeoutDue_iff s).2 ⟨aligning, fifth⟩), raiseChange_eq]; rfl
  · rw [alignTimeoutIfDue, if_neg]
    rw [alignTimeoutDue_iff, not_and_or, Nat.not_le]
    exact early

theorem missTrace_disarmed {s : State} (h : s.engine.armed = none) : missTrace s = s := by simp only [missTrace, h]

theorem missTrace_armed {s : State} {a : TraceArming} (h : s.engine.armed = some a) :
    missTrace s = raised (.traceMissed a.position) (s.setEngine { s.engine with armed := none }) := by
  simp only [missTrace, h, raiseChange_eq]

theorem massClose_engine (s : State) : (massClose s).engine = s.engine := frame_engine (massClose_frame s) (by decide)

theorem massClose_changes (s : State) : (massClose s).changes = s.changes :=
  frame_changes (massClose_frame s) (by decide)

theorem timingBreakClosesAndDisarms : Claims.TimingBreakClosesAndDisarms := by
  intro s
  refine ⟨fun disarmed => ?_, fun a armed => ?_⟩
  · exact missTrace_disarmed ((congrArg GrantEngine.armed (massClose_engine s)).trans disarmed)
  · rw [timingBreak, missTrace_armed ((congrArg GrantEngine.armed (massClose_engine s)).trans armed),
      massClose_engine]
    rfl

theorem timingBreak_entries (s : State) : (timingBreak s).openGrants.entries = [] := by
  rw [timingBreak, frame_openGrants (missTrace_frame _) (by decide), massClose_entries]

theorem timingBreak_engine (s : State) : (timingBreak s).engine = { s.engine with armed := none } := by
  cases armed : s.engine.armed with
  | none => rw [(timingBreakClosesAndDisarms s).1 armed, massClose_engine, ← armed]
  | some a => rw [(timingBreakClosesAndDisarms s).2 a armed]; rfl

theorem timingBreak_changes_armed {s : State} {a : TraceArming} (h : s.engine.armed = some a) :
    (timingBreak s).changes = reported (.traceMissed a.position) s.changes := by
  rw [(timingBreakClosesAndDisarms s).2 a h, ← massClose_changes s]; rfl

theorem timingBreak_changes_disarmed {s : State} (h : s.engine.armed = none) :
    (timingBreak s).changes = s.changes := by
  rw [(timingBreakClosesAndDisarms s).1 h, massClose_changes]

theorem coastLimitReturnsToFree : Claims.CoastLimitReturnsToFree := by
  intro s up
  rw [exec_coastLimit up]
  refine ⟨fun coasting hundredth => ⟨?_, timingBreak_entries _, timingBreak_engine _,
    fun a armed => timingBreak_changes_armed (a := a) armed, fun disarmed => timingBreak_changes_disarmed disarmed⟩,
    fun early => ?_⟩
  · rw [coastLimitIfDue, if_pos ((coastLimitDue_iff s).2 ⟨coasting, hundredth⟩), raiseFault_eq, raiseChange_eq]; rfl
  · rw [coastLimitIfDue, if_neg]
    rw [coastLimitDue_iff, not_and_or, Nat.not_le]
    exact early

/-- Settles O13, from the claims of the two limits and of the break. -/
theorem timingLimitsReturnToFree : Obligations.TimingLimitsReturnToFree :=
  ⟨alignTimeoutReturnsToFree, coastLimitReturnsToFree, timingBreakClosesAndDisarms⟩

/-! ## ALIGN and RESET_PART -/

/-- A request row that carries a moment, taken at once: its owner acts on the settled state at that moment (R182). -/
theorem timedRequest_ready {s : State} (h : requestReady s) (t : Moment) (tag : Byte) (req : Request)
    (hl : lengthAccepted req = true) :
    whileUp (fun s => arriveRequest tag req (advanceTo t s)) s =
      .next (replied tag req (ownRequest req (settle { s with now := max s.now t })).2
        (ownRequest req (settle { s with now := max s.now t })).1) :=
  (whileUp_high h.1).trans
    (congrArg _ (arriveRequest_ready (s := { s with now := max s.now t }) (requestReady_advance h) tag req hl))

/-- ALIGN's owner (R5): the unit's record, a timing break where the part held timing, and TIMING (ALIGN_STARTED). -/
theorem takeAlign_eq (n : Word16) (s : State) :
    takeAlign n s =
      (raised (.timing .alignStarted s.timing.frameCounter)
        (if s.timing.state = .locked ∨ s.timing.state = .coasting then
          timingBreak (s.setTiming (alignTiming s.now n s.timing))
        else s.setTiming (alignTiming s.now n s.timing)), done []) := by
  simp only [takeAlign, raiseChange_eq, holdsTiming_iff]

/-- Settles O14, by the request taken at once and what its owner does. -/
theorem alignEntersAligning : Obligations.AlignEntersAligning := by
  intro t tag n s ready
  have row := timedRequest_ready ready t tag (.align n) rfl
  generalize settle { s with now := max s.now t } = u at row ⊢
  rw [ownRequest, takeAlign_eq, alignTiming, pacerPeriod_eq] at row
  exact row

/-- The soft reset, block by block: the mass close's list and ring, the other blocks at their soft-reset values
(R186). -/
theorem softReset_eq (s : State) :
    softReset s =
      { massClose s with
        timing := softResetTiming s.now s.timing
        carriers := resetCarriers
        engine := { armed := none, snapshot := none }
        policy := softResetPolicy s.policy
        changes := freshChanges s.loaded
        link := { s.link with receiveQueue := [] } } := by
  have close := massClose_frame s
  rw [← frame_timing close (by decide), ← frame_policy close (by decide), ← frame_loaded close (by decide),
    ← frame_link close (by decide), ← frame_now close (by decide)]
  rfl

theorem ownRequest_resetPart (s : State) : ownRequest .resetPart s = (softReset s, done []) := rfl

/-- Settles O39, by the request taken at once and the soft reset block by block. -/
theorem resetPartTakesSoftResetValues : Obligations.ResetPartTakesSoftResetValues := by
  intro t tag s ready
  have row := timedRequest_ready ready t tag .resetPart rfl
  have loaded : (settle { s with now := max s.now t }).loaded = s.loaded := by
    rw [frame_loaded (settle_frame { s with now := max s.now t }) (by decide)]
  generalize settle { s with now := max s.now t } = u at row loaded ⊢
  rw [ownRequest_resetPart] at row
  have frame : onlyChanges [.timing, .carriers, .engine, .openGrants, .ring, .policy, .changes, .link] u
      (replied tag .resetPart (done []) (softReset u)) :=
    frame_then (softReset_frame u) (setLink_frame _ _)
  rw [softReset_eq] at row frame
  refine ⟨_, row, ?_, rfl, rfl, fun i => ?_, rfl, rfl, massClose_entries u, rfl, rfl, fun i => ?_, rfl, ?_, ?_, rfl,
    frame⟩
  · simp only [replied, softResetTiming, pacerPeriod_eq]
  · simp [replied, resetCarriers, resetEntry]
  · simp [replied, freshChanges]
  · simp only [replied, freshChanges, loaded]
  · simp only [replied, freshChanges, loaded]

/-! ## Frame numbers and slot positions -/

/-- A difference of absolute frames within half a circle is its own low 16 bits, sign-extended (R15). -/
theorem signExtend_setWidth_of_half {d : Word32} (lo : -32768 ≤ d.toInt) (hi : d.toInt ≤ 32767) :
    (d.setWidth 16).signExtend 32 = d := by
  apply BitVec.eq_of_toInt_eq
  calc ((d.setWidth 16).signExtend 32).toInt
      = (d.toNat : Int).bmod (2 ^ 16) := by rw [BitVec.toInt_signExtend_of_le (by decide), BitVec.toInt_setWidth]
    _ = d.toInt.bmod (2 ^ 16) := by rw [BitVec.toInt_eq_toNat_bmod, Int.bmod_bmod_of_dvd (by decide)]
    _ = d.toInt := Int.bmod_eq_of_le_mul_two (by omega) (by omega)

theorem setWidth_signExtend (f : Word16) : (f.signExtend 32).setWidth 16 = f := by
  ext i hi
  rw [BitVec.getElem_setWidth, BitVec.getLsbD_signExtend, if_pos hi, BitVec.getLsbD_eq_getElem hi]
  simp [Nat.lt_trans hi (by decide : 16 < 32)]

theorem frameOffset_bounds (f : Word16) (c : Word32) : -32768 ≤ frameOffset f c ∧ frameOffset f c ≤ 32767 := by
  have lo := BitVec.le_two_mul_toInt (x := f - c.setWidth 16)
  have hi := BitVec.two_mul_toInt_lt (x := f - c.setWidth 16)
  unfold frameOffset
  omega

theorem resolveFrame_sub (f : Word16) (c : Word32) :
    resolveFrame f c - c = (f - c.setWidth 16).signExtend 32 := by
  rw [resolveFrame, BitVec.add_comm, BitVec.add_sub_cancel]

theorem frameNumberResolves : Claims.FrameNumberResolves := by
  intro f c
  obtain ⟨lo, hi⟩ := frameOffset_bounds f c
  refine ⟨?_, ?_, lo, hi, fun a low alo ahi => ?_⟩
  · rw [resolveFrame, BitVec.setWidth_add _ _ (by decide), setWidth_signExtend, add_sub_cancel]
  · rw [resolveFrame_sub, BitVec.toInt_signExtend_of_le (by decide), frameOffset]
  · have offset : f - c.setWidth 16 = (a - c).setWidth 16 := by
      rw [← low, sub_eq_iff_eq_add, ← BitVec.setWidth_add _ _ (by decide), BitVec.sub_add_cancel]
    rw [resolveFrame, offset, signExtend_setWidth_of_half alo ahi, BitVec.add_comm, BitVec.sub_add_cancel]

theorem slotCount_le (n : SlotsPerFrame) : slotCount n ≤ 16 := by cases n <;> decide

theorem slotPosition_toNat (a : Word32) (n : SlotsPerFrame) (slot : Byte) :
    (slotPosition a n slot).toNat = (a.toNat * slotCount n + slot.toNat) % 4294967296 := by
  have small : slotCount n % 4294967296 = slotCount n := Nat.mod_eq_of_lt (by have := slotCount_le n; omega)
  simp [slotPosition, BitVec.toNat_add, BitVec.toNat_mul, BitVec.toNat_ofNat, small, Nat.add_mod]

theorem slotPositionsAndTheirOrder : Claims.SlotPositionsAndTheirOrder := by
  refine ⟨fun a n slot => ⟨slotPosition_toNat a n slot, slotLegal_iff n slot⟩, fun p q => ?_⟩
  have equal : (q - p).toInt = 0 ↔ p = q := by
    rw [← BitVec.toInt_zero (w := 32), BitVec.toInt_inj]
    exact sub_eq_zero.trans eq_comm
  refine ⟨by simp [below], by simp [above], ?_, ?_⟩
  · simp only [atOrBelow, below, decide_eq_true_eq, ← equal]; omega
  · simp only [atOrBelow, above, ← decide_not, Int.not_lt]

/-- Settles O8, by the arithmetic of 16-bit and 32-bit numbers. -/
theorem framesAndSlotPositionsResolve : Obligations.FramesAndSlotPositionsResolve :=
  ⟨frameNumberResolves, slotPositionsAndTheirOrder⟩

end Sys2Proof.Machine
end

