-- ==== Sys2Proof/Proofs/StartUp.lean ====
section
/-!
PROOFS. POWER_ON and the completion of the start-up load, block by block (R48, R61, R126, R164, R165), and the invariants at reset, one lemma for each.
-/

namespace Sys2Proof.Machine

/-! ## POWER_ON -/

/-- Settles O3, each item read off `poweredOn`. -/
theorem powerOnTakesPowerOnValues : Obligations.PowerOnTakesPowerOnValues := by
  intro t s
  refine ⟨poweredOn (max s.now t) s.image s.pins.levels s.pending, rfl, rfl, rfl, rfl, fun i => ?_, rfl, rfl, rfl, rfl,
    rfl, rfl, rfl, fun i => ?_, rfl, rfl, rfl, rfl, rfl, rfl⟩
  · simp [poweredOn, State.reset, resetEntry]
  · simp [poweredOn, freshChanges]

/-! ## The completion of the start-up load -/

theorem exec_startUpLoadComplete {s : State} (up : s.pins.rstN = true) (held : s.link.decoder = .held) (t : Moment)
    (lv : Levels) :
    exec (.startUpLoadComplete t lv) s =
      .next (startDecoder (storeChange (startBlocks lv (advanceTo t s)))) :=
  (whileUp_high up).trans (congrArg _ (if_pos held))

/-- STORE is raised for a load that is not GOOD, and nothing else changes (R164). -/
theorem storeChange_eq (s : State) :
    storeChange s =
      { s with changes :=
        if s.policy.storeStatus = .good then s.changes
        else reported (.store s.policy.storeStatus s.loaded.safeSlots) s.changes } := by
  unfold storeChange
  split
  · rfl
  · exact raiseChange_eq _ s

/-- The cause set rests on the zones, the exhausted item and the working copy (R166). -/
theorem causesOf_congr {s t : State} (hz : t.heat.zones = s.heat.zones) (he : t.ring.exhausted = s.ring.exhausted)
    (hc : t.policy.workingCopy = s.policy.workingCopy) : causesOf t = causesOf s := by
  have inhibits : zoneInhibits t = zoneInhibits s := by
    funext z; simp only [zoneInhibits, hz, hc]
  simp only [causesOf, inhibits, he, hc]

/-- The ring as the power-on fill leaves it, record by record (R126). -/
theorem fillRing_get (presumption : Nat) (s : State) (p : Fin 128) :
    recordAt (fillRing presumption s) p =
      if p = 0 then { emptyRecord with state := .opened, number := 1 }
      else if 128 ≤ p.val + s.policy.workingCopy.window then
        { emptyRecord with
          state := .presumed
          energy := presumption * s.policy.workingCopy.averageLimit * s.policy.workingCopy.interval * 10 / 16 }
      else emptyRecord := by
  have zero : p.val = 0 ↔ p = 0 := by simp
  simp only [recordAt, fillRing, setRing_ring, Fin.getElem_fin, Vector.getElem_ofFn, fillRecord, zero, newRecord,
    presumedEnergy]

/-- An exhausted item set to the condition agrees with the figures: they do not rest on it (R136, R137). -/
theorem setExhausted_kept (s : State) :
    exposureKept (s.setRing { s.ring with exhausted := windowExhausted s }) :=
  (windowExhausted_congr (s := s) rfl rfl rfl).symm

theorem fillRing_exposure (presumption : Nat) (s : State) : exposureKept (fillRing presumption s) :=
  setExhausted_kept _

/-- Inhibit Control's level and causes follow the state through a change of blocks they do not rest on (R166). -/
theorem inhibit_congr {s t : State} (h : s.inhibit = { causes := causesOf s, txinh := causesAny (causesOf s) })
    (hi : t.inhibit = s.inhibit) (hz : t.heat.zones = s.heat.zones) (he : t.ring.exhausted = s.ring.exhausted)
    (hc : t.policy.workingCopy = s.policy.workingCopy) :
    t.inhibit = { causes := causesOf t, txinh := causesAny (causesOf t) } := by
  rw [hi, causesOf_congr hz he hc]; exact h

theorem startBlocks_exposure (lv : Levels) (s : State) : exposureKept (startBlocks lv s) :=
  exposureKept_frame (bs := [.inhibit, .timing]) (frame_then (startUpInhibit_frame _) (setTiming_frame _ _)) (by decide)
    (by decide) (fillRing_exposure _ _)

theorem startUpInhibit_follows (s : State) :
    (startUpInhibit s).inhibit =
      { causes := causesOf (startUpInhibit s), txinh := causesAny (causesOf (startUpInhibit s)) } := rfl

theorem startBlocks_inhibit (lv : Levels) (s : State) :
    (startBlocks lv s).inhibit =
      { causes := causesOf (startBlocks lv s), txinh := causesAny (causesOf (startBlocks lv s)) } :=
  inhibit_congr (startUpInhibit_follows _) rfl rfl rfl rfl

theorem startUpTakesTheLoad : Claims.StartUpTakesTheLoad := by
  intro t lv s up held
  have frame := startUpCompletes_frame t lv s
  rw [startUpCompletes, if_pos held] at frame
  have row := exec_startUpLoadComplete up held t lv
  rw [storeChange_eq] at row frame
  refine ⟨_, row, fun z => ?_, rfl, rfl, rfl, rfl, fun p => fillRing_get _ _ p, rfl, rfl, rfl, rfl, rfl, rfl, ?_, ?_,
    rfl, rfl, rfl, rfl, frame⟩
  · cases z <;> rfl
  · exact (startBlocks_exposure lv (advanceTo t s)).trans (windowExhausted_congr rfl rfl rfl).symm
  · exact inhibit_congr (startBlocks_inhibit lv (advanceTo t s)) rfl rfl rfl rfl

/-- The highest level a temperature code reaches (R42, R48). -/
theorem levelReached_highest (c : Context) (z : Zone) (t : Nat) :
    entryThreshold c z (levelReached c z t) ≤ t ∧
      ∀ k, entryThreshold c z k ≤ t → levelRank k ≤ levelRank (levelReached c z t) := by
  unfold levelReached levelsDown
  by_cases critical : entryThreshold c z .critical ≤ t
  · simp only [List.find?, critical, decide_true, Option.getD_some]
    exact ⟨trivial, fun k _ => by cases k <;> decide⟩
  · by_cases hot : entryThreshold c z .hot ≤ t
    · simp only [List.find?, critical, hot, decide_true, decide_false, Option.getD_some]
      refine ⟨trivial, fun k hk => ?_⟩
      cases k with
      | critical => exact absurd hk critical
      | _ => decide
    · by_cases warm : entryThreshold c z .warm ≤ t
      · simp only [List.find?, critical, hot, warm, decide_true, decide_false, Option.getD_some]
        refine ⟨trivial, fun k hk => ?_⟩
        cases k with
        | critical => exact absurd hk critical
        | hot => exact absurd hk hot
        | _ => decide
      · have cool : entryThreshold c z .cool ≤ t := Nat.zero_le t
        simp only [List.find?, critical, hot, warm, cool, decide_true, decide_false, Option.getD_some]
        refine ⟨trivial, fun k hk => ?_⟩
        cases k with
        | critical => exact absurd hk critical
        | hot => exact absurd hk hot
        | warm => exact absurd hk warm
        | cool => exact Nat.le_refl _

theorem startUpRecordIsSetDirectly : Claims.StartUpRecordIsSetDirectly := by
  intro c z offset raw
  refine ⟨fun fault => ?_, fun not0 not511 => ?_⟩
  · rw [startUpRecord, temperatureOf, if_pos fault]
  · obtain ⟨reached, highest⟩ := levelReached_highest c z (max 1 (min 510 ((raw.toNat : Int) + offset))).toNat
    refine ⟨levelReached c z (max 1 (min 510 ((raw.toNat : Int) + offset))).toNat, ?_, ?_, fun k hk => ?_⟩
    · rw [startUpRecord, temperatureOf, if_neg (not_or.2 ⟨not0, not511⟩)]
    · cases h : levelReached c z (max 1 (min 510 ((raw.toNat : Int) + offset))).toNat <;> rw [h] at reached <;>
        exact reached
    · exact highest k (by cases k <;> exact hk)

/-- Settles O7, from the load taken block by block and the zone record set directly. -/
theorem startUpLoadCompletes : Obligations.StartUpLoadCompletes :=
  ⟨startUpTakesTheLoad, startUpRecordIsSetDirectly, rfl⟩

/-! ## The invariants at reset -/

theorem reset_changesKept : changesKept State.reset.changes := by
  refine ⟨anyPending_empty.symm, fun i c h => ?_⟩
  simp [State.reset] at h

theorem reset_linkKept : linkKept State.reset.link := by
  refine ⟨trivial, Nat.zero_le _, Nat.zero_le _, Nat.zero_le _, fun _ => ⟨rfl, rfl⟩, nofun, nofun⟩

theorem reset_startUpKept : startUpKept State.reset := fun _ _ =>
  ⟨(settled_iff _).2 ⟨rfl, rfl, rfl, rfl⟩, rfl, rfl, rfl⟩

theorem reset_configKept : configKept State.reset := by
  refine ⟨⟨fun i => ?_, by decide +kernel⟩, trivial, safeContext_consistent 0, fun k => ?_⟩
  · simp [State.reset]; decide
  · have slot : State.reset.policy.slots[k] = safeContext k := by fin_cases k <;> rfl
    rw [slot]; exact safeContext_consistent k

theorem reset_ringKept : ringKept State.reset.ring := by
  intro p
  by_cases hp : p = 0
  · subst hp; simp [State.reset]
  · have elsewhere : ¬ 0 = p.val := fun h => hp (Fin.ext h.symm)
    simp [State.reset, emptyRecord, hp, elsewhere]

theorem reset_grantsKept : grantsKept State.reset := ⟨Nat.zero_le _, List.nodup_nil, fun _ => ⟨rfl, rfl⟩⟩

theorem reset_inhibitKept : inhibitKept State.reset := ⟨fun _ => rfl, nofun⟩

theorem reset_exposureKept : exposureKept State.reset := by
  unfold exposureKept
  decide +kernel

theorem reset_switchKept : switchKept State.reset := ⟨fun _ => rfl, nofun⟩

theorem reset_dutyKept : dutyKept State.reset := ⟨⟨fun _ => rfl, fun _ => rfl⟩, Nat.zero_le _⟩

/-- Settles O54, one lemma per invariant. -/
theorem invariantsHoldAtReset : Obligations.InvariantsHoldAtReset :=
  ⟨reset_changesKept, reset_linkKept, resetTiming_kept, reset_startUpKept, reset_configKept, reset_ringKept,
    reset_grantsKept, reset_inhibitKept, reset_exposureKept, reset_switchKept, reset_dutyKept⟩

end Sys2Proof.Machine
end

