-- ==== Sys2Proof/Proofs/Zones.lean ====
section
/-!
PROOFS. The Heat Zone Monitor: the level a reading calls for and the record it leaves (R41 to R44), then a sample zone
by zone, with what each changed state raises and the Duty Cycler's comparison after it (R39, R40, R45, R46, R52).
-/

namespace Sys2Proof.Machine

/-! ## The highest level with a property -/

theorem mem_levelsDown (l : Level) : l ∈ levelsDown := by cases l <;> decide

theorem levelsDown_descends : levelsDown.Pairwise fun l k => levelRank k ≤ levelRank l := by decide

/-- The levels stand highest first, so the first one found is the highest one there is. -/
theorem find_levelsDown_highest {p : Level → Bool} {l : Level} (h : levelsDown.find? p = some l) :
    p l = true ∧ ∀ k, p k = true → levelRank k ≤ levelRank l := by
  obtain ⟨holds, higher, lower, order, skipped⟩ := List.find?_eq_some_iff_append.1 h
  have descends := levelsDown_descends
  rw [order] at descends
  obtain ⟨-, descends, -⟩ := List.pairwise_append.1 descends
  refine ⟨holds, fun k hk => ?_⟩
  have place := mem_levelsDown k
  rw [order, List.mem_append, List.mem_cons] at place
  obtain inHigher | rfl | inLower := place
  · have skip := skipped k inHigher
    simp [hk] at skip
  · exact Nat.le_refl _
  · exact (List.pairwise_cons.1 descends).1 k inLower

theorem find_levelsDown_none {p : Level → Bool} (h : levelsDown.find? p = none) (l : Level) : p l = false := by
  simpa using List.find?_eq_none.1 h l (mem_levelsDown l)

/-! ## The candidate level (R43) -/

/-- A level above the current one whose entry the temperature reaches. -/
def risesTo (c : Context) (z : Zone) (now : Level) (t : Nat) (l : Level) : Bool :=
  decide (levelRank now < levelRank l) && decide (entryThreshold c z l ≤ t)

/-- A level at or below the current one whose entry less the hysteresis the temperature reaches. -/
def holdsOrFallsTo (c : Context) (z : Zone) (now : Level) (t : Nat) (l : Level) : Bool :=
  decide (levelRank l ≤ levelRank now) && decide (entryThreshold c z l ≤ t + zoneGet c.hysteresis z)

theorem risesTo_iff {c : Context} {z : Zone} {now : Level} {t : Nat} {l : Level} :
    risesTo c z now t l = true ↔ levelRank now < levelRank l ∧ entryThreshold c z l ≤ t := by simp [risesTo]

/-- COOL has no entry threshold, so every temperature reaches it (section 3.1). -/
theorem cool_or_reached {c : Context} {z : Zone} {l : Level} {t : Nat} :
    (l = .cool ∨ entryThreshold c z l ≤ t) ↔ entryThreshold c z l ≤ t :=
  ⟨fun h => h.elim (fun cool => cool ▸ Nat.zero_le t) id, .inr⟩

theorem holdsOrFallsTo_iff {c : Context} {z : Zone} {now : Level} {t : Nat} {l : Level} :
    holdsOrFallsTo c z now t l = true ↔
      levelRank l ≤ levelRank now ∧ (l = .cool ∨ entryThreshold c z l ≤ t + zoneGet c.hysteresis z) := by
  rw [cool_or_reached]; simp [holdsOrFallsTo]

theorem holdsOrFallsTo_cool (c : Context) (z : Zone) (now : Level) (t : Nat) :
    holdsOrFallsTo c z now t .cool = true := holdsOrFallsTo_iff.2 ⟨Nat.zero_le _, .inl rfl⟩

theorem candidateLevel_rises {c : Context} {z : Zone} {now l : Level} {t : Nat}
    (h : levelsDown.find? (risesTo c z now t) = some l) : candidateLevel c z now t = l := by
  unfold risesTo at h
  simp only [candidateLevel, h]

theorem candidateLevel_falls {c : Context} {z : Zone} {now l : Level} {t : Nat}
    (h : levelsDown.find? (risesTo c z now t) = none) (k : levelsDown.find? (holdsOrFallsTo c z now t) = some l) :
    candidateLevel c z now t = l := by
  unfold risesTo at h
  unfold holdsOrFallsTo at k
  simp only [candidateLevel, h, k, Option.getD_some]

theorem candidateRisesHoldsOrFalls : Claims.CandidateRisesHoldsOrFalls := by
  intro c z now t
  simp only [← risesTo_iff, ← holdsOrFallsTo_iff]
  cases rising : levelsDown.find? (risesTo c z now t) with
  | some l =>
    obtain ⟨rises, highest⟩ := find_levelsDown_highest rising
    rw [candidateLevel_rises rising]
    exact ⟨fun _ => ⟨rises, highest⟩, fun noRise => absurd ⟨l, rises⟩ noRise⟩
  | none =>
    have noRise := find_levelsDown_none rising
    cases falling : levelsDown.find? (holdsOrFallsTo c z now t) with
    | some l =>
      rw [candidateLevel_falls rising falling]
      exact ⟨fun ⟨k, rises⟩ => by simp [noRise k] at rises, fun _ => find_levelsDown_highest falling⟩
    | none =>
      have cool := find_levelsDown_none falling .cool
      rw [holdsOrFallsTo_cool] at cool
      cases cool

/-! ## The record a reading leaves (R41, R42, R44) -/

theorem temperatureOf_valid {raw : Raw} (not0 : raw.toNat ≠ 0) (not511 : raw.toNat ≠ 511) (offset : Int) :
    temperatureOf raw offset = some (max 1 (min 510 ((raw.toNat : Int) + offset))).toNat :=
  if_neg (not_or.2 ⟨not0, not511⟩)

theorem confirm_same (k : Nat) (now : Level) (pending : Option Level) (agree : Nat) :
    confirm k now now pending agree = (now, none, 0) := if_pos rfl

theorem confirm_enters {k agree : Nat} {now candidate : Level} {pending : Option Level} (moves : candidate ≠ now)
    (h : candidate = .critical ∨ k ≤ if pending = some candidate then agree + 1 else 1) :
    confirm k now candidate pending agree = (candidate, none, 0) := by
  unfold confirm
  rw [if_neg moves]
  by_cases critical : candidate = .critical
  · rw [if_pos critical, critical]
  · rw [if_neg critical]
    exact if_pos (h.resolve_left critical)

theorem confirm_waits {k agree : Nat} {now candidate : Level} {pending : Option Level} (moves : candidate ≠ now)
    (notCritical : candidate ≠ .critical) (short : (if pending = some candidate then agree + 1 else 1) < k) :
    confirm k now candidate pending agree =
      (now, some candidate, if pending = some candidate then agree + 1 else 1) := by
  unfold confirm
  rw [if_neg moves, if_neg notCritical]
  exact if_neg (Nat.not_le.2 short)

theorem updateRecord_fault {raw : Raw} {offset : Int} (h : temperatureOf raw offset = none) (c : Context) (z : Zone)
    (r : ZoneRecord) :
    updateRecord c z offset raw r =
      { state := .faulted, lastRaw := raw, temperature := none, candidate := none, agreeCount := 0 } := by
  simp only [updateRecord, h]

theorem updateRecord_recovers {raw : Raw} {offset : Int} {t : Nat} {r : ZoneRecord}
    (h : temperatureOf raw offset = some t) (faulted : r.state = .faulted) (c : Context) (z : Zone) :
    updateRecord c z offset raw r =
      { state := .level (levelReached c z t), lastRaw := raw, temperature := some t, candidate := none,
        agreeCount := 0 } := by
  simp only [updateRecord, h, faulted]

theorem updateRecord_confirms {raw : Raw} {offset : Int} {t n : Nat} {r : ZoneRecord} {now l : Level}
    {pending : Option Level} {c : Context} {z : Zone} (h : temperatureOf raw offset = some t)
    (level : r.state = .level now)
    (confirmed : confirm c.confirmCount now (candidateLevel c z now t) r.candidate r.agreeCount = (l, pending, n)) :
    updateRecord c z offset raw r =
      { state := .level l, lastRaw := raw, temperature := some t, candidate := pending, agreeCount := n } := by
  simp only [updateRecord, h, level, confirmed]

theorem zoneRecordIsUpdated : Claims.ZoneRecordIsUpdated := by
  intro c z offset raw r
  simp only [cool_or_reached]
  refine ⟨fun fault => updateRecord_fault (if_pos fault) c z r, fun not0 not511 faulted => ?_,
    fun now not0 not511 level => ?_⟩
  · exact ⟨_, updateRecord_recovers (temperatureOf_valid not0 not511 offset) faulted c z, levelReached_highest c z _⟩
  · have valid := temperatureOf_valid not0 not511 offset
    refine ⟨fun same => ?_, fun moves enters => ?_, fun moves notCritical short => ?_⟩
    · exact updateRecord_confirms valid level (by rw [same, confirm_same])
    · exact updateRecord_confirms valid level (confirm_enters moves enters)
    · exact updateRecord_confirms valid level (confirm_waits moves notCritical short)

theorem levelsAndTheirEntries : Claims.LevelsAndTheirEntries := ⟨rfl, fun _ _ => ⟨rfl, rfl, rfl⟩⟩

/-- Settles O17, from the first level found being the highest, and the cases of a reading. -/
theorem zoneRecordFollowsItsReading : Obligations.ZoneRecordFollowsItsReading :=
  ⟨levelsAndTheirEntries, zoneRecordIsUpdated, candidateRisesHoldsOrFalls⟩

/-! ## One zone of a sample -/

@[simp] theorem zoneGet_zoneSet_same {α : Type} (p : PerZone α) (z : Zone) (v : α) : zoneGet (zoneSet p z v) z = v := by
  cases z <;> rfl

theorem zoneGet_zoneSet_other {α : Type} {z y : Zone} (h : y ≠ z) (p : PerZone α) (v : α) :
    zoneGet (zoneSet p z v) y = zoneGet p y := by
  revert h
  cases z <;> cases y <;> simp [zoneGet, zoneSet]

/-- The record a sample gives a zone, from its own reading (R40). -/
def sampledRecord (c : Context) (ts : PerZone Raw) (s : State) (z : Zone) : ZoneRecord :=
  updateRecord c z (zoneGet s.policy.offsets z) (zoneGet ts z) (zoneGet s.heat.zones z)

/-- The work waiting after a zone entered a new state: its fault event, and a notice (R41, R45, R46). -/
def announcedWork (r : ZoneRecord) (w : Outstanding) : Outstanding :=
  { w with faults := w.faults ++ (enteringFault r.state).toList, notices := w.notices ++ [.zoneState] }

theorem announceZone_changes (z : Zone) (old : ZoneState) (new : ZoneRecord) (s : State) :
    (announceZone z old new s).changes =
      if old = new.state then s.changes else reported (.zone z new.state new.temperature) s.changes := by
  unfold announceZone
  split
  · rfl
  · rw [frame_changes (sendNotice_frame _ _) (by decide)]
    cases enteringFault new.state with
    | none => exact raiseChange_changes _ s
    | some f => exact raiseChange_changes _ s

theorem announceZone_work (z : Zone) (old : ZoneState) (new : ZoneRecord) (s : State) :
    (announceZone z old new s).work = if old = new.state then s.work else announcedWork new s.work := by
  unfold announceZone announcedWork
  split
  · rfl
  · cases enteringFault new.state <;> simp [raiseChange_eq, raised, raiseFault, sendNotice]

theorem updateZone_heat (c : Context) (ts : PerZone Raw) (s : State) (z : Zone) :
    (updateZone c ts s z).heat = { s.heat with zones := zoneSet s.heat.zones z (sampledRecord c ts s z) } :=
  frame_heat (announceZone_frame z _ _ _) (by decide)

theorem updateZone_changes (c : Context) (ts : PerZone Raw) (s : State) (z : Zone) :
    (updateZone c ts s z).changes =
      if (zoneGet s.heat.zones z).state = (sampledRecord c ts s z).state then s.changes
      else reported (.zone z (sampledRecord c ts s z).state (sampledRecord c ts s z).temperature) s.changes :=
  announceZone_changes z _ _ _

theorem updateZone_work (c : Context) (ts : PerZone Raw) (s : State) (z : Zone) :
    (updateZone c ts s z).work =
      if (zoneGet s.heat.zones z).state = (sampledRecord c ts s z).state then s.work
      else announcedWork (sampledRecord c ts s z) s.work :=
  announceZone_work z _ _ _

/-! ## The zones of a sample one after another (R40) -/

/-- Of some zones, those whose state a sample in `u` changes. -/
def changedZones (c : Context) (ts : PerZone Raw) (u : State) (zs : List Zone) : List Zone :=
  zs.filter fun z => decide ((sampledRecord c ts u z).state ≠ (zoneGet u.heat.zones z).state)

/-- The zones `zs` still stand in `s` as they stood in `u`, where the sample began. -/
def notYetSampled (u s : State) (zs : List Zone) : Prop :=
  s.policy = u.policy ∧ ∀ z ∈ zs, zoneGet s.heat.zones z = zoneGet u.heat.zones z

theorem notYetSampled.record {u s : State} {zs : List Zone} (h : notYetSampled u s zs) {z : Zone} (hz : z ∈ zs)
    (c : Context) (ts : PerZone Raw) : sampledRecord c ts s z = sampledRecord c ts u z := by
  rw [sampledRecord, sampledRecord, h.1, h.2 z hz]

/-- One zone's update leaves the zones after it as they stood. -/
theorem notYetSampled.tail {u s : State} {z : Zone} {zs : List Zone} (h : notYetSampled u s (z :: zs)) (fresh : z ∉ zs)
    (c : Context) (ts : PerZone Raw) : notYetSampled u (updateZone c ts s z) zs := by
  obtain ⟨policy, stands⟩ := h
  refine ⟨(frame_policy (updateZone_frame c ts s z) (by decide)).trans policy, fun y hy => ?_⟩
  rw [updateZone_heat, zoneGet_zoneSet_other (ne_of_mem_of_not_mem hy fresh)]
  exact stands y (List.mem_cons_of_mem z hy)

theorem changedZones_cons_same {c : Context} {ts : PerZone Raw} {u : State} {z : Zone}
    (same : (zoneGet u.heat.zones z).state = (sampledRecord c ts u z).state) (zs : List Zone) :
    changedZones c ts u (z :: zs) = changedZones c ts u zs :=
  List.filter_cons_of_neg (by simp [same])

theorem changedZones_cons_changed {c : Context} {ts : PerZone Raw} {u : State} {z : Zone}
    (changed : (zoneGet u.heat.zones z).state ≠ (sampledRecord c ts u z).state) (zs : List Zone) :
    changedZones c ts u (z :: zs) = z :: changedZones c ts u zs :=
  List.filter_cons_of_pos (by simpa using changed.symm)

/-- What a sample raises: one ZONE change for each zone whose state changed, in zone order. -/
theorem updateZones_changes (c : Context) (ts : PerZone Raw) (u : State) (zs : List Zone) (distinct : zs.Nodup)
    (s : State) (h : notYetSampled u s zs) :
    (zs.foldl (updateZone c ts) s).changes =
      (changedZones c ts u zs).foldl
        (fun r z => reported (.zone z (sampledRecord c ts u z).state (sampledRecord c ts u z).temperature) r)
        s.changes := by
  induction zs generalizing s with
  | nil => rfl
  | cons z zs ih =>
    obtain ⟨fresh, distinct⟩ := List.nodup_cons.1 distinct
    rw [List.foldl_cons, ih distinct _ (h.tail fresh c ts), updateZone_changes, h.record List.mem_cons_self,
      h.2 z List.mem_cons_self]
    by_cases same : (zoneGet u.heat.zones z).state = (sampledRecord c ts u z).state
    · rw [if_pos same, changedZones_cons_same same]
    · rw [if_neg same, changedZones_cons_changed same, List.foldl_cons]

/-- The work a sample raises: the fault events of the states entered, in zone order, and a notice for each. -/
theorem updateZones_work (c : Context) (ts : PerZone Raw) (u : State) (zs : List Zone) (distinct : zs.Nodup)
    (s : State) (h : notYetSampled u s zs) :
    (zs.foldl (updateZone c ts) s).work =
      { s.work with
        faults := s.work.faults ++
          (changedZones c ts u zs).filterMap fun z => enteringFault (sampledRecord c ts u z).state
        notices := s.work.notices ++ (changedZones c ts u zs).map fun _ => .zoneState } := by
  induction zs generalizing s with
  | nil => simp [changedZones]
  | cons z zs ih =>
    obtain ⟨fresh, distinct⟩ := List.nodup_cons.1 distinct
    rw [List.foldl_cons, ih distinct _ (h.tail fresh c ts), updateZone_work, h.record List.mem_cons_self,
      h.2 z List.mem_cons_self]
    by_cases same : (zoneGet u.heat.zones z).state = (sampledRecord c ts u z).state
    · rw [if_pos same, changedZones_cons_same same]
    · rw [if_neg same, changedZones_cons_changed same]
      cases fault : enteringFault (sampledRecord c ts u z).state <;> simp [announcedWork, fault]

/-- A sample moves nothing of the monitor but the zone records. -/
theorem updateZones_heat (c : Context) (ts : PerZone Raw) (zs : List Zone) (s : State) :
    (zs.foldl (updateZone c ts) s).heat =
      { s.heat with zones := (zs.foldl (updateZone c ts) s).heat.zones } := by
  induction zs generalizing s with
  | nil => rfl
  | cons z zs ih => rw [List.foldl_cons, ih, updateZone_heat]

/-- A zone outside the list keeps its record. -/
theorem updateZones_other (c : Context) (ts : PerZone Raw) (zs : List Zone) (s : State) {y : Zone} (hy : y ∉ zs) :
    zoneGet (zs.foldl (updateZone c ts) s).heat.zones y = zoneGet s.heat.zones y := by
  induction zs generalizing s with
  | nil => rfl
  | cons z zs ih =>
    obtain ⟨other, outside⟩ := not_or.1 (mt List.mem_cons.2 hy)
    rw [List.foldl_cons, ih _ outside, updateZone_heat, zoneGet_zoneSet_other other]

/-- A zone of the list takes the record of its own reading, whatever the zones before it did. -/
theorem updateZones_zone (c : Context) (ts : PerZone Raw) (u : State) (zs : List Zone) (distinct : zs.Nodup)
    (s : State) (h : notYetSampled u s zs) {y : Zone} (hy : y ∈ zs) :
    zoneGet (zs.foldl (updateZone c ts) s).heat.zones y = sampledRecord c ts u y := by
  induction zs generalizing s with
  | nil => cases hy
  | cons z zs ih =>
    obtain ⟨fresh, distinct⟩ := List.nodup_cons.1 distinct
    rw [List.foldl_cons]
    obtain rfl | later := List.mem_cons.1 hy
    · rw [updateZones_other c ts zs _ fresh, updateZone_heat, zoneGet_zoneSet_same, h.record List.mem_cons_self]
    · exact ih distinct _ (h.tail fresh c ts) later

/-! ## A whole sample -/

/-- The Duty Cycler started where the first zone became HOT or FAULTED, stopped where the last one left (R52). -/
theorem startStopDuty_heat (before : Bool) (s : State) :
    (startStopDuty before s).heat =
      { s.heat with dutyCounter :=
        if anyDutyZone s.heat.zones = before then s.heat.dutyCounter
        else if anyDutyZone s.heat.zones then 1 else 0 } := by
  unfold startStopDuty
  cases before <;> cases anyDutyZone s.heat.zones <;> rfl

/-- Of the work, starting or stopping the Duty Cycler can only take the late duty step off the list (R53). -/
theorem startStopDuty_work (before : Bool) (s : State) :
    (startStopDuty before s).work = { s.work with late := (startStopDuty before s).work.late } := by
  unfold startStopDuty
  split
  · rfl
  · split <;> rfl

/-- The state in which the zones of a sample are updated: the readings taken, and the sample no longer due. -/
def sampleBegun (ts : PerZone Raw) (s : State) : State :=
  (s.setPins { s.pins with levels := { s.pins.levels with ts := ts } }).setWork { s.work with sampleDue := false }

theorem takeSample_eq (ts : PerZone Raw) (s : State) :
    takeSample ts s =
      startStopDuty (anyDutyZone s.heat.zones)
        (zones.foldl (updateZone s.policy.workingCopy ts) (sampleBegun ts s)) := rfl

theorem sampleBegun_notYetSampled (ts : PerZone Raw) (s : State) (zs : List Zone) :
    notYetSampled s (sampleBegun ts s) zs := ⟨rfl, fun _ _ => rfl⟩

theorem zones_nodup : zones.Nodup := by decide

theorem mem_zones (z : Zone) : z ∈ zones := by cases z <;> decide

theorem takeSample_heat (ts : PerZone Raw) (s : State) :
    (takeSample ts s).heat =
      { s.heat with
        zones := (takeSample ts s).heat.zones
        dutyCounter :=
          if anyDutyZone (takeSample ts s).heat.zones = anyDutyZone s.heat.zones then s.heat.dutyCounter
          else if anyDutyZone (takeSample ts s).heat.zones then 1 else 0 } := by
  rw [takeSample_eq, startStopDuty_heat, updateZones_heat]
  rfl

theorem takeSample_zone (ts : PerZone Raw) (s : State) (z : Zone) :
    zoneGet (takeSample ts s).heat.zones z = sampledRecord s.policy.workingCopy ts s z := by
  rw [takeSample_eq, startStopDuty_heat]
  exact updateZones_zone _ ts s zones zones_nodup _ (sampleBegun_notYetSampled ts s zones) (mem_zones z)

theorem takeSample_changes (ts : PerZone Raw) (s : State) :
    (takeSample ts s).changes =
      (changedZones s.policy.workingCopy ts s zones).foldl
        (fun r z => reported (.zone z (sampledRecord s.policy.workingCopy ts s z).state
          (sampledRecord s.policy.workingCopy ts s z).temperature) r) s.changes := by
  rw [takeSample_eq, frame_changes (startStopDuty_frame _ _) (by decide)]
  exact updateZones_changes _ ts s zones zones_nodup _ (sampleBegun_notYetSampled ts s zones)

theorem takeSample_work (ts : PerZone Raw) (s : State) :
    (takeSample ts s).work =
      { s.work with
        late := (takeSample ts s).work.late
        sampleDue := false
        faults := s.work.faults ++ (changedZones s.policy.workingCopy ts s zones).filterMap fun z =>
          enteringFault (sampledRecord s.policy.workingCopy ts s z).state
        notices := s.work.notices ++ (changedZones s.policy.workingCopy ts s zones).map fun _ => .zoneState } := by
  rw [takeSample_eq, startStopDuty_work,
    updateZones_work _ ts s zones zones_nodup _ (sampleBegun_notYetSampled ts s zones)]
  rfl

theorem takeSample_pins (ts : PerZone Raw) (s : State) :
    (takeSample ts s).pins = { s.pins with levels := { s.pins.levels with ts := ts } } := by
  rw [takeSample_eq, frame_pins (startStopDuty_frame _ _) (by decide),
    frame_pins (frame_foldl (updateZone _ ts) (updateZone_frame _ ts) zones _) (by decide)]
  rfl

theorem exec_sample {s : State} (up : s.pins.rstN = true) (ts : PerZone Raw) :
    exec (.sample ts) s = .next (sampleIfDue ts s) := whileUp_high up

theorem sampleTakesEveryZone : Claims.SampleTakesEveryZone := by
  intro ts s up
  rw [exec_sample up, sampleIfDue]
  generalize takeLateWork s .sampleCounter = u
  refine ⟨fun idle => by rw [idle]; rfl, fun due => ⟨takeSample ts u, by rw [if_pos due], ?_⟩⟩
  simp only [takeSample_zone]
  have heat := takeSample_heat ts u
  have work := takeSample_work ts u
  exact ⟨fun z => rfl, takeSample_changes ts u, congrArg Outstanding.faults work, congrArg Outstanding.notices work,
    congrArg Outstanding.sampleDue work, congrArg HeatMonitor.dutyCounter heat, by rw [heat], by rw [heat],
    takeSample_pins ts u, takeSample_frame ts u⟩

/-! ## The states entered -/

theorem runsDuty_iff (state : ZoneState) : runsDuty state = true ↔ state = .faulted ∨ state = .level .hot := by
  cases state with
  | faulted => simp [runsDuty]
  | level l => cases l <;> simp [runsDuty]

theorem mem_zoneList_iff {α : Type} (p : PerZone α) (x : α) : x ∈ zoneList p ↔ ∃ z, zoneGet p z = x := by
  constructor
  · intro h
    simp only [zoneList, List.mem_cons, List.not_mem_nil, or_false] at h
    obtain rfl | rfl | rfl | rfl := h
    exacts [⟨.pa, rfl⟩, ⟨.antA, rfl⟩, ⟨.antB, rfl⟩, ⟨.caseZone, rfl⟩]
  · rintro ⟨z, rfl⟩
    cases z <;> simp [zoneList, zoneGet]

theorem statesEnteredRaiseTheirFaults : Claims.StatesEnteredRaiseTheirFaults := by
  refine ⟨⟨rfl, rfl, fun l below => ?_⟩, fun zs => ?_⟩
  · cases l with
    | critical => exact absurd rfl below
    | _ => rfl
  · simp only [anyDutyZone, List.any_eq_true, mem_zoneList_iff, runsDuty_iff]
    constructor
    · rintro ⟨_, ⟨z, rfl⟩, duty⟩
      exact ⟨z, duty⟩
    · rintro ⟨z, duty⟩
      exact ⟨_, ⟨z, rfl⟩, duty⟩

/-- Settles O18, by induction over the zones of the sample, then the Duty Cycler's comparison. -/
theorem sampleUpdatesEveryZone : Obligations.SampleUpdatesEveryZone :=
  ⟨sampleTakesEveryZone, statesEnteredRaiseTheirFaults⟩

end Sys2Proof.Machine
end

