-- ==== Sys2Proof/Proofs/FrameWork.lean ====
section
/-!
PROOFS. The work of a frame event: the step each part takes (R38, R52, R53, R56, R59, R60, R97, R128), and the
completion of the outstanding work. `settle` leaves no work behind, for what is not due stays not due and the fault
events that wait run out; and it is a run of the rows that take work, one for each of its stages.
-/

namespace Sys2Proof.Machine

/-! ## The Duty Cycler's step (R53) -/

theorem dutyStep_idle {s : State} (h : s.heat.dutyCounter = 0) : dutyStep s = s := if_pos h

theorem dutyStep_rises {s : State} (h : s.heat.dutyCounter ≠ 0)
    (below : s.heat.dutyCounter < s.policy.workingCopy.cycleLength) :
    dutyStep s = s.setHeat { s.heat with dutyCounter := s.heat.dutyCounter + 1 } :=
  (if_neg h).trans (if_pos below)

theorem dutyStep_returns {s : State} (h : s.heat.dutyCounter ≠ 0)
    (ended : s.policy.workingCopy.cycleLength ≤ s.heat.dutyCounter) :
    dutyStep s = s.setHeat { s.heat with dutyCounter := 1 } :=
  (if_neg h).trans (if_neg (Nat.not_lt.2 ended))

/-- A cycler that a sample starts is not stepped by the same frame event: the late step is off the list (R53). -/
theorem startStopDuty_starts {s : State} (h : anyDutyZone s.heat.zones = true) :
    FrameWork.dutyStep ∉ (startStopDuty false s).work.late := by
  simp [startStopDuty, h]

theorem dutyCyclerSteps : Claims.DutyCyclerSteps := by
  refine ⟨fun s => ⟨dutyStep_idle, dutyStep_rises, dutyStep_returns⟩, fun s running => ?_⟩
  rw [takeLateWork_of_not_mem (startStopDuty_starts running), startStopDuty_heat, running]
  rfl

/-! ## The sample counter's step (R38) -/

theorem markSampleFrame_heat (s : State) : (markSampleFrame s).heat = s.heat := by
  unfold markSampleFrame
  split <;> rfl

theorem markSampleFrame_work (s : State) :
    (markSampleFrame s).work =
      if s.heat.sampleCounter = s.heat.samplePeriod then { s.work with sampleDue := true } else s.work := by
  unfold markSampleFrame
  split <;> rfl

theorem stepSampleCounter_heat (s : State) :
    (stepSampleCounter s).heat = sampleStep s.policy.workingCopy.samplePeriod s.heat := markSampleFrame_heat _

theorem stepSampleCounter_work (s : State) :
    (stepSampleCounter s).work =
      if (stepSampleCounter s).heat.sampleCounter = (stepSampleCounter s).heat.samplePeriod then
        { s.work with sampleDue := true }
      else s.work := by
  rw [stepSampleCounter_heat]
  exact markSampleFrame_work _

theorem sampleCounterSteps : Claims.SampleCounterSteps := by
  intro s
  refine ⟨_, rfl, fun restart => ?_, fun counts => ?_, fun sampleFrame => ?_, fun between => ?_,
    stepSampleCounter_frame s⟩
  · rw [stepSampleCounter_heat, sampleStep, if_pos restart]
  · rw [stepSampleCounter_heat, sampleStep, if_neg counts]
  · rw [stepSampleCounter_work, if_pos sampleFrame]
  · rw [stepSampleCounter_work, if_neg between]

/-! ## The supply reading (R56, R59, R60) -/

theorem filterSupply_same (m : SupplyMonitor) :
    filterSupply m.state m = { m with candidate := none, agreeCount := 0 } := if_pos rfl

theorem filterSupply_changes {r : SupplyState} {m : SupplyMonitor} (other : r ≠ m.state)
    (h : r = .critical ∨ 3 ≤ if m.candidate = some r then m.agreeCount + 1 else 1) :
    filterSupply r m = { state := r, candidate := none, agreeCount := 0 } := by
  unfold filterSupply
  rw [if_neg other]
  by_cases critical : r = .critical
  · rw [if_pos critical, critical]
  · rw [if_neg critical]
    exact if_pos (h.resolve_left critical)

theorem filterSupply_waits {r : SupplyState} {m : SupplyMonitor} (other : r ≠ m.state) (notCritical : r ≠ .critical)
    (short : (if m.candidate = some r then m.agreeCount + 1 else 1) < 3) :
    filterSupply r m =
      { m with candidate := some r, agreeCount := if m.candidate = some r then m.agreeCount + 1 else 1 } := by
  unfold filterSupply
  rw [if_neg other, if_neg notCritical]
  exact if_neg (Nat.not_le.2 short)

/-- The supply state is kept: the filter's record is taken, and nothing is raised. -/
theorem readSupply_kept {s : State} {m : SupplyMonitor}
    (h : filterSupply (supplyReading s.pins.levels.bata s.pins.levels.batb) s.supply = m)
    (kept : m.state = s.supply.state) : readSupply s = s.setSupply m := by
  simp only [readSupply, h, kept, if_true]

/-- The supply state changes: SUPPLY is raised (R60). -/
theorem readSupply_moved {s : State} {m : SupplyMonitor}
    (h : filterSupply (supplyReading s.pins.levels.bata s.pins.levels.batb) s.supply = m)
    (moved : m.state ≠ s.supply.state) :
    readSupply s = raised (.supply m.state s.supply.state s.timing.frameCounter) (s.setSupply m) := by
  simp only [readSupply, h, moved, if_false, raiseChange_eq, setSupply_timing]

theorem supplyIsFiltered : Claims.SupplyIsFiltered := by
  intro s
  refine ⟨fun same => ?_, fun other confirmed => ?_, fun other notCritical short => ?_⟩
  · exact readSupply_kept (by rw [same, filterSupply_same]) rfl
  · exact readSupply_moved (filterSupply_changes other confirmed) other
  · exact readSupply_kept (filterSupply_waits other notCritical short) rfl

/-! ## The trace miss check (R97) -/

theorem traceMissCheck_disarmed {s : State} (h : s.engine.armed = none) : traceMissCheck s = s := by
  simp only [traceMissCheck, h]

theorem traceMissCheck_armed {s : State} {a : TraceArming} (h : s.engine.armed = some a) :
    traceMissCheck s = if above s.timing.frameCounter a.frame then missTrace s else s := by
  simp only [traceMissCheck, h]

theorem passedTraceIsMissed : Claims.PassedTraceIsMissed := by
  refine fun s => ⟨traceMissCheck_disarmed, fun a armed => ⟨fun passed => ?_, fun ahead => ?_⟩⟩
  · rw [traceMissCheck_armed armed, if_pos (by simpa [above] using passed), missTrace_armed armed]
    rfl
  · rw [traceMissCheck_armed armed, if_neg (by simpa [above] using ahead)]

/-! ## The parts of a frame event on their list -/

theorem mem_frameWorks (w : FrameWork) : w ∈ frameWorks := by cases w <;> decide

theorem takeLateWork_of_mem {s : State} {w : FrameWork} (h : w ∈ s.work.late) :
    takeLateWork s w = doWork w (s.setWork { s.work with late := s.work.late.filter fun v => v != w }) := if_pos h

theorem partTakenMakesItsStep : Claims.PartTakenMakesItsStep := by
  refine ⟨⟨by decide, mem_frameWorks⟩, fun s w => takeLateWork_of_not_mem, fun s w waits => ?_,
    fun s w ws => ⟨rfl, rfl⟩⟩
  rw [takeLateWork_of_mem waits]
  refine ⟨?_, ?_, ?_, ?_, ?_, ?_⟩ <;> rintro rfl <;> rfl

/-- No part puts another on the list. -/
theorem doWork_late (w : FrameWork) (s : State) : (doWork w s).work.late = s.work.late := by
  cases w with
  | sampleCounter =>
    rw [doWork, stepSampleCounter_work]
    split <;> rfl
  | expiry => exact congrArg _ (frame_work (expiryCheck_frame s) (by decide))
  | intervalCount => rfl
  | dutyStep => exact congrArg _ (frame_work (dutyStep_frame s) (by decide))
  | supply => exact congrArg _ (frame_work (readSupply_frame s) (by decide))
  | traceMiss => exact congrArg _ (frame_work (traceMissCheck_frame s) (by decide))

theorem takeLateWork_late (s : State) (w v : FrameWork) :
    v ∈ (takeLateWork s w).work.late ↔ v ∈ s.work.late ∧ v ≠ w := by
  by_cases h : w ∈ s.work.late
  · rw [takeLateWork_of_mem h, doWork_late]
    simp
  · rw [takeLateWork_of_not_mem h]
    exact ⟨fun hv => ⟨hv, ne_of_mem_of_not_mem hv h⟩, And.left⟩

theorem takeLateWorks_late (ws : List FrameWork) (s : State) (v : FrameWork) :
    v ∈ (takeLateWorks ws s).work.late ↔ v ∈ s.work.late ∧ v ∉ ws := by
  induction ws generalizing s with
  | nil => simp [takeLateWorks]
  | cons w ws ih =>
    have rest : v ∈ (takeLateWorks (w :: ws) s).work.late ↔ v ∈ (takeLateWork s w).work.late ∧ v ∉ ws := ih _
    rw [rest, takeLateWork_late, List.mem_cons, not_or, and_assoc]

/-- Every part taken, none is left. -/
theorem takeLateWorks_all (s : State) : (takeLateWorks frameWorks s).work.late = [] :=
  List.eq_nil_iff_forall_not_mem.2 fun v h => ((takeLateWorks_late _ _ _).1 h).2 (mem_frameWorks v)

/-! ## What is not due stays not due -/

/-- Of the work other than fault events and notices, what is not waiting in `w` is not waiting in `v`. -/
structure NoNewWork (w v : Outstanding) : Prop where
  late : w.late = [] → v.late = []
  sample : w.sampleDue = false → v.sampleDue = false
  hold : w.holdClearDue = false → v.holdClearDue = false
  apply : w.applyDue = false → v.applyDue = false
  switch : w.switchDue = false → v.switchDue = false

theorem NoNewWork.refl (w : Outstanding) : NoNewWork w w := ⟨id, id, id, id, id⟩

theorem NoNewWork.trans {w v u : Outstanding} (h : NoNewWork w v) (k : NoNewWork v u) : NoNewWork w u :=
  ⟨k.late ∘ h.late, k.sample ∘ h.sample, k.hold ∘ h.hold, k.apply ∘ h.apply, k.switch ∘ h.switch⟩

theorem NoNewWork.of_eq {w v : Outstanding} (h : v = w) : NoNewWork w v := h ▸ NoNewWork.refl w

/-- Fault events and notices raised are no new work of the other kinds. -/
theorem NoNewWork.raising (w : Outstanding) (fs : List FaultClass) (ns : List Notice) :
    NoNewWork w { w with faults := fs, notices := ns } := ⟨id, id, id, id, id⟩

/-! ### Intervals, samples and working copies -/

theorem closeInterval_work (s : State) :
    ∃ before now, (closeInterval s).work = toldOfExposure before now s.work := by
  have turned : (turnInterval (halvesAt (positionAfter s.ring.writePosition) (openRecord s).number s.ring.nextNumber
      s)).work = s.work := by
    rw [frame_work (turnInterval_frame _) (by decide), frame_work (halvesAt_frame _ _ _ s) (by decide)]
  have told := recomputeExposure_told (turnInterval
    (halvesAt (positionAfter s.ring.writePosition) (openRecord s).number s.ring.nextNumber s))
  rw [turned] at told
  exact ⟨_, _, told⟩

theorem applySet_work (set : StagingSet) (s : State) :
    ∃ before now, (applySet set s).work = toldOfReplacement before now s.work :=
  ⟨_, _, (frame_work (raiseChange_frame _ _) (by decide)).trans
    ((frame_work (massCloseOnChange_frame _ _) (by decide)).trans (replaceWorkingCopy_told _ _))⟩

theorem loadSlot_work (k : Fin 6) (s : State) :
    ∃ before now, (loadSlot k s).work = toldOfReplacement before now s.work :=
  ⟨_, _, replaceWorkingCopy_told _ _⟩

theorem performSwitch_work (w : Switch) (s : State) :
    ∃ before now, (performSwitch w s).work = toldOfReplacement before now s.work := by
  cases w <;> exact loadSlot_work _ _

theorem applySwitch_work (w : Switch) (s : State) :
    ∃ before now, (applySwitch w s).work = toldOfReplacement before now s.work := by
  obtain ⟨before, now, told⟩ := performSwitch_work w (s.setPolicy { s.policy with pendingSwitch := none })
  exact ⟨before, now, (frame_work (raiseChange_frame _ _) (by decide)).trans told⟩

theorem toldOfReplacement_noNew (before now : Bool) (w : Outstanding) : NoNewWork w (toldOfReplacement before now w) :=
  .raising w _ _

theorem startStopDuty_late {before : Bool} {s : State} (h : s.work.late = []) :
    (startStopDuty before s).work.late = [] := by
  unfold startStopDuty
  split
  · rw [setWork_work, h]; rfl
  · split <;> exact h

theorem takeSample_late {ts : PerZone Raw} {s : State} (h : s.work.late = []) : (takeSample ts s).work.late = [] := by
  rw [takeSample_eq]
  refine startStopDuty_late ?_
  rw [updateZones_work _ ts s zones zones_nodup _ (sampleBegun_notYetSampled ts s zones)]
  exact h

theorem takeSample_noNew (ts : PerZone Raw) (s : State) : NoNewWork s.work (takeSample ts s).work := by
  have work := takeSample_work ts s
  exact ⟨takeSample_late, fun _ => congrArg Outstanding.sampleDue work,
    (congrArg Outstanding.holdClearDue work).trans, (congrArg Outstanding.applyDue work).trans,
    (congrArg Outstanding.switchDue work).trans⟩

/-! ### Fault events taken -/

theorem cancelSwitch_noNew (s : State) : NoNewWork s.work (cancelSwitch s).work := by
  unfold cancelSwitch
  split
  · exact .refl _
  · rw [frame_work (raiseChange_frame _ _) (by decide)]
    exact ⟨id, id, id, id, fun _ => rfl⟩

theorem dropStagingOnExit_noNew (s : State) : NoNewWork s.work (dropStagingOnExit s).work := by
  unfold dropStagingOnExit
  split
  · exact .refl _
  all_goals
    rw [frame_work (raiseChange_frame _ _) (by decide)]
    exact ⟨id, id, id, fun _ => rfl, id⟩

theorem writeExit_work (r : ExitRecord) (s : State) : (writeExit r s).work = s.work :=
  frame_work (writeExit_frame r s) (by decide)

theorem mergeExit_work (c : FaultClass) (s : State) : (mergeExit c s).work = s.work :=
  frame_work (mergeExit_frame c s) (by decide)

theorem absorbedExit_work (c : FaultClass) (s : State) : (absorbedExit c s).work = s.work := writeExit_work _ s

theorem fallbackExit_work (c : FaultClass) (f : Fin 6) (s : State) :
    (fallbackExit c f s).work = (dropStagingOnExit (cancelSwitch (loadSlot f (saveWorkingCopy s)))).work :=
  writeExit_work _ _

/-- What the Policy Store does with a fault event: nothing, a merge into the exit that stands, an absorbed exit, or a
fallback exit where no hold stands (R155). -/
theorem takeFault_cases (c : FaultClass) (s : State) :
    takeFault c s = s ∨ takeFault c s = mergeExit c s ∨ takeFault c s = absorbedExit c s ∨
      s.policy.exitHold = false ∧ takeFault c s = fallbackExit c s.policy.workingCopy.fallback s := by
  unfold takeFault
  cases exitFlag s.policy.workingCopy c with
  | false => exact .inl rfl
  | true =>
    cases s.policy.exitHold with
    | true => exact .inr (.inl rfl)
    | false =>
      by_cases home : s.policy.workingCopy.fallback = s.policy.activeIndex
      · exact .inr (.inr (.inl (if_pos home)))
      · exact .inr (.inr (.inr ⟨rfl, if_neg home⟩))

theorem takeFault_noNew (c : FaultClass) (s : State) : NoNewWork s.work (takeFault c s).work := by
  obtain ignored | merged | absorbed | ⟨-, left⟩ := takeFault_cases c s
  · rw [ignored]; exact .refl _
  · rw [merged]; exact .of_eq (mergeExit_work c s)
  · rw [absorbed]; exact .of_eq (absorbedExit_work c s)
  · rw [left, fallbackExit_work]
    obtain ⟨before, now, told⟩ := loadSlot_work s.policy.workingCopy.fallback (saveWorkingCopy s)
    have loaded : NoNewWork s.work (loadSlot s.policy.workingCopy.fallback (saveWorkingCopy s)).work :=
      told ▸ toldOfReplacement_noNew before now s.work
    exact (loaded.trans (cancelSwitch_noNew _)).trans (dropStagingOnExit_noNew _)

/-! ### The stages of `settle` -/

theorem closeIfDue_noNew {s : State} (taken : s.work.late = []) : NoNewWork s.work (closeIfDue s).work := by
  unfold closeIfDue
  rw [takeLateWork_of_not_mem (by simp [taken])]
  split
  · obtain ⟨before, now, told⟩ := closeInterval_work s
    rw [told]
    exact .raising _ _ _
  · exact .refl _

theorem sampleIfDue_taken {s : State} (taken : s.work.late = []) (ts : PerZone Raw) :
    sampleIfDue ts s = if s.work.sampleDue then takeSample ts s else s := by
  rw [sampleIfDue, takeLateWork_of_not_mem (by simp [taken])]

theorem sampleIfDue_noNew {s : State} (taken : s.work.late = []) (ts : PerZone Raw) :
    NoNewWork s.work (sampleIfDue ts s).work := by
  rw [sampleIfDue_taken taken]
  split
  · exact takeSample_noNew ts s
  · exact .refl _

theorem sampleIfDue_done {s : State} (taken : s.work.late = []) (ts : PerZone Raw) :
    (sampleIfDue ts s).work.sampleDue = false := by
  rw [sampleIfDue_taken taken]
  split
  · rw [takeSample_work]
  · next idle => exact Bool.eq_false_of_not_eq_true idle

theorem clearHoldIfDue_noNew (s : State) : NoNewWork s.work (clearHoldIfDue s).work := by
  unfold clearHoldIfDue
  split
  · exact ⟨id, id, fun _ => rfl, id, id⟩
  · exact .refl _

theorem clearHoldIfDue_done (s : State) : (clearHoldIfDue s).work.holdClearDue = false := by
  unfold clearHoldIfDue
  split
  · rfl
  · next idle => exact Bool.eq_false_of_not_eq_true idle

/-- The work an apply leaves: the apply no longer due, and what the replacement of the working copy told (R29, R33). -/
theorem applyCommitted_noNew (s : State) :
    NoNewWork { s.work with applyDue := false } (applyCommitted s).work := by
  simp only [applyCommitted]
  split
  · exact .refl _
  · exact .refl _
  · next set _ =>
    obtain ⟨before, now, told⟩ := applySet_work set (s.setWork { s.work with applyDue := false })
    rw [told]
    exact toldOfReplacement_noNew _ _ _

theorem applyIfDue_nil (s : State) : applyIfDue [] s = if s.work.applyDue then applyCommitted s else s := rfl

theorem applyIfDue_noNew (s : State) : NoNewWork s.work (applyIfDue [] s).work := by
  rw [applyIfDue_nil]
  split
  · have cleared : NoNewWork s.work { s.work with applyDue := false } := ⟨id, id, id, fun _ => rfl, id⟩
    exact cleared.trans (applyCommitted_noNew s)
  · exact .refl _

theorem applyIfDue_done (s : State) : (applyIfDue [] s).work.applyDue = false := by
  rw [applyIfDue_nil]
  split
  · exact (applyCommitted_noNew s).apply rfl
  · next idle => exact Bool.eq_false_of_not_eq_true idle

/-- The work a switch leaves: the switch no longer due, and what the replacement of the working copy told (R153). -/
theorem applyPendingSwitch_noNew (s : State) :
    NoNewWork { s.work with switchDue := false } (applyPendingSwitch s).work := by
  simp only [applyPendingSwitch]
  split
  · exact .refl _
  · next w _ =>
    obtain ⟨before, now, told⟩ := applySwitch_work w (s.setWork { s.work with switchDue := false })
    rw [told]
    exact toldOfReplacement_noNew _ _ _

theorem switchIfDue_nil (s : State) :
    switchIfDue [] s = if s.work.switchDue then applyPendingSwitch (clearHoldIfDue s) else s := rfl

theorem switchIfDue_noNew (s : State) : NoNewWork s.work (switchIfDue [] s).work := by
  rw [switchIfDue_nil]
  split
  · have cleared : NoNewWork (clearHoldIfDue s).work { (clearHoldIfDue s).work with switchDue := false } :=
      ⟨id, id, id, id, fun _ => rfl⟩
    exact ((clearHoldIfDue_noNew s).trans cleared).trans (applyPendingSwitch_noNew _)
  · exact .refl _

theorem switchIfDue_done (s : State) : (switchIfDue [] s).work.switchDue = false := by
  rw [switchIfDue_nil]
  split
  · exact (applyPendingSwitch_noNew _).switch rfl
  · next idle => exact Bool.eq_false_of_not_eq_true idle

theorem alignTimeoutIfDue_noNew (s : State) : NoNewWork s.work (alignTimeoutIfDue s).work :=
  .of_eq (frame_work (alignTimeoutIfDue_frame s) (by decide))

theorem coastLimitIfDue_noNew (s : State) : NoNewWork s.work (coastLimitIfDue s).work := by
  unfold coastLimitIfDue
  split
  · rw [raiseFault_eq, faulted, frame_work (raiseChange_frame _ _) (by decide),
      frame_work (timingBreak_frame _) (by decide)]
    exact .raising s.work _ _
  · exact .refl _

theorem drainFaults_cons {s : State} {c : FaultClass} {rest : List FaultClass} (h : s.work.faults = c :: rest)
    (n : Nat) : drainFaults (n + 1) s = drainFaults n (takeFault c (s.setWork { s.work with faults := rest })) := by
  simp only [drainFaults, h]

theorem drainFaults_nil {s : State} (h : s.work.faults = []) (n : Nat) : drainFaults n s = s := by
  cases n with
  | zero => rfl
  | succ n => simp only [drainFaults, h]

theorem drainFaults_noNew (n : Nat) (s : State) : NoNewWork s.work (drainFaults n s).work := by
  induction n generalizing s with
  | zero => exact .refl _
  | succ n ih =>
    cases waiting : s.work.faults with
    | nil => rw [drainFaults_nil waiting]; exact .refl _
    | cons c rest =>
      rw [drainFaults_cons waiting]
      have front : NoNewWork s.work (s.setWork { s.work with faults := rest }).work := .raising _ _ _
      exact (front.trans (takeFault_noNew c _)).trans (ih _)

theorem drainNotices_work (s : State) : (drainNotices s).work = { s.work with notices := [] } := by
  unfold drainNotices
  split
  · next noNotice => rw [← noNotice]
  · rw [frame_work (recomputeInhibit_frame _) (by decide), setWork_work]

/-! ### The fault events run out -/

/-- The fault events that wait, and one more while no exit hold stands: the exit that could still raise it sets the
hold (R156, R158). -/
def faultsToTake (s : State) : Nat := s.work.faults.length + (!s.policy.exitHold).toNat

theorem writeExit_toTake (r : ExitRecord) (s : State) : faultsToTake (writeExit r s) = faultsToTake s := by
  simp [faultsToTake, writeExit_eq, raised]

theorem mergeExit_toTake (c : FaultClass) (s : State) : faultsToTake (mergeExit c s) = faultsToTake s := by
  unfold mergeExit
  split
  · rfl
  · exact writeExit_toTake _ s

theorem cancelSwitch_faults (s : State) : (cancelSwitch s).work.faults = s.work.faults := by
  unfold cancelSwitch
  split
  · rfl
  · rw [frame_work (raiseChange_frame _ _) (by decide)]; rfl

theorem dropStagingOnExit_faults (s : State) : (dropStagingOnExit s).work.faults = s.work.faults := by
  unfold dropStagingOnExit
  split
  · rfl
  all_goals rw [frame_work (raiseChange_frame _ _) (by decide)]; rfl

/-- A replacement of the working copy raises EXHAUSTED at most (R137, R139). -/
theorem toldOfReplacement_faults (before now : Bool) (w : Outstanding) :
    (toldOfReplacement before now w).faults.length ≤ w.faults.length + 1 := by
  cases before <;> cases now <;> simp [toldOfReplacement, toldOfExposure]

theorem fallbackExit_faults (c : FaultClass) (f : Fin 6) (s : State) :
    (fallbackExit c f s).work.faults.length ≤ s.work.faults.length + 1 := by
  obtain ⟨before, now, told⟩ := loadSlot_work f (saveWorkingCopy s)
  rw [fallbackExit_work, dropStagingOnExit_faults, cancelSwitch_faults, told]
  exact toldOfReplacement_faults before now s.work

theorem fallbackExit_hold (c : FaultClass) (f : Fin 6) (s : State) : (fallbackExit c f s).policy.exitHold = true := by
  simp [fallbackExit, writeExit_eq, raised]

theorem takeFault_toTake (c : FaultClass) (s : State) : faultsToTake (takeFault c s) ≤ faultsToTake s := by
  obtain ignored | merged | absorbed | ⟨free, left⟩ := takeFault_cases c s
  · rw [ignored]
  · rw [merged, mergeExit_toTake]
  · rw [absorbed]; exact Nat.le_of_eq (writeExit_toTake _ s)
  · rw [left, faultsToTake, faultsToTake, fallbackExit_hold, free]
    exact fallbackExit_faults c _ s

theorem drainFaults_empties (n : Nat) (s : State) (enough : faultsToTake s ≤ n) :
    (drainFaults n s).work.faults = [] := by
  induction n generalizing s with
  | zero =>
    rw [drainFaults]
    exact List.eq_nil_of_length_eq_zero (by unfold faultsToTake at enough; omega)
  | succ n ih =>
    cases waiting : s.work.faults with
    | nil => rw [drainFaults_nil waiting, waiting]
    | cons c rest =>
      rw [drainFaults_cons waiting]
      refine ih _ (Nat.le_trans (takeFault_toTake c _) ?_)
      simp only [faultsToTake, waiting, List.length_cons, setWork_work, setWork_policy] at enough ⊢
      omega

theorem drainAllFaults_empties (s : State) : (drainAllFaults s).work.faults = [] :=
  drainFaults_empties _ s (Nat.add_le_add_left (Bool.toNat_le _) _)

/-! ## The work of earlier frame events is complete after `settle` (assumption 4) -/

theorem settle_work (s : State) : (settle s).work = noWork := by
  rw [settle_eq]
  have parts := takeLateWorks_all s
  generalize takeLateWorks frameWorks s = s1 at parts ⊢
  have close := closeIfDue_noNew parts
  generalize closeIfDue s1 = s2 at close ⊢
  have sample := sampleIfDue_noNew (close.late parts) s2.pins.levels.ts
  have sampled := sampleIfDue_done (close.late parts) s2.pins.levels.ts
  generalize sampleIfDue s2.pins.levels.ts s2 = s3 at sample sampled ⊢
  have hold := clearHoldIfDue_noNew s3
  have cleared := clearHoldIfDue_done s3
  generalize clearHoldIfDue s3 = s4 at hold cleared ⊢
  have staging := applyIfDue_noNew s4
  have applied := applyIfDue_done s4
  generalize applyIfDue [] s4 = s5 at staging applied ⊢
  have switching := switchIfDue_noNew s5
  have switched := switchIfDue_done s5
  generalize switchIfDue [] s5 = s6 at switching switched ⊢
  have limits := (alignTimeoutIfDue_noNew s6).trans (coastLimitIfDue_noNew _)
  generalize coastLimitIfDue (alignTimeoutIfDue s6) = s7 at limits ⊢
  have faults : NoNewWork s7.work (drainAllFaults s7).work := drainFaults_noNew _ s7
  have afterSwitch := limits.trans faults
  have afterApply := switching.trans afterSwitch
  have afterHold := staging.trans afterApply
  have afterSample := hold.trans afterHold
  have afterParts := (close.trans sample).trans afterSample
  rw [drainNotices_work, noWork, Outstanding.mk.injEq]
  exact ⟨afterParts.late parts, afterSample.sample sampled, afterHold.hold cleared, afterApply.apply applied,
    afterSwitch.switch switched, drainAllFaults_empties s7, rfl⟩

/-! ## `settle` is a run of rows that take work -/

/-- While RST_N is high, a run of rows that take work leads from `s` to `t`, and leaves RST_N high. -/
def workRun (s t : State) : Prop :=
  s.pins.rstN = true →
    t.pins.rstN = true ∧ ∃ cs : List Instr, (∀ c ∈ cs, isWorkRow c = true) ∧ runsTo cs s t

theorem workRun_refl (s : State) : workRun s s := fun up => ⟨up, [], nofun, rfl⟩

theorem runsTo_append {cs ds : List Instr} {s t u : State} (h : runsTo cs s t) (k : runsTo ds t u) :
    runsTo (cs ++ ds) s u := by
  induction cs generalizing s with
  | nil => cases h; exact k
  | cons c cs ih =>
    obtain ⟨r, row, rest⟩ := h
    exact ⟨r, row, ih rest⟩

theorem workRun.trans {s t u : State} (h : workRun s t) (k : workRun t u) : workRun s u := fun up => by
  obtain ⟨up, cs, csWork, there⟩ := h up
  obtain ⟨up, ds, dsWork, onward⟩ := k up
  exact ⟨up, cs ++ ds, fun c hc => (List.mem_append.1 hc).elim (csWork c) (dsWork c), runsTo_append there onward⟩

/-- One row that takes work, with an operation that leaves RST_N alone. -/
theorem workRun_row {c : Instr} {f : State → State} {s : State} (work : isWorkRow c = true)
    (row : exec c s = whileUp f s) (pin : (f s).pins.rstN = s.pins.rstN) : workRun s (f s) := fun up =>
  ⟨pin.trans up, [c], fun _ hd => List.mem_singleton.1 hd ▸ work, f s, row.trans (whileUp_high up), rfl⟩

/-- One row that takes work, with an operation that leaves the pins alone. -/
theorem workRun_quietRow {c : Instr} {f : State → State} {bs : List Block} {s : State} (work : isWorkRow c = true)
    (row : exec c s = whileUp f s) (frame : onlyChanges bs s (f s)) (pins : .pins ∉ bs) : workRun s (f s) :=
  workRun_row work row (congrArg Pins.rstN (frame_pins frame pins))

theorem sampleIfDue_rstN (ts : PerZone Raw) (s : State) : (sampleIfDue ts s).pins.rstN = s.pins.rstN := by
  unfold sampleIfDue
  split
  · rw [takeSample_pins, frame_pins (takeLateWork_frame s _) (by decide)]
  · rfl

/-- A fault event at the front of those that wait is taken by its row. -/
theorem workRun_fault {s : State} {c : FaultClass} {rest : List FaultClass} (h : s.work.faults = c :: rest) :
    workRun s (takeFault c (s.setWork { s.work with faults := rest })) := by
  have taken : faultIfRaised c [] s = takeFault c (s.setWork { s.work with faults := rest }) := by
    have front : c ∈ s.work.faults := h ▸ List.mem_cons_self
    rw [faultIfRaised, if_pos front]
    simp [takeLateWorks, h]
  rw [← taken]
  exact workRun_quietRow (c := .policyFaultEvent c []) rfl rfl (faultIfRaised_frame c [] s) (by decide)

theorem drainFaults_workRun (n : Nat) (s : State) : workRun s (drainFaults n s) := by
  induction n generalizing s with
  | zero => exact workRun_refl s
  | succ n ih =>
    cases waiting : s.work.faults with
    | nil => rw [drainFaults_nil waiting]; exact workRun_refl s
    | cons c rest =>
      rw [drainFaults_cons waiting]
      exact (workRun_fault waiting).trans (ih _)

/-! ### Notices -/

theorem recomputeInhibit_setWork (w : Outstanding) (s : State) :
    recomputeInhibit (s.setWork w) = (recomputeInhibit s).setWork w := by
  have causes : causesOf (s.setWork w) = causesOf s := rfl
  unfold recomputeInhibit
  rw [causes, setWork_inhibit, setWork_timing]
  split
  · rfl
  · simp only [raiseChange_eq]; rfl

/-- After a recomputation the record holds the cause set, so another one does nothing (R167, R169). -/
theorem recomputeInhibit_twice (s : State) : recomputeInhibit (recomputeInhibit s) = recomputeInhibit s := by
  have causes : causesOf (recomputeInhibit s) = causesOf s :=
    causesOf_congr (congrArg _ (frame_heat (recomputeInhibit_frame s) (by decide)))
      (congrArg _ (frame_ring (recomputeInhibit_frame s) (by decide)))
      (congrArg _ (frame_policy (recomputeInhibit_frame s) (by decide)))
  have held : (recomputeInhibit s).inhibit.causes = causesOf s := by
    unfold recomputeInhibit
    split
    · next same => exact same.symm
    · rw [frame_inhibit (raiseChange_frame _ _) (by decide), setInhibit_inhibit]
  exact if_pos (causes.trans held.symm)

/-- The notice at the front of those that wait taken by its row. -/
theorem noticeIfSent_front {s : State} {n : Notice} {rest : List Notice} (h : s.work.notices = n :: rest) :
    noticeIfSent n s = recomputeInhibit (s.setWork { s.work with notices := rest }) := by
  simp [noticeIfSent, h]

/-- One recomputation does the work of all the notices: those after the first find nothing to change. -/
theorem drainNotices_front {s : State} {n : Notice} {rest : List Notice} (h : s.work.notices = n :: rest) :
    drainNotices (noticeIfSent n s) = drainNotices s := by
  have whole : drainNotices s = recomputeInhibit (s.setWork { s.work with notices := [] }) := if_neg (by simp [h])
  rw [whole, noticeIfSent_front h]
  have work : (recomputeInhibit (s.setWork { s.work with notices := rest })).work = { s.work with notices := rest } :=
    frame_work (recomputeInhibit_frame _) (by decide)
  cases rest with
  | nil => exact if_pos (by rw [work])
  | cons m ms =>
    refine (if_neg (by rw [work]; exact List.cons_ne_nil m ms)).trans ?_
    simp only [recomputeInhibit_setWork, recomputeInhibit_twice]
    rfl

theorem drainNotices_workRun (ns : List Notice) (s : State) (h : s.work.notices = ns) :
    workRun s (drainNotices s) := by
  induction ns generalizing s with
  | nil =>
    have idle : drainNotices s = s := if_pos h
    rw [idle]
    exact workRun_refl s
  | cons n rest ih =>
    have front : workRun s (noticeIfSent n s) :=
      workRun_quietRow (c := .inhibitNotice n) rfl rfl (noticeIfSent_frame n s) (by decide)
    rw [← drainNotices_front h]
    refine front.trans (ih _ ?_)
    rw [noticeIfSent_front h, frame_work (recomputeInhibit_frame _) (by decide), setWork_work]

/-! ### The whole run -/

theorem settle_workRun (s : State) : workRun (takeLateWorks frameWorks s) (settle s) := by
  rw [settle_eq]
  refine .trans ?_ (drainNotices_workRun _ _ rfl)
  refine .trans ?_ (drainFaults_workRun _ _)
  refine .trans ?_ (workRun_quietRow (c := .coastLimit) rfl rfl (coastLimitIfDue_frame _) (by decide))
  refine .trans ?_ (workRun_quietRow (c := .alignTimeout) rfl rfl (alignTimeoutIfDue_frame _) (by decide))
  refine .trans ?_ (workRun_quietRow (c := .switchApply []) rfl rfl (switchIfDue_frame [] _) (by decide))
  refine .trans ?_ (workRun_quietRow (c := .stagingApply []) rfl rfl (applyIfDue_frame [] _) (by decide))
  refine .trans ?_ (workRun_quietRow (c := .exitHoldClear) rfl rfl (clearHoldIfDue_frame _) (by decide))
  refine .trans ?_ (workRun_row (c := .sample _) rfl rfl (sampleIfDue_rstN _ _))
  exact workRun_quietRow (c := .intervalClose) rfl rfl (closeIfDue_frame _) (by decide)

theorem workIsCompletedByItsRows : Claims.WorkIsCompletedByItsRows := by
  intro s up
  have parts : (takeLateWorks frameWorks s).pins = s.pins := frame_pins (takeLateWorks_frame frameWorks s) (by decide)
  obtain ⟨-, rows⟩ := settle_workRun s (by rw [parts, up])
  exact ⟨settle_work s, rows⟩

/-- Settles O15, part by part; the completion by what no stage of `settle` makes due, and a row for each stage. -/
theorem frameEventPartsTakeTheirSteps : Obligations.FrameEventPartsTakeTheirSteps :=
  ⟨dutyCyclerSteps, sampleCounterSteps, ⟨rfl, rfl, rfl, rfl⟩, supplyIsFiltered, passedTraceIsMissed,
    partTakenMakesItsStep, workIsCompletedByItsRows⟩

end Sys2Proof.Machine
end

