-- ==== Sys2Proof/Proofs/SupplyCap.lean ====
section
/-!
PROOFS. The supply cap (R63, R81). No stage of a decision raises a value; a reduction over distinct carriers ends within
its allowance (R83); and the Power Conversion Table does not decrease, so the stages after SUPPLY keep the sum within
the cap.
-/

namespace Sys2Proof.Machine

/-! ## A lane lowered or left as it stands -/

theorem powerAbove_eq_false_iff {v w : Power} :
    powerAbove v w = false ↔ ∀ c, v = .code c → ∃ d, w = .code d ∧ c ≤ d := by
  cases v <;> cases w <;> simp [powerAbove]

/-- A lane `l` after a stage that leaves it as `m`: the same carrier and request, at a value no higher (R73). -/
structure Lowered (l m : Lane) : Prop where
  index : m.index = l.index
  entry : m.entry = l.entry
  requested : m.requested = l.requested
  value : powerAbove m.value l.value = false

theorem Lowered.code {l m : Lane} {c : Nat} (h : Lowered l m) (e : m.value = .code c) :
    ∃ d, l.value = .code d ∧ c ≤ d := powerAbove_eq_false_iff.1 h.value c e

theorem Lowered.refl (l : Lane) : Lowered l l :=
  ⟨rfl, rfl, rfl, powerAbove_eq_false_iff.2 fun c e => ⟨c, e, le_rfl⟩⟩

theorem Lowered.trans {l m n : Lane} (h : Lowered l m) (k : Lowered m n) : Lowered l n := by
  refine ⟨k.index.trans h.index, k.entry.trans h.entry, k.requested.trans h.requested, ?_⟩
  refine powerAbove_eq_false_iff.2 fun c e => ?_
  obtain ⟨d, hd, cd⟩ := k.code e
  obtain ⟨b, hb, db⟩ := h.code hd
  exact ⟨b, hb, cd.trans db⟩

theorem Lowered.off {l m : Lane} (h : Lowered l m) (off : l.value = .off) : m.value = .off := by
  cases e : m.value with
  | off => rfl
  | code c =>
    obtain ⟨d, hd, -⟩ := h.code e
    cases off.symm.trans hd

theorem Lowered.legal {l m : Lane} (h : Lowered l m) (legal : legalPower l.value) : legalPower m.value := by
  cases e : m.value with
  | off => trivial
  | code c =>
    obtain ⟨d, hd, cd⟩ := h.code e
    rw [hd] at legal
    exact cd.trans legal

theorem Lowered.eligible_eq {l m : Lane} (h : Lowered l m) (r : Reduction) : eligible r m = eligible r l := by
  simp only [eligible, isSecondary, h.entry]

theorem lowerLane_off_lowered (r : Reason) (l : Lane) : Lowered l (lowerLane .off r l) := ⟨rfl, rfl, rfl, rfl⟩

theorem lowerLane_code_lowered {l : Lane} {c k : Nat} (r : Reason) (e : l.value = .code c) (h : k ≤ c) :
    Lowered l (lowerLane (.code k) r l) :=
  ⟨rfl, rfl, rfl, by rw [e]; exact decide_eq_false (Nat.not_lt.2 h)⟩

theorem offWhen_lowered (p : Lane → Bool) (r : Reason) (l : Lane) : Lowered l (offWhen p r l) := by
  unfold offWhen
  split
  · exact lowerLane_off_lowered r l
  · exact .refl l

theorem capAt_lowered (limit : Nat) (r : Reason) (l : Lane) : Lowered l (capAt limit r l) := by
  unfold capAt
  split
  · exact .refl l
  · next e =>
    split
    · next above => exact lowerLane_code_lowered r e above.le
    · exact .refl l

theorem zoneLane_lowered (s : State) (l : Lane) : Lowered l (zoneLane s l) := by
  unfold zoneLane
  split
  · exact .refl l
  · exact capAt_lowered _ _ l

/-! ## Lists of lanes, lane by lane -/

theorem lowered_refl (ls : List Lane) : List.Forall₂ Lowered ls ls := List.forall₂_same.2 fun l _ => .refl l

theorem lowered_map {g : Lane → Lane} (h : ∀ l, Lowered l (g l)) (ls : List Lane) :
    List.Forall₂ Lowered ls (ls.map g) :=
  List.forall₂_map_right_iff.2 (List.forall₂_same.2 fun l _ => h l)

theorem lowered_trans {ls ms ns : List Lane} (h : List.Forall₂ Lowered ls ms) (k : List.Forall₂ Lowered ms ns) :
    List.Forall₂ Lowered ls ns := by
  induction h generalizing ns with
  | nil => exact k
  | cons first _ ih =>
    cases k with
    | cons first' rest' => exact .cons (first.trans first') (ih rest')

/-- What every lane of a list satisfies, every lowered one satisfies, where lowering keeps it. -/
theorem forall_of_lowered {P : Lane → Prop} (keeps : ∀ l m, Lowered l m → P l → P m) {ls ms : List Lane}
    (h : List.Forall₂ Lowered ls ms) (all : ∀ l ∈ ls, P l) : ∀ m ∈ ms, P m := by
  induction h with
  | nil => simp
  | cons first _ ih =>
    simp only [List.forall_mem_cons] at all ⊢
    exact ⟨keeps _ _ first all.1, ih all.2⟩

theorem indices_of_lowered {ls ms : List Lane} (h : List.Forall₂ Lowered ls ms) :
    ms.map Lane.index = ls.map Lane.index := by
  induction h with
  | nil => rfl
  | cons first _ ih => rw [List.map_cons, List.map_cons, first.index, ih]

/-- A fold of steps each of which lowers lanes lowers lanes. -/
theorem foldl_lowered {α : Type} {step : List Lane → α → List Lane} {xs : List α}
    (h : ∀ x ∈ xs, ∀ ls, List.Forall₂ Lowered ls (step ls x)) (ls : List Lane) :
    List.Forall₂ Lowered ls (xs.foldl step ls) := by
  induction xs generalizing ls with
  | nil => exact lowered_refl ls
  | cons x rest ih =>
    simp only [List.forall_mem_cons] at h
    exact lowered_trans (h.1 ls) (ih h.2 _)

/-! ## One step of the walk (R83) -/

theorem highestFit_some {fits : Nat → Bool} {bottom c k : Nat} (h : highestFit fits bottom c = some k) :
    k ≤ c ∧ fits k = true := by
  induction c with
  | zero =>
    obtain ⟨⟨-, fit⟩, rfl⟩ : (bottom = 0 ∧ fits 0 = true) ∧ 0 = k := by simpa [highestFit] using h
    exact ⟨le_rfl, fit⟩
  | succ c ih =>
    unfold highestFit at h
    split at h
    · cases h
    · split at h
      · next fit => cases h; exact ⟨le_rfl, fit⟩
      · obtain ⟨le, fit⟩ := ih h
        exact ⟨le.trans c.le_succ, fit⟩

/-- What a step of the walk at carrier `i` makes of one lane, the lanes of the other carriers summing to `others`. -/
def walkLane (r : Reduction) (others : Nat) (i : Fin 8) (l : Lane) : Lane :=
  if l.index = i ∧ eligible r l = true then
    match l.value with
    | .off => l
    | .code c => reduceLane r others c l
  else l

/-- The sum of the lanes of the other carriers than `i`. -/
def othersSum (r : Reduction) (ls : List Lane) (i : Fin 8) : Nat := laneSum r (ls.filter fun m => m.index != i)

theorem reduceStep_fits {r : Reduction} {ls : List Lane} (h : laneSum r ls ≤ r.allowance) (i : Fin 8) :
    reduceStep r ls i = ls := if_pos h

theorem reduceStep_walks {r : Reduction} {ls : List Lane} (h : ¬ laneSum r ls ≤ r.allowance) (i : Fin 8) :
    reduceStep r ls i = ls.map (walkLane r (othersSum r ls i) i) := if_neg h

theorem reduceLane_cases (r : Reduction) (others c : Nat) (l : Lane) :
    (∃ k ≤ c, others + measure r l.entry k ≤ r.allowance ∧ reduceLane r others c l = lowerLane (.code k) r.reason l) ∨
      reduceLane r others c l = lowerLane .off r.reason l := by
  unfold reduceLane
  split
  · next k found =>
    obtain ⟨le, fit⟩ := highestFit_some found
    exact .inl ⟨k, le, of_decide_eq_true fit, rfl⟩
  · exact .inr rfl

theorem walkLane_lowered (r : Reduction) (others : Nat) (i : Fin 8) (l : Lane) :
    Lowered l (walkLane r others i l) := by
  unfold walkLane
  split
  · split
    · exact .refl l
    · next c e =>
      obtain ⟨k, le, -, eq⟩ | eq := reduceLane_cases r others c l
      · exact eq ▸ lowerLane_code_lowered r.reason e le
      · exact eq ▸ lowerLane_off_lowered r.reason l
  · exact .refl l

theorem walkLane_passes {r : Reduction} {others : Nat} {i : Fin 8} {l : Lane} (h : l.index ≠ i) :
    walkLane r others i l = l := if_neg fun taken => h taken.1

theorem reduceStep_lowered (r : Reduction) (ls : List Lane) (i : Fin 8) :
    List.Forall₂ Lowered ls (reduceStep r ls i) := by
  by_cases fits : laneSum r ls ≤ r.allowance
  · rw [reduceStep_fits fits]; exact lowered_refl ls
  · rw [reduceStep_walks fits]; exact lowered_map (walkLane_lowered r _ i) ls

theorem reduce_lowered (r : Reduction) (ls : List Lane) : List.Forall₂ Lowered ls (reduce r ls) :=
  foldl_lowered (fun i _ ls => reduceStep_lowered r ls i) ls

/-! ## A reduction ends within its allowance (R83) -/

/-- A lane that the walk has nothing more to take from: it does not count, or it is at OFF. -/
def Spent (r : Reduction) (l : Lane) : Prop := eligible r l = true → l.value = .off

theorem Lowered.spent {r : Reduction} {l m : Lane} (h : Lowered l m) (spent : Spent r l) : Spent r m :=
  fun counts => h.off (spent (h.eligible_eq r ▸ counts))

theorem lanePower_code {r : Reduction} {l : Lane} {c : Nat} (h : l.value = .code c) :
    lanePower r l = if eligible r l then measure r l.entry c else 0 := by
  simp only [lanePower, h]

theorem lanePower_off {r : Reduction} {l : Lane} (h : l.value = .off) : lanePower r l = 0 := by
  simp only [lanePower, h]

theorem lanePower_spent {r : Reduction} {l : Lane} (h : Spent r l) : lanePower r l = 0 := by
  cases e : l.value with
  | off => exact lanePower_off e
  | code c =>
    have passed : eligible r l ≠ true := fun counts => by cases (h counts).symm.trans e
    rw [lanePower_code e, if_neg passed]

theorem laneSum_spent {r : Reduction} {ls : List Lane} (h : ∀ l ∈ ls, Spent r l) : laneSum r ls = 0 := by
  refine List.sum_eq_zero fun x hx => ?_
  obtain ⟨l, hl, rfl⟩ := List.mem_map.1 hx
  exact lanePower_spent (h l hl)

/-- The sum over distinct carriers is the power of one of them and that of the others. -/
theorem laneSum_split (r : Reduction) {ls : List Lane} (distinct : (ls.map Lane.index).Nodup) {l : Lane} (h : l ∈ ls) :
    laneSum r ls = othersSum r ls l.index + lanePower r l := by
  induction ls with
  | nil => cases h
  | cons x rest ih =>
    simp only [List.map_cons, List.nodup_cons, List.mem_map, not_exists, not_and] at distinct
    obtain ⟨fresh, distinct⟩ := distinct
    have sum_cons : laneSum r (x :: rest) = lanePower r x + laneSum r rest := by
      simp only [laneSum, List.map_cons, List.sum_cons]
    rcases List.mem_cons.1 h with rfl | later
    · have others : othersSum r (l :: rest) l.index = laneSum r rest := by
        have all : rest.filter (fun m => m.index != l.index) = rest :=
          List.filter_eq_self.2 fun m hm => by simpa using fresh m hm
        simp [othersSum, all]
      rw [sum_cons, others, Nat.add_comm]
    · have others : othersSum r (x :: rest) l.index = lanePower r x + othersSum r rest l.index := by
        have other : x.index ≠ l.index := fun e => fresh l later e.symm
        simp [othersSum, laneSum, other]
      rw [sum_cons, others, ih distinct later, Nat.add_assoc]

/-- A lane of the carrier the walk takes is spent after the step, or the sum with it fits. -/
theorem walkLane_spent_or_fits (r : Reduction) (others : Nat) (l : Lane) :
    Spent r (walkLane r others l.index l) ∨
      others + lanePower r (walkLane r others l.index l) ≤ r.allowance := by
  by_cases counts : eligible r l = true
  · cases e : l.value with
    | off => exact .inl ((walkLane_lowered r others l.index l).spent fun _ => e)
    | code c =>
      have taken : walkLane r others l.index l = reduceLane r others c l := by
        simp [walkLane, counts, e]
      obtain ⟨k, -, fits, eq⟩ | eq := reduceLane_cases r others c l
      · refine .inr ?_
        have power : lanePower r (lowerLane (.code k) r.reason l) = measure r l.entry k :=
          (lanePower_code rfl).trans (if_pos counts)
        rw [taken, eq, power]
        exact fits
      · exact .inl fun _ => by rw [taken, eq]; rfl
  · exact .inl ((walkLane_lowered r others l.index l).spent fun h => absurd h counts)

theorem othersSum_walk (r : Reduction) (others : Nat) (i : Fin 8) (ls : List Lane) :
    othersSum r (ls.map (walkLane r others i)) i = othersSum r ls i := by
  have same : (ls.map (walkLane r others i)).filter (fun m => m.index != i) = ls.filter (fun m => m.index != i) := by
    induction ls with
    | nil => rfl
    | cons l rest ih =>
      by_cases h : l.index = i
      · simpa [(walkLane_lowered r others i l).index, h] using ih
      · simpa [walkLane_passes h, h] using ih
  rw [othersSum, same, othersSum]

/-- A step of the walk over distinct carriers brings the sum within the allowance, or leaves its carrier spent. -/
theorem reduceStep_fits_or_spends (r : Reduction) {ls : List Lane} (distinct : (ls.map Lane.index).Nodup) (i : Fin 8) :
    laneSum r (reduceStep r ls i) ≤ r.allowance ∨ ∀ m ∈ reduceStep r ls i, m.index = i → Spent r m := by
  by_cases fits : laneSum r ls ≤ r.allowance
  · exact .inl (by rwa [reduceStep_fits fits])
  rw [or_iff_not_imp_right]
  intro unspent
  push Not at unspent
  obtain ⟨m, hm, rfl, unspent⟩ := unspent
  have distinct' := indices_of_lowered (reduceStep_lowered r ls m.index) ▸ distinct
  rw [laneSum_split r distinct' hm]
  rw [reduceStep_walks fits] at hm ⊢
  rw [othersSum_walk]
  obtain ⟨l, -, walked⟩ := List.mem_map.1 hm
  have index : m.index = l.index := walked ▸ (walkLane_lowered r _ _ l).index
  have := walkLane_spent_or_fits r (othersSum r ls m.index) l
  rw [← index, walked] at this
  exact this.resolve_left unspent

theorem walk_of_fits {r : Reduction} {ls : List Lane} (h : laneSum r ls ≤ r.allowance) (is : List (Fin 8)) :
    is.foldl (reduceStep r) ls = ls := by
  induction is with
  | nil => rfl
  | cons i rest ih => rw [List.foldl_cons, reduceStep_fits h, ih]

/-- A walk over distinct carriers that takes every carrier not yet spent ends with the sum within the allowance. -/
theorem walk_fits (r : Reduction) (is : List (Fin 8)) {ls : List Lane} (distinct : (ls.map Lane.index).Nodup)
    (cover : ∀ l ∈ ls, l.index ∈ is ∨ Spent r l) : laneSum r (is.foldl (reduceStep r) ls) ≤ r.allowance := by
  induction is generalizing ls with
  | nil =>
    rw [List.foldl_nil, laneSum_spent fun l hl => (cover l hl).resolve_left List.not_mem_nil]
    exact Nat.zero_le _
  | cons i rest ih =>
    rw [List.foldl_cons]
    have lowered := reduceStep_lowered r ls i
    obtain fits | spends := reduceStep_fits_or_spends r distinct i
    · rwa [walk_of_fits fits]
    · refine ih (indices_of_lowered lowered ▸ distinct) fun m hm => ?_
      have kept := forall_of_lowered (P := fun l => l.index ∈ i :: rest ∨ Spent r l)
        (fun l m h => Or.imp (fun mem => h.index ▸ mem) h.spent) lowered cover m hm
      obtain mem | spent := kept
      · obtain here | later := List.mem_cons.1 mem
        · exact .inr (spends m hm here)
        · exact .inl later
      · exact .inr spent

theorem index_mem_reduceOrder {ls : List Lane} {l : Lane} (h : l ∈ ls) : l.index ∈ reduceOrder ls := by
  have indices : ∀ i : Fin 8, i ∈ indicesDown := by decide
  have priorities : ∀ p : Fin 4, p ∈ ([3, 2, 1, 0] : List (Fin 4)) := by decide
  refine List.mem_flatMap.2 ⟨l.entry.priority, priorities _, List.mem_filter.2 ⟨indices _, ?_⟩⟩
  exact List.any_eq_true.2 ⟨l, h, by simp⟩

/-- A reduction over distinct carriers ends with its sum within its allowance (R83). -/
theorem laneSum_reduce (r : Reduction) {ls : List Lane} (distinct : (ls.map Lane.index).Nodup) :
    laneSum r (reduce r ls) ≤ r.allowance :=
  walk_fits r _ distinct fun _ hl => .inl (index_mem_reduceOrder hl)

/-! ## No stage raises a value -/

theorem stageInhibit_lowered (ls : List Lane) : List.Forall₂ Lowered ls (stageInhibit ls) :=
  lowered_map (lowerLane_off_lowered .inhibit) ls

theorem stageDisabled_lowered (ls : List Lane) : List.Forall₂ Lowered ls (stageDisabled ls) :=
  lowered_map (offWhen_lowered _ .disabled) ls

theorem stageWindow_lowered (ls : List Lane) : List.Forall₂ Lowered ls (stageWindow ls) :=
  lowered_map (fun l => capAt_lowered l.entry.ceiling .window l) ls

theorem stageZone_lowered (s : State) (ls : List Lane) : List.Forall₂ Lowered ls (stageZone s ls) :=
  lowered_map (zoneLane_lowered s) ls

theorem stageShed_lowered (s : State) (ls : List Lane) : List.Forall₂ Lowered ls (stageShed s ls) := by
  unfold stageShed
  split
  · refine lowered_map (fun l => ?_) ls
    split
    · exact lowerLane_off_lowered .shed l
    · exact .refl l
  · exact lowered_refl ls

theorem stageAnchor_lowered (ls : List Lane) : List.Forall₂ Lowered ls (stageAnchor ls) :=
  lowered_map (offWhen_lowered _ .anchor) ls

theorem stageSupply_lowered (s : State) (ls : List Lane) : List.Forall₂ Lowered ls (stageSupply s ls) := by
  unfold stageSupply
  split
  · exact lowered_refl ls
  · exact reduce_lowered _ ls

theorem exposureExhausted_lowered (s : State) (ls : List Lane) : List.Forall₂ Lowered ls (exposureExhausted s ls) := by
  unfold exposureExhausted
  split
  · exact lowered_map (offWhen_lowered _ .exposure) ls
  · exact lowered_refl ls

theorem exposurePacing_lowered (s : State) (ls : List Lane) : List.Forall₂ Lowered ls (exposurePacing s ls) := by
  unfold exposurePacing
  split
  · exact reduce_lowered _ ls
  · exact lowered_refl ls

theorem stageExposure_lowered (s : State) (ls : List Lane) : List.Forall₂ Lowered ls (stageExposure s ls) := by
  have headroom (ls : List Lane) : List.Forall₂ Lowered ls (exposureHeadroom s ls) :=
    lowered_trans (reduce_lowered _ ls) (reduce_lowered _ _)
  exact lowered_trans (exposureExhausted_lowered s ls) (lowered_trans (exposurePacing_lowered s _) (headroom _))

theorem laterStages_lowered (s : State) :
    ∀ f ∈ laterStages s, ∀ ls : List Lane, List.Forall₂ Lowered ls (f ls) := by
  simp only [laterStages, List.forall_mem_cons]
  exact ⟨stageDisabled_lowered, stageWindow_lowered, stageZone_lowered s, stageShed_lowered s, stageAnchor_lowered,
    stageSupply_lowered s, stageAnchor_lowered, stageExposure_lowered s, stageAnchor_lowered, nofun⟩

theorem decideLanes_inhibited {s : State} (h : s.inhibit.txinh = true) (ls : List Lane) :
    (decideLanes s ls).final = stageInhibit ls := by
  simp only [decideLanes, h, if_true]

theorem decideLanes_released {s : State} (h : s.inhibit.txinh = false) (ls : List Lane) :
    (decideLanes s ls).final = (laterStages s).foldl (fun ls f => f ls) ls := by
  simp only [decideLanes, h, Bool.false_eq_true, if_false]

/-- With TXINH released, the stages before SUPPLY lower the request, and those after it lower what SUPPLY leaves. -/
theorem decideLanes_around_supply {s : State} (h : s.inhibit.txinh = false) (ls : List Lane) :
    ∃ xs, List.Forall₂ Lowered ls xs ∧ List.Forall₂ Lowered (stageSupply s xs) (decideLanes s ls).final := by
  have before : List.Forall₂ Lowered ls (((laterStages s).take 5).foldl (fun ls f => f ls) ls) :=
    foldl_lowered (fun f hf => laterStages_lowered s f (List.mem_of_mem_take hf)) ls
  refine ⟨_, before, ?_⟩
  rw [decideLanes_released h]
  exact foldl_lowered (xs := (laterStages s).drop 6)
    (fun f hf => laterStages_lowered s f (List.mem_of_mem_drop hf)) _

/-! ## A lowered lane has no more power (R71) -/

theorem powerTable_length : powerTable.length = 160 := by
  simp only [powerTable, List.length_append]
  rfl

theorem powerTable_sorted : powerTable.Pairwise (· ≤ ·) := by
  rw [← List.isChain_iff_pairwise]
  simp only [powerTable, List.isChain_append]
  decide

theorem tablePower_mono {a b : Nat} (le : a ≤ b) (h : b ≤ 159) : tablePower a ≤ tablePower b := by
  have bound : b < powerTable.length := powerTable_length ▸ Nat.lt_succ_of_le h
  simp only [tablePower, List.getD_eq_getElem _ _ bound, List.getD_eq_getElem _ _ (le.trans_lt bound)]
  exact powerTable_sorted.rel_get_of_le (a := ⟨a, le.trans_lt bound⟩) (b := ⟨b, bound⟩) le

theorem measure_mono (r : Reduction) (e : CarrierEntry) {a b : Nat} (le : a ≤ b) (h : b ≤ 127) :
    measure r e a ≤ measure r e b := by
  unfold measure
  split
  · exact tablePower_mono (by unfold radiatedCode; omega) (by unfold radiatedCode; omega)
  · exact tablePower_mono le (h.trans (by decide))

theorem Lowered.lanePower_le {l m : Lane} (h : Lowered l m) (legal : legalPower l.value) (r : Reduction) :
    lanePower r m ≤ lanePower r l := by
  cases e : m.value with
  | off => rw [lanePower_off e]; exact Nat.zero_le _
  | code c =>
    obtain ⟨d, hd, cd⟩ := h.code e
    rw [hd] at legal
    rw [lanePower_code e, lanePower_code hd, h.entry, h.eligible_eq r]
    split
    · exact measure_mono r l.entry cd legal
    · exact le_rfl

theorem laneSum_of_lowered (r : Reduction) {ls ms : List Lane} (h : List.Forall₂ Lowered ls ms)
    (legal : ∀ l ∈ ls, legalPower l.value) : laneSum r ms ≤ laneSum r ls := by
  induction h with
  | nil => exact le_rfl
  | cons first _ ih =>
    simp only [List.forall_mem_cons] at legal
    simp only [laneSum, List.map_cons, List.sum_cons] at ih ⊢
    exact Nat.add_le_add (first.lanePower_le legal.1 r) (ih legal.2)

/-! ## The supply cap -/

/-- The reduction of stage 7 to a cap in milliwatts (R81). -/
def supplyReduction (cap : Nat) : Reduction :=
  { radiated := false, secondariesOnly := false, allowance := cap * 1000, floors := true, reason := .supply }

theorem stageSupply_capped {s : State} {cap : Nat} (h : supplyCap s = some cap) (ls : List Lane) :
    stageSupply s ls = reduce (supplyReduction cap) ls := by
  simp only [stageSupply, h, supplyReduction]

/-- Under a supply cap, the sum of stage 7 over the final lanes of a decision is within it. -/
theorem laneSum_final_le_cap {s : State} {cap : Nat} (h : supplyCap s = some cap) {ls : List Lane}
    (distinct : (ls.map Lane.index).Nodup) (legal : ∀ l ∈ ls, legalPower l.value) :
    laneSum (supplyReduction cap) (decideLanes s ls).final ≤ cap * 1000 := by
  cases inhibited : s.inhibit.txinh with
  | true =>
    rw [decideLanes_inhibited inhibited, laneSum_spent fun m hm => ?_]
    · exact Nat.zero_le _
    · obtain ⟨l, -, rfl⟩ := List.mem_map.1 hm
      exact fun _ => rfl
  | false =>
    obtain ⟨xs, before, after⟩ := decideLanes_around_supply inhibited ls
    have legal_xs : ∀ l ∈ stageSupply s xs, legalPower l.value :=
      forall_of_lowered (fun _ _ h => h.legal) (lowered_trans before (stageSupply_lowered s xs)) legal
    calc laneSum (supplyReduction cap) (decideLanes s ls).final
        ≤ laneSum (supplyReduction cap) (stageSupply s xs) := laneSum_of_lowered _ after legal_xs
      _ = laneSum (supplyReduction cap) (reduce (supplyReduction cap) xs) := by rw [stageSupply_capped h]
      _ ≤ cap * 1000 := laneSum_reduce _ (indices_of_lowered before ▸ distinct)

/-- The sum of stage 7 is the sum of the conducted powers, of every lane. -/
theorem laneSum_supplyReduction (cap : Nat) (ls : List Lane) :
    laneSum (supplyReduction cap) ls = (ls.map fun l => match l.value with
      | .off => 0
      | .code c => tablePower c).sum := by
  refine congrArg List.sum (List.map_congr_left fun l _ => ?_)
  cases e : l.value with
  | off => exact lanePower_off e
  | code c => exact lanePower_code e

/-- Settles O48: the reduction of stage 7 ends within the cap, and no later stage adds power. -/
theorem supplyCapHolds : Obligations.SupplyCapHolds := by
  intro s ls distinct inRange
  have legal : ∀ l ∈ ls, legalPower l.value := fun l hl => (inRange l hl).1
  constructor
  · intro low
    have cap : supplyCap s = some s.policy.workingCopy.supplyLowCap := by simp only [supplyCap, low]
    exact (laneSum_supplyReduction _ _).symm.trans_le (laneSum_final_le_cap cap distinct legal)
  · intro critical
    have cap : supplyCap s = some s.policy.workingCopy.supplyCriticalCap := by simp only [supplyCap, critical]
    exact (laneSum_supplyReduction _ _).symm.trans_le (laneSum_final_le_cap cap distinct legal)

end Sys2Proof.Machine
end

