-- ==== Sys2Proof/Proofs/Keeping.lean ====
section
/-!
PROOFS. The induction over the rows, packaged once: a property of the state that each block operation keeps is kept by
every row, and so by every step. `KeptByOperations` lists the operations `Taken` is made of.
-/

namespace Sys2Proof.Machine

/-- The blocks that hold replies, changes, levels, moments and work still to take: a property of the blocks that hold the
account or the configuration does not rest on them. -/
abbrev passingBlocks : List Block := [.inhibit, .changes, .link, .pins, .work, .clock]

/-- A property of the state that every operation a row is made of keeps. -/
structure KeptByOperations (P : State → Prop) : Prop where
  apart : ∀ {s t : State}, onlyChanges passingBlocks s t → P s → P t
  queue : ∀ {s : State} (rest : List Instr), P s → P { s with pending := rest }
  part : ∀ (w : FrameWork) {s : State}, P s → P (doWork w s)
  sample : ∀ (ts : PerZone Raw) {s : State}, P s → P (takeSample ts s)
  close : ∀ {s : State}, P s → P (closeInterval s)
  apply : ∀ (set : StagingSet) {s : State}, P s → P (applySet set s)
  switch : ∀ (w : Switch) {s : State}, P s → P (applySwitch w s)
  hold : ∀ {s : State}, P s → P (clearHold s)
  fault : ∀ (c : FaultClass) {s : State}, P s → P (takeFault c s)
  align : ∀ {s : State}, P s → P (alignTimeoutIfDue s)
  coast : ∀ {s : State}, P s → P (coastLimitIfDue s)
  timing : ∀ {s : State} (u : Timing), u.state = s.timing.state ∨ u.state = .locked ∨ u.state = .coasting → P s →
    P (s.setTiming u)
  request : ∀ (req : Request) {s : State}, P s → P (ownRequest req s).1
  start : ∀ (lv : Levels) {s : State}, P s → P (startBlocks lv s)
  power : ∀ (t : Moment) (image : Vector Byte imageSize) (lv : Levels) (pending : List Instr),
    P (poweredOn t image lv pending)

namespace KeptByOperations

section operations
variable {P : State → Prop} (k : KeptByOperations P)
include k

/-! ## Single operations -/

theorem within {bs : List Block} {s t : State} (h : onlyChanges bs s t) (p : P s)
    (sub : bs ⊆ passingBlocks := by simp) : P t := k.apart (frame_wider h sub) p

theorem work {s : State} (w : Outstanding) (p : P s) : P (s.setWork w) :=
  k.within (bs := [.work]) (by simp [onlyChanges_iff]) p

theorem link {s : State} (l : LinkPort) (p : P s) : P (s.setLink l) := k.within (setLink_frame l s) p

theorem change (c : Change) {s : State} (p : P s) : P (raiseChange c s) := k.within (raiseChange_frame c s) p

theorem moment (t : Moment) {s : State} (p : P s) : P (advanceTo t s) := k.within (advanceTo_frame t s) p

/-! ## Frame events and the work due after them -/

theorem lateWork (w : FrameWork) {s : State} (p : P s) : P (takeLateWork s w) := by
  unfold takeLateWork
  split
  · exact k.part w (k.work _ p)
  · exact p

theorem lateWorks (ws : List FrameWork) {s : State} (p : P s) : P (takeLateWorks ws s) := by
  unfold takeLateWorks
  induction ws generalizing s with
  | nil => exact p
  | cons w ws ih => exact ih (k.lateWork w p)

theorem frameEvent (lv : Levels) (late : List FrameWork) {s : State} (p : P s) : P (frameEvent lv late s) :=
  k.lateWorks _ (k.within (bs := [.pins, .work]) (by simp [onlyChanges_iff]) p)

theorem sampleIfDue (ts : PerZone Raw) {s : State} (p : P s) : P (sampleIfDue ts s) := by
  unfold Machine.sampleIfDue
  split
  · exact k.sample ts (k.lateWork _ p)
  · exact p

theorem closeIfDue {s : State} (p : P s) : P (closeIfDue s) := by
  unfold Machine.closeIfDue
  split
  · exact k.close (k.lateWork _ p)
  · exact p

theorem applyIfDue (first : List FrameWork) {s : State} (p : P s) : P (applyIfDue first s) := by
  simp only [Machine.applyIfDue, applyCommitted]
  split
  · have taken := k.lateWorks first p
    split
    · exact k.work _ taken
    · exact k.work _ taken
    · exact k.apply _ (k.work _ taken)
  · exact p

theorem clearHoldIfDue {s : State} (p : P s) : P (clearHoldIfDue s) := by
  unfold Machine.clearHoldIfDue
  split
  · exact k.hold p
  · exact p

theorem switchIfDue (first : List FrameWork) {s : State} (p : P s) : P (switchIfDue first s) := by
  simp only [Machine.switchIfDue, applyPendingSwitch]
  split
  · have cleared := k.clearHoldIfDue (k.lateWorks first p)
    split
    · exact k.work _ cleared
    · exact k.switch _ (k.work _ cleared)
  · exact p

theorem faultIfRaised (c : FaultClass) (first : List FrameWork) {s : State} (p : P s) : P (faultIfRaised c first s) := by
  unfold Machine.faultIfRaised
  split
  · exact k.fault c (k.work _ (k.lateWorks first p))
  · exact p

theorem noticeIfSent (n : Notice) {s : State} (p : P s) : P (noticeIfSent n s) := k.within (noticeIfSent_frame n s) p

theorem drainFaults (n : Nat) {s : State} (p : P s) : P (drainFaults n s) := by
  induction n generalizing s with
  | zero => exact p
  | succ n ih =>
    unfold Machine.drainFaults
    split
    · exact p
    · exact ih (k.fault _ (k.work _ p))

theorem settle {s : State} (p : P s) : P (settle s) := by
  rw [settle_eq]
  exact k.within (drainNotices_frame _) (k.drainFaults _ (k.coast (k.align (k.switchIfDue [] (k.applyIfDue []
    (k.clearHoldIfDue (k.sampleIfDue _ (k.closeIfDue (k.lateWorks frameWorks p)))))))))

/-! ## The pacer and the strobe -/

theorem timedEvent (lv : Levels) (late : List FrameWork) {s : State} (u : Timing)
    (h : u.state = s.timing.state ∨ u.state = .locked ∨ u.state = .coasting) (p : P s) :
    P (Machine.frameEvent lv late (s.setTiming u)) := k.frameEvent lv late (k.timing u h p)

theorem pacerExpires (lv : Levels) (late : List FrameWork) {s : State} (p : P s) : P (pacerExpires lv late s) := by
  simp only [Machine.pacerExpires]
  split
  · exact p
  · next e _ =>
    have later := k.moment e (k.settle p)
    generalize advanceTo e (Machine.settle s) = u at later ⊢
    exact k.timedEvent lv late _ (.inl rfl) later

theorem strobeTaken (lv : Levels) (late : List FrameWork) {s : State} (p : P s) : P (strobeTaken lv late s) := by
  unfold Machine.strobeTaken
  split
  · exact p
  · exact k.change _ (k.timedEvent lv late _ (.inr (.inl rfl)) p)
  · unfold strobeCounts
    split
    · exact p
    · exact k.timedEvent lv late _ (.inl rfl) p
  · unfold strobeRelocks
    split
    · exact k.change _ (k.timing _ (.inr (.inl rfl)) p)
    · exact k.change _ (k.timedEvent lv late _ (.inr (.inl rfl)) p)

theorem strobeLost (lv : Levels) (late : List FrameWork) {s : State} (p : P s) : P (strobeLost lv late s) := by
  simp only [Machine.strobeLost]
  split
  · exact p
  · exact k.change _ (k.timedEvent lv late _ (.inr (.inr rfl)) (k.moment _ (k.settle p)))

/-! ## Requests -/

theorem answerRequest (tag : Byte) (req : Request) {s : State} (p : P s) : P (answerRequest tag req s) := by
  unfold Machine.answerRequest
  split
  · exact k.link _ (k.request req p)
  · exact k.link _ p

theorem answerFrame (f : RxFrame) {s : State} (p : P s) : P (answerFrame f s) := by
  unfold Machine.answerFrame
  split
  · split
    · exact k.answerRequest _ _ p
    · exact k.link _ p
  · exact k.link _ p

theorem decodeOldest (t : Moment) {s : State} (p : P s) : P (decodeOldest t s) := by
  simp only [Machine.decodeOldest]
  split
  · exact p
  · split
    · exact k.answerFrame _ (k.link _ (k.settle (k.moment t p)))
    · exact p

theorem arriveRequest (tag : Byte) (req : Request) {s : State} (p : P s) : P (arriveRequest tag req s) := by
  unfold Machine.arriveRequest
  split
  · exact k.answerRequest tag req (k.settle p)
  · exact k.link _ p

/-! ## Power -/

theorem startUpCompletes (t : Moment) (lv : Levels) {s : State} (p : P s) : P (startUpCompletes t lv s) := by
  unfold Machine.startUpCompletes
  split
  · exact k.link _ (k.within (storeChange_frame _) (k.start lv (k.moment t p)))
  · exact p

theorem enterReset (t : Moment) {s : State} (p : P s) : P (enterReset t s) := by
  have still := k.timing (s := advanceTo t s) { s.timing with pacer := none, strobeLoss := none } (.inl rfl) (k.moment t p)
  exact k.apart (by simp [onlyChanges_iff, Machine.enterReset, advanceTo]) still

/-! ## Rows and steps -/

theorem taken {s t : State} (h : Taken s t) (p : P s) : P t := by
  cases h with
  | startUp m lv => exact k.startUpCompletes m lv p
  | pacer lv late => exact k.pacerExpires lv late p
  | strobe m lv late => exact k.strobeTaken lv late (k.moment m (k.settle p))
  | strobeLoss lv late => exact k.strobeLost lv late p
  | alignTimeout => exact k.align p
  | coastLimit => exact k.coast p
  | sample ts => exact k.sampleIfDue ts p
  | intervalClose => exact k.closeIfDue p
  | stagingApply first => exact k.applyIfDue first p
  | switchApply first => exact k.switchIfDue first p
  | exitHoldClear => exact k.clearHoldIfDue p
  | policyFault c first => exact k.faultIfRaised c first p
  | inhibitNotice n => exact k.noticeIfSent n p
  | linkRow m l _ => exact k.link l (k.moment m p)
  | decode m => exact k.decodeOldest m p
  | request m tag req => exact k.arriveRequest tag req (k.moment m p)

/-- Every step keeps what every operation keeps. -/
theorem step {s t : State} (h : step s = .next t) (p : P s) : P t := by
  rcases step_outcome h with rfl | ⟨rest, row⟩
  · exact p
  · cases row with
    | powerOn m => exact k.power _ _ _ _
    | rstNAsserted m => exact k.enterReset m (k.queue rest p)
    | low _ => exact k.queue rest p
    | high _ taken => exact k.taken taken (k.queue rest p)

end operations

end KeptByOperations

end Sys2Proof.Machine
end

