-- ==== Sys2Proof/Proofs/Account.lean ====
section
/-!
PROOFS. The account as an invariant (R97, R99, R100, R124). The writer's turn is the one operation that opens and closes
interval records, and GRANT_REQ the one that adds to the Open Grant List; every other operation leaves the records in
their states, and leaves of the list what it held or less of it.
-/

namespace Sys2Proof.Machine

/-! ## Records left in their states -/

/-- Every record of `t` is in the state it has in `s`, and the writer stands where it stood. -/
structure RecordsStill (s t : State) : Prop where
  writer : t.ring.writePosition = s.ring.writePosition
  states : ∀ q, (recordAt t q).state = (recordAt s q).state

theorem ringKept_iff (s : State) :
    ringKept s.ring ↔ ∀ q, (recordAt s q).state = .opened ↔ q = s.ring.writePosition := Iff.rfl

namespace RecordsStill

theorem refl (s : State) : RecordsStill s s := ⟨rfl, fun _ => rfl⟩

theorem trans {s t u : State} (h : RecordsStill s t) (k : RecordsStill t u) : RecordsStill s u :=
  ⟨k.writer.trans h.writer, fun q => (k.states q).trans (h.states q)⟩

theorem kept {s t : State} (h : RecordsStill s t) (kept : ringKept s.ring) : ringKept t.ring := by
  rw [ringKept_iff] at kept ⊢
  intro q
  rw [h.states, h.writer]
  exact kept q

theorem of_ring {s t : State} (records : t.ring.records = s.ring.records)
    (writer : t.ring.writePosition = s.ring.writePosition) : RecordsStill s t :=
  ⟨writer, fun q => by rw [recordAt_congr records]⟩

theorem of_frame {bs : List Block} {s t : State} (h : onlyChanges bs s t) (apart : .ring ∉ bs) : RecordsStill s t :=
  of_ring (by rw [frame_ring h apart]) (by rw [frame_ring h apart])

end RecordsStill

theorem recomputeExposure_still (s : State) : RecordsStill s (recomputeExposure s) :=
  .of_ring (by rw [recomputeExposure_ring]) (by rw [recomputeExposure_ring])

theorem mapRecord_still (p : Fin 128) {f : IntervalRecord → IntervalRecord} (hf : ∀ r, (f r).state = r.state)
    (s : State) : RecordsStill s (mapRecord p f s) := by
  refine ⟨rfl, fun q => ?_⟩
  rw [mapRecord_get]
  split
  · next here => rw [hf, here]
  · rfl

theorem mapNamedRecord_still (e : OpenGrant) {f : IntervalRecord → IntervalRecord} (hf : ∀ r, (f r).state = r.state)
    (s : State) : RecordsStill s (mapNamedRecord e f s) := by
  unfold mapNamedRecord
  split
  · exact mapRecord_still _ hf s
  · exact .refl s

/-- A record corrected, the list or the Change Set touched, and the figures recomputed: no record changes its state. -/
theorem recordSettled_still {bs : List Block} {e : OpenGrant} {f : IntervalRecord → IntervalRecord}
    (hf : ∀ r, (f r).state = r.state) {s t : State} (h : onlyChanges bs (mapNamedRecord e f s) t) (apart : .ring ∉ bs) :
    RecordsStill s (recomputeExposure t) :=
  ((mapNamedRecord_still e hf s).trans (.of_frame h apart)).trans (recomputeExposure_still t)

theorem settleAsGranted_still (s : State) (e : OpenGrant) : RecordsStill s (settleAsGranted s e) :=
  (mapNamedRecord_still (f := unreportedRecord) e (fun _ => rfl) s).trans (.of_frame (offerMark_frame _ _) (by decide))

theorem closeEntries_still (p : OpenGrant → Bool) (s : State) : RecordsStill s (closeEntries p s) := by
  have settled (es : List OpenGrant) : ∀ t, RecordsStill t (es.foldl settleAsGranted t) := by
    induction es with
    | nil => exact .refl
    | cons e es ih => exact fun t => (settleAsGranted_still t e).trans (ih _)
  exact (RecordsStill.of_frame (setEntries_frame _ s) (by decide)).trans (settled _ _)

theorem massClose_still (s : State) : RecordsStill s (massClose s) := closeEntries_still _ s

theorem timingBreak_still (s : State) : RecordsStill s (timingBreak s) :=
  (massClose_still s).trans (.of_frame (missTrace_frame _) (by decide))

theorem doWork_still (w : FrameWork) (s : State) : RecordsStill s (doWork w s) := by
  cases w with
  | expiry => exact (closeEntries_still _ s).trans (.of_frame (liftMark_frame _) (by decide))
  | intervalCount => exact .of_ring rfl rfl
  | sampleCounter => exact .of_frame (stepSampleCounter_frame s) (by decide)
  | dutyStep => exact .of_frame (dutyStep_frame s) (by decide)
  | supply => exact .of_frame (readSupply_frame s) (by decide)
  | traceMiss => exact .of_frame (traceMissCheck_frame s) (by decide)

/-! ### Working copies replaced -/

theorem setPolicy_still (p : PolicyStore) (s : State) : RecordsStill s (s.setPolicy p) := .of_ring rfl rfl

theorem replaceWorkingCopy_still (c : Context) (s : State) : RecordsStill s (replaceWorkingCopy c s) := by
  have replaced : RecordsStill s (clampDuty (s.setPolicy { s.policy with workingCopy := c })) :=
    .of_frame (bs := [.policy, .heat]) (frame_then (bs := [.policy]) (by simp [onlyChanges_iff]) (clampDuty_frame _))
      (by decide)
  exact (replaced.trans (recomputeExposure_still _)).trans (.of_frame (sendNotice_frame _ _) (by decide))

theorem loadSlot_still (k : Fin 6) (s : State) : RecordsStill s (loadSlot k s) :=
  (setPolicy_still _ s).trans (replaceWorkingCopy_still _ _)

theorem performSwitch_still (w : Switch) (s : State) : RecordsStill s (performSwitch w s) := by
  cases w with
  | exchange k => exact (RecordsStill.of_frame (saveWorkingCopy_frame s) (by decide)).trans (loadSlot_still k _)
  | reload =>
    exact (setPolicy_still _ s).trans (loadSlot_still _ _)

theorem applySwitch_still (w : Switch) (s : State) : RecordsStill s (applySwitch w s) :=
  ((setPolicy_still _ s).trans (performSwitch_still w _)).trans (.of_frame (raiseChange_frame _ _) (by decide))

theorem applySet_still (set : StagingSet) (s : State) : RecordsStill s (applySet set s) := by
  have closed (old : SlotsPerFrame) (t : State) : RecordsStill t (massCloseOnChange old t) := by
    unfold massCloseOnChange
    split
    · exact .refl t
    · exact massClose_still t
  let live : CarrierTable := { entries := set.entries, slotsPerFrame := set.slotsPerFrame, staging := .closed }
  have replaced : RecordsStill s (replaceWorkingCopy set.workingCopy (s.setCarriers live)) :=
    (RecordsStill.of_ring (s := s) (t := s.setCarriers live) rfl rfl).trans (replaceWorkingCopy_still _ _)
  exact (replaced.trans (closed _ _)).trans (.of_frame (raiseChange_frame _ _) (by decide))

theorem fallbackExit_still (c : FaultClass) (f : Fin 6) (s : State) : RecordsStill s (fallbackExit c f s) := by
  have loaded : RecordsStill s (loadSlot f (saveWorkingCopy s)) :=
    (RecordsStill.of_frame (saveWorkingCopy_frame s) (by decide)).trans (loadSlot_still f _)
  have dropped := (loaded.trans (.of_frame (cancelSwitch_frame _) (by decide))).trans
    (.of_frame (dropStagingOnExit_frame _) (by decide))
  exact dropped.trans (.of_frame (bs := [.policy, .changes]) (frame_then (bs := [.policy])
    (by simp [onlyChanges_iff]) (writeExit_frame _ _)) (by decide))

theorem takeFault_still (c : FaultClass) (s : State) : RecordsStill s (takeFault c s) := by
  obtain ignored | merged | absorbed | ⟨-, left⟩ := takeFault_cases c s
  · rw [ignored]; exact .refl s
  · rw [merged]; exact .of_frame (mergeExit_frame c s) (by decide)
  · rw [absorbed]; exact .of_frame (absorbedExit_frame c s) (by decide)
  · rw [left]; exact fallbackExit_still c _ s

/-! ### Requests -/

theorem withdrawEntry_still (p : Word32) (s : State) : RecordsStill s (withdrawEntry p s) := by
  unfold withdrawEntry
  split
  · exact .refl s
  · next e _ =>
    exact (recordSettled_still (f := withdrawRecord e) (fun _ => rfl) (withoutEntry_frame p _) (by decide)).trans
      (.of_frame (takeReleaseNow_frame _ _) (by decide))

theorem evictIfFull_still (s : State) : RecordsStill s (evictIfFull s) := by
  unfold evictIfFull
  split
  · exact .refl s
  · split
    · exact .refl s
    · exact (RecordsStill.of_frame (setEntries_frame _ s) (by decide)).trans (settleAsGranted_still _ _)

theorem grantSlot_still (position frame : Word32) (slot : Byte) (pairs : List Pair) (s : State) :
    RecordsStill s (grantSlot position frame slot pairs s).1 := by
  have charged (e : OpenGrant) (ls : List Lane) : RecordsStill s (chargeDecision e ls s) :=
    (mapRecord_still (f := chargeRecord _ _ _ _ _) _ (fun _ => rfl) s).trans (recomputeExposure_still _)
  have inserted (e : OpenGrant) (t : State) : RecordsStill t (insertEntry e t) :=
    (evictIfFull_still t).trans (.of_frame (setEntries_frame _ _) (by decide))
  exact ((charged _ _).trans (inserted _ _)).trans (.of_frame (captureTrace_frame _ _ _ _) (by decide))

theorem takeGrantReq_still (f : Word16) (slot : Byte) (ps : List RawPair) (s : State) :
    RecordsStill s (takeGrantReq f slot ps s).1 := by
  unfold takeGrantReq
  split
  · exact .refl s
  · split
    · exact .refl s
    · exact (withdrawEntry_still _ s).trans (grantSlot_still _ _ _ _ _)

theorem takeTxReport_still (f : Word16) (slot : Byte) (ps : List RawPair) (s : State) :
    RecordsStill s (takeTxReport f slot ps s).1 := by
  unfold takeTxReport matchReport
  split
  · exact .refl s
  · split
    · next e _ =>
      exact (recordSettled_still (f := correctRecord e _ _) (fun _ => rfl) (withoutEntry_frame _ _) (by decide)).trans
        (.of_frame (noteOvershoot_frame _ _ _) (by decide))
    · split
      · exact .refl s
      · exact ((mapRecord_still (f := unmatchedRecord _ _) _ (fun _ => rfl) s).trans (recomputeExposure_still _)).trans
          (.of_frame (noteOvershoot_frame _ _ _) (by decide))

theorem takeAlign_still (f : Word16) (s : State) : RecordsStill s (takeAlign f s).1 := by
  refine RecordsStill.trans ?_ (.of_frame (raiseChange_frame _ _) (by decide))
  have aligned : RecordsStill s (s.setTiming (alignTiming s.now f s.timing)) := .of_ring rfl rfl
  split
  · exact aligned.trans (timingBreak_still _)
  · exact aligned

theorem takeRingRelease_still (half : Byte) (s : State) : RecordsStill s (takeRingRelease half s).1 := by
  unfold takeRingRelease
  split
  · exact .of_ring rfl rfl
  · split
    · exact .of_ring rfl rfl
    · exact .refl s

theorem softReset_still (s : State) : RecordsStill s (softReset s) :=
  (massClose_still s).trans (by rw [softReset_eq]; exact .of_ring rfl rfl)

/-- No request changes the state of a record: those that reach the ring charge, correct, count or release. -/
theorem ownRequest_still (req : Request) (s : State) : RecordsStill s (ownRequest req s).1 := by
  have unchanged : ∀ {t : State}, t = s → RecordsStill s t := fun h => h ▸ .refl s
  obtain ⟨carrier, param, zone, summary, ring, trace⟩ := reads_change_nothing s
  cases req with
  | align f => exact takeAlign_still f s
  | grantReq f slot ps => exact takeGrantReq_still f slot ps s
  | txReport f slot ps => exact takeTxReport_still f slot ps s
  | ringRelease half => exact takeRingRelease_still half s
  | resetPart => exact softReset_still s
  | stageOpen => exact .of_frame (takeStageOpen_frame s) (by decide)
  | stageCarrier i e => exact .of_frame (takeStageCarrier_frame i e s) (by decide)
  | stageParam f z v => exact .of_frame (takeStageParam_frame f z v s) (by decide)
  | stageCommit => exact .of_frame (takeStageCommit_frame s) (by decide)
  | stageDrop => exact .of_frame (takeStageDrop_frame s) (by decide)
  | readCarrier i => exact unchanged (carrier i)
  | readParam i => exact unchanged (param i)
  | readZone z => exact unchanged (zone z)
  | readState => exact unchanged summary
  | exchange k => exact .of_frame (takeExchange_frame k s) (by decide)
  | reload => exact .of_frame (requestSwitch_frame _ s) (by decide)
  | ringRead start count => exact unchanged (ring start count)
  | changesRead => exact .of_frame (takeChangesRead_frame s) (by decide)
  | changesAck sources => exact .of_ring rfl rfl
  | changesMask mask mode => exact .of_frame (takeChangesMask_frame mask mode s) (by decide)
  | traceSet f slot action => exact .of_frame (takeTraceSet_frame f slot action s) (by decide)
  | traceRead => exact unchanged trace

/-! ## One OPEN record (R124) -/

/-- The writer closes the record it leaves and opens the one it enters (R128). -/
theorem turnInterval_ringKept {s : State} (kept : ringKept s.ring) : ringKept (turnInterval s).ring := by
  have writer : (turnInterval s).ring.writePosition = positionAfter s.ring.writePosition := rfl
  rw [ringKept_iff] at kept ⊢
  intro q
  rw [turnInterval_get, writer]
  split
  · next entered => exact ⟨fun _ => entered, fun _ => rfl⟩
  · next other =>
    split
    · exact ⟨nofun, fun h => absurd h other⟩
    · next left => exact ⟨fun h => absurd ((kept q).1 h) left, fun h => absurd h other⟩

theorem halvesAt_still (p : Fin 128) (closed opening : Nat) (s : State) :
    RecordsStill s (halvesAt p closed opening s) := by
  refine ⟨?_, fun q => by rw [halvesAt_get]⟩
  rw [halvesAt_ring]
  split
  · rfl
  · split <;> rfl

theorem closeInterval_ringKept {s : State} (kept : ringKept s.ring) : ringKept (closeInterval s).ring :=
  (recomputeExposure_still _).kept (turnInterval_ringKept ((halvesAt_still _ _ _ s).kept kept))

/-- The power-on fill opens the record at position 0 alone (R126). -/
theorem fillRing_ringKept (presumption : Nat) (s : State) : ringKept (fillRing presumption s).ring := by
  have writer : (fillRing presumption s).ring.writePosition = 0 := rfl
  rw [ringKept_iff]
  intro q
  rw [fillRing_get, writer]
  split
  · next first => exact ⟨fun _ => first, fun _ => rfl⟩
  · next other => split <;> exact ⟨nofun, fun h => absurd h other⟩

theorem startBlocks_ringKept (lv : Levels) (s : State) : ringKept (startBlocks lv s).ring :=
  (RecordsStill.of_frame (bs := [.inhibit, .timing]) (frame_then (startUpInhibit_frame _) (setTiming_frame _ _))
    (by decide)).kept (fillRing_ringKept _ _)

theorem coastLimitIfDue_still (s : State) : RecordsStill s (coastLimitIfDue s) := by
  unfold coastLimitIfDue
  split
  · have free : RecordsStill s (s.setTiming { s.timing with state := .free, coastCount := 0 }) := .of_ring rfl rfl
    exact ((free.trans (timingBreak_still _)).trans (.of_frame (raiseChange_frame _ _) (by decide))).trans
      (.of_frame (raiseFault_frame _ _) (by decide))
  · exact .refl s

theorem ringKept_byOperations : KeptByOperations fun s => ringKept s.ring where
  apart h := (RecordsStill.of_frame h (by decide)).kept
  queue _ := id
  part w {s} := (doWork_still w s).kept
  sample ts {s} := (RecordsStill.of_frame (takeSample_frame ts s) (by decide)).kept
  close := closeInterval_ringKept
  apply set {s} := (applySet_still set s).kept
  switch w {s} := (applySwitch_still w s).kept
  hold {s} := (RecordsStill.of_frame (clearHold_frame s) (by decide)).kept
  fault c {s} := (takeFault_still c s).kept
  align {s} := (RecordsStill.of_frame (alignTimeoutIfDue_frame s) (by decide)).kept
  coast {s} := (coastLimitIfDue_still s).kept
  timing _ _ := id
  request req {s} := (ownRequest_still req s).kept
  start lv {s} _ := startBlocks_ringKept lv s
  power _ _ _ _ := reset_ringKept

/-! ## A legal Open Grant List (R97, R99, R100) -/

/-- The list of `t` holds entries of `s` in their order, a trace is armed only if it was, and the part holds timing where
it did. -/
structure GrantsShrink (s t : State) : Prop where
  timing : holdsTiming t = holdsTiming s
  entries : t.openGrants.entries.Sublist s.openGrants.entries
  trace : s.engine.armed = none → t.engine.armed = none

theorem holdsTiming_congr {s t : State} (h : t.timing.state = s.timing.state) : holdsTiming t = holdsTiming s := by
  simp only [holdsTiming, h]

/-- The first two clauses of `grantsKept`: within 16 places, and no two entries of one slot position. -/
def listLegal (es : List OpenGrant) : Prop := es.length ≤ 16 ∧ (es.map OpenGrant.position).Nodup

theorem grantsKept_iff (s : State) :
    grantsKept s ↔ listLegal s.openGrants.entries ∧
      (holdsTiming s = false → s.openGrants.entries = [] ∧ s.engine.armed = none) := and_assoc.symm

theorem listLegal_sublist {es fs : List OpenGrant} (h : fs.Sublist es) (legal : listLegal es) : listLegal fs :=
  ⟨h.length_le.trans legal.1, legal.2.sublist (h.map _)⟩

namespace GrantsShrink

theorem refl (s : State) : GrantsShrink s s := ⟨rfl, List.Sublist.refl _, id⟩

theorem trans {s t u : State} (h : GrantsShrink s t) (k : GrantsShrink t u) : GrantsShrink s u :=
  ⟨k.timing.trans h.timing, k.entries.trans h.entries, k.trace ∘ h.trace⟩

theorem kept {s t : State} (h : GrantsShrink s t) (kept : grantsKept s) : grantsKept t := by
  rw [grantsKept_iff] at kept ⊢
  obtain ⟨legal, without⟩ := kept
  refine ⟨listLegal_sublist h.entries legal, fun free => ?_⟩
  obtain ⟨empty, disarmed⟩ := without (h.timing ▸ free)
  exact ⟨List.eq_nil_of_sublist_nil (empty ▸ h.entries), h.trace disarmed⟩

theorem of_frame {bs : List Block} {s t : State} (h : onlyChanges bs s t) (timing : .timing ∉ bs := by decide)
    (grants : .openGrants ∉ bs := by decide) (engine : .engine ∉ bs := by decide) : GrantsShrink s t :=
  ⟨holdsTiming_congr (by rw [frame_timing h timing]), by rw [frame_openGrants h grants],
    fun disarmed => by rw [frame_engine h engine, disarmed]⟩

/-- An operation that reaches the list, and leaves it with entries it held. -/
theorem of_entries {bs : List Block} {s t : State} (h : onlyChanges bs s t)
    (entries : t.openGrants.entries.Sublist s.openGrants.entries) (timing : .timing ∉ bs := by decide)
    (engine : .engine ∉ bs := by decide) : GrantsShrink s t :=
  ⟨holdsTiming_congr (by rw [frame_timing h timing]), entries,
    fun disarmed => by rw [frame_engine h engine, disarmed]⟩

end GrantsShrink

/-- An empty list and no armed trace are legal in every timing state. -/
theorem grantsKept_of_empty {s : State} (entries : s.openGrants.entries = []) (trace : s.engine.armed = none) :
    grantsKept s := by
  rw [grantsKept_iff, entries]
  exact ⟨⟨Nat.zero_le _, List.nodup_nil⟩, fun _ => ⟨rfl, trace⟩⟩

/-- While the part holds timing, only the list is judged. -/
theorem grantsKept_of_legal {s : State} (holds : holdsTiming s = true) (legal : listLegal s.openGrants.entries) :
    grantsKept s := (grantsKept_iff s).2 ⟨legal, fun free => nomatch holds.symm.trans free⟩

theorem massClose_shrinks (s : State) : GrantsShrink s (massClose s) :=
  .of_entries (massClose_frame s) (by rw [massClose_entries]; exact List.nil_sublist _)

theorem liftMark_entries (s : State) : (liftMark s).openGrants.entries = s.openGrants.entries := by
  unfold liftMark
  split <;> rfl

theorem expiryCheck_entries (s : State) :
    (expiryCheck s).openGrants.entries = s.openGrants.entries.filter fun e => !expired s e := by
  rw [expiryCheck, liftMark_entries, closeEntries_entries]

theorem traceMissCheck_shrinks (s : State) : GrantsShrink s (traceMissCheck s) := by
  have frame := traceMissCheck_frame s
  exact ⟨holdsTiming_congr (by rw [frame_timing frame (by decide)]), by rw [frame_openGrants frame (by decide)],
    fun disarmed => by rw [traceMissCheck_disarmed disarmed, disarmed]⟩

theorem doWork_shrinks (w : FrameWork) (s : State) : GrantsShrink s (doWork w s) := by
  cases w with
  | expiry => exact .of_entries (expiryCheck_frame s) (expiryCheck_entries s ▸ List.filter_sublist)
  | intervalCount => exact .of_frame (countInterval_frame s)
  | sampleCounter => exact .of_frame (stepSampleCounter_frame s)
  | dutyStep => exact .of_frame (dutyStep_frame s)
  | supply => exact .of_frame (readSupply_frame s)
  | traceMiss => exact traceMissCheck_shrinks s

theorem massCloseOnChange_shrinks (old : SlotsPerFrame) (s : State) : GrantsShrink s (massCloseOnChange old s) := by
  unfold massCloseOnChange
  split
  · exact .refl s
  · exact massClose_shrinks s

theorem applySet_shrinks (set : StagingSet) (s : State) : GrantsShrink s (applySet set s) := by
  let live : CarrierTable := { entries := set.entries, slotsPerFrame := set.slotsPerFrame, staging := .closed }
  have replaced : GrantsShrink s (replaceWorkingCopy set.workingCopy (s.setCarriers live)) :=
    .of_frame (bs := [.carriers, .policy, .heat, .ring, .work])
      (frame_then (bs := [.carriers]) (by simp [onlyChanges_iff]) (replaceWorkingCopy_frame _ _))
  exact (replaced.trans (massCloseOnChange_shrinks _ _)).trans (.of_frame (raiseChange_frame _ _))

/-! ### The timing state moved -/

/-- The part comes to hold timing, or holds it as before, with list and trace as they stand. -/
theorem setTiming_grantsKept {s : State} (u : Timing)
    (h : u.state = s.timing.state ∨ u.state = .locked ∨ u.state = .coasting) (kept : grantsKept s) :
    grantsKept (s.setTiming u) := by
  obtain same | holds := h
  · exact GrantsShrink.kept ⟨holdsTiming_congr same, List.Sublist.refl _, id⟩ kept
  · exact grantsKept_of_legal ((holdsTiming_iff _).2 holds) ((grantsKept_iff s).1 kept).1

/-- A timing break leaves nothing to judge (R5, R12). -/
theorem timingBreak_grantsKept (s : State) : grantsKept (timingBreak s) :=
  grantsKept_of_empty (timingBreak_entries s) (by rw [timingBreak_engine])

theorem alignTimeoutIfDue_grantsKept {s : State} (kept : grantsKept s) : grantsKept (alignTimeoutIfDue s) := by
  unfold alignTimeoutIfDue
  split
  · next due =>
    have free : holdsTiming s = false := by simp [holdsTiming, ((alignTimeoutDue_iff s).1 due).1]
    obtain ⟨empty, disarmed⟩ := ((grantsKept_iff s).1 kept).2 free
    exact GrantsShrink.kept (.of_frame (raiseChange_frame _ _)) (grantsKept_of_empty empty disarmed)
  · exact kept

theorem coastLimitIfDue_grantsKept {s : State} (kept : grantsKept s) : grantsKept (coastLimitIfDue s) := by
  unfold coastLimitIfDue
  split
  · exact ((GrantsShrink.of_frame (raiseChange_frame _ _)).trans (.of_frame (raiseFault_frame _ _))).kept
      (timingBreak_grantsKept _)
  · exact kept

theorem takeAlign_grantsKept (f : Word16) {s : State} (kept : grantsKept s) : grantsKept (takeAlign f s).1 := by
  refine GrantsShrink.kept (.of_frame (raiseChange_frame _ _)) ?_
  split
  · exact timingBreak_grantsKept _
  · next free =>
    obtain ⟨empty, disarmed⟩ := ((grantsKept_iff s).1 kept).2 (Bool.eq_false_of_not_eq_true free)
    exact grantsKept_of_empty empty disarmed

theorem softReset_grantsKept (s : State) : grantsKept (softReset s) := by
  rw [softReset_eq]
  exact grantsKept_of_empty (massClose_entries s) rfl

/-! ### Requests on the list -/

theorem checkPairs_holds {slot : Byte} {raw : List RawPair} {s : State} {ps : List Pair}
    (h : checkPairs slot raw s = .ok ps) : holdsTiming s = true := by
  unfold checkPairs at h
  split at h
  · next holds => exact holds
  · cases h

theorem withdrawEntry_entries (p : Word32) (s : State) :
    (withdrawEntry p s).openGrants.entries = s.openGrants.entries.filter fun e => e.position != p := by
  unfold withdrawEntry
  split
  · next none =>
    refine (List.filter_eq_self.2 fun e he => ?_).symm
    simpa using List.find?_eq_none.1 none e he
  · rw [frame_openGrants (takeReleaseNow_frame _ _) (by decide), frame_openGrants (recomputeExposure_frame _) (by decide),
      withoutEntry, setEntries, setOpenGrants_openGrants, frame_openGrants (mapNamedRecord_frame _ _ _) (by decide)]

theorem evictIfFull_sublist (s : State) :
    (evictIfFull s).openGrants.entries.Sublist s.openGrants.entries := by
  unfold evictIfFull
  split
  · exact List.Sublist.refl _
  · split
    · exact List.Sublist.refl _
    · next e rest full =>
      rw [settleAsGranted_entries, full]
      exact List.sublist_cons_self e rest

/-- A new entry of a fresh slot position leaves the list legal (R100, R105). -/
theorem insertEntry_listLegal {e : OpenGrant} {s : State} (legal : listLegal s.openGrants.entries)
    (fresh : ∀ x ∈ s.openGrants.entries, x.position ≠ e.position) : listLegal (insertEntry e s).openGrants.entries := by
  refine ⟨insertEntry_length e s legal.1, ?_⟩
  have evicted := evictIfFull_sublist s
  have perm := (insertByPosition_perm e (evictIfFull s).openGrants.entries).map OpenGrant.position
  refine perm.nodup_iff.2 (List.nodup_cons.2 ⟨fun h => ?_, legal.2.sublist (evicted.map _)⟩)
  obtain ⟨x, hx, same⟩ := List.mem_map.1 h
  exact fresh x (evicted.subset hx) same

/-- After a withdrawal no entry has the slot position (R103). -/
theorem withdrawEntry_fresh (p : Word32) (s : State) : ∀ e ∈ (withdrawEntry p s).openGrants.entries, e.position ≠ p := by
  rw [withdrawEntry_entries]
  exact fun e he => by simpa using (List.mem_filter.1 he).2

theorem grantSlot_grantsKept (position frame : Word32) (slot : Byte) (pairs : List Pair) {s : State}
    (holds : holdsTiming s = true) (legal : listLegal s.openGrants.entries)
    (fresh : ∀ e ∈ s.openGrants.entries, e.position ≠ position) :
    grantsKept (grantSlot position frame slot pairs s).1 := by
  have state := congrArg Timing.state (frame_timing (grantSlot_frame position frame slot pairs s) (by decide))
  refine grantsKept_of_legal ((holdsTiming_congr state).trans holds) ?_
  simp only [grantSlot]
  have list (e : OpenGrant) (ls : List Lane) : (chargeDecision e ls s).openGrants = s.openGrants :=
    frame_openGrants (chargeDecision_frame e ls s) (by decide)
  rw [frame_openGrants (captureTrace_frame _ _ _ _) (by decide)]
  exact insertEntry_listLegal (by rw [list]; exact legal) (by rw [list]; exact fresh)

theorem takeGrantReq_grantsKept (f : Word16) (slot : Byte) (ps : List RawPair) {s : State} (kept : grantsKept s) :
    grantsKept (takeGrantReq f slot ps s).1 := by
  unfold takeGrantReq
  split
  · exact kept
  · next pairs checked =>
    split
    · exact kept
    · have state (p : Word32) : (withdrawEntry p s).timing.state = s.timing.state :=
        congrArg Timing.state (frame_timing (withdrawEntry_frame p s) (by decide))
      have legal (p : Word32) : listLegal (withdrawEntry p s).openGrants.entries := by
        rw [withdrawEntry_entries]
        exact listLegal_sublist List.filter_sublist ((grantsKept_iff s).1 kept).1
      exact grantSlot_grantsKept _ _ slot pairs ((holdsTiming_congr (state _)).trans (checkPairs_holds checked))
        (legal _) (withdrawEntry_fresh _ s)

theorem takeTxReport_shrinks (f : Word16) (slot : Byte) (ps : List RawPair) (s : State) :
    GrantsShrink s (takeTxReport f slot ps s).1 := by
  unfold takeTxReport matchReport
  split
  · exact .refl s
  · split
    · refine .trans (.of_entries (settleHit_frame _ _ _ s) ?_) (.of_frame (noteOvershoot_frame _ _ _))
      rw [settleHit, frame_openGrants (recomputeExposure_frame _) (by decide), withoutEntry, setEntries,
        setOpenGrants_openGrants, frame_openGrants (mapNamedRecord_frame _ _ _) (by decide)]
      exact List.filter_sublist
    · split
      · exact .refl s
      · exact .of_frame (frame_then (ds := [.ring, .changes, .work]) (chargeUnmatched_frame _ _ s)
          (noteOvershoot_frame _ _ _))

theorem armTrace_grantsKept (f : Word16) (slot : Byte) {s : State} (kept : grantsKept s) :
    grantsKept (armTrace f slot s).1 := by
  unfold armTrace
  split
  · exact kept
  · next refused =>
    have holds : holdsTiming s = true := by simpa using refused
    split
    · exact kept
    · split
      · exact kept
      · exact grantsKept_of_legal (s := s.setEngine _) holds ((grantsKept_iff s).1 kept).1

theorem takeTraceSet_grantsKept (f : Word16) (slot action : Byte) {s : State} (kept : grantsKept s) :
    grantsKept (takeTraceSet f slot action s).1 := by
  unfold takeTraceSet
  split
  · exact armTrace_grantsKept f slot kept
  · split
    · exact GrantsShrink.kept (s := s) ⟨rfl, List.Sublist.refl _, fun _ => rfl⟩ kept
    · exact kept

theorem ownRequest_grantsKept (req : Request) {s : State} (kept : grantsKept s) :
    grantsKept (ownRequest req s).1 := by
  have unchanged : ∀ {t : State}, t = s → grantsKept t := fun h => h ▸ kept
  obtain ⟨carrier, param, zone, summary, ring, trace⟩ := reads_change_nothing s
  cases req with
  | align f => exact takeAlign_grantsKept f kept
  | grantReq f slot ps => exact takeGrantReq_grantsKept f slot ps kept
  | txReport f slot ps => exact (takeTxReport_shrinks f slot ps s).kept kept
  | traceSet f slot action => exact takeTraceSet_grantsKept f slot action kept
  | resetPart => exact softReset_grantsKept s
  | stageOpen => exact GrantsShrink.kept (.of_frame (takeStageOpen_frame s)) kept
  | stageCarrier i e => exact GrantsShrink.kept (.of_frame (takeStageCarrier_frame i e s)) kept
  | stageParam f z v => exact GrantsShrink.kept (.of_frame (takeStageParam_frame f z v s)) kept
  | stageCommit => exact GrantsShrink.kept (.of_frame (takeStageCommit_frame s)) kept
  | stageDrop => exact GrantsShrink.kept (.of_frame (takeStageDrop_frame s)) kept
  | readCarrier i => exact unchanged (carrier i)
  | readParam i => exact unchanged (param i)
  | readZone z => exact unchanged (zone z)
  | readState => exact unchanged summary
  | exchange k => exact GrantsShrink.kept (.of_frame (takeExchange_frame k s)) kept
  | reload => exact GrantsShrink.kept (.of_frame (requestSwitch_frame _ s)) kept
  | ringRead start count => exact unchanged (ring start count)
  | ringRelease half => exact GrantsShrink.kept (.of_frame (takeRingRelease_frame half s)) kept
  | changesRead => exact GrantsShrink.kept (.of_frame (takeChangesRead_frame s)) kept
  | changesAck sources => exact kept
  | changesMask mask mode => exact GrantsShrink.kept (.of_frame (takeChangesMask_frame mask mode s)) kept
  | traceRead => exact unchanged trace

theorem startBlocks_shrinks (lv : Levels) (s : State) : GrantsShrink s (startBlocks lv s) := ⟨rfl, List.Sublist.refl _, id⟩

theorem grantsKept_byOperations : KeptByOperations grantsKept where
  apart h := GrantsShrink.kept (.of_frame h)
  queue _ := id
  part w {s} := (doWork_shrinks w s).kept
  sample ts {s} := GrantsShrink.kept (.of_frame (takeSample_frame ts s))
  close {s} := GrantsShrink.kept (.of_frame (closeInterval_frame s))
  apply set {s} := (applySet_shrinks set s).kept
  switch w {s} := GrantsShrink.kept (.of_frame (applySwitch_frame w s))
  hold {s} := GrantsShrink.kept (.of_frame (clearHold_frame s))
  fault c {s} := GrantsShrink.kept (.of_frame (takeFault_frame c s))
  align := alignTimeoutIfDue_grantsKept
  coast := coastLimitIfDue_grantsKept
  timing u h := setTiming_grantsKept u h
  request req {_} := ownRequest_grantsKept req
  start lv {s} := (startBlocks_shrinks lv s).kept
  power _ _ _ _ := grantsKept_of_empty rfl rfl

/-- Settles O58: each of the two invariants is kept by every operation a row is made of. -/
theorem stepKeepsTheAccount : Obligations.StepKeepsTheAccount :=
  ⟨fun _ _ kept h => ringKept_byOperations.step h kept, fun _ _ kept h => grantsKept_byOperations.step h kept⟩

end Sys2Proof.Machine
end

