-- ==== Sys2Proof/Proofs/Reduction.lean ====
section
/-!
PROOFS. What the reduction procedure makes of every lane (R82, R83). The walk takes distinct carriers in reduce order;
where it reaches a lane above the allowance, the lanes before it have nothing left to give and the lanes after it stand as
they were, so what it makes of the lane rests on the lanes after it alone.
-/

namespace Sys2Proof.Machine

/-! ## The Power Conversion Table (R71) -/

theorem powerTable_rounded : ∀ c : Fin 160,
    (2 * tablePower c.val - 1) ^ 20 * 10 ^ 20 ≤ 10 ^ c.val * 2 ^ 20 ∧
      10 ^ c.val * 2 ^ 20 < (2 * tablePower c.val + 1) ^ 20 * 10 ^ 20 := by decide +kernel

/-- Settles O50: each entry compared with the power of ten it rounds, both raised to the 20th power. -/
theorem powerTableIsRounded : Obligations.PowerTableIsRounded :=
  ⟨powerTable_rounded, fun _ _ => tablePower_mono⟩

/-! ## The highest fitting code -/

theorem highestFit_bottom {fits : Nat → Bool} {bottom c k : Nat} (h : highestFit fits bottom c = some k) :
    bottom ≤ k := by
  induction c with
  | zero =>
    obtain ⟨⟨least, -⟩, -⟩ : (bottom = 0 ∧ fits 0 = true) ∧ 0 = k := by simpa [highestFit] using h
    exact least.le.trans k.zero_le
  | succ c ih =>
    unfold highestFit at h
    split at h
    · cases h
    · next above =>
      split at h
      · cases h; exact Nat.le_of_not_lt above
      · exact ih h

/-- No code above the one found fits, and none fits where none is found. -/
theorem highestFit_above {fits : Nat → Bool} {bottom c j : Nat} (le : j ≤ c) (least : bottom ≤ j)
    (above : ∀ k, highestFit fits bottom c = some k → k < j) : fits j = false := by
  induction c with
  | zero =>
    obtain rfl := Nat.le_zero.1 le
    rw [← Bool.not_eq_true]
    intro fit
    exact absurd (above 0 (by simp [highestFit, fit, Nat.le_zero.1 least])) (lt_irrefl 0)
  | succ c ih =>
    unfold highestFit at above
    rw [if_neg (Nat.not_lt.2 (least.trans le))] at above
    split at above
    · exact absurd (above _ rfl) (Nat.not_lt.2 le)
    · next unfit =>
      obtain rfl | lower := Nat.eq_or_lt_of_le le
      · exact Bool.eq_false_of_not_eq_true unfit
      · exact ih (Nat.le_of_lt_succ lower) above

/-! ## The reduce order (R82) -/

theorem takenBefore_iff {a b : Lane} :
    takenBefore a b = true ↔
      b.entry.priority < a.entry.priority ∨ (a.entry.priority = b.entry.priority ∧ b.index < a.index) :=
  decide_eq_true_iff

theorem takenBefore_asymm {a b : Lane} (h : takenBefore a b = true) : takenBefore b a = false := by
  rw [← Bool.not_eq_true, takenBefore_iff]
  rw [takenBefore_iff] at h
  omega

theorem takenBefore_irrefl (a : Lane) : takenBefore a a = false := by
  rw [← Bool.not_eq_true]
  exact fun h => absurd (takenBefore_asymm h) (by simp [h])

theorem lane_unique {ls : List Lane} (distinct : (ls.map Lane.index).Nodup) {a b : Lane} (ha : a ∈ ls) (hb : b ∈ ls)
    (h : a.index = b.index) : a = b := List.inj_on_of_nodup_map distinct ha hb h

/-- The indices of the reduce order stand in the order in which their lanes are taken. -/
theorem reduceOrder_sorted {ls : List Lane} (distinct : (ls.map Lane.index).Nodup) :
    (reduceOrder ls).Pairwise fun i j =>
      ∀ a ∈ ls, ∀ b ∈ ls, a.index = i → b.index = j → takenBefore a b = true := by
  have priority {i : Fin 8} {p : Fin 4} {a : Lane} (ha : a ∈ ls) (index : a.index = i)
      (h : i ∈ indicesDown.filter fun i => ls.any fun l => l.index == i && l.entry.priority == p) :
      a.entry.priority = p := by
    obtain ⟨x, hx, listed⟩ := List.any_eq_true.1 (List.mem_filter.1 h).2
    obtain ⟨hi, hp⟩ : x.index = i ∧ x.entry.priority = p := by simpa using listed
    rw [lane_unique distinct ha hx (index.trans hi.symm), hp]
  refine List.pairwise_flatMap.2 ⟨fun p _ => ?_, ?_⟩
  · have down : indicesDown.Pairwise (· > ·) := by decide
    refine (down.filter _).imp_of_mem fun {i j} hi hj lower a ha b hb hai hbj => takenBefore_iff.2 (.inr ?_)
    exact ⟨(priority ha hai hi).trans (priority hb hbj hj).symm, by rw [hai, hbj]; exact lower⟩
  · have down : ([3, 2, 1, 0] : List (Fin 4)).Pairwise (· > ·) := by decide
    refine down.imp fun {p q} lower i hi j hj a ha b hb hai hbj => takenBefore_iff.2 (.inl ?_)
    rw [priority ha hai hi, priority hb hbj hj]
    exact lower

/-- The reduce order around one lane: the lanes before it, then the lane, then the lanes after it. -/
theorem reduceOrder_around {ls : List Lane} (distinct : (ls.map Lane.index).Nodup) {l : Lane} (h : l ∈ ls) :
    ∃ before after, reduceOrder ls = before ++ l.index :: after ∧ l.index ∉ before ∧ l.index ∉ after ∧
      ∀ x ∈ ls, x = l ∨ (x.index ∈ before ∧ takenBefore l x = false) ∨
        (x.index ∈ after ∧ x.index ∉ before ∧ takenBefore l x = true) := by
  have sorted := reduceOrder_sorted distinct
  obtain ⟨before, after, split⟩ := List.append_of_mem (index_mem_reduceOrder h)
  rw [split] at sorted
  obtain ⟨-, fromLane, across⟩ := List.pairwise_append.1 sorted
  have later := (List.pairwise_cons.1 fromLane).1
  refine ⟨before, after, split, fun hb => ?_, fun ha => ?_, fun x hx => ?_⟩
  · exact absurd (across _ hb _ List.mem_cons_self l h l h rfl rfl) (by simp [takenBefore_irrefl])
  · exact absurd (later _ ha l h l h rfl rfl) (by simp [takenBefore_irrefl])
  · have listed := split ▸ index_mem_reduceOrder hx
    by_cases hb : x.index ∈ before
    · exact .inr (.inl ⟨hb, takenBefore_asymm (across _ hb _ List.mem_cons_self x hx l h rfl rfl)⟩)
    · obtain here | ha := List.mem_cons.1 ((List.mem_append.1 listed).resolve_left hb)
      · exact .inl (lane_unique distinct hx h here)
      · exact .inr (.inr ⟨ha, hb, later _ ha l h x hx rfl rfl⟩)

/-! ## The walk before and after a lane -/

theorem walk_lowered (r : Reduction) (is : List (Fin 8)) (ls : List Lane) :
    List.Forall₂ Lowered ls (is.foldl (reduceStep r) ls) :=
  foldl_lowered (fun i _ ls => reduceStep_lowered r ls i) ls

/-- The walk leaves the lanes of the carriers it does not take. -/
theorem mem_walk_passed {r : Reduction} {is : List (Fin 8)} {ls : List Lane} {m : Lane} (passed : m.index ∉ is) :
    m ∈ is.foldl (reduceStep r) ls ↔ m ∈ ls := by
  induction is generalizing ls with
  | nil => rfl
  | cons i rest ih =>
    rw [List.mem_cons, not_or] at passed
    rw [List.foldl_cons, ih passed.2]
    by_cases fits : laneSum r ls ≤ r.allowance
    · rw [reduceStep_fits fits]
    · rw [reduceStep_walks fits, List.mem_map]
      constructor
      · rintro ⟨l, hl, rfl⟩
        rw [(walkLane_lowered r _ i l).index] at passed
        rwa [walkLane_passes passed.1]
      · exact fun hm => ⟨m, hm, walkLane_passes passed.1⟩

/-- After a walk over distinct carriers the sum fits, or every carrier taken is spent. -/
theorem walk_fits_or_spends (r : Reduction) (is : List (Fin 8)) {ls : List Lane} (distinct : (ls.map Lane.index).Nodup) :
    laneSum r (is.foldl (reduceStep r) ls) ≤ r.allowance ∨
      ∀ m ∈ is.foldl (reduceStep r) ls, m.index ∈ is → Spent r m := by
  induction is generalizing ls with
  | nil => exact .inr fun _ _ h => absurd h List.not_mem_nil
  | cons i rest ih =>
    rw [List.foldl_cons]
    obtain fits | spends := reduceStep_fits_or_spends r distinct i
    · exact .inl (by rwa [walk_of_fits fits])
    · refine (ih (indices_of_lowered (reduceStep_lowered r ls i) ▸ distinct)).imp_right fun restSpent m hm taken => ?_
      obtain here | later := List.mem_cons.1 taken
      · exact forall_of_lowered (P := fun l => l.index = i → Spent r l)
          (fun l m h k e => h.spent (k (h.index ▸ e))) (walk_lowered r rest _) spends m hm here
      · exact restSpent m hm later

/-- A sum over some lanes of a list is at most a sum over some lanes of another, where it is so lane by lane. -/
theorem laneSum_filter_le {r : Reduction} {p q : Lane → Bool} {ls ms : List Lane}
    (h : List.Forall₂ (fun l m => (if p l then lanePower r l else 0) ≤ if q m then lanePower r m else 0) ls ms) :
    laneSum r (ls.filter p) ≤ laneSum r (ms.filter q) := by
  have sum_filter (p : Lane → Bool) (ls : List Lane) :
      laneSum r (ls.filter p) = (ls.map fun l => if p l then lanePower r l else 0).sum := by
    induction ls with
    | nil => rfl
    | cons l rest ih =>
      simp only [laneSum, List.filter_cons, List.map_cons, List.sum_cons] at ih ⊢
      split
      · rw [List.map_cons, List.sum_cons, ih]
      · rw [ih, Nat.zero_add]
  rw [sum_filter, sum_filter]
  exact List.Forall₂.sum_le_sum (List.forall₂_map_left_iff.2 (List.forall₂_map_right_iff.2 h))

/-- Lanes pair by pair, each with its own carrier. -/
theorem forall₂_of_index {R : Lane → Lane → Prop} {ls ms : List Lane} (h : List.Forall₂ Lowered ls ms)
    (pairs : ∀ l ∈ ls, ∀ m ∈ ms, Lowered l m → R l m) : List.Forall₂ R ls ms := by
  induction h with
  | nil => exact .nil
  | cons first _ ih =>
    exact .cons (pairs _ List.mem_cons_self _ List.mem_cons_self first)
      (ih fun l hl m hm => pairs l (List.mem_cons_of_mem _ hl) m (List.mem_cons_of_mem _ hm))

/-- The walk has taken the carriers `before` and comes to lane `l`, with the carriers `after` still to take (R82). -/
structure Reached (ls : List Lane) (l : Lane) (before after : List (Fin 8)) : Prop where
  distinct : (ls.map Lane.index).Nodup
  listed : l ∈ ls
  order : reduceOrder ls = before ++ l.index :: after
  notBefore : l.index ∉ before
  notAfter : l.index ∉ after
  around : ∀ x ∈ ls, x = l ∨ (x.index ∈ before ∧ takenBefore l x = false) ∨
    (x.index ∈ after ∧ x.index ∉ before ∧ takenBefore l x = true)

theorem reached {ls : List Lane} (distinct : (ls.map Lane.index).Nodup) {l : Lane} (h : l ∈ ls) :
    ∃ before after, Reached ls l before after := by
  obtain ⟨before, after, order, notBefore, notAfter, around⟩ := reduceOrder_around distinct h
  exact ⟨before, after, distinct, h, order, notBefore, notAfter, around⟩

section walk
variable {r : Reduction} {ls : List Lane} {l : Lane} {before after : List (Fin 8)} (h : Reached ls l before after)
include h

/-- Each lane as the walk finds it at `l`: `l` itself, one taken before, or one still to take, which stands as it was. -/
theorem Reached.pair {x m : Lane} (hx : x ∈ ls) (hm : m ∈ before.foldl (reduceStep r) ls) (index : m.index = x.index) :
    (x = l ∧ m.index = l.index) ∨ (m.index ∈ before ∧ takenBefore l x = false) ∨
      (m = x ∧ m.index ≠ l.index ∧ takenBefore l x = true) := by
  obtain rfl | ⟨hb, earlier⟩ | ⟨ha, hb, later⟩ := h.around x hx
  · exact .inl ⟨rfl, index⟩
  · exact .inr (.inl ⟨index ▸ hb, earlier⟩)
  · refine .inr (.inr ⟨?_, fun e => h.notAfter (e ▸ index ▸ ha), later⟩)
    exact lane_unique h.distinct ((mem_walk_passed (index ▸ hb)).1 hm) hx index

/-- The lanes after `l` stand as they were where the walk comes to `l`. -/
theorem Reached.after_le_others :
    laneSum r (ls.filter (takenBefore l)) ≤ othersSum r (before.foldl (reduceStep r) ls) l.index := by
  refine laneSum_filter_le (forall₂_of_index (walk_lowered r before ls) fun x hx m hm lowered => ?_)
  obtain ⟨rfl, -⟩ | ⟨-, earlier⟩ | ⟨rfl, other, later⟩ := h.pair hx hm lowered.index
  · simp [takenBefore_irrefl]
  · simp [earlier]
  · simp [later, other]

/-- Where the lanes before `l` are spent, nothing counts beside `l` but the lanes after it. -/
theorem Reached.others_le_after (spent : ∀ m ∈ before.foldl (reduceStep r) ls, m.index ∈ before → Spent r m) :
    othersSum r (before.foldl (reduceStep r) ls) l.index ≤ laneSum r (ls.filter (takenBefore l)) := by
  refine laneSum_filter_le (List.Forall₂.flip (forall₂_of_index (walk_lowered r before ls) fun x hx m hm lowered => ?_))
  obtain ⟨rfl, same⟩ | ⟨hb, -⟩ | ⟨rfl, other, later⟩ := h.pair hx hm lowered.index
  · simp [flip, same]
  · simp [flip, lanePower_spent (spent m hm hb)]
  · simp [flip, later, other]

end walk

/-! ## What the procedure makes of a lane (R83) -/

/-- The bottom of a lane's candidates: its floor where floors are respected (R83, step 2). -/
def lowestCandidate (r : Reduction) (l : Lane) : Nat := if r.floors then l.entry.floor else 0

theorem reduceLane_code {r : Reduction} {others c k : Nat} {l : Lane} (least : lowestCandidate r l ≤ k) (le : k ≤ c)
    (fits : others + measure r l.entry k ≤ r.allowance)
    (above : ∀ j, k < j → j ≤ c → r.allowance < others + measure r l.entry j) :
    reduceLane r others c l = lowerLane (.code k) r.reason l := by
  unfold reduceLane
  rw [← lowestCandidate]
  split
  · next j found =>
    obtain ⟨le', fits'⟩ := highestFit_some found
    obtain lt | rfl | gt := Nat.lt_trichotomy j k
    · refine absurd (highestFit_above (fits := fun k => decide (others + measure r l.entry k ≤ r.allowance)) le least
        fun i hi => ?_) (by simpa using fits)
      rw [found] at hi
      cases hi; exact lt
    · rfl
    · exact absurd (of_decide_eq_true fits') (Nat.not_le.2 (above j gt le'))
  · next none =>
    refine absurd (highestFit_above (fits := fun k => decide (others + measure r l.entry k ≤ r.allowance)) le least
      fun i hi => ?_) (by simpa using fits)
    rw [none] at hi
    cases hi

theorem reduceLane_off {r : Reduction} {others c : Nat} {l : Lane}
    (none : ∀ k, lowestCandidate r l ≤ k → k ≤ c → r.allowance < others + measure r l.entry k) :
    reduceLane r others c l = lowerLane .off r.reason l := by
  unfold reduceLane
  split
  · next k found =>
    obtain ⟨le, fits⟩ := highestFit_some found
    exact absurd (of_decide_eq_true fits) (Nat.not_le.2 (none k (highestFit_bottom found) le))
  · rfl

/-- The power of a lane in a reduction's measure, in the words of the claims. -/
def measuredPower (r : Reduction) : Lane → Nat → Nat := if r.radiated then radiatedPower else conductedPower

theorem measure_eq (r : Reduction) (l : Lane) (c : Nat) : measure r l.entry c = measuredPower r l c := by
  unfold measure measuredPower
  split <;> rfl

/-- What the procedure makes of one lane: the lane itself where the sum fits when the walk reaches it, and what one step
makes of it, with the lanes after it as they stood, where it does not. -/
theorem mem_reduce {r : Reduction} {ls : List Lane} (distinct : (ls.map Lane.index).Nodup) {l m : Lane} (hl : l ∈ ls)
    (hm : m ∈ reduce r ls) (index : m.index = l.index) :
    (laneSum r (ls.filter (takenBefore l)) + lanePower r l ≤ r.allowance → m = l) ∧
      (r.allowance < laneSum r (ls.filter (takenBefore l)) + lanePower r l →
        m = walkLane r (laneSum r (ls.filter (takenBefore l))) l.index l) := by
  obtain ⟨before, after, h⟩ := reached distinct hl
  rw [reduce, h.order, List.foldl_append, List.foldl_cons, mem_walk_passed (index ▸ h.notAfter)] at hm
  have distinct' := indices_of_lowered (walk_lowered r before ls) ▸ distinct
  have arrived := (mem_walk_passed (r := r) h.notBefore).2 hl
  have split := laneSum_split r distinct' arrived
  have lower := h.after_le_others (r := r)
  by_cases fits : laneSum r (before.foldl (reduceStep r) ls) ≤ r.allowance
  · rw [reduceStep_fits fits] at hm
    exact ⟨fun _ => lane_unique distinct' hm arrived index, fun above => by omega⟩
  · have spent := (walk_fits_or_spends r before distinct).resolve_left fits
    have others := Nat.le_antisymm (h.others_le_after spent) lower
    rw [reduceStep_walks fits, others] at hm
    obtain ⟨x, hx, rfl⟩ := List.mem_map.1 hm
    rw [(walkLane_lowered r _ _ x).index] at index
    obtain rfl := lane_unique distinct' hx arrived index
    exact ⟨fun within => by omega, fun _ => rfl⟩

theorem walkLane_taken {r : Reduction} {others c : Nat} {l : Lane} (counts : eligible r l = true)
    (code : l.value = .code c) : walkLane r others l.index l = reduceLane r others c l := by
  simp [walkLane, counts, code]

theorem walkLane_spent {r : Reduction} {others : Nat} {i : Fin 8} {l : Lane} (h : Spent r l) :
    walkLane r others i l = l := by
  unfold walkLane
  split
  · next taken => rw [h taken.2]
  · rfl

/-- The sum of the lanes after `l`, in the words of the claims. -/
theorem laneSum_after (r : Reduction) (ls : List Lane) (l : Lane) :
    laneSum r (ls.filter (takenBefore l)) =
      powerSum (measuredPower r) (fun x => eligible r x && takenBefore l x) ls := by
  rw [laneSum_eq, powerSum, List.filter_filter]
  rfl

theorem reduce_reduced (r : Reduction) {ls : List Lane} (distinct : (ls.map Lane.index).Nodup) :
    reduced (measuredPower r) (eligible r) r.allowance r.floors r.reason ls (reduce r ls) := by
  refine forall₂_of_index (reduce_lowered r ls) fun l hl m hm lowered => ?_
  obtain ⟨within, above⟩ := mem_reduce distinct hl hm lowered.index
  unfold reducedLane
  rw [← laneSum_after]
  generalize laneSum r (ls.filter (takenBefore l)) = after at within above ⊢
  refine ⟨fun passed => ?_, fun c code counts => ?_⟩
  · have spent : Spent r l := fun counts => passed.resolve_left (by simp [counts])
    obtain fits | exceeds := le_or_gt (after + lanePower r l) r.allowance
    · exact within fits
    · rw [above exceeds, walkLane_spent spent]
  · rw [lanePower_code code, if_pos counts, measure_eq] at within above
    rw [walkLane_taken counts code] at above
    refine ⟨within, fun exceeds => ?_⟩
    rw [above exceeds]
    simp only [← measure_eq]
    exact ⟨fun k => reduceLane_code, reduceLane_off⟩

/-- Settles O47: the bound from the walk's end, each lane from the walk's step at it. -/
theorem reductionEndsWithinItsAllowance : Obligations.ReductionEndsWithinItsAllowance :=
  fun r _ distinct => ⟨(laneSum_eq r _).symm.trans_le (laneSum_reduce r distinct), reduce_reduced r distinct⟩

end Sys2Proof.Machine
end

