-- ==== Sys2Proof/Proofs/Decision.lean ====
section
/-!
PROOFS. The ten stages of a decision (R73 to R81, R85 to R89): what each makes of every lane, what a granted code has
passed, and when a stage leaves every lane as it stands. What a stage grants no later stage raises, so a bound on what one
stage leaves is a bound on the grant.
-/

namespace Sys2Proof.Machine

/-! ## No stage raises a value (R73, R84) -/

theorem decideLanes_lowered (s : State) (ls : List Lane) : List.Forall₂ Lowered ls (decideLanes s ls).final := by
  cases inhibited : s.inhibit.txinh with
  | true => rw [decideLanes_inhibited inhibited]; exact stageInhibit_lowered ls
  | false => rw [decideLanes_released inhibited]; exact foldl_lowered (laterStages_lowered s) ls

/-- Settles O44, stage by stage. -/
theorem noStageRaisesAValue : Obligations.NoStageRaisesAValue := fun s ls =>
  ⟨(decideLanes_lowered s ls).imp fun _ _ h => ⟨h.index, h.entry, h.requested, h.value⟩,
    fun f hf xs => (laterStages_lowered s f hf xs).imp fun _ _ h => ⟨h.index, h.entry, h.value⟩⟩

/-! ## One stage within a decision -/

/-- With TXINH released, the stages before one lower the request, and those after it lower what it leaves. -/
theorem decideLanes_around {s : State} (h : s.inhibit.txinh = false) {f : List Lane → List Lane}
    (hf : f ∈ laterStages s) (ls : List Lane) :
    ∃ xs, List.Forall₂ Lowered ls xs ∧ List.Forall₂ Lowered (f xs) (decideLanes s ls).final := by
  have lowers := laterStages_lowered s
  rw [decideLanes_released h]
  obtain ⟨before, after, split⟩ := List.append_of_mem hf
  rw [split] at lowers ⊢
  simp only [List.forall_mem_append, List.forall_mem_cons] at lowers
  rw [List.foldl_append, List.foldl_cons]
  exact ⟨_, foldl_lowered lowers.1 ls, foldl_lowered lowers.2.2 _⟩

theorem stageInhibit_off {ls : List Lane} {l : Lane} (h : l ∈ stageInhibit ls) : l.value = .off := by
  obtain ⟨x, -, rfl⟩ := List.mem_map.1 h
  rfl

/-- While TXINH is asserted every lane is granted OFF (R74). -/
theorem decideLanes_off {s : State} (h : s.inhibit.txinh = true) {ls : List Lane} {l : Lane}
    (hl : l ∈ (decideLanes s ls).final) : l.value = .off := by
  rw [decideLanes_inhibited h] at hl
  exact stageInhibit_off hl

/-- What every code that one stage leaves satisfies, every granted code satisfies, where lower codes satisfy it too. -/
theorem granted_of_stage {s : State} {Q : CarrierEntry → Nat → Prop} (lower : ∀ e c d, c ≤ d → Q e d → Q e c)
    {f : List Lane → List Lane} (hf : f ∈ laterStages s)
    (stage : ∀ xs, ∀ l ∈ f xs, ∀ c, l.value = .code c → Q l.entry c) (ls : List Lane) :
    ∀ l ∈ (decideLanes s ls).final, ∀ c, l.value = .code c → Q l.entry c := by
  cases inhibited : s.inhibit.txinh with
  | true => exact fun l hl c code => nomatch code.symm.trans (decideLanes_off inhibited hl)
  | false =>
    obtain ⟨xs, -, after⟩ := decideLanes_around inhibited hf ls
    refine forall_of_lowered (P := fun l => ∀ c, l.value = .code c → Q l.entry c) (fun l m h k c code => ?_) after
      (stage xs)
    obtain ⟨d, hd, le⟩ := h.code code
    rw [h.entry]
    exact lower _ _ _ le (k d hd)

/-! ## Lanes at a code -/

theorem isCode_iff {v : Power} : isCode v = true ↔ v ≠ .off := by cases v <;> simp [isCode]

theorem listedAtCode_iff {ls : List Lane} {i : Fin 8} :
    listedAtCode ls i = true ↔ ∃ a ∈ ls, a.index = i ∧ a.value ≠ .off := by
  simp only [listedAtCode, List.any_eq_true, Bool.and_eq_true, beq_iff_eq, isCode_iff]

theorem isSecondary_iff {l : Lane} : isSecondary l = true ↔ l.entry.role = .secondary := beq_iff_eq

/-- A lane that turning off leaves at a code is the lane itself, and the stage does not mean it. -/
theorem offWhen_code {p : Lane → Bool} {r : Reason} {l : Lane} (h : (offWhen p r l).value ≠ .off) :
    offWhen p r l = l ∧ p l = false := by
  unfold offWhen at h ⊢
  split at h
  · exact absurd rfl h
  · next left => rw [if_neg left]; exact ⟨rfl, by simpa [isCode_iff.2 h] using left⟩

theorem offWhen_keeps {p : Lane → Bool} {r : Reason} {l : Lane} (h : l.value ≠ .off → p l = false) :
    offWhen p r l = l := by
  unfold offWhen
  split
  · next turned =>
    rw [Bool.and_eq_true, isCode_iff] at turned
    exact absurd turned.2 (by simp [h turned.1])
  · rfl

theorem capAt_code {limit c : Nat} {r : Reason} {l : Lane} (h : (capAt limit r l).value = .code c) : c ≤ limit := by
  unfold capAt at h
  split at h
  · next off => cases off.symm.trans h
  · next d code =>
    split at h
    · cases h; exact le_rfl
    · next within =>
      cases code.symm.trans h
      exact Nat.le_of_not_lt within

theorem capAt_keeps {limit : Nat} {r : Reason} {l : Lane} (h : ∀ c, l.value = .code c → c ≤ limit) :
    capAt limit r l = l := (capAt_heldTo limit r l).2 h

/-! ## The stage 4 limit (R78) -/

theorem stage4Limit_none {s : State} {e : CarrierEntry} (h : stage4Limit s e = none) : zoneLimits s e = [] := by
  rw [zoneLimits_eq]
  unfold stage4Limit at h
  generalize zoneLimit s (heatZone e.zone) e.floor = a at h ⊢
  generalize zoneLimit s .caseZone e.floor = b at h ⊢
  cases a with
  | none => cases h; rfl
  | some x =>
    cases b with
    | none => cases h
    | some y =>
      simp only [lowerLimit] at h
      split at h
      · cases h
      · split at h <;> cases h

theorem lowerLimit_some {x y z : ZoneLimit} (h : lowerLimit (some x) (some y) = some z) :
    (z.limit = x.limit ∨ z.limit = y.limit) ∧ z.limit ≤ x.limit ∧ z.limit ≤ y.limit := by
  simp only [lowerLimit] at h
  split at h
  · next lt => cases h; exact ⟨.inl rfl, le_rfl, lt.le⟩
  · next notLt =>
    split at h
    · next gt => cases h; exact ⟨.inr rfl, gt.le, le_rfl⟩
    · next notGt => cases h; exact ⟨.inl rfl, le_rfl, Nat.le_of_not_lt notGt⟩

/-- The limit of stage 4 is the lowest of those of the two zones. -/
theorem stage4Limit_some {s : State} {e : CarrierEntry} {z : ZoneLimit} (h : stage4Limit s e = some z) :
    (∃ x ∈ zoneLimits s e, z.limit = x.1) ∧ ∀ x ∈ zoneLimits s e, z.limit ≤ x.1 := by
  rw [zoneLimits_eq]
  unfold stage4Limit at h
  generalize zoneLimit s (heatZone e.zone) e.floor = a at h ⊢
  generalize zoneLimit s .caseZone e.floor = b at h ⊢
  cases a with
  | none => rw [lowerLimit] at h; subst h; simp [limitList]
  | some x =>
    cases b with
    | none => cases h; simp [limitList]
    | some y =>
      obtain ⟨either, lex, ley⟩ := lowerLimit_some h
      simp [limitList, either, lex, ley]

theorem zoneLane_code {s : State} {l : Lane} {c : Nat} (h : (zoneLane s l).value = .code c) :
    ∀ x ∈ zoneLimits s l.entry, c ≤ x.1 := by
  unfold zoneLane at h
  split at h
  · next free => rw [stage4Limit_none free]; nofun
  · next z limited => exact fun x hx => (capAt_code h).trans ((stage4Limit_some limited).2 x hx)

theorem zoneLane_keeps {s : State} {l : Lane} (h : ∀ c, l.value = .code c → ∀ x ∈ zoneLimits s l.entry, c ≤ x.1) :
    zoneLane s l = l := by
  unfold zoneLane
  split
  · rfl
  · next z limited =>
    obtain ⟨x, hx, limit⟩ := (stage4Limit_some limited).1
    exact capAt_keeps fun c code => limit ▸ h c code x hx

/-! ## INHIBIT (R74) -/

theorem txinhGrantsOffToAll : Claims.TxinhGrantsOffToAll := by
  intro s ls inhibited
  have decision : decideLanes s ls = { history := List.replicate 9 (stageInhibit ls), final := stageInhibit ls } :=
    if_pos inhibited
  rw [decision]
  refine ⟨rfl, List.length_replicate, fun xs hxs l hl => ?_⟩
  rw [List.eq_of_mem_replicate hxs] at hl
  exact stageInhibit_off hl

/-! ## What a granted code has passed (R75 to R78) -/

theorem granted_enabled (s : State) (ls : List Lane) :
    ∀ l ∈ (decideLanes s ls).final, ∀ c, l.value = .code c → l.entry.enabled = true := by
  refine granted_of_stage (Q := fun e _ => e.enabled = true) (fun _ _ _ _ => id) (f := stageDisabled)
    (by simp [laterStages]) (fun xs l hl c code => ?_) ls
  obtain ⟨x, -, rfl⟩ := List.mem_map.1 hl
  obtain ⟨same, passed⟩ := offWhen_code (by rw [code]; nofun)
  rw [same]
  simpa using passed

theorem granted_within_ceiling (s : State) (ls : List Lane) :
    ∀ l ∈ (decideLanes s ls).final, ∀ c, l.value = .code c → c ≤ l.entry.ceiling := by
  refine granted_of_stage (Q := fun e c => c ≤ e.ceiling) (fun _ _ _ => le_trans) (f := stageWindow)
    (by simp [laterStages]) (fun xs l hl c code => ?_) ls
  obtain ⟨x, -, rfl⟩ := List.mem_map.1 hl
  rw [(capAt_lowered _ _ x).entry]
  exact capAt_code code

theorem granted_within_zones (s : State) (ls : List Lane) :
    ∀ l ∈ (decideLanes s ls).final, ∀ c, l.value = .code c → ∀ x ∈ zoneLimits s l.entry, c ≤ x.1 := by
  refine granted_of_stage (Q := fun e c => ∀ x ∈ zoneLimits s e, c ≤ x.1) (fun _ _ _ le h x hx => le.trans (h x hx))
    (f := stageZone s) (by simp [laterStages]) (fun xs l hl c code => ?_) ls
  obtain ⟨x, -, rfl⟩ := List.mem_map.1 hl
  rw [(zoneLane_lowered s x).entry]
  exact zoneLane_code code

theorem grantedCodesRespectCaps : Claims.GrantedCodesRespectCaps := fun s ls l hl c code =>
  ⟨granted_enabled s ls l hl c code, granted_within_ceiling s ls l hl c code, granted_within_zones s ls l hl c code⟩

/-! ## Each stage in the words of the claims -/

theorem offWhere_map {p : Lane → Bool} {q : Lane → Prop} (h : ∀ l, p l = true ↔ q l) (r : Reason) (ls : List Lane) :
    List.Forall₂ (fun l => offWhere (q l) r l) ls (ls.map (offWhen p r)) :=
  List.forall₂_map_right_iff.2 (List.forall₂_same.2 fun l _ => propext (h l) ▸ offWhen_offWhere p r l)

theorem stageDisabled_offWhere (ls : List Lane) :
    List.Forall₂ (fun l => offWhere (l.entry.enabled = false) .disabled l) ls (stageDisabled ls) :=
  offWhere_map (fun l => by simp) _ ls

theorem stageWindow_heldTo (ls : List Lane) :
    List.Forall₂ (fun l => heldTo l.entry.ceiling .window l) ls (stageWindow ls) :=
  List.forall₂_map_right_iff.2 (List.forall₂_same.2 fun _ _ => capAt_heldTo _ _ _)

theorem stageZone_heldByZones (s : State) (ls : List Lane) : List.Forall₂ (heldByZones s) ls (stageZone s ls) :=
  List.forall₂_map_right_iff.2 (List.forall₂_same.2 fun _ _ => zoneLane_heldByZones s _)

/-- What stage 5 makes of one lane while it sheds (R79). -/
def shedOne (l : Lane) : Lane := if isSecondary l then lowerLane .off .shed l else l

theorem stageShed_sheds {s : State} (h : s.supply.state = .critical ∧ s.policy.workingCopy.shed = true)
    (ls : List Lane) : stageShed s ls = ls.map shedOne := if_pos h

theorem stageShed_idle {s : State} (h : ¬ (s.supply.state = .critical ∧ s.policy.workingCopy.shed = true))
    (ls : List Lane) : stageShed s ls = ls := if_neg h

theorem stageShed_shedLane (s : State) (ls : List Lane) : List.Forall₂ (shedLane s) ls (stageShed s ls) := by
  by_cases sheds : s.supply.state = .critical ∧ s.policy.workingCopy.shed = true
  · rw [stageShed_sheds sheds]
    refine List.forall₂_map_right_iff.2 (List.forall₂_same.2 fun l _ => ⟨fun h => ?_, fun h => ?_⟩)
    · exact if_pos (isSecondary_iff.2 h.2.2)
    · exact if_neg fun secondary => h ⟨sheds.1, sheds.2, isSecondary_iff.1 secondary⟩
  · rw [stageShed_idle sheds]
    exact List.forall₂_same.2 fun l _ => ⟨fun h => absurd ⟨h.1, h.2.1⟩ sheds, fun _ => rfl⟩

theorem stageAnchor_anchored (ls : List Lane) : anchored ls (stageAnchor ls) := by
  refine offWhere_map (fun l => ?_) .anchor ls
  simp only [Bool.and_eq_true, isSecondary_iff, Bool.not_eq_true', ← Bool.not_eq_true, listedAtCode_iff, not_exists,
    not_and, not_not]

theorem exposureExhausted_offWhere (s : State) (ls : List Lane) :
    List.Forall₂ (offWhere (budget s ≤ windowSum s) .exposure) ls (exposureExhausted s ls) := by
  unfold exposureExhausted
  split
  · next exhausted =>
    exact offWhere_map (q := fun _ => budget s ≤ windowSum s) (fun _ => by simpa [windowExhausted] using exhausted) _ ls
  · next left =>
    exact List.forall₂_same.2 fun l _ => ⟨fun h => absurd (decide_eq_true h) left, fun _ => rfl⟩

/-- A reduction that counts every lane. -/
theorem reduce_reduced_all {r : Reduction} (all : r.secondariesOnly = false) {ls : List Lane}
    (distinct : (ls.map Lane.index).Nodup) :
    reduced (measuredPower r) (fun _ => true) r.allowance r.floors r.reason ls (reduce r ls) := by
  have counts : eligible r = fun _ => true := by funext l; simp [eligible, all]
  exact counts ▸ reduce_reduced r distinct

theorem decideLanes_stages {s : State} (h : s.inhibit.txinh = false) (ls : List Lane) :
    decideLanes s ls =
      { history := runStages (laterStages s) ls, final := (laterStages s).foldl (fun ls f => f ls) ls } := by
  simp only [decideLanes, h, Bool.false_eq_true, if_false]

/-- Stage 9 in its parts: OFF when exhausted, pacing, then the two passes (R85 to R89). -/
theorem stageExposure_passes (s : State) {ls : List Lane} (distinct : (ls.map Lane.index).Nodup) :
    ∃ x y z : List Lane,
      List.Forall₂ (offWhere (budget s ≤ windowSum s) .exposure) ls x ∧
      (s.policy.workingCopy.paceThreshold ≤ utilisation s →
        reduced radiatedPower (fun _ => true) (s.policy.workingCopy.averageLimit * 1000) false .exposure x y) ∧
      (utilisation s < s.policy.workingCopy.paceThreshold → y = x) ∧
      reduced radiatedPower (fun l => l.entry.role == .secondary)
        (slotAllowance s (headroom s - s.policy.workingCopy.reserve)) false .exposure y z ∧
      reduced radiatedPower (fun _ => true) (slotAllowance s (headroom s)) false .exposure z (stageExposure s ls) := by
  have distinctX := indices_of_lowered (exposureExhausted_lowered s ls) ▸ distinct
  have distinctY := indices_of_lowered (exposurePacing_lowered s _) ▸ distinctX
  have distinctZ (r : Reduction) := indices_of_lowered (reduce_lowered r _) ▸ distinctY
  refine ⟨_, exposurePacing s _, _, exposureExhausted_offWhere s ls, fun paces => ?_, fun idle => if_neg (Nat.not_le.2 idle),
    reduce_reduced (exposureReduction true _) distinctY,
    reduce_reduced_all (r := exposureReduction false _) rfl (distinctZ _)⟩
  rw [exposurePacing, if_pos paces]
  exact reduce_reduced_all (r := exposureReduction false _) rfl distinctX

theorem eachStageDoesItsWork : Claims.EachStageDoesItsWork := by
  intro s ls released distinct c every secondary duration
  have distinct6 := indices_of_lowered (foldl_lowered (xs := (laterStages s).take 5)
    (fun f hf => laterStages_lowered s f (List.mem_of_mem_take hf)) ls) ▸ distinct
  have distinct8 := indices_of_lowered (foldl_lowered (xs := (laterStages s).take 7)
    (fun f hf => laterStages_lowered s f (List.mem_of_mem_take hf)) ls) ▸ distinct
  refine ⟨_, _, _, _, _, _, _, _, _, decideLanes_stages released ls, stageDisabled_offWhere _, stageWindow_heldTo _,
    stageZone_heldByZones s _, stageShed_shedLane s _, stageAnchor_anchored _, fun good => ?_, fun low => ?_,
    fun critical => ?_, stageAnchor_anchored _, ?_, stageAnchor_anchored _⟩
  · simp only [stageSupply, supplyCap, good]
  · rw [stageSupply_capped (cap := c.supplyLowCap) (by simp only [supplyCap, low]; rfl)]
    exact reduce_reduced_all (r := supplyReduction c.supplyLowCap) rfl distinct6
  · rw [stageSupply_capped (cap := c.supplyCriticalCap) (by simp only [supplyCap, critical]; rfl)]
    exact reduce_reduced_all (r := supplyReduction c.supplyCriticalCap) rfl distinct6
  · exact stageExposure_passes s distinct8

/-! ## SHED covers the secondaries (R79) -/

/-- A lane `l` after a stage that leaves it as `m`: the same carrier entry, and at OFF value and reason as they stand
(R73). -/
structure LeftOff (l m : Lane) : Prop where
  entry : m.entry = l.entry
  same : l.value = .off → m = l

theorem LeftOff.refl (l : Lane) : LeftOff l l := ⟨rfl, fun _ => rfl⟩

theorem LeftOff.trans {l m n : Lane} (h : LeftOff l m) (k : LeftOff m n) : LeftOff l n := by
  refine ⟨k.entry.trans h.entry, fun off => ?_⟩
  have same := h.same off
  exact (k.same (same ▸ off)).trans same

theorem leftOff_refl (ls : List Lane) : List.Forall₂ LeftOff ls ls := List.forall₂_same.2 fun l _ => .refl l

theorem leftOff_map {g : Lane → Lane} (lowers : ∀ l, Lowered l (g l)) (h : ∀ l, l.value = .off → g l = l)
    (ls : List Lane) : List.Forall₂ LeftOff ls (ls.map g) :=
  List.forall₂_map_right_iff.2 (List.forall₂_same.2 fun l _ => ⟨(lowers l).entry, h l⟩)

theorem leftOff_trans {ls ms ns : List Lane} (h : List.Forall₂ LeftOff ls ms) (k : List.Forall₂ LeftOff ms ns) :
    List.Forall₂ LeftOff ls ns := by
  induction h generalizing ns with
  | nil => exact k
  | cons first _ ih =>
    cases k with
    | cons first' rest' => exact .cons (first.trans first') (ih rest')

theorem leftOff_foldl {α : Type} {step : List Lane → α → List Lane} {xs : List α}
    (h : ∀ x ∈ xs, ∀ ls, List.Forall₂ LeftOff ls (step ls x)) (ls : List Lane) :
    List.Forall₂ LeftOff ls (xs.foldl step ls) := by
  induction xs generalizing ls with
  | nil => exact leftOff_refl ls
  | cons x rest ih =>
    simp only [List.forall_mem_cons] at h
    exact leftOff_trans (h.1 ls) (ih h.2 _)

theorem offWhen_off {p : Lane → Bool} {r : Reason} {l : Lane} (off : l.value = .off) : offWhen p r l = l :=
  offWhen_keeps fun code => absurd off code

theorem stageAnchor_leftOff (ls : List Lane) : List.Forall₂ LeftOff ls (stageAnchor ls) :=
  leftOff_map (offWhen_lowered _ _) (fun _ => offWhen_off) ls

theorem reduce_leftOff (r : Reduction) (ls : List Lane) : List.Forall₂ LeftOff ls (reduce r ls) := by
  refine leftOff_foldl (fun i _ ls => ?_) ls
  by_cases fits : laneSum r ls ≤ r.allowance
  · rw [reduceStep_fits fits]; exact leftOff_refl ls
  · rw [reduceStep_walks fits]
    exact leftOff_map (walkLane_lowered r _ i) (fun _ off => walkLane_spent fun _ => off) ls

theorem stageSupply_leftOff (s : State) (ls : List Lane) : List.Forall₂ LeftOff ls (stageSupply s ls) := by
  unfold stageSupply
  split
  · exact leftOff_refl ls
  · exact reduce_leftOff _ ls

theorem stageExposure_leftOff (s : State) (ls : List Lane) : List.Forall₂ LeftOff ls (stageExposure s ls) := by
  have exhausted : List.Forall₂ LeftOff ls (exposureExhausted s ls) := by
    unfold exposureExhausted
    split
    · exact leftOff_map (offWhen_lowered _ _) (fun _ => offWhen_off) ls
    · exact leftOff_refl ls
  have paced (ls : List Lane) : List.Forall₂ LeftOff ls (exposurePacing s ls) := by
    unfold exposurePacing
    split
    · exact reduce_leftOff _ ls
    · exact leftOff_refl ls
  exact leftOff_trans exhausted
    (leftOff_trans (paced _) (leftOff_trans (reduce_leftOff _ _) (reduce_leftOff _ _)))

/-- The stages after SHED leave what SHED turned off as it stands. -/
theorem decideLanes_after_shed {s : State} (h : s.inhibit.txinh = false) (ls : List Lane) :
    ∃ xs, List.Forall₂ LeftOff (stageShed s xs) (decideLanes s ls).final := by
  have later : ∀ f ∈ (laterStages s).drop 4, ∀ ls : List Lane, List.Forall₂ LeftOff ls (f ls) := by
    simp only [laterStages, List.drop, List.forall_mem_cons]
    exact ⟨stageAnchor_leftOff, stageSupply_leftOff s, stageAnchor_leftOff, stageExposure_leftOff s,
      stageAnchor_leftOff, nofun⟩
  rw [decideLanes_released h]
  exact ⟨stageZone s (stageWindow (stageDisabled ls)), leftOff_foldl (xs := (laterStages s).drop 4) later _⟩

/-- A SECONDARY that SHED has taken stays OFF with reason SHED. -/
theorem shed_of_leftOff {xs ms : List Lane} (h : List.Forall₂ LeftOff (xs.map shedOne) ms) :
    ∀ m ∈ ms, m.entry.role = .secondary → m.value = .off ∧ m.reason = .shed := by
  induction xs generalizing ms with
  | nil => cases h; simp
  | cons l rest ih =>
    cases h with
    | cons first later =>
      refine List.forall_mem_cons.2 ⟨fun secondary => ?_, ih later⟩
      rw [first.entry] at secondary
      have taken : isSecondary l = true := by
        unfold shedOne at secondary
        split at secondary
        · next taken => exact taken
        · exact isSecondary_iff.2 secondary
      have shed : shedOne l = lowerLane .off .shed l := if_pos taken
      rw [shed] at first
      rw [first.same rfl]
      exact ⟨rfl, rfl⟩

theorem shedGrantsSecondariesOff : Claims.ShedGrantsSecondariesOff := by
  intro s ls critical shed
  have released (h : s.inhibit.txinh = false) :
      ∀ l ∈ (decideLanes s ls).final, l.entry.role = .secondary → l.value = .off ∧ l.reason = .shed := by
    obtain ⟨xs, after⟩ := decideLanes_after_shed h ls
    rw [stageShed_sheds ⟨critical, shed⟩] at after
    exact shed_of_leftOff after
  refine ⟨fun l hl secondary => ?_, fun h l hl secondary => (released h l hl secondary).2⟩
  cases inhibited : s.inhibit.txinh with
  | true => exact decideLanes_off inhibited hl
  | false => exact (released inhibited l hl secondary).1

/-! ## A request within every limit (R73) -/

theorem map_keeps {g : Lane → Lane} {ls : List Lane} (h : ∀ l ∈ ls, g l = l) : ls.map g = ls :=
  (List.map_congr_left h).trans (List.map_id' ls)

theorem stageDisabled_keeps {ls : List Lane} (h : ∀ l ∈ ls, ∀ c, l.value = .code c → l.entry.enabled = true) :
    stageDisabled ls = ls := by
  refine map_keeps fun l hl => offWhen_keeps fun code => ?_
  cases value : l.value with
  | off => exact absurd value code
  | code c => simp [h l hl c value]

theorem stageWindow_keeps {ls : List Lane} (h : ∀ l ∈ ls, ∀ c, l.value = .code c → c ≤ l.entry.ceiling) :
    stageWindow ls = ls := map_keeps fun l hl => capAt_keeps (h l hl)

theorem stageZone_keeps {s : State} {ls : List Lane}
    (h : ∀ l ∈ ls, ∀ c, l.value = .code c → ∀ x ∈ zoneLimits s l.entry, c ≤ x.1) : stageZone s ls = ls :=
  map_keeps fun l hl => zoneLane_keeps (h l hl)

theorem stageShed_keeps {s : State} {ls : List Lane}
    (h : s.supply.state = .critical → s.policy.workingCopy.shed = true → ∀ l ∈ ls, l.entry.role = .anchor) :
    stageShed s ls = ls := by
  by_cases sheds : s.supply.state = .critical ∧ s.policy.workingCopy.shed = true
  · rw [stageShed_sheds sheds]
    refine map_keeps fun l hl => if_neg fun secondary => ?_
    cases (h sheds.1 sheds.2 l hl).symm.trans (isSecondary_iff.1 secondary)
  · exact stageShed_idle sheds ls

theorem stageAnchor_keeps {ls : List Lane}
    (h : ∀ l ∈ ls, l.value ≠ .off → l.entry.role = .secondary → ∃ a ∈ ls, a.index = l.entry.anchor ∧ a.value ≠ .off) :
    stageAnchor ls = ls := by
  refine map_keeps fun l hl => offWhen_keeps fun code => ?_
  rw [← Bool.not_eq_true, Bool.and_eq_true, isSecondary_iff, Bool.not_eq_true']
  rintro ⟨secondary, missing⟩
  exact absurd (listedAtCode_iff.2 (h l hl code secondary)) (by simp [missing])

theorem reduce_keeps {r : Reduction} {ls : List Lane} (h : laneSum r ls ≤ r.allowance) : reduce r ls = ls :=
  walk_of_fits h _

theorem slotDuration_pos (n : SlotsPerFrame) : 0 < slotDuration n := by cases n <;> decide

/-- A power within the allowance of an energy spends at most that energy in one slot (R88). -/
theorem le_slotAllowance_iff {s : State} {x energy : Nat} :
    x ≤ slotAllowance s energy ↔ x * slotDuration s.carriers.slotsPerFrame ≤ energy * 1000000 :=
  Nat.le_div_iff_mul_le (slotDuration_pos _)

/-- The sum of a reduction that counts every lane, in the words of the claims. -/
theorem laneSum_all {r : Reduction} (all : r.secondariesOnly = false) (ls : List Lane) :
    laneSum r ls = powerSum (measuredPower r) (fun _ => true) ls := by
  have counts : (fun l : Lane => !r.secondariesOnly || l.entry.role == .secondary) = fun _ => true := by
    funext l; simp [all]
  rw [laneSum_eq, counts, measuredPower]

theorem stageSupply_keeps {s : State} {ls : List Lane}
    (low : s.supply.state = .low →
      powerSum conductedPower (fun _ => true) ls ≤ s.policy.workingCopy.supplyLowCap * 1000)
    (critical : s.supply.state = .critical →
      powerSum conductedPower (fun _ => true) ls ≤ s.policy.workingCopy.supplyCriticalCap * 1000) :
    stageSupply s ls = ls := by
  have fits {cap : Nat} (capped : supplyCap s = some cap)
      (h : powerSum conductedPower (fun _ => true) ls ≤ cap * 1000) : stageSupply s ls = ls := by
    rw [stageSupply_capped capped]
    exact reduce_keeps ((laneSum_all (r := supplyReduction cap) rfl ls).trans_le h)
  cases supply : s.supply.state with
  | good => simp only [stageSupply, supplyCap, supply]
  | low => exact fits (by simp only [supplyCap, supply]) (low supply)
  | critical => exact fits (by simp only [supplyCap, supply]) (critical supply)

theorem stageExposure_keeps {s : State} {ls : List Lane} (window : windowSum s < budget s)
    (paced : s.policy.workingCopy.paceThreshold ≤ utilisation s →
      powerSum radiatedPower (fun _ => true) ls ≤ s.policy.workingCopy.averageLimit * 1000)
    (reserve : powerSum radiatedPower (fun l => l.entry.role == .secondary) ls *
      slotDuration s.carriers.slotsPerFrame ≤ (headroom s - s.policy.workingCopy.reserve) * 1000000)
    (within : powerSum radiatedPower (fun _ => true) ls * slotDuration s.carriers.slotsPerFrame ≤
      headroom s * 1000000) : stageExposure s ls = ls := by
  have exhausted : exposureExhausted s ls = ls := if_neg (by simpa [windowExhausted] using window)
  have pacing : exposurePacing s ls = ls := by
    unfold exposurePacing
    split
    · next paces =>
      exact reduce_keeps ((laneSum_all (r := exposureReduction false _) rfl ls).trans_le (paced paces))
    · rfl
  have first : reduce (exposureReduction true
      (slotAllowance s (headroom s - s.policy.workingCopy.reserve))) ls = ls :=
    reduce_keeps ((laneSum_eq _ ls).trans_le (le_slotAllowance_iff.2 reserve))
  have second : reduce (exposureReduction false (slotAllowance s (headroom s))) ls = ls :=
    reduce_keeps ((laneSum_all rfl ls).trans_le (le_slotAllowance_iff.2 within))
  rw [stageExposure, exhausted, pacing, exposureHeadroom, first, second]

theorem aGrantWithinEveryLimitIsAsRequested : Claims.AGrantWithinEveryLimitIsAsRequested := by
  intro s ps released _ c ls every secondary duration limits shed low critical window paced reserve within
  have enabled := stageDisabled_keeps fun l hl k code => (limits l hl k code).1
  have ceiling := stageWindow_keeps fun l hl k code => (limits l hl k code).2.1
  have zones := stageZone_keeps (s := s) fun l hl k code => (limits l hl k code).2.2.1
  have anchors : stageAnchor ls = ls := stageAnchor_keeps fun l hl code => by
    cases value : l.value with
    | off => exact absurd value code
    | code k => exact (limits l hl k value).2.2.2
  have lanes : lanesOf s ps = ls := rfl
  rw [decideLanes_released released, lanes]
  simp only [laterStages, List.foldl, enabled, ceiling, zones, stageShed_keeps shed, anchors,
    stageSupply_keeps low critical, stageExposure_keeps window paced reserve within]

/-- Settles O46, from the five claims. -/
theorem stagesCoverAndCap : Obligations.StagesCoverAndCap :=
  ⟨txinhGrantsOffToAll, eachStageDoesItsWork, grantedCodesRespectCaps, shedGrantsSecondariesOff,
    aGrantWithinEveryLimitIsAsRequested⟩

/-! ## A SECONDARY and its anchor (R80) -/

/-- In a consistent table an enabled SECONDARY names an enabled ANCHOR (R21). -/
theorem anchor_of_secondary {entries : Vector CarrierEntry 8} (kept : tableKept entries) {i : Fin 8}
    (enabled : entries[i].enabled = true) (secondary : entries[i].role = .secondary) :
    entries[entries[i].anchor].role = .anchor := by
  have indices : ∀ i : Fin 8, i ∈ ([0, 1, 2, 3, 4, 5, 6, 7] : List (Fin 8)) := by decide
  have checked := List.findSome?_eq_none_iff.1 (Option.isNone_iff_eq_none.1 kept.2) i (indices i)
  rw [Option.map_eq_none_iff] at checked
  have holds : anchorHolds entries entries[i] = true := by
    unfold entryFault at checked
    split at checked
    · cases checked
    · split at checked
      · cases checked
      · next holds => simpa using holds
  rw [anchorHolds, if_pos (by rw [enabled, secondary]; rfl), Bool.and_eq_true] at holds
  exact beq_iff_eq.1 holds.2

/-- With TXINH released, stage 10 makes the grant of what the stages before it leave of the request. -/
theorem decideLanes_ends {s : State} (h : s.inhibit.txinh = false) (ls : List Lane) :
    ∃ xs, List.Forall₂ Lowered ls xs ∧ (decideLanes s ls).final = stageAnchor xs := by
  rw [decideLanes_released h]
  exact ⟨_, foldl_lowered (xs := (laterStages s).take 8)
    (fun f hf => laterStages_lowered s f (List.mem_of_mem_take hf)) ls, rfl⟩

/-- A lane of a request, however lowered, carries the live entry of its carrier (R70). -/
theorem entry_of_request {s : State} {ps : List Pair} {xs : List Lane} (h : List.Forall₂ Lowered (lanesOf s ps) xs) :
    ∀ l ∈ xs, l.entry = liveEntry s l.index := by
  refine forall_of_lowered (fun l m k entry => by rw [k.entry, k.index, entry]) h fun l hl => ?_
  obtain ⟨p, -, rfl⟩ := List.mem_map.1 hl
  rfl

/-- Settles O45: stage 10 leaves a SECONDARY at a code only where its anchor is listed at one, and leaves that ANCHOR as
it stands. -/
theorem secondaryNeedsItsAnchor : Obligations.SecondaryNeedsItsAnchor := by
  intro s ps kept _ l hl secondary code
  cases inhibited : s.inhibit.txinh with
  | true => exact absurd (decideLanes_off inhibited hl) code
  | false =>
    have enabled : l.entry.enabled = true := by
      cases value : l.value with
      | off => exact absurd value code
      | code c => exact granted_enabled s _ l hl c value
    obtain ⟨xs, before, final⟩ := decideLanes_ends inhibited (lanesOf s ps)
    rw [final] at hl ⊢
    have live := entry_of_request before
    obtain ⟨x, hx, rfl⟩ := List.mem_map.1 hl
    obtain ⟨same, passed⟩ := offWhen_code code
    rw [same] at secondary enabled ⊢
    rw [isSecondary_iff.2 secondary, Bool.true_and, Bool.not_eq_false'] at passed
    obtain ⟨a, ha, index, listed⟩ := listedAtCode_iff.1 passed
    have anchor : a.entry.role = .anchor := by
      rw [live x hx] at enabled secondary index
      rw [live a ha, index]
      exact anchor_of_secondary kept enabled secondary
    have stays : isSecondary a = false := by simp [isSecondary, anchor]
    exact ⟨a, List.mem_map.2 ⟨a, ha, offWhen_keeps fun _ => by simp [stays]⟩, index, listed⟩

end Sys2Proof.Machine
end

