-- ==== Sys2Proof/Proofs/Exposure.lean ====
section
/-!
PROOFS. The exposure limits of a grant (R85 to R90): each reduction of stage 9 ends within its allowance, no later stage
adds power, and a slot's energy rounded up to whole microjoules exceeds the exact one by less than one for each code.
-/

namespace Sys2Proof.Machine

/-! ## The limits of stage 9, and of the grant -/

/-- A bound on what one stage leaves of distinct legal lanes is a bound on the grant. -/
theorem laneSum_final_le {s : State} {r : Reduction} {bound : Nat} {f : List Lane → List Lane} (hf : f ∈ laterStages s)
    (stage : ∀ xs : List Lane, (xs.map Lane.index).Nodup → (∀ l ∈ xs, legalPower l.value) → laneSum r (f xs) ≤ bound)
    {ls : List Lane} (distinct : (ls.map Lane.index).Nodup) (legal : ∀ l ∈ ls, legalPower l.value) :
    laneSum r (decideLanes s ls).final ≤ bound := by
  cases inhibited : s.inhibit.txinh with
  | true =>
    rw [laneSum_spent fun m hm _ => decideLanes_off inhibited hm]
    exact Nat.zero_le _
  | false =>
    obtain ⟨xs, before, after⟩ := decideLanes_around inhibited hf ls
    have keepsLegal : ∀ l m, Lowered l m → legalPower l.value → legalPower m.value := fun _ _ h => h.legal
    have legal_xs := forall_of_lowered keepsLegal before legal
    have legal_f := forall_of_lowered keepsLegal (laterStages_lowered s f hf xs) legal_xs
    exact (laneSum_of_lowered r after legal_f).trans (stage xs (indices_of_lowered before ▸ distinct) legal_xs)

section stage9
variable (s : State) {ls : List Lane} (distinct : (ls.map Lane.index).Nodup) (legal : ∀ l ∈ ls, legalPower l.value)
include distinct legal

/-- What stage 9 has after pacing: distinct legal lanes, within the average limit where it paces (R87). -/
theorem exposurePacing_leaves :
    let xs := exposurePacing s (exposureExhausted s ls)
    (xs.map Lane.index).Nodup ∧ (∀ l ∈ xs, legalPower l.value) ∧
      (s.policy.workingCopy.paceThreshold ≤ utilisation s → ∀ a,
        laneSum (exposureReduction false a) xs ≤ s.policy.workingCopy.averageLimit * 1000) := by
  have distinctX := indices_of_lowered (exposureExhausted_lowered s ls) ▸ distinct
  have lowered := lowered_trans (exposureExhausted_lowered s ls) (exposurePacing_lowered s _)
  refine ⟨indices_of_lowered lowered ▸ distinct, forall_of_lowered (fun _ _ h => h.legal) lowered legal,
    fun paces a => ?_⟩
  rw [exposurePacing, if_pos paces]
  exact laneSum_reduce (exposureReduction false (s.policy.workingCopy.averageLimit * 1000)) distinctX

/-- The two passes of stage 9 and its pacing (R87 to R89). -/
theorem stageExposure_within (a : Nat) :
    laneSum (exposureReduction false a) (stageExposure s ls) ≤ slotAllowance s (headroom s) ∧
      laneSum (exposureReduction true a) (stageExposure s ls) ≤
        slotAllowance s (headroom s - s.policy.workingCopy.reserve) ∧
      (s.policy.workingCopy.paceThreshold ≤ utilisation s →
        laneSum (exposureReduction false a) (stageExposure s ls) ≤ s.policy.workingCopy.averageLimit * 1000) := by
  obtain ⟨distinctX, legalX, paced⟩ := exposurePacing_leaves s distinct legal
  rw [stageExposure, exposureHeadroom]
  generalize exposurePacing s (exposureExhausted s ls) = xs at distinctX legalX paced ⊢
  generalize slotAllowance s (headroom s) = full
  generalize slotAllowance s (headroom s - s.policy.workingCopy.reserve) = less
  have first := reduce_lowered (exposureReduction true less) xs
  have second := reduce_lowered (exposureReduction false full) (reduce (exposureReduction true less) xs)
  have legalY := forall_of_lowered (fun _ _ h => h.legal) first legalX
  refine ⟨laneSum_reduce (exposureReduction false full) (indices_of_lowered first ▸ distinctX), ?_, fun paces => ?_⟩
  · exact (laneSum_of_lowered (exposureReduction true a) second legalY).trans
      (laneSum_reduce (exposureReduction true less) distinctX)
  · exact (laneSum_of_lowered _ (lowered_trans first second) legalX).trans (paced paces a)

/-- The bounds of stage 9 hold of the grant. -/
theorem granted_within (a : Nat) :
    laneSum (exposureReduction false a) (decideLanes s ls).final ≤ slotAllowance s (headroom s) ∧
      laneSum (exposureReduction true a) (decideLanes s ls).final ≤
        slotAllowance s (headroom s - s.policy.workingCopy.reserve) ∧
      (s.policy.workingCopy.paceThreshold ≤ utilisation s →
        laneSum (exposureReduction false a) (decideLanes s ls).final ≤ s.policy.workingCopy.averageLimit * 1000) := by
  have stage9 : stageExposure s ∈ laterStages s := by simp [laterStages]
  refine ⟨laneSum_final_le stage9 (fun xs d k => ?_) distinct legal, laneSum_final_le stage9 (fun xs d k => ?_) distinct
    legal, fun paces => laneSum_final_le stage9 (fun xs d k => ?_) distinct legal⟩ <;>
    obtain ⟨full, less, paced⟩ := stageExposure_within s d k a
  · exact full
  · exact less
  · exact paced paces

end stage9

/-- In an exhausted window stage 9 leaves no code, so none is granted (R86). -/
theorem granted_off_of_exhausted {s : State} (h : windowExhausted s = true) (ls : List Lane) :
    ∀ l ∈ (decideLanes s ls).final, l.value = .off := by
  intro l hl
  cases value : l.value with
  | off => rfl
  | code c =>
    refine (granted_of_stage (Q := fun _ _ => False) (fun _ _ _ _ => id) (f := stageExposure s) (by simp [laterStages])
      (fun xs l hl c code => ?_) ls l hl c value).elim
    have turned : ∀ l ∈ exposureExhausted s xs, l.value = .off := by
      rw [exposureExhausted, if_pos h]
      intro l hl
      obtain ⟨x, -, rfl⟩ := List.mem_map.1 hl
      by_contra left
      cases (offWhen_code left).2
    have lowered : List.Forall₂ Lowered (exposureExhausted s xs) (stageExposure s xs) :=
      lowered_trans (exposurePacing_lowered s _) (lowered_trans (reduce_lowered _ _) (reduce_lowered _ _))
    exact nomatch code.symm.trans (forall_of_lowered (fun _ _ h => h.off) lowered turned l hl)

/-! ## Energy rounded up (R90) -/

theorem carrierEnergy_le (gain : Int) (d c : Nat) :
    carrierEnergy gain d (.code c) * 1000000 ≤ tablePower (radiatedCode gain c) * d + 999999 :=
  Nat.div_mul_le_self _ _

/-- The power of a lane in stage 9, which counts every lane. -/
theorem lanePower_exposure (a : Nat) {l : Lane} {c : Nat} (h : l.value = .code c) :
    lanePower (exposureReduction false a) l = tablePower (radiatedCode l.entry.gain c) := lanePower_code h

/-- The energy of a slot, rounded up carrier by carrier, against its exact energy. -/
theorem slotEnergy_le (a d : Nat) (ls : List Lane) :
    slotEnergy d ls * 1000000 ≤
      laneSum (exposureReduction false a) ls * d + (ls.filter fun l => isCode l.value).length * 999999 := by
  induction ls with
  | nil => simp [slotEnergy]
  | cons l rest ih =>
    simp only [slotEnergy, laneSum, List.map_cons, List.sum_cons, Nat.add_mul] at ih ⊢
    cases value : l.value with
    | off =>
      have energy : laneEnergy d l = 0 := by rw [laneEnergy, value]; rfl
      rw [List.filter_cons_of_neg (by simp [value, isCode]), energy, lanePower_off value]
      linarith
    | code c =>
      have energy : laneEnergy d l = carrierEnergy l.entry.gain d (.code c) := by rw [laneEnergy, value]
      have bound := carrierEnergy_le l.entry.gain d c
      rw [List.filter_cons_of_pos (by simp [value, isCode]), energy, lanePower_exposure a value, List.length_cons]
      linarith

theorem slotEnergy_off {d : Nat} {ls : List Lane} (h : ∀ l ∈ ls, l.value = .off) : slotEnergy d ls = 0 := by
  refine List.sum_eq_zero fun x hx => ?_
  obtain ⟨l, hl, rfl⟩ := List.mem_map.1 hx
  rw [laneEnergy, h l hl]
  rfl

theorem codes_eq_zero_iff {ls : List Lane} :
    (ls.filter fun l => isCode l.value).length = 0 ↔ ∀ l ∈ ls, l.value = .off := by
  simp only [List.length_eq_zero_iff, List.filter_eq_nil_iff, isCode_iff, not_not]

/-- Settles O49: the bounds of stage 9 on the grant, and the rounding carrier by carrier. -/
theorem exposureLimitsHold : Obligations.ExposureLimitsHold := by
  intro s ls distinct inRange final power total others d n
  obtain ⟨full, less, paced⟩ := granted_within s distinct (fun l hl => (inRange l hl).1) 0
  have total_eq : laneSum (exposureReduction false 0) final = total := by
    rw [laneSum_all rfl, powerSum, List.filter_true]
    rfl
  have others_eq : laneSum (exposureReduction true 0) final = others := laneSum_eq _ final
  have energy := slotEnergy_le 0 d final
  rw [total_eq] at full paced energy
  rw [others_eq] at less
  have exactEnergy : total * d ≤ headroom s * 1000000 := le_slotAllowance_iff.1 full
  refine ⟨fun exhausted => codes_eq_zero_iff.2 (granted_off_of_exhausted exhausted ls), paced, exactEnergy,
    le_slotAllowance_iff.1 less, fun none => slotEnergy_off (codes_eq_zero_iff.1 none), fun some => ?_⟩
  linarith

end Sys2Proof.Machine
end

