-- ==== Sys2Proof/Proofs/Pairs.lean ====
section
/-!
PROOFS. The carrier pairs of GRANT_REQ and TX_REPORT, and the checks the two requests share (R67, R111): when a pair names
a carrier and a value, which pair of a list is refused, which carrier is named twice, and that a legal list spelled in
bytes reads back as it was.
-/

namespace Sys2Proof.Machine

/-! ## Requests taken at once -/

/-- A request row without a moment, taken at once: its owner acts on the settled state (R182). -/
theorem request_ready {s : State} (h : requestReady s) (tag : Byte) (req : Request) (hl : lengthAccepted req = true) :
    whileUp (arriveRequest tag req) s =
      .next (replied tag req (ownRequest req (settle s)).2 (ownRequest req (settle s)).1) :=
  (whileUp_high h.1).trans (congrArg _ (arriveRequest_ready h tag req hl))

/-- A number in one byte is that number's low eight bits (R188). -/
theorem byte1_eq (v : Nat) : byte1 v = [BitVec.ofNat 8 v] := by simp [byte1, beBytes]

theorem badField_eq (item : Nat) : badField item = refuse .badField [BitVec.ofNat 8 item] := by
  rw [badField, byte1_eq]

/-! ## One pair -/

theorem indexOfByte_some {b : Byte} {i : Fin 8} (h : indexOfByte b = some i) : i.val = b.toNat := by
  unfold indexOfByte at h
  split at h
  · cases h; rfl
  · cases h

theorem pairOf_eq (r : RawPair) :
    pairOf r = (indexOfByte r.index).bind fun i => (powerOfByte r.value).map fun v => { index := i, value := v } := by
  unfold pairOf
  cases indexOfByte r.index <;> cases powerOfByte r.value <;> rfl

/-- A pair names a carrier and a value exactly where it is legal (R67, check 3). -/
theorem pairOf_isSome (r : RawPair) : (pairOf r).isSome = true ↔ legalPair r := by
  have index : (indexOfByte r.index).isSome = true ↔ r.index.toNat < 8 := by
    unfold indexOfByte; split <;> simp [*]
  have value : (powerOfByte r.value).isSome = true ↔ r.value.toNat ≤ 127 ∨ r.value = 0xFF := by
    unfold powerOfByte
    split
    · next code => simp [code]
    · next notCode => split <;> simp_all
  rw [legalPair, ← index, ← value, pairOf_eq]
  cases indexOfByte r.index <;> cases powerOfByte r.value <;> simp

theorem pairOf_index {r : RawPair} {p : Pair} (h : pairOf r = some p) : p.index.val = r.index.toNat := by
  rw [pairOf_eq, Option.bind_eq_some_iff] at h
  obtain ⟨i, hi, h⟩ := h
  obtain ⟨v, -, rfl⟩ := Option.map_eq_some_iff.1 h
  exact indexOfByte_some hi

theorem powerOfByte_powerByte {v : Power} (h : legalPower v) : powerOfByte (powerByte v) = some v := by
  cases v with
  | off => rfl
  | code c =>
    have small : c ≤ 127 := h
    have toNat : (BitVec.ofNat 8 c).toNat = c := by rw [BitVec.toNat_ofNat]; omega
    rw [powerByte, powerOfByte, toNat, if_pos small]

theorem indexOfByte_ofNat (i : Fin 8) : indexOfByte (BitVec.ofNat 8 i.val) = some i := by
  fin_cases i <;> rfl

/-- A legal pair spelled in bytes reads back (R188). -/
theorem pairOf_spelled {p : Pair} (h : legalPower p.value) :
    pairOf { index := BitVec.ofNat 8 p.index.val, value := powerByte p.value } = some p := by
  rw [pairOf_eq, indexOfByte_ofNat, powerOfByte_powerByte h]
  rfl

/-! ## A list of pairs -/

/-- The pairs `ps` are those the bytes `raw` name, one by one. -/
abbrev Names (raw : List RawPair) (ps : List Pair) : Prop := List.Forall₂ (fun r p => pairOf r = some p) raw ps

theorem readPairs_names {raw : List RawPair} {ps : List Pair} (h : Names raw ps) (n : Nat) :
    readPairs raw n = .ok ps := by
  induction h generalizing n with
  | nil => rfl
  | cons first _ ih => simp only [readPairs, first, ih]

theorem names_of_legal {raw : List RawPair} (h : ∀ x ∈ raw, legalPair x) : ∃ ps, Names raw ps := by
  induction raw with
  | nil => exact ⟨[], .nil⟩
  | cons r rest ih =>
    simp only [List.forall_mem_cons] at h
    obtain ⟨p, hp⟩ := Option.isSome_iff_exists.1 ((pairOf_isSome r).2 h.1)
    obtain ⟨ps, hps⟩ := ih h.2
    exact ⟨p :: ps, .cons hp hps⟩

/-- The first pair that names no carrier or no value is the one refused, by its list position (R67, check 3). -/
theorem readPairs_bad {before : List RawPair} {bad : RawPair} (legal : ∀ x ∈ before, legalPair x)
    (illegal : ¬ legalPair bad) (after : List RawPair) (n : Nat) :
    readPairs (before ++ bad :: after) n = .error (before.length + n) := by
  induction before generalizing n with
  | nil =>
    rw [← pairOf_isSome, Option.not_isSome_iff_eq_none] at illegal
    simp [readPairs, illegal]
  | cons r rest ih =>
    simp only [List.forall_mem_cons] at legal
    obtain ⟨p, hp⟩ := Option.isSome_iff_exists.1 ((pairOf_isSome r).2 legal.1)
    simp only [List.cons_append, readPairs, hp, ih legal.2, List.length_cons]
    congr 1
    omega

theorem names_spelled {ps : List Pair} (h : ∀ p ∈ ps, legalPower p.value) : Names (spelled ps) ps :=
  List.forall₂_map_left_iff.2 (List.forall₂_same.2 fun p hp => pairOf_spelled (h p hp))

/-! ## A carrier named twice (R67, check 4) -/

theorem firstDuplicate_none_iff {ps : List Pair} : firstDuplicate ps = none ↔ (ps.map Pair.index).Nodup := by
  induction ps with
  | nil => simp [firstDuplicate]
  | cons p rest ih =>
    rw [firstDuplicate, List.map_cons, List.nodup_cons, ← ih]
    by_cases again : p.index ∈ rest.map Pair.index
    · have found : (rest.any fun q => q.index == p.index) = true := by simpa using again
      simp [found, again]
    · have missing : (rest.any fun q => q.index == p.index) = false := by simpa using again
      simp [missing, again]

theorem firstDuplicate_skips {p : Pair} {rest : List Pair} (h : p.index ∉ rest.map Pair.index) :
    firstDuplicate (p :: rest) = firstDuplicate rest := by
  have missing : (rest.any fun q => q.index == p.index) = false := by simpa using h
  rw [firstDuplicate, missing]
  rfl

theorem firstDuplicate_found {p : Pair} {rest : List Pair} (h : p.index ∈ rest.map Pair.index) :
    firstDuplicate (p :: rest) = some p.index := by
  have found : (rest.any fun q => q.index == p.index) = true := by simpa using h
  rw [firstDuplicate, found]
  rfl

/-- Two pairs name one carrier exactly where their index bytes agree. -/
theorem index_eq_iff {r x : RawPair} {p q : Pair} (hp : pairOf r = some p) (hq : pairOf x = some q) :
    p.index = q.index ↔ r.index = x.index := by
  rw [Fin.ext_iff, pairOf_index hp, pairOf_index hq, BitVec.toNat_inj]

theorem index_mem_iff {raw : List RawPair} {ps : List Pair} (h : Names raw ps) {r : RawPair} {p : Pair}
    (hp : pairOf r = some p) : p.index ∈ ps.map Pair.index ↔ r.index ∈ raw.map RawPair.index := by
  induction h with
  | nil => simp
  | cons first _ ih => rw [List.map_cons, List.map_cons, List.mem_cons, List.mem_cons, ih, index_eq_iff hp first]

theorem index_nodup_iff {raw : List RawPair} {ps : List Pair} (h : Names raw ps) :
    (ps.map Pair.index).Nodup ↔ (raw.map RawPair.index).Nodup := by
  induction h with
  | nil => simp
  | cons first rest ih =>
    rw [List.map_cons, List.map_cons, List.nodup_cons, List.nodup_cons, ih, index_mem_iff rest first]

/-- The first carrier of the list that is named again is the one refused (R67, check 4). -/
theorem firstDuplicate_first {before after : List RawPair} {x : RawPair} {ps : List Pair}
    (names : Names (before ++ x :: after) ps) (distinct : (before.map RawPair.index).Nodup)
    (fresh : ∀ y ∈ before, y.index ∉ (x :: after).map RawPair.index) (again : x.index ∈ after.map RawPair.index) :
    ∃ i, firstDuplicate ps = some i ∧ i.val = x.index.toNat := by
  induction before generalizing ps with
  | nil =>
    cases names with
    | cons first rest =>
      exact ⟨_, firstDuplicate_found ((index_mem_iff rest first).2 again), pairOf_index first⟩
  | cons y ys ih =>
    cases names with
    | cons first rest =>
      rw [List.map_cons, List.nodup_cons] at distinct
      simp only [List.forall_mem_cons] at fresh
      rw [firstDuplicate_skips]
      · exact ih rest distinct.2 fresh.2
      · have names : Names (ys ++ x :: after) _ := rest
        rw [index_mem_iff names first, List.map_append, List.mem_append, not_or]
        exact ⟨distinct.1, fresh.1⟩

/-! ## The checks in their order (R67, R111) -/

section checks
variable {s : State} {slot : Byte} {raw : List RawPair}

theorem checkPairs_noTiming (h : holdsTiming s = false) : checkPairs slot raw s = .error (noTiming s) :=
  if_neg (by simp [h])

theorem checkPairs_slot (holds : holdsTiming s = true) (h : slotLegal s.carriers.slotsPerFrame slot = false) :
    checkPairs slot raw s = .error (badField 0) := (if_pos holds).trans (if_neg (by simp [h]))

variable (holds : holdsTiming s = true) (legal : slotLegal s.carriers.slotsPerFrame slot = true)
include holds legal

theorem checkPairs_bad {n : Nat} (h : readPairs raw 1 = .error n) : checkPairs slot raw s = .error (badField n) := by
  simp only [checkPairs, holds, legal, if_true, h]

theorem checkPairs_duplicate {ps : List Pair} {i : Fin 8} (names : Names raw ps) (h : firstDuplicate ps = some i) :
    checkPairs slot raw s = .error (refuse .duplicate (byte1 i.val)) := by
  simp only [checkPairs, holds, legal, if_true, readPairs_names names, h]

theorem checkPairs_ok {ps : List Pair} (names : Names raw ps) (h : (ps.map Pair.index).Nodup) :
    checkPairs slot raw s = .ok ps := by
  simp only [checkPairs, holds, legal, if_true, readPairs_names names, firstDuplicate_none_iff.2 h]

end checks

/-- A legal list spelled in bytes passes the checks of pairs, in a slot of a part that holds timing. -/
theorem checkPairs_spelled {s : State} {slot : Byte} {ps : List Pair}
    (holds : s.timing.state = .locked ∨ s.timing.state = .coasting)
    (legal : slot.toNat < slotCount s.carriers.slotsPerFrame) (list : legalList ps) :
    checkPairs slot (spelled ps) s = .ok ps := by
  obtain ⟨-, -, distinct, values⟩ := list
  exact checkPairs_ok ((holdsTiming_iff s).2 holds) ((slotLegal_iff _ _).2 legal) (names_spelled values) distinct

/-- The refusals of checks 1 to 4, each by its condition, where the checks before it pass (R67, R111). -/
theorem checkPairs_refusals (slot : Byte) (raw : List RawPair) (s : State) :
    let refused (r : Reply) : Prop := checkPairs slot raw s = .error r
    let holds := s.timing.state = .locked ∨ s.timing.state = .coasting
    (¬ holds → refused (refuse .noTiming [BitVec.ofNat 8 (timingStateCode s.timing.state)])) ∧
    (holds → slotCount s.carriers.slotsPerFrame ≤ slot.toNat → refused (refuse .badField [0])) ∧
    (holds → slot.toNat < slotCount s.carriers.slotsPerFrame →
      (∀ before bad after, raw = before ++ bad :: after → (∀ x ∈ before, legalPair x) → ¬ legalPair bad →
        refused (refuse .badField [BitVec.ofNat 8 (before.length + 1)])) ∧
      ((∀ x ∈ raw, legalPair x) →
        (∀ before x after, raw = before ++ x :: after → (before.map RawPair.index).Nodup →
          (∀ y ∈ before, y.index ∉ (x :: after).map RawPair.index) → x.index ∈ after.map RawPair.index →
          refused (refuse .duplicate [x.index])) ∧
        ((raw.map RawPair.index).Nodup → ∃ ps, checkPairs slot raw s = .ok ps))) := by
  intro refused holds
  refine ⟨fun free => ?_, fun timed beyond => ?_, fun timed within => ?_⟩
  · have free : holdsTiming s = false := by rwa [← Bool.not_eq_true, holdsTiming_iff]
    rw [← byte1_eq]
    exact checkPairs_noTiming free
  · have beyond : slotLegal s.carriers.slotsPerFrame slot = false := by
      rw [← Bool.not_eq_true, slotLegal_iff]; exact Nat.not_lt.2 beyond
    exact (checkPairs_slot ((holdsTiming_iff s).2 timed) beyond).trans (by rw [badField_eq]; rfl)
  · have timed := (holdsTiming_iff s).2 timed
    have within := (slotLegal_iff _ _).2 within
    refine ⟨fun before bad after split legal illegal => ?_, fun legal => ?_⟩
    · rw [← badField_eq]
      exact checkPairs_bad timed within (split ▸ readPairs_bad legal illegal after 1)
    · obtain ⟨ps, names⟩ := names_of_legal legal
      refine ⟨fun before x after split distinct fresh again => ?_, fun distinct => ?_⟩
      · obtain ⟨i, found, index⟩ := firstDuplicate_first (split ▸ names) distinct fresh again
        have byte : [x.index] = byte1 i.val := by rw [byte1_eq, index, BitVec.ofNat_toNat, BitVec.setWidth_eq]
        rw [byte]
        exact checkPairs_duplicate timed within names found
      · exact ⟨ps, checkPairs_ok timed within names ((index_nodup_iff names).2 distinct)⟩

end Sys2Proof.Machine
end

