-- ==== Sys2Proof/Proofs/Refusals.lean ====
section
/-!
PROOFS. The refusals of GRANT_REQ and TX_REPORT (R67, R68, R111, R189): a list of the wrong length is refused before its
owner is asked, the checks of pairs come next, and the lookahead of GRANT_REQ comes last.
-/

namespace Sys2Proof.Machine

/-! ## Lists of the wrong length -/

/-- A request of no pairs or of more than 8, taken at once, is refused with its payload's length (R182). -/
theorem request_badLength {s : State} (h : requestReady s) (tag : Byte) {req : Request}
    (wrong : lengthAccepted req = false) (other : isResetPart req = false) :
    whileUp (arriveRequest tag req) s =
      .next (replied tag req (refuse .badLength [BitVec.ofNat 8 (requestPayload req).length]) (settle s)) := by
  rw [whileUp_high h.1, arriveRequest_badLength h tag req wrong, byte1_eq, replied, other]
  rfl

theorem pairBytes_length (raw : List RawPair) : (pairBytes raw).length = 2 * raw.length := by
  induction raw with
  | nil => rfl
  | cons r rest ih =>
    rw [pairBytes, List.flatMap_cons, List.length_append, ← pairBytes, ih]
    simp only [List.length_cons, List.length_nil]
    omega

theorem grantReq_length (frame : Word16) (slot : Byte) (raw : List RawPair) :
    (requestPayload (.grantReq frame slot raw)).length = 3 + 2 * raw.length := by
  simp only [requestPayload, List.length_append, List.length_cons, pairBytes_length, byte2, beBytes]
  simp
  omega

theorem txReport_length (frame : Word16) (slot : Byte) (raw : List RawPair) :
    (requestPayload (.txReport frame slot raw)).length = 3 + 2 * raw.length := grantReq_length frame slot raw

theorem listLength_refused {raw : List RawPair} (h : raw.length = 0 ∨ 8 < raw.length) :
    decide (1 ≤ raw.length ∧ raw.length ≤ 8) = false := decide_eq_false (by omega)

/-! ## The owners' checks -/

theorem takeGrantReq_error {frame : Word16} {slot : Byte} {raw : List RawPair} {s : State} {r : Reply}
    (h : checkPairs slot raw s = .error r) : takeGrantReq frame slot raw s = (s, r) := by
  simp only [takeGrantReq, h]

theorem takeGrantReq_lookahead {frame : Word16} {slot : Byte} {raw : List RawPair} {s : State} {ps : List Pair} {r : Reply}
    (pairs : checkPairs slot raw s = .ok ps) (h : checkLookahead frame s = some r) :
    takeGrantReq frame slot raw s = (s, r) := by
  simp only [takeGrantReq, pairs, h]

theorem takeTxReport_error {frame : Word16} {slot : Byte} {raw : List RawPair} {s : State} {r : Reply}
    (h : checkPairs slot raw s = .error r) : takeTxReport frame slot raw s = (s, r) := by
  simp only [takeTxReport, h]

theorem checkLookahead_stale {frame : Word16} {s : State} (h : frameOffset frame s.timing.frameCounter < 0) :
    checkLookahead frame s = some (refuse .stale (signedBytes 2 (frameOffset frame s.timing.frameCounter))) := by
  rw [checkLookahead_eq, if_pos h]

theorem checkLookahead_ahead {frame : Word16} {s : State} (h : 8 < frameOffset frame s.timing.frameCounter) :
    checkLookahead frame s = some (refuse .ahead (signedBytes 2 (frameOffset frame s.timing.frameCounter))) := by
  rw [checkLookahead_eq, if_neg (by omega), if_pos h]

theorem checkLookahead_passes {frame : Word16} {s : State} (notStale : 0 ≤ frameOffset frame s.timing.frameCounter)
    (notAhead : frameOffset frame s.timing.frameCounter ≤ 8) : checkLookahead frame s = none := by
  rw [checkLookahead_eq, if_neg (by omega), if_neg (by omega)]

/-- A request its owner answers without an effect: only the reply queue changes. -/
theorem request_refused {s : State} (h : requestReady s) (tag : Byte) {req : Request} (length : lengthAccepted req = true)
    {r : Reply} (refused : ownRequest req (settle s) = (settle s, r)) :
    whileUp (arriveRequest tag req) s = .next (replied tag req r (settle s)) := by
  rw [request_ready h tag req length, refused]

/-! ## The obligation -/

theorem grantRequestRefusals : Claims.GrantRequestRefusals := by
  intro tag frame slot raw s ready u offset refused holds
  refine ⟨fun wrong _ => ?_, fun atLeast atMost => ?_⟩
  · have reply := request_badLength ready tag (req := .grantReq frame slot raw) (listLength_refused wrong) rfl
    rwa [grantReq_length] at reply
  · have answered (r : Reply) (h : takeGrantReq frame slot raw u = (u, r)) : refused r :=
      request_refused ready tag (req := .grantReq frame slot raw) (decide_eq_true ⟨atLeast, atMost⟩) h
    obtain ⟨untimed, beyond, listed⟩ := checkPairs_refusals slot raw u
    refine ⟨fun h => answered _ (takeGrantReq_error (untimed h)),
      fun h k => answered _ (takeGrantReq_error (beyond h k)), fun h k => ?_⟩
    obtain ⟨bad, legal⟩ := listed h k
    refine ⟨fun before x after split good ill =>
      answered _ (takeGrantReq_error (bad before x after split good ill)), fun good => ?_⟩
    obtain ⟨duplicate, distinct⟩ := legal good
    refine ⟨fun before x after split once fresh again =>
      answered _ (takeGrantReq_error (duplicate before x after split once fresh again)),
      fun once early => ?_, fun once late => ?_⟩
    · obtain ⟨ps, read⟩ := distinct once
      exact answered _ (takeGrantReq_lookahead read (checkLookahead_stale early))
    · obtain ⟨ps, read⟩ := distinct once
      exact answered _ (takeGrantReq_lookahead read (checkLookahead_ahead late))

theorem transmitReportRefusals : Claims.TransmitReportRefusals := by
  intro tag frame slot raw s ready u refused holds
  refine ⟨fun wrong _ => ?_, fun atLeast atMost => ?_⟩
  · have reply := request_badLength ready tag (req := .txReport frame slot raw) (listLength_refused wrong) rfl
    rwa [txReport_length] at reply
  · have answered (r : Reply) (h : checkPairs slot raw u = .error r) : refused r := by
      have taken : takeTxReport frame slot raw u = (u, r) := takeTxReport_error h
      exact request_refused ready tag (req := .txReport frame slot raw) (decide_eq_true ⟨atLeast, atMost⟩) taken
    obtain ⟨untimed, beyond, listed⟩ := checkPairs_refusals slot raw u
    refine ⟨fun h => answered _ (untimed h), fun h k => answered _ (beyond h k), fun h k => ?_⟩
    obtain ⟨bad, legal⟩ := listed h k
    exact ⟨fun before x after split good ill => answered _ (bad before x after split good ill),
      fun good before x after split once fresh again =>
        answered _ ((legal good).1 before x after split once fresh again)⟩

/-- Settles O51: a list of the wrong length never reaches the owner; every other refusal is that of the shared checks of
pairs, and for GRANT_REQ of the lookahead after them, and leaves the settled state. -/
theorem grantAndReportRefusals : Obligations.GrantAndReportRefusals := ⟨grantRequestRefusals, transmitReportRefusals⟩

end Sys2Proof.Machine
end

