-- ==== Sys2Proof/Proofs/TraceRequests.lean ====
section
/-!
PROOFS. RING_RELEASE, and TRACE_SET with ARM, DISARM and another action (R95, R143).
-/

namespace Sys2Proof.Machine

/-! ## RING_RELEASE -/

theorem takeRingRelease_lower (s : State) :
    takeRingRelease 0 s = (s.setRing { s.ring with lowerHeld := false }, done []) := rfl

theorem takeRingRelease_upper (s : State) :
    takeRingRelease 1 s = (s.setRing { s.ring with upperHeld := false }, done []) := rfl

theorem takeRingRelease_refused {half : Byte} (h : 1 < half.toNat) (s : State) :
    takeRingRelease half s = (s, refuse .badField [0]) := by
  have notLower : half ≠ 0 := by rintro rfl; exact absurd h (by decide)
  have notUpper : half ≠ 1 := by rintro rfl; exact absurd h (by decide)
  rw [takeRingRelease, if_neg notLower, if_neg notUpper, badField_eq]
  rfl

theorem ringReleaseClearsAHeldFlag : Claims.RingReleaseClearsAHeldFlag := by
  intro tag half s ready u answer
  have row : exec (.ringRelease tag half) s = .next (replied tag (.ringRelease half)
      (takeRingRelease half u).2 (takeRingRelease half u).1) := request_ready ready tag (.ringRelease half) rfl
  have answered (r : Reply) (v : State) (h : takeRingRelease half u = (v, r)) : answer r v := by rw [h] at row; exact row
  refine ⟨fun lower => ?_, fun upper => ?_, fun other => answered _ _ (takeRingRelease_refused other u)⟩
  · exact answered _ _ (lower ▸ takeRingRelease_lower u)
  · exact answered _ _ (upper ▸ takeRingRelease_upper u)

/-! ## TRACE_SET -/

section arming
variable {frame : Word16} {slot : Byte} {s : State}

theorem armTrace_noTiming (h : holdsTiming s = false) : armTrace frame slot s = (s, noTiming s) :=
  if_pos (by simp [h])

variable (holds : holdsTiming s = true)
include holds

theorem armTrace_slot (h : slotLegal s.carriers.slotsPerFrame slot = false) :
    armTrace frame slot s = (s, badField 0) := by
  rw [armTrace, holds, h]
  rfl

variable (legal : slotLegal s.carriers.slotsPerFrame slot = true)
include legal

theorem armTrace_lookahead {r : Reply} (h : checkLookahead frame s = some r) : armTrace frame slot s = (s, r) := by
  rw [armTrace, holds, legal, h]
  rfl

theorem armTrace_armed (h : checkLookahead frame s = none) :
    armTrace frame slot s =
      (s.setEngine { s.engine with
        armed := some
          { frame := resolveFrame frame s.timing.frameCounter, slot
            position :=
              slotPosition (resolveFrame frame s.timing.frameCounter) s.carriers.slotsPerFrame slot } }, done []) := by
  rw [armTrace, holds, legal, h]
  rfl

end arming

theorem takeTraceSet_arm (frame : Word16) (slot : Byte) (s : State) :
    takeTraceSet frame slot 1 s = armTrace frame slot s := if_pos rfl

/-- The row of ARM, taken at once (R95, R182). -/
theorem arm_row {s : State} (ready : requestReady s) (tag : Byte) (frame : Word16) (slot : Byte) {r : Reply} {v : State}
    (h : armTrace frame slot (settle s) = (v, r)) :
    exec (.arm tag frame slot) s = .next (replied tag (.traceSet frame slot 1) r v) := by
  have owner : ownRequest (.traceSet frame slot 1) (settle s) = (v, r) := (takeTraceSet_arm frame slot _).trans h
  have row := request_ready ready tag (.traceSet frame slot 1) rfl
  rw [owner] at row
  exact row

/-- The row of DISARM, taken at once (R95, R182). -/
theorem disarm_row {s : State} (ready : requestReady s) (tag : Byte) (frame : Word16) (slot : Byte) :
    exec (.disarm tag frame slot) s = .next (replied tag (.traceSet frame slot 0) (done [])
      { settle s with engine := { (settle s).engine with armed := none } }) :=
  request_ready ready tag (.traceSet frame slot 0) rfl

theorem traceArmsAndDisarms : Claims.TraceArmsAndDisarms := by
  intro tag frame slot s ready
  have armed (r : Reply) (v : State) := arm_row (r := r) (v := v) ready tag frame slot
  have disarmed := disarm_row ready tag frame slot
  generalize settle s = u at armed disarmed ⊢
  intro _ offset holds n answer
  have answered (r : Reply) (v : State) (h : armTrace frame slot u = (v, r)) : answer r v := armed r v h
  have timed (h : holds) : holdsTiming u = true := (holdsTiming_iff u).2 h
  have within (h : slot.toNat < n) : slotLegal u.carriers.slotsPerFrame slot = true := (slotLegal_iff _ _).2 h
  refine ⟨fun free => ?_, fun h beyond => ?_, fun h k early => ?_, fun h k late => ?_, fun h k notStale notAhead => ?_,
    disarmed⟩
  · have untimed : holdsTiming u = false := by rwa [← Bool.not_eq_true, holdsTiming_iff]
    rw [← byte1_eq]
    exact answered _ _ (armTrace_noTiming untimed)
  · have illegal : slotLegal u.carriers.slotsPerFrame slot = false := by
      rw [← Bool.not_eq_true, slotLegal_iff]; exact Nat.not_lt.2 beyond
    have refused := armTrace_slot (frame := frame) (timed h) illegal
    rw [badField_eq] at refused
    exact answered _ _ refused
  · exact answered _ _ (armTrace_lookahead (timed h) (within k) (checkLookahead_stale early))
  · exact answered _ _ (armTrace_lookahead (timed h) (within k) (checkLookahead_ahead late))
  · exact answered _ _ (armTrace_armed (timed h) (within k) (checkLookahead_passes notStale notAhead))

/-! ### From the receive queue -/

/-- The decoder, where it may, takes the oldest frame after the work of earlier frame events (R182). -/
theorem decodeOldest_takes {s : State} {f : RxFrame} {rest : List RxFrame} (running : s.link.decoder = .running)
    (room : s.link.replyQueue.length < 4) (oldest : s.link.receiveQueue = f :: rest) (t : Moment) :
    decodeOldest t s =
      answerFrame f ((settle (advanceTo t s)).setLink { (settle (advanceTo t s)).link with receiveQueue := rest }) := by
  have free : decoderFree s.link = true := by
    rw [decoderFree, running]
    exact decide_eq_true room
  simp only [decodeOldest, oldest, free, if_true]

theorem requestOfBytes_traceSet (n : Nat) (slot action : Byte) :
    ∃ frame, requestOfBytes 0x14 (byte2 n ++ [slot, action]) = some (.traceSet frame slot action) := ⟨_, rfl⟩

theorem takeTraceSet_refused (frame : Word16) (slot : Byte) {action : Byte} (h : 1 < action.toNat) (s : State) :
    takeTraceSet frame slot action s = (s, refuse .badField [1]) := by
  have notArm : action ≠ 1 := by rintro rfl; exact absurd h (by decide)
  have notDisarm : action ≠ 0 := by rintro rfl; exact absurd h (by decide)
  rw [takeTraceSet, if_neg notArm, if_neg notDisarm, badField_eq]
  rfl

theorem answerRequest_traceSet (tag : Byte) (frame : Word16) (slot : Byte) {action : Byte} (h : 1 < action.toNat)
    (s : State) :
    answerRequest tag (.traceSet frame slot action) s =
      s.setLink (addReply 0x14 tag false { status := .badField, detail := [1] } s.link) := by
  have refused : ownRequest (.traceSet frame slot action) s = (s, refuse .badField [1]) :=
    takeTraceSet_refused frame slot h s
  have accepted : lengthAccepted (.traceSet frame slot action) = true := rfl
  rw [answerRequest, if_pos accepted, refused]
  rfl

theorem traceSetRefusesAnotherAction : Claims.TraceSetRefusesAnotherAction := by
  intro t tag frame slot action rest s high running room oldest other
  obtain ⟨named, spells⟩ := requestOfBytes_traceSet frame.toNat slot action
  have known : kindKnown 0x14 = true := rfl
  have row : exec (.requestDecode t) s = .next (decodeOldest t s) := whileUp_high high
  have moved : advanceTo t s = { s with now := max s.now t } := rfl
  have answered (u : State) : answerFrame { kind := 0x14, tag, payload := byte2 frame.toNat ++ [slot, action] } u =
      u.setLink (addReply 0x14 tag false { status := .badField, detail := [1] } u.link) := by
    simp only [answerFrame, known, spells, if_true, answerRequest_traceSet tag named slot other]
  rw [row, decodeOldest_takes running room oldest, answered, moved]
  generalize settle { s with now := max s.now t } = v
  rfl

/-- Settles O38: RING_RELEASE and ARM are taken at once and each branch of their owners is read off; another action is
read from the receive queue's bytes and refused by its owner. -/
theorem halvesReleaseAndTraceArms : Obligations.HalvesReleaseAndTraceArms :=
  ⟨ringReleaseClearsAHeldFlag, traceArmsAndDisarms, traceSetRefusesAnotherAction⟩

end Sys2Proof.Machine
end

