-- ==== Sys2Proof/Proofs/Withdrawal.lean ====
section
/-!
PROOFS. The withdrawal of a re-grant (R69, step 1; R103, R168): the record it takes the charges out of, the comparison
of exhaustion, and the notice of a release taken at once.
-/

namespace Sys2Proof.Machine

/-! ## The list without an entry -/

theorem withdrawEntry_none {p : Word32} {s : State} (h : ∀ e ∈ s.openGrants.entries, e.position ≠ p) :
    withdrawEntry p s = s := by
  have missing : findEntry p s = none := by
    rw [findEntry, List.find?_eq_none]
    exact fun e he => by simpa using h e he
  rw [withdrawEntry, missing]

/-- The state a withdrawal leaves to Inhibit Control: the charges taken out, the entry removed, exhaustion compared. -/
def withdrawn (e : OpenGrant) (p : Word32) (s : State) : State :=
  recomputeExposure (withoutEntry p (mapNamedRecord e (withdrawRecord e) s))

theorem withdrawEntry_some {p : Word32} {s : State} {e : OpenGrant} (h : findEntry p s = some e) :
    withdrawEntry p s = takeReleaseNow s (withdrawn e p s) := by
  rw [withdrawEntry, h]
  rfl

section withdrawn
variable (e : OpenGrant) (p : Word32) (s : State)

theorem withdrawn_frame : onlyChanges [.openGrants, .ring, .work] s (withdrawn e p s) :=
  frame_then (frame_then (ds := [.openGrants, .ring]) (mapNamedRecord_frame _ _ s) (withoutEntry_frame _ _))
    (recomputeExposure_frame _)

theorem withoutEntry_ring : (withoutEntry p s).ring = s.ring := frame_ring (withoutEntry_frame p s) (by decide)

theorem withoutEntry_openGrants : (withoutEntry p s).openGrants =
    { s.openGrants with entries := s.openGrants.entries.filter fun x => x.position != p } := rfl

theorem withdrawn_openGrants : (withdrawn e p s).openGrants =
    { s.openGrants with entries := s.openGrants.entries.filter fun x => x.position != p } := by
  rw [withdrawn, frame_openGrants (recomputeExposure_frame _) (by decide), withoutEntry_openGrants,
    frame_openGrants (mapNamedRecord_frame _ _ _) (by decide)]

theorem withdrawn_get (q : Fin 128) : recordAt (withdrawn e p s) q =
    if q = e.ringPosition ∧ (recordAt s e.ringPosition).number = e.intervalNumber then withdrawRecord e (recordAt s q)
    else recordAt s q := by
  rw [withdrawn, recomputeExposure_get, recordAt_frame (withoutEntry_frame _ _) (by decide), mapNamedRecord_get]

theorem withdrawn_exhausted : (withdrawn e p s).ring.exhausted = windowExhausted (withdrawn e p s) :=
  recomputeExposure_exhausted _

theorem withdrawn_ring : (withdrawn e p s).ring =
    { s.ring with records := (withdrawn e p s).ring.records, exhausted := (withdrawn e p s).ring.exhausted } := by
  rw [withdrawn, recomputeExposure_ring, withoutEntry_ring, mapNamedRecord_ring]

theorem withdrawn_work : (withdrawn e p s).work =
    toldOfExposure s.ring.exhausted (withdrawn e p s).ring.exhausted s.work := by
  rw [withdrawn, recomputeExposure_told, recomputeExposure_ring, withoutEntry_ring,
    frame_work (withoutEntry_frame _ _) (by decide), frame_work (mapNamedRecord_frame _ _ _) (by decide),
    mapNamedRecord_ring]

end withdrawn

/-! ## The notice of a release, taken at once -/

theorem recomputeInhibit_same {s : State} (h : causesOf s = s.inhibit.causes) : recomputeInhibit s = s := if_pos h

theorem recomputeInhibit_moved {s : State} (h : causesOf s ≠ s.inhibit.causes) :
    recomputeInhibit s =
      raised (.inhibit (causesAny (causesOf s)) (causesOf s) s.timing.frameCounter)
        (s.setInhibit { causes := causesOf s, txinh := causesAny (causesOf s) }) := by
  rw [recomputeInhibit, if_neg h, raiseChange_eq]

theorem takeReleaseNow_waits {before s : State} (h : ¬ (before.ring.exhausted = true ∧ s.ring.exhausted = false)) :
    takeReleaseNow before s = s := by
  rw [takeReleaseNow, if_neg]
  simpa using h

/-- The state in which the notice of a release is taken: it no longer waits. -/
def noticeTaken (s : State) : State := s.setWork { s.work with notices := s.work.notices.erase .exhaustion }

theorem takeReleaseNow_releases {before s : State} (h : before.ring.exhausted = true ∧ s.ring.exhausted = false) :
    takeReleaseNow before s = recomputeInhibit (noticeTaken s) := by
  obtain ⟨was, now⟩ := h
  rw [takeReleaseNow, if_pos (by simp [was, now])]
  rfl

/-- A notice that a release appends, and that is taken at once, leaves the work as it was. -/
theorem release_work {w : Outstanding} (h : Notice.exhaustion ∉ w.notices) :
    { toldOfExposure true false w with
      notices := (toldOfExposure true false w).notices.erase .exhaustion } = w := by
  have last : (w.notices ++ [Notice.exhaustion]).erase .exhaustion = w.notices := by
    rw [List.erase_append_right _ h, List.erase_cons_head, List.append_nil]
  simp [toldOfExposure, last]

/-! ## What Inhibit Control makes of it -/

section release
variable {before s : State} (h : before.ring.exhausted = true ∧ s.ring.exhausted = false)
include h

theorem takeReleaseNow_work : (takeReleaseNow before s).work = (noticeTaken s).work := by
  rw [takeReleaseNow_releases h, frame_work (recomputeInhibit_frame _) (by decide)]

theorem takeReleaseNow_same (same : causesOf s = s.inhibit.causes) :
    (takeReleaseNow before s).inhibit = s.inhibit ∧ (takeReleaseNow before s).changes = s.changes := by
  have still : recomputeInhibit (noticeTaken s) = noticeTaken s :=
    recomputeInhibit_same ((causesOf_congr rfl rfl rfl).trans same)
  rw [takeReleaseNow_releases h, still]
  exact ⟨rfl, rfl⟩

theorem takeReleaseNow_moved (moved : causesOf s ≠ s.inhibit.causes) :
    (takeReleaseNow before s).inhibit = { causes := causesOf s, txinh := causesAny (causesOf s) } ∧
      (takeReleaseNow before s).changes =
        reported (.inhibit (causesAny (causesOf s)) (causesOf s) s.timing.frameCounter) s.changes := by
  have causes : causesOf (noticeTaken s) = causesOf s := causesOf_congr rfl rfl rfl
  have raises := recomputeInhibit_moved (s := noticeTaken s) (by rw [causes]; exact moved)
  rw [causes] at raises
  rw [takeReleaseNow_releases h, raises]
  exact ⟨rfl, rfl⟩

end release

/-! ## The obligation -/

/-- Settles O41: the withdrawal is read off in two parts, the record and the comparison first, and the notice of a
release, which leaves everything but Inhibit Control, the changes and the notice itself. -/
theorem regrantWithdrawsTheEarlierEntry : Obligations.RegrantWithdrawsTheEarlierEntry := by
  refine fun p s => ⟨withdrawEntry_none, fun e found => ?_⟩
  have split : withdrawEntry p s = takeReleaseNow s (withdrawn e p s) := withdrawEntry_some found
  have before := withdrawn_frame e p s
  have openGrants := withdrawn_openGrants e p s
  have ring := withdrawn_ring e p s
  have work := withdrawn_work e p s
  have exhausted := withdrawn_exhausted e p s
  have record := withdrawn_get e p s
  have inhibit : (withdrawn e p s).inhibit = s.inhibit := frame_inhibit before (by decide)
  have changes : (withdrawn e p s).changes = s.changes := frame_changes before (by decide)
  have timing : (withdrawn e p s).timing = s.timing := frame_timing before (by decide)
  have whole := withdrawEntry_frame p s
  have after := takeReleaseNow_frame s (withdrawn e p s)
  rw [← split] at after
  generalize withdrawn e p s = m at *
  generalize withdrawEntry p s = v at *
  have sameRing : v.ring = m.ring := frame_ring after (by decide)
  have sameWindow : windowExhausted v = m.ring.exhausted := by
    rw [exhausted]
    exact windowExhausted_congr (by rw [sameRing]) (by rw [sameRing]) (by rw [frame_policy after (by decide)])
  have causes : causesOf v = causesOf m :=
    causesOf_congr (by rw [frame_heat after (by decide)]) (by rw [sameRing]) (by rw [frame_policy after (by decide)])
  simp only [sameRing, causes, sameWindow]
  refine ⟨?_, ?_, fun q other => ?_, ring, ⟨fun still => ?_, fun released moved => ?_, fun released agreed => ?_,
    fun released fresh => ?_, fun kept => ?_⟩, whole⟩
  · rw [frame_openGrants after (by decide), openGrants]
  · rw [recordAt_frame after (by decide), record]
    simp only [true_and]
    rfl
  · rw [recordAt_frame after (by decide), record, if_neg fun h => other h.1]
  · rw [← inhibit, ← changes, split]
    rw [← inhibit] at still
    by_cases released : s.ring.exhausted = true ∧ m.ring.exhausted = false
    · exact takeReleaseNow_same released (still.resolve_left (not_not_intro released))
    · rw [takeReleaseNow_waits released]
      exact ⟨rfl, rfl⟩
  · rw [← inhibit] at moved
    rw [split, ← changes, ← timing]
    exact takeReleaseNow_moved released moved
  · rw [← inhibit] at agreed
    rw [split]
    by_cases same : causesOf m = m.inhibit.causes
    · rw [(takeReleaseNow_same released same).1, agreed, ← same]
    · rw [(takeReleaseNow_moved released same).1, causesAny]
  · obtain ⟨was, now⟩ := released
    rw [split, takeReleaseNow_work ⟨was, now⟩, noticeTaken, setWork_work, work, was, now, release_work fresh]
  · rw [split, takeReleaseNow_waits kept, work]

end Sys2Proof.Machine
end

