-- ==== Sys2Proof/Proofs/Charge.lean ====
section
/-!
PROOFS. The charge of a decision (R91, R134): the peak of its radiated codes, the bytes folded into the signature, and
the comparison of exhaustion after it.
-/

namespace Sys2Proof.Machine

/-! ## The peak (R91) -/

/-- The radiated code a lane is granted, none at OFF. -/
def radiated (l : Lane) : Option Nat :=
  match l.value with
  | .off => none
  | .code c => some (radiatedCode l.entry.gain c)

/-- A record's peak with one more peak taken in, as `chargeRecord` takes it. -/
def takePeak : Option Nat → Option Nat → Option Nat
  | none, p => p
  | some c, none => some c
  | some c, some p => some (max p c)

theorem peakGranted_eq (ls : List Lane) :
    peakGranted ls = (ls.filterMap radiated).foldl (fun m c => some (max (m.getD 0) c)) none := by
  rw [peakGranted, List.foldl_filterMap]
  congr 1
  funext m l
  cases h : l.value <;> simp [radiated, h]

/-- What the fold of some codes leaves: the greatest of the codes and of the start. -/
theorem foldl_peak (codes : List Nat) (m : Option Nat) :
    (codes = [] → codes.foldl (fun m c => some (max (m.getD 0) c)) m = m) ∧
      (codes ≠ [] → ∃ c, codes.foldl (fun m c => some (max (m.getD 0) c)) m = some c ∧ (c ∈ codes ∨ m = some c) ∧
        (∀ x ∈ codes, x ≤ c) ∧ m.getD 0 ≤ c) := by
  induction codes generalizing m with
  | nil => simp
  | cons x rest ih =>
    refine ⟨by simp, fun _ => ?_⟩
    obtain ⟨last, more⟩ := ih (some (max (m.getD 0) x))
    rw [List.foldl_cons]
    have first : max (m.getD 0) x = x ∨ m = some (max (m.getD 0) x) := by
      cases m with
      | none => simp
      | some p => simp only [Option.getD_some, Option.some.injEq]; omega
    by_cases final : rest = []
    · subst final
      refine ⟨_, rfl, ?_, by simp, le_max_left _ _⟩
      simpa using first
    · obtain ⟨c, fold, origin, above, start⟩ := more final
      simp only [Option.getD_some, Option.some.injEq] at origin start
      refine ⟨c, fold, ?_, ?_, by omega⟩
      · rcases origin with inRest | rfl
        · exact .inl (List.mem_cons_of_mem _ inRest)
        · exact first.imp (fun h => by rw [h]; exact List.mem_cons_self) id
      · simp only [List.forall_mem_cons]
        exact ⟨by omega, above⟩

/-- The peak a charge leaves: the record's own where nothing is granted a code, else the greatest (R91). -/
theorem takePeak_peakGranted (ls : List Lane) (old : Option Nat) :
    (ls.filterMap radiated = [] → takePeak (peakGranted ls) old = old) ∧
      (ls.filterMap radiated ≠ [] → ∃ c, takePeak (peakGranted ls) old = some c ∧
        (c ∈ ls.filterMap radiated ∨ old = some c) ∧ (∀ x ∈ ls.filterMap radiated, x ≤ c) ∧ old.getD 0 ≤ c) := by
  obtain ⟨unmoved, moved⟩ := foldl_peak (ls.filterMap radiated) none
  rw [peakGranted_eq]
  refine ⟨fun h => by rw [unmoved h]; rfl, fun h => ?_⟩
  obtain ⟨c, fold, origin, above, -⟩ := moved h
  have member : c ∈ ls.filterMap radiated := origin.resolve_right nofun
  rw [fold]
  cases old with
  | none => exact ⟨c, rfl, .inl member, above, Nat.zero_le c⟩
  | some p =>
    refine ⟨max p c, rfl, ?_, fun x hx => (above x hx).trans (le_max_right _ _), le_max_left _ _⟩
    rcases le_total c p with le | le
    · exact .inr (by rw [max_eq_left le])
    · exact .inl (by rwa [max_eq_right le])

/-! ## The signature's bytes (R134) -/

/-- A word of 32 bits is carried in four bytes as it is. -/
theorem byte4_word (w : Word32) : byte4 w.toNat = beBytes 4 w.toNat := by
  have small := w.isLt
  rw [byte4, Nat.min_eq_left (by rw [max32]; omega)]

theorem decisionBytes_eq (p : Word32) (carriers : List GrantedCarrier) :
    decisionBytes p carriers =
      byte4 p.toNat ++ carriers.flatMap fun c => [BitVec.ofNat 8 c.index.val, powerByte c.granted] := by
  simp only [decisionBytes, byte4_word, byte1_eq, List.cons_append, List.nil_append]

/-! ## The charge -/

theorem countUp_when (b : Bool) (top n : Nat) :
    (if b then countUp top n else n) = if b && decide (n < top) then n + 1 else n := by
  cases b <;> simp [countUp]

/-- A record charged with a decision, in the claims' words (R91). -/
theorem chargeRecord_eq (charge anchorCharge : Nat) (throttled : Bool) (peak : Option Nat) (bytes : List Byte)
    (r : IntervalRecord) :
    chargeRecord charge anchorCharge throttled peak bytes r =
      { r with
        energy := min 4294967295 (r.energy + charge)
        anchorEnergy := min 4294967295 (r.anchorEnergy + anchorCharge)
        grants := if r.grants < 65535 then r.grants + 1 else r.grants
        throttled := if throttled && decide (r.throttled < 65535) then r.throttled + 1 else r.throttled
        peak := takePeak peak r.peak
        signature := crcFold r.signature bytes } := by
  rw [← countUp_when]
  rfl

section
variable (e : OpenGrant) (ls : List Lane) (s : State)

theorem chargeDecision_get (q : Fin 128) : recordAt (chargeDecision e ls s) q =
    if q = s.ring.writePosition then
      chargeRecord e.charge e.anchorCharge (ls.any fun l => l.reason != .none) (peakGranted ls)
        (decisionBytes e.position e.carriers) (recordAt s s.ring.writePosition)
    else recordAt s q := by
  rw [chargeDecision, recomputeExposure_get, mapRecord_get]

theorem chargeDecision_exhausted : (chargeDecision e ls s).ring.exhausted = windowExhausted (chargeDecision e ls s) :=
  recomputeExposure_exhausted _

theorem chargeDecision_ring : (chargeDecision e ls s).ring =
    { s.ring with
      records := (chargeDecision e ls s).ring.records
      exhausted := windowExhausted (chargeDecision e ls s) } := by
  rw [← chargeDecision_exhausted, chargeDecision, recomputeExposure_ring, mapRecord_ring]

theorem chargeDecision_work : (chargeDecision e ls s).work =
    toldOfExposure s.ring.exhausted (windowExhausted (chargeDecision e ls s)) s.work := by
  rw [← chargeDecision_exhausted, chargeDecision, recomputeExposure_told, recomputeExposure_ring,
    frame_work (mapRecord_frame _ _ _) (by decide), mapRecord_ring]

end

/-- Settles O42: the OPEN record is the charged one, its peak the greatest of the codes granted and its own, and every
other record stands. -/
theorem decisionChargesTheOpenRecord : Obligations.DecisionChargesTheOpenRecord := by
  intro e ls s
  obtain ⟨unmoved, moved⟩ := takePeak_peakGranted ls (recordAt s s.ring.writePosition).peak
  refine ⟨takePeak (peakGranted ls) (recordAt s s.ring.writePosition).peak, unmoved, moved, ?_, fun q other => ?_,
    chargeDecision_ring e ls s, chargeDecision_work e ls s, chargeDecision_frame e ls s⟩
  · rw [chargeDecision_get, if_pos rfl, chargeRecord_eq, decisionBytes_eq]
  · rw [chargeDecision_get, if_neg other]

end Sys2Proof.Machine
end

