-- ==== Sys2Proof/Proofs/Hits.lean ====
section
/-!
PROOFS. A report that hits an entry (R113 to R116, R119, R120): the energies it counts, when it overshoots, and what
settling it leaves.
-/

namespace Sys2Proof.Machine

/-! ## The energies counted (R114) -/

theorem reportedValue_getD (ps : List Pair) (c : GrantedCarrier) :
    (reportedValue ps c.index).getD c.granted =
      match ps.find? fun p => p.index == c.index with
      | some p => p.value
      | none => c.granted := by
  rw [reportedValue]
  cases ps.find? fun p => p.index == c.index <;> rfl

theorem countedEnergy_listed (s : State) (ps : List Pair) (c : GrantedCarrier) :
    countedEnergy s { index := c.index, value := (reportedValue ps c.index).getD c.granted, role := c.role } =
      carrierEnergy (liveEntry s c.index).gain (slotDuration s.carriers.slotsPerFrame)
        (match ps.find? fun p => p.index == c.index with
        | some p => p.value
        | none => c.granted) := by
  rw [← reportedValue_getD]
  rfl

theorem actualEnergy_append (s : State) (cs ds : List CountedCarrier) :
    actualEnergy s (cs ++ ds) = actualEnergy s cs + actualEnergy s ds := by
  simp only [actualEnergy, List.map_append, List.sum_append]

theorem hitCountsEachCarrier : Claims.HitCountsEachCarrier := by
  intro s e ps live energy counted alone
  constructor
  · rw [countHit, actualEnergy_append]
    simp only [actualEnergy, countReported, List.map_map, Function.comp_def, countedEnergy_listed]
    rfl
  · rw [actualAnchorEnergy, countHit, List.filter_append, actualEnergy_append]
    simp only [actualEnergy, countReported, List.filter_map, List.map_map, Function.comp_def, countedEnergy_listed]
    rfl

/-! ## When a report overshoots (R115) -/

theorem powerAbove_iff (v w : Power) :
    powerAbove v w = true ↔ ∃ k, v = .code k ∧ (w = .off ∨ ∃ g, w = .code g ∧ g < k) := by
  cases v <;> cases w <;> simp [powerAbove]

/-- In a report that names each carrier once, the value of a carrier is that of its pair. -/
theorem reportedValue_iff {ps : List Pair} (distinct : (ps.map Pair.index).Nodup) (i : Fin 8) (v : Power) :
    reportedValue ps i = some v ↔ ∃ p ∈ ps, p.index = i ∧ p.value = v := by
  induction ps with
  | nil => simp [reportedValue]
  | cons p rest ih =>
    rw [List.map_cons, List.nodup_cons] at distinct
    rw [reportedValue, List.find?_cons]
    by_cases here : p.index = i
    · have once : ∀ q ∈ rest, q.index ≠ i := fun q hq same => distinct.1 (by
        rw [here, ← same]
        exact List.mem_map_of_mem hq)
      simp only [here, beq_self_eq_true, Option.map_some, Option.some.injEq, List.exists_mem_cons_iff, true_and]
      exact ⟨.inl, fun h => h.resolve_right fun ⟨q, hq, same, _⟩ => once q hq same⟩
    · have elsewhere : (p.index == i) = false := beq_false_of_ne here
      simp only [elsewhere, List.exists_mem_cons_iff, here, false_and, false_or]
      exact ih distinct.2

theorem anyCode_iff (ps : List Pair) : anyCode ps = true ↔ ∃ p ∈ ps, ∃ k, p.value = .code k := by
  simp only [anyCode, List.any_eq_true]
  refine exists_congr fun p => and_congr_right fun _ => ?_
  cases p.value <;> simp [isCode]

theorem mem_unlistedPairs (e : OpenGrant) (ps : List Pair) (p : Pair) :
    p ∈ unlistedPairs e ps ↔ p ∈ ps ∧ ∀ c ∈ e.carriers, c.index ≠ p.index := by
  simp [unlistedPairs]

theorem hitOvershoots_eq (e : OpenGrant) (ps : List Pair) :
    hitOvershoots e ps =
      ((e.carriers.any fun c => (reportedValue ps c.index).any fun v => powerAbove v c.granted) ||
        anyCode (unlistedPairs e ps)) := by
  rw [hitOvershoots]
  congr 2
  funext c
  cases reportedValue ps c.index <;> rfl

/-- A carrier the entry lists is reported above its grant. -/
theorem listed_overshoots_iff {ps : List Pair} (distinct : (ps.map Pair.index).Nodup) (c : GrantedCarrier) :
    (reportedValue ps c.index).any (fun v => powerAbove v c.granted) = true ↔
      ∃ p ∈ ps, c.index = p.index ∧ powerAbove p.value c.granted = true := by
  simp only [Option.any_eq_true, reportedValue_iff distinct]
  constructor
  · rintro ⟨v, ⟨p, hp, index, rfl⟩, above⟩
    exact ⟨p, hp, index.symm, above⟩
  · rintro ⟨p, hp, index, above⟩
    exact ⟨p.value, ⟨p, hp, index.symm, rfl⟩, above⟩

theorem overshootIsAboveTheGrant : Claims.OvershootIsAboveTheGrant := by
  intro e ps distinct
  simp only [hitOvershoots_eq, Bool.or_eq_true, List.any_eq_true, anyCode_iff, mem_unlistedPairs,
    listed_overshoots_iff distinct, powerAbove_iff]
  constructor
  · rintro (⟨c, hc, p, hp, index, k, value, above⟩ | ⟨p, ⟨hp, unlisted⟩, k, value⟩)
    · exact ⟨p, hp, k, value, .inr ⟨c, hc, index, above⟩⟩
    · exact ⟨p, hp, k, value, .inl unlisted⟩
  · rintro ⟨p, hp, k, value, unlisted | ⟨c, hc, index, above⟩⟩
    · exact .inr ⟨p, ⟨hp, unlisted⟩, k, value⟩
    · exact .inl ⟨c, hc, p, hp, index, k, value, above⟩

/-! ## A hit settled (R116, R119) -/

theorem energyCorrect_eq (energy charged actual : Nat) :
    energyCorrect energy charged actual =
      if charged ≤ actual then min 4294967295 (energy + (actual - charged)) else energy + actual - charged := by
  rw [energyCorrect, energyAdd, max32]
  split
  · rfl
  · omega

theorem countUp_le {top n : Nat} (h : n ≤ top) : countUp top n = min top (n + 1) := by
  rw [countUp]
  split <;> omega

theorem correctRecord_eq {r : IntervalRecord} (h : r.corrected ≤ 255) (e : OpenGrant) (actual anchors : Nat) :
    correctRecord e actual anchors r =
      { r with
        energy :=
          if e.charge ≤ actual then min 4294967295 (r.energy + (actual - e.charge)) else r.energy + actual - e.charge
        anchorEnergy :=
          if e.anchorCharge ≤ anchors then min 4294967295 (r.anchorEnergy + (anchors - e.anchorCharge))
          else r.anchorEnergy + anchors - e.anchorCharge
        corrected := min 255 (r.corrected + 1) } := by
  simp only [correctRecord, energyCorrect_eq, countUp_le h]

section settle
variable (e : OpenGrant) (actual anchors : Nat) (s : State)

theorem settleHit_openGrants : (settleHit e actual anchors s).openGrants =
    { s.openGrants with entries := s.openGrants.entries.filter fun x => x.position != e.position } := by
  rw [settleHit, frame_openGrants (recomputeExposure_frame _) (by decide), withoutEntry_openGrants,
    frame_openGrants (mapNamedRecord_frame _ _ _) (by decide)]

theorem settleHit_get (q : Fin 128) : recordAt (settleHit e actual anchors s) q =
    if q = e.ringPosition ∧ (recordAt s e.ringPosition).number = e.intervalNumber then
      correctRecord e actual anchors (recordAt s q)
    else recordAt s q := by
  rw [settleHit, recomputeExposure_get, recordAt_frame (withoutEntry_frame _ _) (by decide), mapNamedRecord_get]

theorem settleHit_exhausted :
    (settleHit e actual anchors s).ring.exhausted = windowExhausted (settleHit e actual anchors s) :=
  recomputeExposure_exhausted _

theorem settleHit_ring : (settleHit e actual anchors s).ring =
    { s.ring with
      records := (settleHit e actual anchors s).ring.records
      exhausted := windowExhausted (settleHit e actual anchors s) } := by
  rw [← settleHit_exhausted, settleHit, recomputeExposure_ring, withoutEntry_ring, mapNamedRecord_ring]

theorem settleHit_work : (settleHit e actual anchors s).work =
    toldOfExposure s.ring.exhausted (windowExhausted (settleHit e actual anchors s)) s.work := by
  rw [← settleHit_exhausted, settleHit, recomputeExposure_told, recomputeExposure_ring, withoutEntry_ring,
    frame_work (withoutEntry_frame _ _) (by decide), frame_work (mapNamedRecord_frame _ _ _) (by decide),
    mapNamedRecord_ring]

/-- Where the entry's interval is gone from the record, every record stands (R124). -/
theorem settleHit_records (gone : (recordAt s e.ringPosition).number ≠ e.intervalNumber) :
    (settleHit e actual anchors s).ring.records = s.ring.records := by
  rw [settleHit, recomputeExposure_ring, withoutEntry_ring, mapNamedRecord, if_neg gone]

end settle

theorem noteOvershoot_eq (b : Bool) (p : Word32) (s : State) :
    noteOvershoot b p s = if b then faulted .overshoot (raised (.overshoot p) s) else s := by
  rw [noteOvershoot, raiseFault_eq, raiseChange_eq]

theorem noteOvershoot_changes (b : Bool) (p : Word32) (s : State) :
    (noteOvershoot b p s).changes = if b then reported (.overshoot p) s.changes else s.changes := by
  rw [noteOvershoot_eq]
  cases b <;> rfl

theorem noteOvershoot_work (b : Bool) (p : Word32) (s : State) :
    (noteOvershoot b p s).work =
      { s.work with faults := s.work.faults ++ if b then [.overshoot] else [] } := by
  rw [noteOvershoot_eq]
  cases b
  · exact (congrArg (fun fs => { s.work with faults := fs }) (List.append_nil _)).symm
  · rfl

theorem matchReport_hit {p : Word32} {s : State} {e : OpenGrant} (h : findEntry p s = some e) (ps : List Pair) :
    matchReport p ps s =
      (noteOvershoot (hitOvershoots e ps) p
          (settleHit e (actualEnergy s (countHit s e ps)) (actualAnchorEnergy s (countHit s e ps)) s),
        { status := if hitOvershoots e ps then .overshoot else .done
          detail := byte4 p.toNat ++ byte4 e.charge ++ byte4 (actualEnergy s (countHit s e ps)) }) := by
  rw [matchReport, h]

/-- What a hit leaves, record by record and block by block. -/
theorem matchReport_settles {p : Word32} {s : State} {e : OpenGrant}
    (found : s.openGrants.entries.find? (fun x => x.position == p) = some e) (ps : List Pair) :
    let actual := actualEnergy s (countHit s e ps)
    let anchors := actualAnchorEnergy s (countHit s e ps)
    let exceeds := hitOvershoots e ps
    let r := recordAt s e.ringPosition
    let v := (matchReport p ps s).1
    v.openGrants = { s.openGrants with entries := s.openGrants.entries.filter fun x => x.position != p } ∧
      (∀ q, recordAt v q =
        if q = e.ringPosition ∧ r.number = e.intervalNumber then correctRecord e actual anchors (recordAt s q)
        else recordAt s q) ∧
      (r.number ≠ e.intervalNumber → v.ring.records = s.ring.records) ∧
      v.ring = { s.ring with records := v.ring.records, exhausted := windowExhausted v } ∧
      v.changes = (if exceeds then reported (.overshoot p) s.changes else s.changes) ∧
      v.work =
        { toldOfExposure s.ring.exhausted (windowExhausted v) s.work with
          faults := (toldOfExposure s.ring.exhausted (windowExhausted v) s.work).faults ++
            if exceeds then [.overshoot] else [] } := by
  have position : e.position = p := by simpa using List.find?_some found
  rw [matchReport_hit found]
  generalize actualEnergy s (countHit s e ps) = actual
  generalize actualAnchorEnergy s (countHit s e ps) = anchors
  have before := settleHit_frame e actual anchors s
  have after := noteOvershoot_frame (hitOvershoots e ps) p (settleHit e actual anchors s)
  have changes := noteOvershoot_changes (hitOvershoots e ps) p (settleHit e actual anchors s)
  have work := noteOvershoot_work (hitOvershoots e ps) p (settleHit e actual anchors s)
  have window := windowExhausted_congr (s := settleHit e actual anchors s) (by rw [frame_ring after (by decide)])
    (by rw [frame_ring after (by decide)]) (by rw [frame_policy after (by decide)])
  rw [frame_changes before (by decide)] at changes
  rw [settleHit_work, ← window] at work
  refine ⟨?_, fun q => ?_, fun gone => ?_, ?_, changes, work⟩
  · rw [frame_openGrants after (by decide), settleHit_openGrants, position]
  · rw [recordAt_frame after (by decide), settleHit_get]
  · rw [frame_ring after (by decide), settleHit_records e actual anchors s gone]
  · rw [window, frame_ring after (by decide)]
    exact settleHit_ring e actual anchors s

/-- The row of a report whose pairs pass, taken at once (R112, R182). -/
theorem txReport_row {s : State} (ready : requestReady s) (tag : Byte) (frame : Word16) {slot : Byte} {ps : List Pair}
    (holds : (settle s).timing.state = .locked ∨ (settle s).timing.state = .coasting)
    (within : slot.toNat < slotCount (settle s).carriers.slotsPerFrame) (legal : legalList ps) :
    let u := settle s
    let p := slotPosition (resolveFrame frame u.timing.frameCounter) u.carriers.slotsPerFrame slot
    exec (.txReport tag frame slot (spelled ps)) s = .next
      (replied tag (.txReport frame slot (spelled ps)) (matchReport p ps u).2 (matchReport p ps u).1) := by
  have length : lengthAccepted (.txReport frame slot (spelled ps)) = true := by
    obtain ⟨atLeast, atMost, -, -⟩ := legal
    simpa [lengthAccepted, spelled] using ⟨atLeast, atMost⟩
  have row := request_ready ready tag (.txReport frame slot (spelled ps)) length
  have passed := checkPairs_spelled holds within legal
  generalize settle s = u at *
  have owner : ownRequest (.txReport frame slot (spelled ps)) u =
      matchReport (slotPosition (resolveFrame frame u.timing.frameCounter) u.carriers.slotsPerFrame slot) ps u := by
    simp only [ownRequest, takeTxReport, passed]
  rw [owner] at row
  exact row

theorem hitIsSettled : Claims.HitIsSettled := by
  intro tag frame slot ps s e ready
  have row := txReport_row ready tag frame (slot := slot) (ps := ps)
  generalize settle s = u at row ⊢
  intro _ p holds within legal found
  have row : exec (.txReport tag frame slot (spelled ps)) s = .next (replied tag (.txReport frame slot (spelled ps))
    (matchReport p ps u).2 (matchReport p ps u).1) := row holds within legal
  obtain ⟨openGrants, record, records, ring, changes, work⟩ := matchReport_settles found ps
  have onlyThese := matchReport_frame p ps u
  have reply : (matchReport p ps u).2 = _ := congrArg Prod.snd (matchReport_hit found ps)
  rw [reply] at row
  intro counted actual anchors exceeds r
  refine ⟨_, row, openGrants, fun current _ _ small => ?_, records, fun q other => ?_, ring, changes,
    ⟨?_, ?_⟩, onlyThese⟩
  · rw [record, if_pos ⟨rfl, current⟩, correctRecord_eq small]
  · rw [record, if_neg fun h => other h.1]
  · rw [work]
  · rw [work]

/-- Settles O52: a hit is settled on the record it names, counts each carrier once, and overshoots where a pair is above
its grant. -/
theorem reportHitCorrectsItsRecord : Obligations.ReportHitCorrectsItsRecord :=
  ⟨hitIsSettled, hitCountsEachCarrier, overshootIsAboveTheGrant⟩

end Sys2Proof.Machine
end

