-- ==== Sys2Proof/Proofs/Grants.lean ====
section
/-!
PROOFS. An accepted GRANT_REQ (R69): its steps in their order, the energies of its decision (R90), and its Decision
Snapshot (R96).
-/

namespace Sys2Proof.Machine

/-! ## The seven steps (R69) -/

theorem armedFor_eq (s : State) (frame : Word32) (slot : Byte) :
    armedFor s frame slot = s.engine.armed.any fun x => x.frame == frame && x.slot == slot := by
  rw [armedFor]
  cases s.engine.armed <;> rfl

theorem captureTrace_eq (frame : Word32) (slot : Byte) (x : Snapshot) (s : State) :
    captureTrace frame slot x s =
      if s.engine.armed.any (fun a => a.frame == frame && a.slot == slot) then
        raised (.traceCaptured x.position) { s with engine := { armed := none, snapshot := some x } }
      else s := by
  rw [captureTrace, armedFor_eq, raiseChange_eq]
  rfl

/-- The bytes of a grant reply (R93, R188). -/
theorem grantReply_eq (read charged : State) (ls : List Lane) :
    grantReply read charged ls =
      done (ls.flatMap (fun l =>
          [BitVec.ofNat 8 l.index.val, powerByte l.value, BitVec.ofNat 8 (reasonCode l.reason)]) ++
        [BitVec.ofNat 8 (utilisation charged),
          if read.heat.dutyCounter ≤ read.policy.workingCopy.duty then 0 else 1,
          BitVec.ofNat 8 (supplyStateCode read.supply.state)]) := by
  have phase : BitVec.ofNat 8 (dutyPhaseCode (dutyPhase read)) =
      if read.heat.dutyCounter ≤ read.policy.workingCopy.duty then (0 : Byte) else 1 := by
    rw [dutyPhase]
    split <;> rfl
  simp only [grantReply, byte1_eq, phase, List.cons_append, List.nil_append, List.append_assoc]

theorem grantSlot_eq (p a : Word32) (slot : Byte) (ps : List Pair) (w : State) :
    let d := decideLanes w (lanesOf w ps)
    let e := entryOf w p a d.final
    let charged := chargeDecision e d.final w
    let inserted := insertEntry e charged
    grantSlot p a slot ps w =
      (if w.engine.armed.any (fun x => x.frame == a && x.slot == slot) then
          raised (.traceCaptured p) { inserted with engine := { armed := none, snapshot := some (snapshotOf w p d) } }
        else inserted, grantReply w charged d.final) := by
  intro d e charged inserted
  have engine : inserted.engine = w.engine := by
    rw [frame_engine (insertEntry_frame e charged) (by decide), frame_engine (chargeDecision_frame e d.final w) (by decide)]
  rw [← engine]
  exact Prod.ext (captureTrace_eq a slot (snapshotOf w p d) inserted) rfl

/-- A request that passes its checks is withdrawn, then granted (R69). -/
theorem takeGrantReq_granted {frame : Word16} {slot : Byte} {raw : List RawPair} {s : State} {ps : List Pair}
    (pairs : checkPairs slot raw s = .ok ps) (lookahead : checkLookahead frame s = none) :
    let a := resolveFrame frame s.timing.frameCounter
    let p := slotPosition a s.carriers.slotsPerFrame slot
    takeGrantReq frame slot raw s = grantSlot p a slot ps (withdrawEntry p s) := by
  simp only [takeGrantReq, pairs, lookahead]

theorem acceptedGrantTakesItsSteps : Claims.AcceptedGrantTakesItsSteps := by
  intro tag frame slot ps s ready
  have row (length : 1 ≤ (spelled ps).length ∧ (spelled ps).length ≤ 8) :=
    request_ready ready tag (.grantReq frame slot (spelled ps)) (decide_eq_true length)
  generalize settle s = u at row ⊢
  intro _ a p holds within legal notStale notAhead
  have ⟨atLeast, atMost, _, _⟩ := legal
  have row := row (by rw [spelled, List.length_map]; exact ⟨atLeast, atMost⟩)
  have owner : ownRequest (.grantReq frame slot (spelled ps)) u = grantSlot p a slot ps (withdrawEntry p u) :=
    takeGrantReq_granted (checkPairs_spelled holds within legal) (checkLookahead_passes notStale notAhead)
  rw [owner, grantSlot_eq, grantReply_eq] at row
  exact row

/-! ## The energies of a decision (R72, R90) -/

/-- A quotient rounded up. -/
theorem roundedUp_bounds (n : Nat) :
    n ≤ (n + 999999) / 1000000 * 1000000 ∧ (n + 999999) / 1000000 * 1000000 < n + 1000000 := by
  omega

theorem notSecondary_iff (l : Lane) : (!isSecondary l) = (l.entry.role == .anchor) := by
  rw [isSecondary]
  cases l.entry.role <;> rfl

theorem energiesOfADecision : Claims.EnergiesOfADecision := by
  refine ⟨fun gain c => Int.toNat_of_nonneg (le_max_left _ _), rfl, fun gain d c => ?_, fun d ls => ⟨rfl, ?_⟩⟩
  · intro microwatts e
    exact ⟨rfl, roundedUp_bounds (microwatts * d)⟩
  · rw [anchorShare, funext notSecondary_iff]
    rfl

/-! ## The snapshot (R96) -/

theorem runStages_length (fs : List (List Lane → List Lane)) (ls : List Lane) : (runStages fs ls).length = fs.length := by
  induction fs generalizing ls with
  | nil => rfl
  | cons f rest ih => rw [runStages, List.length_cons, ih, List.length_cons]

/-- Stages that only lower leave a lower list after each of them. -/
theorem runStages_lowered {fs : List (List Lane → List Lane)} (h : ∀ f ∈ fs, ∀ ls, List.Forall₂ Lowered ls (f ls))
    (ls : List Lane) : ∀ xs ∈ runStages fs ls, List.Forall₂ Lowered ls xs := by
  induction fs generalizing ls with
  | nil => exact nofun
  | cons f rest ih =>
    rw [List.forall_mem_cons] at h
    obtain ⟨first, later⟩ := h
    rw [runStages, List.forall_mem_cons]
    exact ⟨first ls, fun xs hx => lowered_trans (first ls) (ih later (f ls) xs hx)⟩

theorem history_length (s : State) (ls : List Lane) : (decideLanes s ls).history.length = 9 := by
  rw [decideLanes]
  split
  · exact List.length_replicate
  · exact runStages_length _ ls

theorem history_lowered (s : State) (ls : List Lane) :
    ∀ xs ∈ (decideLanes s ls).history, List.Forall₂ Lowered ls xs := by
  rw [decideLanes]
  split
  · intro xs hx
    rw [List.eq_of_mem_replicate hx]
    exact stageInhibit_lowered ls
  · exact runStages_lowered (laterStages_lowered s) ls

/-- What the snapshot holds of one lane of a decision, at its place in the request. -/
def snapshotLane (d : Decision) (m : Lane) (n : Nat) : SnapshotCarrier :=
  { index := m.index, requested := m.requested
    afterStages := d.history.map fun ls => ((ls[n]?).map Lane.value).getD .off
    granted := m.value, reason := m.reason }

theorem snapshotOf_carriers (s : State) (p : Word32) (d : Decision) :
    (snapshotOf s p d).carriers = d.final.zipIdx.map fun x => snapshotLane d x.1 x.2 := rfl

theorem snapshotOf_carrier (s : State) (p : Word32) {d : Decision} {n : Nat} {m : Lane} (h : d.final[n]? = some m) :
    (snapshotOf s p d).carriers[n]? = some (snapshotLane d m n) := by
  rw [snapshotOf_carriers, List.getElem?_map, List.getElem?_zipIdx, h]
  simp

theorem lowered_getElem {ls xs : List Lane} (h : List.Forall₂ Lowered ls xs) {n : Nat} {l : Lane} (hl : ls[n]? = some l) :
    ∃ y, xs[n]? = some y ∧ Lowered l y := by
  induction h generalizing n with
  | nil => simp at hl
  | cons first _ ih =>
    cases n with
    | zero =>
      rw [List.getElem?_cons_zero, Option.some.injEq] at hl
      exact ⟨_, List.getElem?_cons_zero, hl ▸ first⟩
    | succ n =>
      rw [List.getElem?_cons_succ] at hl ⊢
      exact ih hl

theorem snapshotHoldsTheDecision : Claims.SnapshotHoldsTheDecision := by
  intro s p ls d x
  have lowered : List.Forall₂ Lowered ls d.final := decideLanes_lowered s ls
  refine ⟨⟨rfl, fun z => by cases z <;> rfl, rfl, rfl, rfl, rfl, rfl, rfl, rfl⟩, history_length s ls,
    lowered.length_eq.symm, ?_, fun n l m hl hm => ?_⟩
  · rw [snapshotOf_carriers, List.length_map, List.length_zipIdx, lowered.length_eq]
  · obtain ⟨y, hy, index, -, requested, -⟩ := lowered_getElem lowered hl
    obtain rfl : m = y := Option.some.inj (hm.symm.trans hy)
    refine ⟨_, snapshotOf_carrier s p hm, index, requested, rfl, rfl, ?_, fun k xs hk => ?_⟩
    · rw [snapshotLane, List.length_map, history_length]
    · obtain ⟨y, hy, stageIndex, -⟩ := lowered_getElem (history_lowered s ls xs (List.mem_of_getElem? hk)) hl
      refine ⟨y, hy, stageIndex, ?_⟩
      rw [snapshotLane, List.getElem?_map, hk, Option.map_some, hy]
      rfl

/-- Settles O40: the owner of an accepted request is its seven steps in a row; the energies are rounded-up quotients,
and the snapshot lists each stage's lanes, every one at its place in the request. -/
theorem grantRequestTakesItsSteps : Obligations.GrantRequestTakesItsSteps :=
  ⟨acceptedGrantTakesItsSteps, fun _ _ => rfl, energiesOfADecision, fun _ _ _ _ => rfl, snapshotHoldsTheDecision⟩

end Sys2Proof.Machine
end

