-- ==== Sys2Proof/Proofs/GrantList.lean ====
section
/-!
PROOFS. The Open Grant List: entries closed as granted at the expiry check and at a mass close (R101, R102, R106 to
R108), and a new entry put at its place (R104, R105).
-/

namespace Sys2Proof.Machine

/-! ## The lag bound (R107) -/

theorem lagBound_frame {bs : List Block} {s t : State} (h : onlyChanges bs s t) (timing : .timing ∉ bs)
    (carriers : .carriers ∉ bs) : lagBound t = lagBound s := by
  rw [lagBound, frame_timing h timing, frame_carriers h carriers, lagBound]

theorem liftMark_mark (s : State) : (liftMark s).openGrants.expiryMark =
    if below s.openGrants.expiryMark (lagBound s) then lagBound s else s.openGrants.expiryMark := by
  unfold liftMark; split <;> rfl

/-! ## The expiry check (R106) -/

section expiryCheck
variable (s : State)

/-- An entry stays in the list exactly where its frame plus H is still ahead of the counter. -/
theorem not_expired (e : OpenGrant) : (!expired s e) = decide
    ((s.timing.frameCounter - (e.frame + BitVec.ofNat 32 s.policy.workingCopy.horizon)).toInt < 0) := by
  rw [expired, atOrBelow, ← decide_not]
  exact decide_eq_decide.mpr not_le

theorem expiryCheck_mark :
    let out := s.openGrants.entries.filter (expired s)
    let mark := out.foldl (fun m e => laterMark m e.position) s.openGrants.expiryMark
    (expiryCheck s).openGrants.expiryMark = if below mark (lagBound s) then lagBound s else mark := by
  intro out mark
  rw [expiryCheck, liftMark_mark, closeEntries_mark, lagBound_frame (closeEntries_frame _ s) (by decide) (by decide)]

theorem expiryCheck_ring_eq : (expiryCheck s).ring = (closeEntries (expired s) s).ring :=
  frame_ring (liftMark_frame _) (by decide)

end expiryCheck

theorem expiryClosesAsGranted : Claims.ExpiryClosesAsGranted := by
  intro s counts h out mark bound u
  refine ⟨?_, expiryCheck_mark s, fun p => ?_, ?_, expiryCheck_frame s⟩
  · rw [expiryCheck_entries]
    exact congrArg (s.openGrants.entries.filter ·) (funext (not_expired s))
  · rw [recordAt_congr (congrArg Ring.records (expiryCheck_ring_eq s)) p]
    exact closeEntries_get (expired s) s p (counts p)
  · rw [expiryCheck_ring_eq s]
    exact closeEntries_ring (expired s) s

/-! ## A mass close (R108) -/

theorem massCloseClosesEveryEntry : Claims.MassCloseClosesEveryEntry := by
  intro s counts out u
  have all : s.openGrants.entries.filter (fun _ => true) = out := List.filter_true _
  have mark := closeEntries_mark (fun _ => true) s
  have record := fun p => closeEntries_get (fun _ => true) s p (counts p)
  rw [all] at mark
  simp only [all] at record
  exact ⟨massClose_entries s, mark, record, closeEntries_ring _ s, massClose_frame s⟩

/-- Settles O16: both closes run through `closeEntries`, the expiry check over the expired entries and with the mark
lifted to the lag bound after it, the mass close over the whole list. -/
theorem entriesCloseAsGranted : Obligations.EntriesCloseAsGranted :=
  ⟨expiryClosesAsGranted, massCloseClosesEveryEntry⟩

/-! ## Positions within half the circle (R16) -/

/-- Within half the circle from a base, the part's order is that of the distances from the base. -/
theorem below_iff_distance {base p q : Word32} (hp : (p - base).toNat < 2147483648) (hq : (q - base).toNat < 2147483648) :
    below p q = true ↔ (p - base).toNat < (q - base).toNat := by
  have between : q - p = (q - base) - (p - base) := by rw [sub_sub_sub_cancel_right]
  rw [below, decide_eq_true_eq, between, BitVec.toInt_eq_toNat_cond, BitVec.toNat_sub]
  omega

theorem distance_ne (base : Word32) {p q : Word32} (h : p ≠ q) : (p - base).toNat ≠ (q - base).toNat :=
  fun same => h (sub_left_injective (BitVec.eq_of_toNat_eq same))

/-- Insertion at the place of the position keeps an ascending list ascending. -/
theorem insertByPosition_ascending {base : Word32} {e : OpenGrant} {es : List OpenGrant}
    (near : (e.position - base).toNat < 2147483648) (half : ∀ x ∈ es, (x.position - base).toNat < 2147483648)
    (distinct : ∀ x ∈ es, x.position ≠ e.position)
    (ascending : es.Pairwise fun x y => below x.position y.position = true) :
    (insertByPosition e es).Pairwise fun x y => below x.position y.position = true := by
  induction es with
  | nil => exact List.pairwise_singleton _ e
  | cons x rest ih =>
    rw [List.forall_mem_cons] at half distinct
    obtain ⟨nearX, halfRest⟩ := half
    obtain ⟨other, distinctRest⟩ := distinct
    obtain ⟨first, ascendingRest⟩ := List.pairwise_cons.mp ascending
    rw [insertByPosition]
    split
    case isTrue before =>
      refine List.pairwise_cons.mpr ⟨List.forall_mem_cons.mpr ⟨before, fun y hy => ?_⟩, ascending⟩
      have toX := (below_iff_distance near nearX).mp before
      have fromX := (below_iff_distance nearX (halfRest y hy)).mp (first y hy)
      exact (below_iff_distance near (halfRest y hy)).mpr (toX.trans fromX)
    case isFalse notBefore =>
      have after : below x.position e.position = true := by
        rw [below_iff_distance near nearX] at notBefore
        have apart := distance_ne base other
        exact (below_iff_distance nearX near).mpr (by omega)
      refine List.pairwise_cons.mpr ⟨fun y hy => ?_, ih halfRest distinctRest ascendingRest⟩
      rcases List.mem_cons.mp ((insertByPosition_perm e rest).mem_iff.mp hy) with rfl | later
      · exact after
      · exact first y later

/-! ## Eviction (R105) -/

theorem evictIfFull_room {s : State} (h : s.openGrants.entries.length < 16) : evictIfFull s = s := if_pos h

theorem evictIfFull_full {s : State} {x : OpenGrant} {rest : List OpenGrant} (list : s.openGrants.entries = x :: rest)
    (full : 16 ≤ s.openGrants.entries.length) : evictIfFull s = settleAsGranted (setEntries rest s) x := by
  have noRoom : ¬ s.openGrants.entries.length < openListSize := not_lt.mpr full
  rw [evictIfFull, if_neg noRoom, list]

/-! ## A new entry (R104) -/

theorem insertEntry_entries (e : OpenGrant) (s : State) :
    (insertEntry e s).openGrants.entries = insertByPosition e (evictIfFull s).openGrants.entries := rfl

theorem insertEntry_mark (e : OpenGrant) (s : State) :
    (insertEntry e s).openGrants.expiryMark = (evictIfFull s).openGrants.expiryMark := rfl

theorem insertEntry_ring (e : OpenGrant) (s : State) : (insertEntry e s).ring = (evictIfFull s).ring := rfl

/-- Settles O43: a list with room only takes the entry in, a full one is `settleAsGranted` of its lowest entry before
that; insertion keeps the order because `below` compares distances within half the circle. -/
theorem entryJoinsInOrder : Obligations.EntryJoinsInOrder := by
  refine fun e s => ⟨fun room => ?_, fun x rest list full => ?_, fun base half distinct ascending => ?_⟩
  · have alone : insertEntry e s = setEntries (insertByPosition e s.openGrants.entries) s := by
      rw [insertEntry, evictIfFull_room room]
    rw [alone]
    exact ⟨insertByPosition_perm e _, rfl, setEntries_frame _ s⟩
  · have evicts := evictIfFull_full list full
    refine ⟨?_, ?_, fun q => ?_, ?_, insertEntry_frame e s⟩
    · rw [insertEntry_entries, evicts, settleAsGranted_entries]
      exact insertByPosition_perm e rest
    · rw [insertEntry_mark, evicts, settleAsGranted_mark]
      rfl
    · rw [recordAt_congr (congrArg Ring.records (insertEntry_ring e s)), evicts, settleAsGranted_get]
      refine if_congr (and_congr_right fun named => ?_) rfl rfl
      subst named
      exact Iff.rfl
    · rw [insertEntry_ring, evicts]
      exact settleAsGranted_ring (setEntries rest s) x
  · rw [List.forall_mem_cons] at half
    obtain ⟨near, halfList⟩ := half
    have fewer := evictIfFull_sublist s
    rw [insertEntry_entries]
    exact insertByPosition_ascending near (fun x hx => halfList x (fewer.subset hx))
      (fun x hx => distinct x (fewer.subset hx)) (ascending.sublist fewer)

end Sys2Proof.Machine
end

