-- ==== Sys2Proof/Proofs/Misses.lean ====
section
/-!
PROOFS. A report that finds no entry (R113, R114, R117 to R120): LATE at or below the expiry mark, UNMATCHED above it.
-/

namespace Sys2Proof.Machine

theorem findEntry_none {p : Word32} {s : State} (h : ∀ e ∈ s.openGrants.entries, e.position ≠ p) :
    findEntry p s = none := by
  rw [findEntry, List.find?_eq_none]
  exact fun e he => by simpa using h e he

/-- The row of a report whose pairs pass, at a slot position under its own name. -/
theorem txReport_matched {s : State} (ready : requestReady s) (tag : Byte) (frame : Word16) {slot : Byte} {ps : List Pair}
    (holds : (settle s).timing.state = .locked ∨ (settle s).timing.state = .coasting)
    (within : slot.toNat < slotCount (settle s).carriers.slotsPerFrame) (legal : legalList ps) {p : Word32}
    (position : p = slotPosition (resolveFrame frame (settle s).timing.frameCounter)
      (settle s).carriers.slotsPerFrame slot) :
    exec (.txReport tag frame slot (spelled ps)) s = .next
      (replied tag (.txReport frame slot (spelled ps)) (matchReport p ps (settle s)).2 (matchReport p ps (settle s)).1) := by
  rw [position]
  exact txReport_row ready tag frame holds within legal

/-! ## LATE (R117) -/

theorem matchReport_late {p : Word32} {s : State} (missing : findEntry p s = none)
    (atMark : atOrBelow p s.openGrants.expiryMark = true) (ps : List Pair) :
    matchReport p ps s =
      (s, { status := .late, detail := byte4 p.toNat ++ byte4 s.openGrants.expiryMark.toNat }) := by
  simp only [matchReport, missing, if_pos atMark, refuse]

theorem lateReportChangesNothing : Claims.LateReportChangesNothing := by
  intro tag frame slot ps s ready
  have row := txReport_matched ready tag frame (slot := slot) (ps := ps)
  generalize settle s = u at row ⊢
  intro _ p holds within legal noEntry atMark
  have row := row holds within legal (p := p) rfl
  rwa [matchReport_late (findEntry_none noEntry) atMark] at row

/-! ## UNMATCHED (R118, R119) -/

section chargeUnmatched
variable (actual anchors : Nat) (s : State)

theorem chargeUnmatched_get (q : Fin 128) : recordAt (chargeUnmatched actual anchors s) q =
    if q = s.ring.writePosition then unmatchedRecord actual anchors (recordAt s s.ring.writePosition)
    else recordAt s q := by
  rw [chargeUnmatched, recomputeExposure_get, mapRecord_get]

theorem chargeUnmatched_exhausted :
    (chargeUnmatched actual anchors s).ring.exhausted = windowExhausted (chargeUnmatched actual anchors s) :=
  recomputeExposure_exhausted _

theorem chargeUnmatched_ring : (chargeUnmatched actual anchors s).ring =
    { s.ring with
      records := (chargeUnmatched actual anchors s).ring.records
      exhausted := windowExhausted (chargeUnmatched actual anchors s) } := by
  rw [← chargeUnmatched_exhausted, chargeUnmatched, recomputeExposure_ring, mapRecord_ring]

theorem chargeUnmatched_work : (chargeUnmatched actual anchors s).work =
    toldOfExposure s.ring.exhausted (windowExhausted (chargeUnmatched actual anchors s)) s.work := by
  rw [← chargeUnmatched_exhausted, chargeUnmatched, recomputeExposure_told, recomputeExposure_ring,
    frame_work (mapRecord_frame _ _ _) (by decide), mapRecord_ring]

end chargeUnmatched

theorem windowExhausted_noteOvershoot (b : Bool) (p : Word32) (s : State) :
    windowExhausted (noteOvershoot b p s) = windowExhausted s := by
  have ring : (noteOvershoot b p s).ring = s.ring := frame_ring (noteOvershoot_frame b p s) (by decide)
  exact windowExhausted_congr (by rw [ring]) (by rw [ring])
    (by rw [frame_policy (noteOvershoot_frame b p s) (by decide)])

/-- The state an unmatched report leaves: its energies charged to the OPEN record, and an overshoot noted after that. -/
def unmatchedTaken (exceeds : Bool) (p : Word32) (actual anchors : Nat) (s : State) : State :=
  noteOvershoot exceeds p (chargeUnmatched actual anchors s)

theorem matchReport_unmatched {p : Word32} {s : State} (missing : findEntry p s = none)
    (aboveMark : atOrBelow p s.openGrants.expiryMark = false) (ps : List Pair) :
    let counted := countReported s ps
    matchReport p ps s =
      (unmatchedTaken (ps.any fun x => isCode x.value) p (actualEnergy s counted) (actualAnchorEnergy s counted) s,
        { status := .unmatched, detail := byte4 p.toNat ++ byte4 (actualEnergy s counted) }) := by
  simp only [matchReport, missing, aboveMark, Bool.false_eq_true, if_false, refuse, anyCode, unmatchedTaken]

section unmatchedTaken
variable (exceeds : Bool) (p : Word32) (actual anchors : Nat) (s : State)

theorem unmatchedTaken_frame : onlyChanges [.ring, .changes, .work] s (unmatchedTaken exceeds p actual anchors s) :=
  frame_then (chargeUnmatched_frame actual anchors s) (noteOvershoot_frame exceeds p _)

theorem unmatchedTaken_get (q : Fin 128) : recordAt (unmatchedTaken exceeds p actual anchors s) q =
    if q = s.ring.writePosition then unmatchedRecord actual anchors (recordAt s s.ring.writePosition)
    else recordAt s q := by
  rw [unmatchedTaken, recordAt_frame (noteOvershoot_frame _ _ _) (by decide), chargeUnmatched_get]

theorem unmatchedTaken_ring : (unmatchedTaken exceeds p actual anchors s).ring =
    { s.ring with
      records := (unmatchedTaken exceeds p actual anchors s).ring.records
      exhausted := windowExhausted (unmatchedTaken exceeds p actual anchors s) } := by
  rw [unmatchedTaken, windowExhausted_noteOvershoot, frame_ring (noteOvershoot_frame _ _ _) (by decide)]
  exact chargeUnmatched_ring actual anchors s

theorem unmatchedTaken_changes : (unmatchedTaken exceeds p actual anchors s).changes =
    if exceeds then reported (.overshoot p) s.changes else s.changes := by
  rw [unmatchedTaken, noteOvershoot_changes, frame_changes (chargeUnmatched_frame _ _ s) (by decide)]

theorem unmatchedTaken_work :
    let told := toldOfExposure s.ring.exhausted (windowExhausted (unmatchedTaken exceeds p actual anchors s)) s.work
    (unmatchedTaken exceeds p actual anchors s).work =
      { told with faults := told.faults ++ if exceeds then [.overshoot] else [] } := by
  rw [unmatchedTaken, windowExhausted_noteOvershoot, noteOvershoot_work, chargeUnmatched_work]

end unmatchedTaken

theorem unmatchedReportIsCharged : Claims.UnmatchedReportIsCharged := by
  intro tag frame slot ps s ready
  have row := txReport_matched ready tag frame (slot := slot) (ps := ps)
  generalize settle s = u at row ⊢
  intro _ p holds within legal noEntry aboveMark counted actual exceeds w r
  have row := row holds within legal (p := p) rfl
  rw [matchReport_unmatched (findEntry_none noEntry) aboveMark] at row
  have record := unmatchedTaken_get exceeds p actual (actualAnchorEnergy u counted) u
  have work := unmatchedTaken_work exceeds p actual (actualAnchorEnergy u counted) u
  refine ⟨_, row, (record w).trans (if_pos rfl), fun q other => (record q).trans (if_neg other),
    unmatchedTaken_ring exceeds p actual _ u, unmatchedTaken_changes exceeds p actual _ u, ⟨?_, ?_⟩,
    unmatchedTaken_frame exceeds p actual _ u⟩
  · rw [work]
  · rw [work]

/-! ## The energies an unmatched report counts (R114) -/

theorem unmatchedCountsEachPair : Claims.UnmatchedCountsEachPair := by
  intro s ps live energy
  constructor
  · rw [actualEnergy, countReported, List.map_map]
    rfl
  · rw [actualAnchorEnergy, actualEnergy, countReported, List.filter_map, List.map_map]
    rfl

/-- Settles O53: without an entry the expiry mark alone decides between a report that changes nothing and one charged to
the OPEN record. -/
theorem lateAndUnmatchedReports : Obligations.LateAndUnmatchedReports :=
  ⟨lateReportChangesNothing, unmatchedReportIsCharged, unmatchedCountsEachPair⟩

end Sys2Proof.Machine
end

