-- ==== Sys2Proof/Proofs/ExposureKept.lean ====
section
/-!
PROOFS. The exhausted item as an invariant (R136, R137). The comparison of exhaustion makes it agree whatever it held
before, and every operation that changes a window figure ends with that comparison; the others leave the energies, the
writer and the working copy as they stand.
-/

namespace Sys2Proof.Machine

/-! ## Right after power-on the window is not exhausted -/

theorem contextPut_averageLimit (c : Context) (n : Nat) (z : Zone) (v : Nat) :
    (contextPut c n z v).averageLimit = if n = 17 then v else c.averageLimit := by
  unfold contextPut
  split <;> simp_all

/-- Values in their fixed ranges put an average limit of at least 1 into a context that had one (R145). -/
theorem averageLimit_pos_of_put (values : List ((Nat × Zone) × Nat))
    (inRange : values.all (fun ((n, _), v) => inFieldRange n v) = true) {c : Context} (h : 0 < c.averageLimit) :
    0 < (values.foldl (fun c ((n, z), v) => contextPut c n z v) c).averageLimit := by
  induction values generalizing c with
  | nil => exact h
  | cons x xs ih =>
    obtain ⟨⟨n, z⟩, v⟩ := x
    rw [List.all_cons, Bool.and_eq_true] at inRange
    obtain ⟨here, rest⟩ := inRange
    refine ih rest ?_
    rw [contextPut_averageLimit]
    split
    · next field =>
      subst field
      have range : 1 ≤ v ∧ v ≤ 2000 := by simpa [inFieldRange, fieldRange] using here
      exact range.1
    · exact h

theorem contextOfBytes_averageLimit {bytes : List Byte} {c : Context} (h : contextOfBytes bytes = some c) :
    0 < c.averageLimit := by
  unfold contextOfBytes at h
  generalize recordValues contextLayout bytes = values at h
  simp only [Option.ite_none_right_eq_some, Option.some.injEq] at h
  obtain ⟨inRange, -, rfl⟩ := h
  exact averageLimit_pos_of_put values inRange (by decide)

theorem loadedSlot_averageLimit (image : List Byte) (k : Fin 6) : 0 < (loadedSlot image k).averageLimit := by
  unfold loadedSlot imageContext
  split
  · cases h : contextOfBytes (imagePart image (2 + 75 * k.val) 75) with
    | none => exact Nat.succ_pos 99
    | some c => exact contextOfBytes_averageLimit h
  · exact Nat.succ_pos 99

/-- What the check of field 19 says of the window's frames (R146). -/
theorem windowFrames_of_checked {c : Context} (h : contextFirstFault c = none) : 3000 ≤ c.window * c.interval := by
  have check := List.find?_eq_none.1 h
    { holds := decide (3000 ≤ c.window * c.interval ∧ c.window * c.interval ≤ 51200), zone := none, field := 19 }
    (by simp [contextChecks])
  simp only [Bool.not_eq_true', decide_eq_false_iff_not, not_not] at check
  exact check.1

/-- Every slot of a load has a budget (R136, R145, R146). -/
theorem budgetOf_loadedSlot_pos (image : List Byte) (k : Fin 6) : 0 < budgetOf (loadedSlot image k) := by
  have frames := windowFrames_of_checked (loadedSlot_checked image k)
  have limit := loadedSlot_averageLimit image k
  rw [budgetOf, Nat.mul_assoc _ (loadedSlot image k).window]
  exact Nat.mul_pos (Nat.mul_pos limit (Nat.lt_of_lt_of_le (by decide) frames)) (by decide)

/-- Before the power-on fill no record holds energy. -/
theorem poweredOn_windowSum (t : Moment) (image : Vector Byte imageSize) (lv : Levels) (pending : List Instr) :
    windowSum (poweredOn t image lv pending) = 0 := by
  have energy : ∀ p : Fin 128, (State.reset.ring.records[p]).energy = 0 := by
    intro p
    by_cases hp : 0 = p.val <;> simp [State.reset, emptyRecord, hp]
  have none : ∀ r ∈ windowRecords State.reset.ring (poweredOn t image lv pending).policy.workingCopy.window,
      r.energy = 0 := by
    intro r hr
    obtain ⟨k, -, rfl⟩ := List.mem_map.1 hr
    exact energy ⟨_, Nat.mod_lt _ (by decide)⟩
  rw [windowSum, List.sum_eq_zero_iff]
  exact List.forall_mem_map.2 none

theorem poweredOn_exposure (t : Moment) (image : Vector Byte imageSize) (lv : Levels) (pending : List Instr) :
    exposureKept (poweredOn t image lv pending) := by
  have slot : (poweredOn t image lv pending).policy.workingCopy =
      loadedSlot image.toList (loadImage image.toList).activeIndex := by
    rw [← loadedSlots_get]; simp only [← loadImage_slots]; rfl
  have funded : ¬ budget (poweredOn t image lv pending) ≤ windowSum (poweredOn t image lv pending) := by
    rw [poweredOn_windowSum, budget, slot]
    exact Nat.not_le.2 (budgetOf_loadedSlot_pos _ _)
  exact (decide_eq_false funded).symm

/-! ## Every operation keeps the exhausted item in agreement -/

/-- Records, writer, working copy and exhausted item left as they stand, whatever else moves. -/
theorem exposureKept_congr {s t : State} (records : t.ring.records = s.ring.records)
    (writer : t.ring.writePosition = s.ring.writePosition) (exhausted : t.ring.exhausted = s.ring.exhausted)
    (copy : t.policy.workingCopy = s.policy.workingCopy) (kept : exposureKept s) : exposureKept t :=
  exhausted.trans (kept.trans (windowExhausted_congr records writer copy).symm)

theorem expiryCheck_exposure {s : State} (kept : exposureKept s) : exposureKept (expiryCheck s) :=
  exposureKept_frame (liftMark_frame _) (by decide) (by decide) (closeEntries_exposure _ s kept)

theorem doWork_exposure (w : FrameWork) {s : State} (kept : exposureKept s) : exposureKept (doWork w s) := by
  cases w with
  | expiry => exact expiryCheck_exposure kept
  | intervalCount => exact exposureKept_congr (s := s) rfl rfl rfl rfl kept
  | sampleCounter => exact exposureKept_frame (stepSampleCounter_frame s) (by decide) (by decide) kept
  | dutyStep => exact exposureKept_frame (dutyStep_frame s) (by decide) (by decide) kept
  | supply => exact exposureKept_frame (readSupply_frame s) (by decide) (by decide) kept
  | traceMiss => exact exposureKept_frame (traceMissCheck_frame s) (by decide) (by decide) kept

theorem massCloseOnChange_exposure (old : SlotsPerFrame) {s : State} (kept : exposureKept s) :
    exposureKept (massCloseOnChange old s) := by
  unfold massCloseOnChange
  split
  · exact kept
  · exact massClose_exposure s kept

theorem applySet_exposure (set : StagingSet) (s : State) : exposureKept (applySet set s) :=
  exposureKept_frame (raiseChange_frame _ _) (by decide) (by decide)
    (massCloseOnChange_exposure _ (replaceWorkingCopy_exposure _ _))

theorem mergeExit_exposure (c : FaultClass) {s : State} (kept : exposureKept s) : exposureKept (mergeExit c s) := by
  unfold mergeExit
  split
  · exact kept
  · exact writeExit_exposure _ s kept

theorem takeFault_exposure (c : FaultClass) {s : State} (kept : exposureKept s) : exposureKept (takeFault c s) := by
  obtain ignored | merged | absorbed | ⟨-, left⟩ := takeFault_cases c s
  · rw [ignored]; exact kept
  · rw [merged]; exact mergeExit_exposure c kept
  · rw [absorbed]; exact writeExit_exposure _ s kept
  · rw [left]; exact fallbackExit_exposure c _ s

theorem timingBreak_exposure {s : State} (kept : exposureKept s) : exposureKept (timingBreak s) :=
  exposureKept_frame (missTrace_frame _) (by decide) (by decide) (massClose_exposure s kept)

theorem coastLimitIfDue_exposure {s : State} (kept : exposureKept s) : exposureKept (coastLimitIfDue s) := by
  unfold coastLimitIfDue
  split
  · have free := exposureKept_frame (setTiming_frame { s.timing with state := .free, coastCount := 0 } s) (by decide)
      (by decide) kept
    exact exposureKept_frame (bs := [.changes, .work]) (frame_then (raiseChange_frame _ _) (raiseFault_frame _ _))
      (by decide) (by decide) (timingBreak_exposure free)
  · exact kept

/-! ### Requests -/

theorem insertEntry_exposure (e : OpenGrant) {s : State} (kept : exposureKept s) : exposureKept (insertEntry e s) := by
  refine exposureKept_frame (setEntries_frame _ _) (by decide) (by decide) ?_
  unfold evictIfFull
  split
  · exact kept
  · split
    · exact kept
    · exact settleAsGranted_exposure _ _ (exposureKept_frame (setEntries_frame _ s) (by decide) (by decide) kept)

theorem grantSlot_exposure (position frame : Word32) (slot : Byte) (pairs : List Pair) (s : State) :
    exposureKept (grantSlot position frame slot pairs s).1 :=
  exposureKept_frame (captureTrace_frame _ _ _ _) (by decide) (by decide)
    (insertEntry_exposure _ (recomputeExposure_kept _))

theorem takeGrantReq_exposure (f : Word16) (slot : Byte) (ps : List RawPair) {s : State} (kept : exposureKept s) :
    exposureKept (takeGrantReq f slot ps s).1 := by
  unfold takeGrantReq
  split
  · exact kept
  · split
    · exact kept
    · exact grantSlot_exposure _ _ _ _ _

theorem takeTxReport_exposure (f : Word16) (slot : Byte) (ps : List RawPair) {s : State} (kept : exposureKept s) :
    exposureKept (takeTxReport f slot ps s).1 := by
  have noted (b : Bool) (p : Word32) {t : State} (h : exposureKept t) : exposureKept (noteOvershoot b p t) :=
    exposureKept_frame (noteOvershoot_frame b p t) (by decide) (by decide) h
  unfold takeTxReport matchReport
  split
  · exact kept
  · split
    · exact noted _ _ (recomputeExposure_kept _)
    · split
      · exact kept
      · exact noted _ _ (recomputeExposure_kept _)

theorem takeAlign_exposure (f : Word16) {s : State} (kept : exposureKept s) : exposureKept (takeAlign f s).1 := by
  have aligned := exposureKept_frame (setTiming_frame (alignTiming s.now f s.timing) s) (by decide) (by decide) kept
  refine exposureKept_frame (raiseChange_frame _ _) (by decide) (by decide) ?_
  split
  · exact timingBreak_exposure aligned
  · exact aligned

theorem requestSwitch_exposure (w : Switch) {s : State} (kept : exposureKept s) :
    exposureKept (requestSwitch w s).1 := by
  unfold requestSwitch
  split
  · exact kept
  · split
    · exact kept
    · exact setPolicy_exposure rfl kept

theorem takeExchange_exposure (k : Byte) {s : State} (kept : exposureKept s) : exposureKept (takeExchange k s).1 := by
  unfold takeExchange
  split
  · exact requestSwitch_exposure _ kept
  · exact kept

theorem takeRingRelease_exposure (half : Byte) {s : State} (kept : exposureKept s) :
    exposureKept (takeRingRelease half s).1 := by
  unfold takeRingRelease
  split
  · exact exposureKept_congr (s := s) rfl rfl rfl rfl kept
  · split
    · exact exposureKept_congr (s := s) rfl rfl rfl rfl kept
    · exact kept

theorem softReset_exposure {s : State} (kept : exposureKept s) : exposureKept (softReset s) :=
  exposureKept_congr (s := massClose s) rfl rfl rfl rfl (massClose_exposure s kept)

/-- The requests that charge or correct a record end with the comparison; no other reaches a window figure. -/
theorem ownRequest_exposure (req : Request) {s : State} (kept : exposureKept s) :
    exposureKept (ownRequest req s).1 := by
  have unchanged : ∀ {t : State}, t = s → exposureKept t := fun h => h ▸ kept
  obtain ⟨carrier, param, zone, summary, ring, trace⟩ := reads_change_nothing s
  cases req with
  | align f => exact takeAlign_exposure f kept
  | grantReq f slot ps => exact takeGrantReq_exposure f slot ps kept
  | txReport f slot ps => exact takeTxReport_exposure f slot ps kept
  | exchange k => exact takeExchange_exposure k kept
  | reload => exact requestSwitch_exposure _ kept
  | ringRelease half => exact takeRingRelease_exposure half kept
  | resetPart => exact softReset_exposure kept
  | stageOpen => exact exposureKept_frame (takeStageOpen_frame s) (by decide) (by decide) kept
  | stageCarrier i e => exact exposureKept_frame (takeStageCarrier_frame i e s) (by decide) (by decide) kept
  | stageParam f z v => exact exposureKept_frame (takeStageParam_frame f z v s) (by decide) (by decide) kept
  | stageCommit => exact exposureKept_frame (takeStageCommit_frame s) (by decide) (by decide) kept
  | stageDrop => exact exposureKept_frame (takeStageDrop_frame s) (by decide) (by decide) kept
  | readCarrier i => exact unchanged (carrier i)
  | readParam i => exact unchanged (param i)
  | readZone z => exact unchanged (zone z)
  | readState => exact unchanged summary
  | ringRead start count => exact unchanged (ring start count)
  | changesRead => exact exposureKept_frame (takeChangesRead_frame s) (by decide) (by decide) kept
  | changesAck sources => exact exposureKept_congr (s := s) rfl rfl rfl rfl kept
  | changesMask mask mode => exact exposureKept_frame (takeChangesMask_frame mask mode s) (by decide) (by decide) kept
  | traceSet f slot action => exact exposureKept_frame (takeTraceSet_frame f slot action s) (by decide) (by decide) kept
  | traceRead => exact unchanged trace

theorem exposureKept_byOperations : KeptByOperations exposureKept where
  apart h := exposureKept_frame h (by decide) (by decide)
  queue _ kept := exposureKept_congr rfl rfl rfl rfl kept
  part w {_} := doWork_exposure w
  sample ts {s} := exposureKept_frame (takeSample_frame ts s) (by decide) (by decide)
  close {_} _ := recomputeExposure_kept _
  apply set {s} _ := applySet_exposure set s
  switch w {s} _ := applySwitch_exposure w s
  hold {s} kept := exposureKept_congr (s := s) rfl rfl rfl rfl kept
  fault c {_} := takeFault_exposure c
  align {s} := exposureKept_frame (alignTimeoutIfDue_frame s) (by decide) (by decide)
  coast := coastLimitIfDue_exposure
  timing {s} u _ := exposureKept_frame (setTiming_frame u s) (by decide) (by decide)
  request req {_} := ownRequest_exposure req
  start lv {s} _ := startBlocks_exposure lv s
  power := poweredOn_exposure

end Sys2Proof.Machine
end

