-- ==== Sys2Proof/Proofs/InhibitKept.lean ====
section
/-!
PROOFS. TXINH, the cause set and the notices as an invariant (R165 to R167). Whatever the cause set rests on changes
together with a notice, and a notice leaves the list with a recomputation; so once no notice waits the cause set is that
of R166. `InhibitFollows` says it of one operation, and every row that acts while the decoder is RUNNING is made of such
operations.
-/

namespace Sys2Proof.Machine

/-- TXINH is asserted exactly while the cause set is not empty, and the cause set is that of R166 once no notice
waits. -/
def inhibitTold (s : State) : Prop :=
  s.inhibit.txinh = causesAny s.inhibit.causes ∧ (s.work.notices = [] → s.inhibit.causes = causesOf s)

/-- From `s` to `t` RST_N and the decoder's state stand, and Inhibit Control is told of what it rests on. -/
structure InhibitFollows (s t : State) : Prop where
  rstN : t.pins.rstN = s.pins.rstN
  decoder : t.link.decoder = s.link.decoder
  told : inhibitTold s → inhibitTold t

/-- Inhibit Control's record, with the two items that put it in force and all that a recomputation is made from. -/
def inhibitView (s : State) :
    Bool × DecoderState × InhibitControl × List Notice × PerZone ZoneRecord × Bool × Context :=
  (s.pins.rstN, s.link.decoder, s.inhibit, s.work.notices, s.heat.zones, s.ring.exhausted, s.policy.workingCopy)

/-- The blocks that hold nothing the cause set rests on, and no notice. -/
abbrev besideCauses : List Block :=
  [.timing, .carriers, .supply, .engine, .openGrants, .changes, .loaded, .image, .clock]

/-- The blocks an operation that does not recompute may change. -/
abbrev besideInhibit : List Block := .heat :: .policy :: .work :: .ring :: besideCauses

theorem inhibitKept_of_running {s : State} (up : s.pins.rstN = true) (running : s.link.decoder = .running) :
    inhibitKept s ↔ inhibitTold s := by
  simp [inhibitKept, inhibitTold, up, running]

namespace InhibitFollows

theorem refl (s : State) : InhibitFollows s s := ⟨rfl, rfl, id⟩

theorem trans {s t u : State} (h : InhibitFollows s t) (k : InhibitFollows t u) : InhibitFollows s u :=
  ⟨k.rstN.trans h.rstN, k.decoder.trans h.decoder, k.told ∘ h.told⟩

/-- An operation that leaves Inhibit Control, the pins and the Link Port alone: where no notice waits after it, none
waited before it and the causes stand. -/
theorem of_frame {bs : List Block} {s t : State} (h : onlyChanges bs s t) (sub : bs ⊆ besideInhibit)
    (silent : t.work.notices = [] → s.work.notices = [] ∧ causesOf t = causesOf s) : InhibitFollows s t := by
  have wide := frame_wider h sub
  refine ⟨by rw [frame_pins wide (by decide)], by rw [frame_link wide (by decide)], fun ⟨level, causes⟩ => ?_⟩
  rw [inhibitTold, frame_inhibit wide (by decide)]
  refine ⟨level, fun none => ?_⟩
  obtain ⟨noneBefore, same⟩ := silent none
  rw [same, causes noneBefore]

/-- An operation that touches, of what the cause set rests on, the ring alone, and leaves the exhausted item. -/
theorem of_ring {bs : List Block} {s t : State} (h : onlyChanges bs s t) (sub : bs ⊆ .ring :: besideCauses)
    (exhausted : t.ring.exhausted = s.ring.exhausted) : InhibitFollows s t := by
  have wide := frame_wider h sub
  refine of_frame wide (by simp) fun none => ⟨by rwa [frame_work wide (by decide)] at none, ?_⟩
  exact causesOf_congr (by rw [frame_heat wide (by decide)]) exhausted (by rw [frame_policy wide (by decide)])

/-- An operation that touches nothing the cause set rests on. -/
theorem of_apart {bs : List Block} {s t : State} (h : onlyChanges bs s t) (sub : bs ⊆ besideCauses) :
    InhibitFollows s t :=
  of_ring h (List.subset_cons_of_subset _ sub) (by rw [frame_ring (frame_wider h sub) (by decide)])

/-- States that agree in Inhibit Control and in all it is read with. -/
theorem of_same {s t : State} (h : inhibitView t = inhibitView s) : InhibitFollows s t := by
  simp only [inhibitView, Prod.mk.injEq] at h
  obtain ⟨rstN, decoder, inhibit, notices, zones, exhausted, copy⟩ := h
  refine ⟨rstN, decoder, fun ⟨level, causes⟩ => ?_⟩
  rw [inhibitTold, inhibit, notices, causesOf_congr zones exhausted copy]
  exact ⟨level, causes⟩

theorem of_same_then {s t u : State} (k : InhibitFollows t u) (h : inhibitView t = inhibitView s) :
    InhibitFollows s u := (of_same h).trans k

theorem foldl {α : Type} {f : State → α → State} (hf : ∀ s x, InhibitFollows s (f s x)) (xs : List α) (s : State) :
    InhibitFollows s (xs.foldl f s) := by
  induction xs generalizing s with
  | nil => exact refl s
  | cons x xs ih => exact (hf s x).trans (ih _)

end InhibitFollows

/-! ## Single operations -/

theorem raiseChange_follows (c : Change) (s : State) : InhibitFollows s (raiseChange c s) :=
  .of_apart (raiseChange_frame c s) (by simp)

theorem raiseFault_follows (c : FaultClass) (s : State) : InhibitFollows s (raiseFault c s) := .of_same rfl

theorem advanceTo_follows (t : Moment) (s : State) : InhibitFollows s (advanceTo t s) := .of_same rfl

theorem setTiming_follows (u : Timing) (s : State) : InhibitFollows s (s.setTiming u) := .of_same rfl

/-- The comparison of exhaustion tells of a change, and changes nothing without one (R137, R167). -/
theorem recomputeExposure_follows (s : State) : InhibitFollows s (recomputeExposure s) := by
  refine .of_frame (recomputeExposure_frame s) (by simp) fun none => ?_
  rw [recomputeExposure_told, toldOfExposure, List.append_eq_nil_iff] at none
  obtain ⟨before, untold⟩ := none
  have same : windowExhausted s = s.ring.exhausted := by simpa using untold
  have still : recomputeExposure s = s := if_pos same
  exact ⟨before, by rw [still]⟩

/-- A recomputation leaves the cause set of R166, whether it changed or not (R167, R169). -/
theorem recomputeInhibit_told {s : State} (level : s.inhibit.txinh = causesAny s.inhibit.causes) :
    inhibitTold (recomputeInhibit s) := by
  by_cases same : causesOf s = s.inhibit.causes
  · rw [recomputeInhibit_same same]
    exact ⟨level, fun _ => same.symm⟩
  · rw [recomputeInhibit_moved same]
    exact ⟨rfl, fun _ => rfl⟩

/-- Notices taken off the list, with a recomputation (R167). -/
theorem noticesTaken_follows (w : Outstanding) (s : State) : InhibitFollows s (recomputeInhibit (s.setWork w)) := by
  have frame := recomputeInhibit_frame (s.setWork w)
  refine ⟨?_, ?_, fun ⟨level, _⟩ => recomputeInhibit_told (s := s.setWork w) level⟩
  · rw [frame_pins frame (by decide), setWork_pins]
  · rw [frame_link frame (by decide), setWork_link]

theorem noticeIfSent_follows (n : Notice) (s : State) : InhibitFollows s (noticeIfSent n s) := by
  unfold noticeIfSent
  split
  · exact noticesTaken_follows _ s
  · exact .refl s

theorem drainNotices_follows (s : State) : InhibitFollows s (drainNotices s) := by
  unfold drainNotices
  split
  · exact .refl s
  · exact noticesTaken_follows _ s

/-! ### The Open Grant List and the ring's records -/

theorem mapNamedRecord_follows (e : OpenGrant) (f : IntervalRecord → IntervalRecord) (s : State) :
    InhibitFollows s (mapNamedRecord e f s) :=
  .of_ring (mapNamedRecord_frame e f s) (by simp) (by rw [mapNamedRecord_ring])

theorem settleAsGranted_follows (s : State) (e : OpenGrant) : InhibitFollows s (settleAsGranted s e) :=
  .of_ring (settleAsGranted_frame s e) (by simp) (by rw [settleAsGranted_ring])

theorem closeEntries_follows (p : OpenGrant → Bool) (s : State) : InhibitFollows s (closeEntries p s) :=
  .of_ring (closeEntries_frame p s) (by simp) (by rw [closeEntries_ring])

theorem massClose_follows (s : State) : InhibitFollows s (massClose s) := closeEntries_follows _ s

theorem timingBreak_follows (s : State) : InhibitFollows s (timingBreak s) :=
  (massClose_follows s).trans (.of_apart (missTrace_frame _) (by simp))

theorem closeInterval_follows (s : State) : InhibitFollows s (closeInterval s) := by
  have halves (p : Fin 128) (closed opening : Nat) : InhibitFollows s (halvesAt p closed opening s) := by
    refine .of_ring (halvesAt_frame p closed opening s) (by simp) ?_
    rw [halvesAt_ring]
    split
    · rfl
    · split <;> rfl
  exact (halves _ _ _).trans (.of_same_then (recomputeExposure_follows _) rfl)

/-! ### The parts of a frame event -/

theorem stepSampleCounter_follows (s : State) : InhibitFollows s (stepSampleCounter s) := by
  refine .of_frame (stepSampleCounter_frame s) (by simp) fun none => ⟨?_, causesOf_congr ?_ ?_ ?_⟩
  · rw [stepSampleCounter_work] at none
    split at none <;> exact none
  · rw [stepSampleCounter_heat, sampleStep]
    split <;> rfl
  · rw [frame_ring (stepSampleCounter_frame s) (by decide)]
  · rw [frame_policy (stepSampleCounter_frame s) (by decide)]

theorem dutyStep_follows (s : State) : InhibitFollows s (dutyStep s) := by
  unfold dutyStep
  split
  · exact .refl s
  · split <;> exact .of_same rfl

theorem doWork_follows (w : FrameWork) (s : State) : InhibitFollows s (doWork w s) := by
  cases w with
  | expiry => exact (closeEntries_follows _ s).trans (.of_apart (liftMark_frame _) (by simp))
  | intervalCount => exact .of_same rfl
  | sampleCounter => exact stepSampleCounter_follows s
  | dutyStep => exact dutyStep_follows s
  | supply => exact .of_apart (readSupply_frame s) (by simp)
  | traceMiss => exact .of_apart (traceMissCheck_frame s) (by simp)

theorem takeLateWork_follows (s : State) (w : FrameWork) : InhibitFollows s (takeLateWork s w) := by
  unfold takeLateWork
  split
  · exact InhibitFollows.of_same_then (doWork_follows w _) rfl
  · exact .refl s

theorem takeLateWorks_follows (ws : List FrameWork) (s : State) : InhibitFollows s (takeLateWorks ws s) :=
  .foldl takeLateWork_follows ws s

theorem frameEvent_follows (lv : Levels) (late : List FrameWork) (s : State) :
    InhibitFollows s (frameEvent lv late s) :=
  InhibitFollows.of_same_then (takeLateWorks_follows _ _) rfl

/-! ### Samples -/

/-- The cause set reads of a zone its state alone (R166). -/
theorem causesOf_of_states {s t : State} (states : ∀ z, (zoneGet t.heat.zones z).state = (zoneGet s.heat.zones z).state)
    (exhausted : t.ring.exhausted = s.ring.exhausted) (copy : t.policy.workingCopy = s.policy.workingCopy) :
    causesOf t = causesOf s := by
  have inhibits : zoneInhibits t = zoneInhibits s := by
    funext z; simp only [zoneInhibits, states, copy]
  simp only [causesOf, inhibits, exhausted, copy]

/-- A zone that changes its state sends a notice; one that does not leaves the causes (R41, R42, R167). -/
theorem updateZone_follows (c : Context) (ts : PerZone Raw) (s : State) (z : Zone) :
    InhibitFollows s (updateZone c ts s z) := by
  have frame := updateZone_frame c ts s z
  refine .of_frame frame (by simp) fun none => ?_
  rw [updateZone_work] at none
  split at none
  · next same =>
    refine ⟨none, causesOf_of_states (fun y => ?_) (by rw [frame_ring frame (by decide)])
      (by rw [frame_policy frame (by decide)])⟩
    rw [updateZone_heat]
    by_cases here : y = z
    · subst here; rw [zoneGet_zoneSet_same]; exact same.symm
    · rw [zoneGet_zoneSet_other here]
  · simp [announcedWork] at none

theorem startStopDuty_follows (before : Bool) (s : State) : InhibitFollows s (startStopDuty before s) := by
  unfold startStopDuty
  split
  · exact .of_same rfl
  · split
    · exact .of_same rfl
    · exact .refl s

theorem takeSample_follows (ts : PerZone Raw) (s : State) : InhibitFollows s (takeSample ts s) := by
  rw [takeSample_eq]
  have begun : InhibitFollows s (sampleBegun ts s) := .of_same rfl
  exact (begun.trans (.foldl (updateZone_follows _ ts) zones _)).trans (startStopDuty_follows _ _)

/-! ### Working copies replaced -/

theorem toldOfReplacement_notices (before now : Bool) (w : Outstanding) :
    (toldOfReplacement before now w).notices ≠ [] := by
  simp [toldOfReplacement]

/-- Whoever replaces the working copy leaves its notice waiting (R149, R167). -/
theorem follows_of_replacement {bs : List Block} {s t : State} (h : onlyChanges bs s t) (sub : bs ⊆ besideInhibit)
    {before now : Bool} {w : Outstanding} (told : t.work = toldOfReplacement before now w) : InhibitFollows s t :=
  .of_frame h sub fun none => absurd (told ▸ none) (toldOfReplacement_notices before now w)

theorem applySet_follows (set : StagingSet) (s : State) : InhibitFollows s (applySet set s) := by
  obtain ⟨before, now, told⟩ := applySet_work set s
  exact follows_of_replacement (applySet_frame set s) (by simp) told

theorem applySwitch_follows (w : Switch) (s : State) : InhibitFollows s (applySwitch w s) := by
  obtain ⟨before, now, told⟩ := applySwitch_work w s
  exact follows_of_replacement (applySwitch_frame w s) (by simp) told

theorem loadSlot_follows (k : Fin 6) (s : State) : InhibitFollows s (loadSlot k s) := by
  obtain ⟨before, now, told⟩ := loadSlot_work k s
  exact follows_of_replacement (loadSlot_frame k s) (by simp) told

/-! ### Fault events -/

theorem cancelSwitch_follows (s : State) : InhibitFollows s (cancelSwitch s) := by
  unfold cancelSwitch
  split
  · exact .refl s
  · exact InhibitFollows.of_same_then (raiseChange_follows _ _) rfl

theorem dropStagingOnExit_follows (s : State) : InhibitFollows s (dropStagingOnExit s) := by
  unfold dropStagingOnExit
  split
  · exact .refl s
  all_goals exact InhibitFollows.of_same_then (raiseChange_follows _ _) rfl

theorem writeExit_follows (r : ExitRecord) (s : State) : InhibitFollows s (writeExit r s) :=
  InhibitFollows.of_same_then (raiseChange_follows _ _) rfl

theorem fallbackExit_follows (c : FaultClass) (f : Fin 6) (s : State) : InhibitFollows s (fallbackExit c f s) := by
  have saved : InhibitFollows s (saveWorkingCopy s) := .of_same rfl
  have left := ((saved.trans (loadSlot_follows f _)).trans (cancelSwitch_follows _)).trans (dropStagingOnExit_follows _)
  exact left.trans (.of_same_then (writeExit_follows _ _) rfl)

theorem takeFault_follows (c : FaultClass) (s : State) : InhibitFollows s (takeFault c s) := by
  obtain ignored | merged | absorbed | ⟨-, left⟩ := takeFault_cases c s
  · rw [ignored]; exact .refl s
  · rw [merged, mergeExit]
    split
    · exact .refl s
    · exact writeExit_follows _ s
  · rw [absorbed]; exact writeExit_follows _ s
  · rw [left]; exact fallbackExit_follows c _ s

theorem faultIfRaised_follows (c : FaultClass) (first : List FrameWork) (s : State) :
    InhibitFollows s (faultIfRaised c first s) := by
  unfold faultIfRaised
  split
  · exact (takeLateWorks_follows first s).trans (.of_same_then (takeFault_follows c _) rfl)
  · exact .refl s

theorem drainFaults_follows (n : Nat) (s : State) : InhibitFollows s (drainFaults n s) := by
  induction n generalizing s with
  | zero => exact .refl s
  | succ n ih =>
    unfold drainFaults
    split
    · exact .refl s
    · exact InhibitFollows.of_same_then ((takeFault_follows _ _).trans (ih _)) rfl

/-! ## The work due after a frame event -/

theorem sampleIfDue_follows (ts : PerZone Raw) (s : State) : InhibitFollows s (sampleIfDue ts s) := by
  unfold sampleIfDue
  split
  · exact (takeLateWork_follows s _).trans (takeSample_follows ts _)
  · exact .refl s

theorem closeIfDue_follows (s : State) : InhibitFollows s (closeIfDue s) := by
  unfold closeIfDue
  split
  · exact (takeLateWork_follows s _).trans (closeInterval_follows _)
  · exact .refl s

theorem applyIfDue_follows (first : List FrameWork) (s : State) : InhibitFollows s (applyIfDue first s) := by
  simp only [applyIfDue, applyCommitted]
  split
  · refine (takeLateWorks_follows first s).trans ?_
    split
    · exact .of_same rfl
    · exact .of_same rfl
    · exact InhibitFollows.of_same_then (applySet_follows _ _) rfl
  · exact .refl s

theorem clearHoldIfDue_follows (s : State) : InhibitFollows s (clearHoldIfDue s) := by
  unfold clearHoldIfDue
  split
  · exact .of_same rfl
  · exact .refl s

theorem switchIfDue_follows (first : List FrameWork) (s : State) : InhibitFollows s (switchIfDue first s) := by
  simp only [switchIfDue, applyPendingSwitch]
  split
  · refine ((takeLateWorks_follows first s).trans (clearHoldIfDue_follows _)).trans ?_
    split
    · exact .of_same rfl
    · exact InhibitFollows.of_same_then (applySwitch_follows _ _) rfl
  · exact .refl s

theorem alignTimeoutIfDue_follows (s : State) : InhibitFollows s (alignTimeoutIfDue s) :=
  .of_apart (alignTimeoutIfDue_frame s) (by simp)

theorem coastLimitIfDue_follows (s : State) : InhibitFollows s (coastLimitIfDue s) := by
  unfold coastLimitIfDue
  split
  · have free := setTiming_follows { s.timing with state := .free, coastCount := 0 } s
    have broken := free.trans (timingBreak_follows _)
    exact (broken.trans (raiseChange_follows _ _)).trans (raiseFault_follows _ _)
  · exact .refl s

theorem settle_follows (s : State) : InhibitFollows s (settle s) := by
  rw [settle_eq]
  refine .trans ?_ (drainNotices_follows _)
  refine .trans ?_ (drainFaults_follows _ _)
  refine .trans ?_ (coastLimitIfDue_follows _)
  refine .trans ?_ (alignTimeoutIfDue_follows _)
  refine .trans ?_ (switchIfDue_follows [] _)
  refine .trans ?_ (applyIfDue_follows [] _)
  refine .trans ?_ (clearHoldIfDue_follows _)
  refine .trans ?_ (sampleIfDue_follows _ _)
  exact (takeLateWorks_follows frameWorks s).trans (closeIfDue_follows _)

/-! ## The pacer and the strobe -/

theorem timedEvent_follows (lv : Levels) (late : List FrameWork) (u : Timing) (s : State) :
    InhibitFollows s (frameEvent lv late (s.setTiming u)) :=
  (setTiming_follows u s).trans (frameEvent_follows lv late _)

theorem settleAt_follows (t : Moment) (s : State) : InhibitFollows s (advanceTo t (settle s)) :=
  (settle_follows s).trans (advanceTo_follows t _)

theorem pacerExpires_follows (lv : Levels) (late : List FrameWork) (s : State) :
    InhibitFollows s (pacerExpires lv late s) := by
  simp only [pacerExpires]
  split
  · exact .refl s
  · exact (settleAt_follows _ s).trans (timedEvent_follows lv late _ _)

theorem strobeTaken_follows (lv : Levels) (late : List FrameWork) (s : State) :
    InhibitFollows s (strobeTaken lv late s) := by
  unfold strobeTaken
  split
  · exact .refl s
  · exact (timedEvent_follows lv late _ s).trans (raiseChange_follows _ _)
  · unfold strobeCounts
    split
    · exact .refl s
    · exact timedEvent_follows lv late _ s
  · unfold strobeRelocks
    split
    · exact (setTiming_follows _ s).trans (raiseChange_follows _ _)
    · exact (timedEvent_follows lv late _ s).trans (raiseChange_follows _ _)

theorem strobeLost_follows (lv : Levels) (late : List FrameWork) (s : State) :
    InhibitFollows s (strobeLost lv late s) := by
  simp only [strobeLost]
  split
  · exact .refl s
  · exact ((settleAt_follows _ s).trans (timedEvent_follows lv late _ _)).trans (raiseChange_follows _ _)

/-! ## Requests -/

/-- The notice of a release is taken at once, with a recomputation (R69, step 1; R168). -/
theorem takeReleaseNow_follows (before s : State) : InhibitFollows s (takeReleaseNow before s) := by
  unfold takeReleaseNow
  split
  · exact noticesTaken_follows _ s
  · exact .refl s

theorem withdrawEntry_follows (p : Word32) (s : State) : InhibitFollows s (withdrawEntry p s) := by
  unfold withdrawEntry
  split
  · exact .refl s
  · refine .trans ?_ (takeReleaseNow_follows _ _)
    refine .trans ?_ (recomputeExposure_follows _)
    exact (mapNamedRecord_follows _ _ s).trans (.of_apart (withoutEntry_frame p _) (by simp))

theorem insertEntry_follows (e : OpenGrant) (s : State) : InhibitFollows s (insertEntry e s) := by
  refine .trans ?_ (.of_apart (setEntries_frame _ _) (by simp))
  unfold evictIfFull
  split
  · exact .refl s
  · split
    · exact .refl s
    · exact (InhibitFollows.of_apart (setEntries_frame _ s) (by simp)).trans (settleAsGranted_follows _ _)

theorem grantSlot_follows (position frame : Word32) (slot : Byte) (pairs : List Pair) (s : State) :
    InhibitFollows s (grantSlot position frame slot pairs s).1 := by
  have charged (e : OpenGrant) (ls : List Lane) : InhibitFollows s (chargeDecision e ls s) :=
    InhibitFollows.of_same_then (recomputeExposure_follows _) rfl
  exact ((charged _ _).trans (insertEntry_follows _ _)).trans (.of_apart (captureTrace_frame _ _ _ _) (by simp))

theorem takeGrantReq_follows (f : Word16) (slot : Byte) (ps : List RawPair) (s : State) :
    InhibitFollows s (takeGrantReq f slot ps s).1 := by
  unfold takeGrantReq
  split
  · exact .refl s
  · split
    · exact .refl s
    · exact (withdrawEntry_follows _ s).trans (grantSlot_follows _ _ _ _ _)

theorem noteOvershoot_follows (b : Bool) (p : Word32) (s : State) : InhibitFollows s (noteOvershoot b p s) := by
  unfold noteOvershoot
  split
  · exact (raiseChange_follows _ s).trans (raiseFault_follows _ _)
  · exact .refl s

theorem takeTxReport_follows (f : Word16) (slot : Byte) (ps : List RawPair) (s : State) :
    InhibitFollows s (takeTxReport f slot ps s).1 := by
  unfold takeTxReport matchReport
  split
  · exact .refl s
  · split
    · refine .trans ?_ (noteOvershoot_follows _ _ _)
      refine .trans ?_ (recomputeExposure_follows _)
      exact (mapNamedRecord_follows _ _ s).trans (.of_apart (withoutEntry_frame _ _) (by simp))
    · split
      · exact .refl s
      · exact InhibitFollows.of_same_then ((recomputeExposure_follows _).trans (noteOvershoot_follows _ _ _)) rfl

theorem takeAlign_follows (f : Word16) (s : State) : InhibitFollows s (takeAlign f s).1 := by
  refine .trans ?_ (raiseChange_follows _ _)
  split
  · exact (setTiming_follows _ s).trans (timingBreak_follows _)
  · exact setTiming_follows _ s

theorem requestSwitch_follows (w : Switch) (s : State) : InhibitFollows s (requestSwitch w s).1 := by
  unfold requestSwitch
  split
  · exact .refl s
  · split
    · exact .refl s
    · exact .of_same rfl

theorem takeExchange_follows (k : Byte) (s : State) : InhibitFollows s (takeExchange k s).1 := by
  unfold takeExchange
  split
  · exact requestSwitch_follows _ s
  · exact .refl s

theorem takeRingRelease_follows (half : Byte) (s : State) : InhibitFollows s (takeRingRelease half s).1 := by
  unfold takeRingRelease
  split
  · exact .of_same rfl
  · split
    · exact .of_same rfl
    · exact .refl s

theorem softReset_follows (s : State) : InhibitFollows s (softReset s) := (massClose_follows s).trans (.of_same rfl)

theorem ownRequest_follows (req : Request) (s : State) : InhibitFollows s (ownRequest req s).1 := by
  have unchanged : ∀ {t : State}, t = s → InhibitFollows s t := fun h => h ▸ .refl s
  obtain ⟨carrier, param, zone, summary, ring, trace⟩ := reads_change_nothing s
  cases req with
  | align f => exact takeAlign_follows f s
  | grantReq f slot ps => exact takeGrantReq_follows f slot ps s
  | txReport f slot ps => exact takeTxReport_follows f slot ps s
  | exchange k => exact takeExchange_follows k s
  | reload => exact requestSwitch_follows _ s
  | ringRelease half => exact takeRingRelease_follows half s
  | resetPart => exact softReset_follows s
  | stageOpen => exact .of_apart (takeStageOpen_frame s) (by simp)
  | stageCarrier i e => exact .of_apart (takeStageCarrier_frame i e s) (by simp)
  | stageParam f z v => exact .of_apart (takeStageParam_frame f z v s) (by simp)
  | stageCommit => exact .of_apart (takeStageCommit_frame s) (by simp)
  | stageDrop => exact .of_apart (takeStageDrop_frame s) (by simp)
  | readCarrier i => exact unchanged (carrier i)
  | readParam i => exact unchanged (param i)
  | readZone z => exact unchanged (zone z)
  | readState => exact unchanged summary
  | ringRead start count => exact unchanged (ring start count)
  | changesRead => exact .of_apart (takeChangesRead_frame s) (by simp)
  | changesAck sources => exact .of_same rfl
  | changesMask mask mode => exact .of_apart (takeChangesMask_frame mask mode s) (by simp)
  | traceSet f slot action => exact .of_apart (takeTraceSet_frame f slot action s) (by simp)
  | traceRead => exact unchanged trace

/-- The Link Port may change all but the decoder's state. -/
theorem setLink_follows {l : LinkPort} {s : State} (h : l.decoder = s.link.decoder) : InhibitFollows s (s.setLink l) :=
  .of_same (by rw [inhibitView, setLink_link, h]; rfl)

theorem answerRequest_follows (tag : Byte) (req : Request) (s : State) :
    InhibitFollows s (answerRequest tag req s) := by
  unfold answerRequest
  split
  · exact (ownRequest_follows req s).trans (setLink_follows (addReply_decoder _ _ _ _ _))
  · exact setLink_follows (addReply_decoder _ _ _ _ _)

theorem answerFrame_follows (f : RxFrame) (s : State) : InhibitFollows s (answerFrame f s) := by
  unfold answerFrame
  split
  · split
    · exact answerRequest_follows _ _ s
    · exact setLink_follows (addReply_decoder _ _ _ _ _)
  · exact setLink_follows (addReply_decoder _ _ _ _ _)

theorem decodeOldest_follows (t : Moment) (s : State) : InhibitFollows s (decodeOldest t s) := by
  simp only [decodeOldest]
  split
  · exact .refl s
  · split
    · have settled := (advanceTo_follows t s).trans (settle_follows _)
      generalize settle (advanceTo t s) = u at settled ⊢
      refine .trans ?_ (answerFrame_follows _ _)
      exact settled.trans (setLink_follows rfl)
    · exact .refl s

theorem arriveRequest_follows (tag : Byte) (req : Request) (s : State) :
    InhibitFollows s (arriveRequest tag req s) := by
  unfold arriveRequest
  split
  · exact (settle_follows s).trans (answerRequest_follows tag req _)
  · exact setLink_follows (enqueueFrame_decoder _ _)

/-! ## Rows and steps -/

/-- Every row but the power rows and START_UP_LOAD_COMPLETE follows. -/
theorem taken_follows {s t : State} (h : Taken s t) :
    InhibitFollows s t ∨ ∃ m lv, t = startUpCompletes m lv s := by
  cases h with
  | startUp m lv => exact .inr ⟨m, lv, rfl⟩
  | pacer lv late => exact .inl (pacerExpires_follows lv late s)
  | strobe m lv late => exact .inl ((settleAt_follows m s).trans (strobeTaken_follows lv late _))
  | strobeLoss lv late => exact .inl (strobeLost_follows lv late s)
  | alignTimeout => exact .inl (alignTimeoutIfDue_follows s)
  | coastLimit => exact .inl (coastLimitIfDue_follows s)
  | sample ts => exact .inl (sampleIfDue_follows ts s)
  | intervalClose => exact .inl (closeIfDue_follows s)
  | stagingApply first => exact .inl (applyIfDue_follows first s)
  | switchApply first => exact .inl (switchIfDue_follows first s)
  | exitHoldClear => exact .inl (clearHoldIfDue_follows s)
  | policyFault c first => exact .inl (faultIfRaised_follows c first s)
  | inhibitNotice n => exact .inl (noticeIfSent_follows n s)
  | linkRow m l same => exact .inl ((advanceTo_follows m s).trans (setLink_follows same))
  | decode m => exact .inl (decodeOldest_follows m s)
  | request m tag req => exact .inl ((advanceTo_follows m s).trans (arriveRequest_follows tag req _))

theorem startDecoder_running (s : State) : (startDecoder s).link.decoder = .running := arbitrate_decoder _

/-- The completion of the start-up load sets level and cause set together (R164, R165). -/
theorem startUpCompletes_inhibitKept {s : State} (up : s.pins.rstN = true) (kept : inhibitKept s) (m : Moment)
    (lv : Levels) : inhibitKept (startUpCompletes m lv s) := by
  unfold startUpCompletes
  split
  · have upAfter : (startBlocks lv (advanceTo m s)).pins.rstN = true := up
    have computed := startBlocks_inhibit lv (advanceTo m s)
    generalize startBlocks lv (advanceTo m s) = u at upAfter computed ⊢
    have running := startDecoder_running (storeChange u)
    have frame : onlyChanges [.changes, .link] u (startDecoder (storeChange u)) :=
      frame_then (storeChange_frame u) (setLink_frame _ _)
    generalize startDecoder (storeChange u) = v at running frame ⊢
    have follows := inhibit_congr computed (frame_inhibit frame (by decide)) (by rw [frame_heat frame (by decide)])
      (by rw [frame_ring frame (by decide)]) (by rw [frame_policy frame (by decide)])
    refine (inhibitKept_of_running (by rw [frame_pins frame (by decide), upAfter]) running).2 ?_
    rw [inhibitTold, follows]
    exact ⟨rfl, fun _ => rfl⟩
  · exact kept

/-- While the start-up load is in progress a row that follows touches neither the level nor the decoder (R165). -/
theorem held_inhibitKept {s t : State} (taken : Taken s t) (still : startUpStill s) (held : s.link.decoder = .held)
    (follows : InhibitFollows s t) (kept : inhibitKept s) : inhibitKept t := by
  have heldAfter : t.link.decoder = .held := follows.decoder.trans held
  have frame := taken_held taken held still heldAfter
  refine ⟨fun _ => ?_, fun _ running => nomatch heldAfter.symm.trans running⟩
  rw [frame_inhibit frame (by decide)]
  exact kept.1 (.inr held)

theorem taken_inhibitKept {s t : State} (taken : Taken s t) (up : s.pins.rstN = true) (start : startUpKept s)
    (kept : inhibitKept s) : inhibitKept t := by
  obtain follows | ⟨m, lv, rfl⟩ := taken_follows taken
  · cases decoder : s.link.decoder with
    | running =>
      have told := (inhibitKept_of_running up decoder).1 kept
      exact (inhibitKept_of_running (follows.rstN.trans up) (follows.decoder.trans decoder)).2 (follows.told told)
    | held => exact held_inhibitKept taken (start up decoder) decoder follows kept
  · exact startUpCompletes_inhibitKept up kept m lv

theorem step_inhibitKept {s t : State} (start : startUpKept s) (kept : inhibitKept s) (h : step s = .next t) :
    inhibitKept t := by
  rcases step_outcome h with rfl | ⟨rest, row⟩
  · exact kept
  · cases row with
    | powerOn m => exact ⟨fun _ => rfl, nofun⟩
    | rstNAsserted m => exact ⟨fun _ => rfl, nofun⟩
    | low _ => exact kept
    | high up taken => exact taken_inhibitKept taken up start kept

/-- Settles O59: the exhausted item by the operations each row is made of, TXINH and the cause set by the notices that
stand between a change of what they rest on and the next recomputation. -/
theorem stepKeepsTxinhAndExposure : Obligations.StepKeepsTxinhAndExposure := by
  intro s t start ⟨inhibit, exposure⟩ h
  exact ⟨step_inhibitKept start inhibit h, exposureKept_byOperations.step h exposure⟩

end Sys2Proof.Machine
end

