-- ==== Sys2Proof/Proofs/Intervals.lean ====
section
/-!
PROOFS. INTERVAL_CLOSE (R128, R137, R141, R142): the ring after the writer's turn, the halves, and the comparison of
exhaustion that ends the close.
-/

namespace Sys2Proof.Machine

/-- The ring as the halves and the writer's turn leave it to the comparison of exhaustion. -/
def turned (s : State) : State :=
  turnInterval (halvesAt (positionAfter s.ring.writePosition) (openRecord s).number s.ring.nextNumber s)

theorem closeInterval_eq (s : State) : closeInterval s = recomputeExposure (turned s) := rfl

section turned
variable (s : State)

/-- The halves move the held flags of the ring alone. -/
theorem halvesAt_held (p : Fin 128) (closed opening : Nat) :
    ∃ lower upper, (halvesAt p closed opening s).ring = { s.ring with lowerHeld := lower, upperHeld := upper } ∧
      (lower, upper) =
        if p = 64 then (true, false) else if p = 0 then (false, true) else (s.ring.lowerHeld, s.ring.upperHeld) := by
  rw [halvesAt_ring]
  split
  · exact ⟨_, _, rfl, rfl⟩
  · split
    · exact ⟨_, _, rfl, rfl⟩
    · exact ⟨s.ring.lowerHeld, s.ring.upperHeld, rfl, rfl⟩

theorem turned_frame : onlyChanges [.ring, .changes] s (turned s) :=
  frame_then (halvesAt_frame _ _ _ s) (turnInterval_frame _)

/-- The items of the ring after the turn, the records apart (R128, R141, R142). -/
theorem turned_ring :
    let p := s.ring.writePosition + 1
    ∃ lower upper,
      (turned s).ring =
        { s.ring with
          records := (turned s).ring.records, writePosition := p, framesInInterval := 0
          latchedLength := s.policy.workingCopy.interval, nextNumber := numberAfter s.ring.nextNumber
          lowerHeld := lower, upperHeld := upper } ∧
      (lower, upper) =
        if p = 64 then (true, false) else if p = 0 then (false, true) else (s.ring.lowerHeld, s.ring.upperHeld) := by
  obtain ⟨lower, upper, ring, held⟩ :=
    halvesAt_held s (positionAfter s.ring.writePosition) (openRecord s).number s.ring.nextNumber
  have policy := frame_policy (halvesAt_frame (positionAfter s.ring.writePosition) (openRecord s).number
    s.ring.nextNumber s) (by decide)
  refine ⟨lower, upper, ?_, held⟩
  simp only [turned, turnInterval, setRing_ring, ring, policy]
  rfl

theorem turned_get (q : Fin 128) :
    recordAt (turned s) q =
      if q = s.ring.writePosition + 1 then newRecord s.ring.nextNumber
      else if q = s.ring.writePosition then { recordAt s q with state := .closed }
      else recordAt s q := by
  obtain ⟨_, _, ring, -⟩ :=
    halvesAt_held s (positionAfter s.ring.writePosition) (openRecord s).number s.ring.nextNumber
  rw [turned, turnInterval_get, halvesAt_get, ring]
  rfl

theorem turned_changes :
    let w := s.ring.writePosition
    let p := w + 1
    (turned s).changes =
      if p = 64 then
        reported (.ringHalf .lower (recordAt s w).number)
          (if s.ring.upperHeld then reported (.ringOverrun .upper s.ring.nextNumber) s.changes else s.changes)
      else if p = 0 then
        reported (.ringHalf .upper (recordAt s w).number)
          (if s.ring.lowerHeld then reported (.ringOverrun .lower s.ring.nextNumber) s.changes else s.changes)
      else s.changes :=
  (frame_changes (turnInterval_frame _) (by decide)).trans (halvesAt_changes _ _ _ s)

end turned

theorem exec_intervalClose {s : State} (up : s.pins.rstN = true) :
    exec .intervalClose s = .next (closeIfDue s) := whileUp_high up

/-- Settles O19: below the latched length no close is due; at it the close is the writer's turn, which leaves the
records and the halves, and then the comparison, which leaves the exhausted item and what it tells. -/
theorem intervalCloseTurnsTheRing : Obligations.IntervalCloseTurnsTheRing := by
  intro s up
  rw [exec_intervalClose up, closeIfDue]
  generalize takeLateWork s .intervalCount = u
  refine ⟨fun below => ?_, fun reached => ⟨closeInterval u, ?_, ?_⟩⟩
  · rw [if_neg fun due => Nat.not_le.2 below ((closeDue_iff u).1 due)]
  · rw [if_pos ((closeDue_iff u).2 reached)]
  have entered : u.ring.writePosition ≠ u.ring.writePosition + 1 := (positionAfter_ne _).symm
  obtain ⟨lower, upper, ring, held⟩ := turned_ring u
  have exhausted := recomputeExposure_exhausted (turned u)
  have told := recomputeExposure_told (turned u)
  have record (q : Fin 128) := (recomputeExposure_get (turned u) q).trans (turned_get u q)
  have changes := (frame_changes (recomputeExposure_frame (turned u)) (by decide)).trans (turned_changes u)
  have after := recomputeExposure_ring (turned u)
  have same : windowExhausted (turned u) = windowExhausted (closeInterval u) := by
    rw [closeInterval_eq, ← exhausted, after]
  rw [ring] at after
  rw [same, frame_work (turned_frame u) (by decide), ring] at told
  rw [← closeInterval_eq] at exhausted told record changes after
  refine ⟨?_, ?_, ?_, ?_, ?_, ?_, fun q notEntered notLeft => ?_, ?_, changes, exhausted, told, closeInterval_frame u⟩
  · rw [after]
  · rw [after]
  · rw [after]
  · rw [after]; rfl
  · rw [record, if_pos rfl]; rfl
  · rw [record, if_neg entered, if_pos rfl]
  · rw [record, if_neg notEntered, if_neg notLeft]
  · rw [after]; exact held

end Sys2Proof.Machine
end

