-- ==== Sys2Proof/Proofs/Figures.lean ====
section
/-!
PROOFS. The window figures and what follows them (R135 to R137, R166, R167): the sum over the window, the comparison of
exhaustion, the cause set, and the notice that has it recomputed.
-/

namespace Sys2Proof.Machine

/-! ## The window figures (R135, R136) -/

theorem sum_range_limited (f : Nat → Nat) (n m : Nat) :
    ((List.range m).map fun k => if k < n then f k else 0).sum = ((List.range (min n m)).map f).sum := by
  induction m with
  | zero => rw [Nat.min_zero]; rfl
  | succ m ih =>
    rw [List.range_succ, List.map_append, List.sum_append, ih]
    by_cases within : m < n
    · rw [Nat.min_eq_right (Nat.le_of_lt within), Nat.min_eq_right within, List.range_succ, List.map_append,
        List.sum_append]
      simp [within]
    · have past : n ≤ m := Nat.le_of_not_lt within
      rw [Nat.min_eq_left past, Nat.min_eq_left (Nat.le_succ_of_le past)]
      simp [within]

/-- The record `k` places before the writer, counted round the ring. -/
theorem recordAt_before (s : State) {k : Nat} (h : k < 128) :
    recordAt s (s.ring.writePosition - Fin.ofNat 128 k) =
      s.ring.records[(s.ring.writePosition.val + 128 - k) % 128]'(Nat.mod_lt _ (by decide)) := by
  have place : (s.ring.writePosition - Fin.ofNat 128 k).val = (s.ring.writePosition.val + 128 - k) % 128 := by
    rw [Fin.sub_def, Fin.val_ofNat, Nat.mod_eq_of_lt h]
    exact congrArg (· % 128) (by omega)
  simp only [recordAt, Fin.getElem_fin, place]

theorem windowSum_eq (s : State) :
    windowSum s = ((List.range 128).map fun k =>
      if k ≤ s.policy.workingCopy.window then (recordAt s (s.ring.writePosition - Fin.ofNat 128 k)).energy
      else 0).sum := by
  have count : min s.policy.workingCopy.window 127 + 1 = min (s.policy.workingCopy.window + 1) 128 := by omega
  simp only [← Nat.lt_succ_iff]
  rw [sum_range_limited, windowSum, windowRecords, count, List.map_map]
  refine congrArg List.sum (List.map_congr_left fun k hk => ?_)
  have within : k < 128 := Nat.lt_of_lt_of_le (List.mem_range.1 hk) (Nat.min_le_right _ _)
  rw [recordAt_before s within]
  rfl

theorem windowExhausted_iff (s : State) : windowExhausted s = true ↔ budget s ≤ windowSum s := decide_eq_true_iff

theorem windowFiguresFollowTheRecords : Claims.WindowFiguresFollowTheRecords := by
  refine fun s => ⟨windowSum_eq s, rfl, windowExhausted_iff s, fun below => ⟨rfl, ?_⟩, fun reached => ⟨?_, ?_⟩⟩
  · exact if_neg fun h => Nat.not_le.2 below ((windowExhausted_iff s).1 h)
  · exact Nat.sub_eq_zero_of_le reached
  · exact if_pos ((windowExhausted_iff s).2 reached)

/-! ## The comparison of exhaustion (R137) -/

theorem recomputeExposure_onset {s : State} (now : windowExhausted s = true) (before : s.ring.exhausted = false) :
    recomputeExposure s = faulted .exhausted
      { s with
        ring := { s.ring with exhausted := true }
        work := { s.work with notices := s.work.notices ++ [.exhaustion] } } := by
  simp only [recomputeExposure, now, before, Bool.true_eq_false, if_false, if_true]
  rfl

theorem recomputeExposure_release {s : State} (now : windowExhausted s = false) (before : s.ring.exhausted = true) :
    recomputeExposure s =
      { s with
        ring := { s.ring with exhausted := false }
        work := { s.work with notices := s.work.notices ++ [.exhaustion] } } := by
  simp only [recomputeExposure, now, before, Bool.false_eq_true, if_false]
  rfl

theorem exhaustionIsCompared : Claims.ExhaustionIsCompared :=
  fun _ => ⟨fun same => if_pos same, recomputeExposure_onset, recomputeExposure_release⟩

/-! ## The cause set (R166) -/

theorem causesOf_zoneCrit (s : State) :
    (causesOf s).zoneCrit = true ↔ ∃ z, (zoneGet s.heat.zones z).state = .level .critical ∧
      zoneGet s.policy.workingCopy.criticalAction z = .inhibit := by
  have inhibits (z : Zone) : zoneInhibits s z = true ↔ (zoneGet s.heat.zones z).state = .level .critical ∧
      zoneGet s.policy.workingCopy.criticalAction z = .inhibit := by simp [zoneInhibits]
  simp only [causesOf, List.any_eq_true, mem_zones, true_and, inhibits]

theorem causesOf_exposure (s : State) :
    (causesOf s).exposure = true ↔ s.ring.exhausted = true ∧ s.policy.workingCopy.hardStop = true :=
  Bool.and_eq_true_iff

theorem causeSetFollowsZonesAndExhaustion : Claims.CauseSetFollowsZonesAndExhaustion :=
  fun s => ⟨causesOf_zoneCrit s, causesOf_exposure s, fun _ => Bool.or_eq_true_iff⟩

/-! ## INHIBIT_NOTICE (R167, R169) -/

theorem exec_inhibitNotice {s : State} (up : s.pins.rstN = true) (n : Notice) :
    exec (.inhibitNotice n) s = .next (noticeIfSent n s) := whileUp_high up

theorem inhibitNoticeRecomputes : Claims.InhibitNoticeRecomputes := by
  intro n s up
  rw [exec_inhibitNotice up]
  refine ⟨fun unsent => congrArg _ (if_neg unsent), fun sent => ?_⟩
  have taken : noticeIfSent n s =
      recomputeInhibit { s with work := { s.work with notices := s.work.notices.erase n } } := if_pos sent
  exact ⟨(causesOf s).zoneCrit, (causesOf s).exposure, causesOf_zoneCrit s, causesOf_exposure s,
    fun same => congrArg _ (taken.trans (recomputeInhibit_same same)),
    fun moved => congrArg _ (taken.trans (recomputeInhibit_moved moved))⟩

/-- Settles O23: each figure read off its definition, the window sum as a sum over all 128 places. -/
theorem exhaustionAndInhibitAreRecomputed : Obligations.ExhaustionAndInhibitAreRecomputed :=
  ⟨windowFiguresFollowTheRecords, exhaustionIsCompared, causeSetFollowsZonesAndExhaustion, inhibitNoticeRecomputes⟩

end Sys2Proof.Machine
end

