-- ==== Sys2Proof/Proofs/Switches.lean ====
section
/-!
PROOFS. SWITCH_APPLY (R139, R149, R153, R158): both kinds of switch write the slots and then load one of them, and what
a loaded slot leaves is that of any replacement of the working copy.
-/

namespace Sys2Proof.Machine

/-! ## A slot loaded -/

theorem loadSlot_ring (k : Fin 6) (s : State) :
    (loadSlot k s).ring = { s.ring with exhausted := windowExhausted (loadSlot k s) } :=
  replaceWorkingCopy_ring _ _

theorem loadSlot_told (k : Fin 6) (s : State) :
    (loadSlot k s).work = toldOfReplacement s.ring.exhausted (windowExhausted (loadSlot k s)) s.work :=
  replaceWorkingCopy_told _ _

/-! ## A switch -/

/-- The slots a switch writes, and the slot it then loads (R153). -/
def switchTarget (s : State) : Switch → Vector Context 6 × Fin 6
  | .exchange k => (savedSlots s.policy, k)
  | .reload => (loadedSlots s.image.toList, s.policy.activeIndex)

/-- A switch applied: the slots written, one of them loaded, and the change raised (R153). -/
theorem applySwitch_eq (w : Switch) (s : State) :
    applySwitch w s =
      raised (.switchApplied (switchKind w) (switchTarget s w).2 s.timing.frameCounter)
        (loadSlot (switchTarget s w).2
          (s.setPolicy { s.policy with slots := (switchTarget s w).1, pendingSwitch := none })) := by
  have timing (k : Fin 6) (u : State) : (loadSlot k u).timing = u.timing :=
    frame_timing (loadSlot_frame k u) (by decide)
  have active (k : Fin 6) (u : State) : (loadSlot k u).policy.activeIndex = k := by rw [loadSlot_policy]
  cases w <;> simp only [applySwitch, performSwitch, raiseChange_eq, timing, active] <;> rfl

theorem raised_ring (c : Change) (s : State) : (raised c s).ring = s.ring := rfl

theorem raised_work (c : Change) (s : State) : (raised c s).work = s.work := rfl

theorem windowExhausted_raised (c : Change) (s : State) : windowExhausted (raised c s) = windowExhausted s :=
  windowExhausted_congr rfl rfl rfl

section applySwitch
variable (w : Switch) (s : State)

theorem applySwitch_policy :
    (applySwitch w s).policy =
      { s.policy with
        slots := (switchTarget s w).1, workingCopy := (switchTarget s w).1.get (switchTarget s w).2
        activeIndex := (switchTarget s w).2, pendingSwitch := none } := by
  rw [applySwitch_eq, raised, loadSlot_policy]
  rfl

theorem applySwitch_heat :
    (applySwitch w s).heat =
      { s.heat with
        dutyCounter := min s.heat.dutyCounter ((switchTarget s w).1.get (switchTarget s w).2).cycleLength } := by
  rw [applySwitch_eq, raised, loadSlot_heat]
  rfl

theorem applySwitch_changes :
    (applySwitch w s).changes =
      reported (.switchApplied (switchKind w) (switchTarget s w).2 s.timing.frameCounter) s.changes := by
  rw [applySwitch_eq, raised, frame_changes (loadSlot_frame _ _) (by decide)]
  rfl

theorem applySwitch_ring :
    (applySwitch w s).ring = { s.ring with exhausted := windowExhausted (applySwitch w s) } := by
  rw [applySwitch_eq, windowExhausted_raised, raised_ring]
  exact loadSlot_ring _ _

theorem applySwitch_told :
    (applySwitch w s).work =
      toldOfReplacement s.ring.exhausted (windowExhausted (applySwitch w s)) s.work := by
  rw [applySwitch_eq, windowExhausted_raised, raised_work]
  exact loadSlot_told _ _

end applySwitch

/-! ## The hold cleared before it (R158) -/

theorem clearHoldIfDue_eq (s : State) :
    clearHoldIfDue s =
      { s with
        policy := { s.policy with exitHold := if s.work.holdClearDue then false else s.policy.exitHold }
        work := { s.work with holdClearDue := false } } := by
  unfold clearHoldIfDue
  cases due : s.work.holdClearDue with
  | true => rfl
  | false =>
    have still : { s.work with holdClearDue := false } = s.work := by rw [← due]
    rw [still]; rfl

/-- The state a due switch is applied in: the hold cleared where the frame event found it, the switch no longer due. -/
def switchBegun (s : State) : State :=
  { s with
    policy := { s.policy with exitHold := if s.work.holdClearDue then false else s.policy.exitHold }
    work := { s.work with switchDue := false, holdClearDue := false } }

theorem applyPendingSwitch_some {s : State} {w : Switch} (h : s.policy.pendingSwitch = some w) :
    applyPendingSwitch (clearHoldIfDue s) = applySwitch w (switchBegun s) := by
  rw [clearHoldIfDue_eq]
  simp only [applyPendingSwitch, setWork_policy, h]
  rfl

theorem exec_switchApply {s : State} (up : s.pins.rstN = true) (first : List FrameWork) :
    exec (.switchApply first) s = .next (switchIfDue first s) := whileUp_high up

/-- The row of a due switch, with every block it changes. -/
theorem switchApply_pending {s : State} (up : s.pins.rstN = true) (due : s.work.switchDue = true)
    (first : List FrameWork) {w : Switch} (pending : (takeLateWorks first s).policy.pendingSwitch = some w) :
    exec (.switchApply first) s = .next (applySwitch w (switchBegun (takeLateWorks first s))) := by
  rw [exec_switchApply up, switchIfDue, if_pos due, applyPendingSwitch_some pending]

/-- Settles O21: a due switch is applied in the state with the hold cleared, and each kind names its slots. -/
theorem switchApplyLoadsASlot : Obligations.SwitchApplyLoadsASlot := by
  refine fun first s up => ⟨fun idle => ?_, ?_⟩
  · rw [exec_switchApply up, switchIfDue, idle]
    rfl
  intro due u w pending
  have row := switchApply_pending up due first pending
  have frame : onlyChanges [.policy, .heat, .ring, .changes, .work] u (applySwitch w (switchBegun u)) :=
    frame_then (bs := [.policy, .work]) (by simp [onlyChanges_iff, switchBegun]) (applySwitch_frame w _)
  have policy := applySwitch_policy w (switchBegun u)
  have heat := applySwitch_heat w (switchBegun u)
  have changes := applySwitch_changes w (switchBegun u)
  have ring := applySwitch_ring w (switchBegun u)
  have work := applySwitch_told w (switchBegun u)
  cases w with
  | exchange k => exact ⟨_, row, policy, heat, changes, ring, work, frame⟩
  | reload => exact ⟨_, row, policy, heat, changes, ring, work, frame⟩

end Sys2Proof.Machine
end

