-- ==== Sys2Proof/Proofs/Frames.lean ====
section
/-!
PROOFS. Frames received (R133, R179, R181): the cyclic check bit by bit, the judgement of a complete frame, and the
bytes of a frame collected one after another up to that judgement.
-/

namespace Sys2Proof.Machine

/-! ## The cyclic check (R133) -/

/-- The top bit differs from the data bit, or the register is shifted alone. -/
theorem crcBit_eq (r : Word16) (d : Bool) :
    crcBit r d = if r.getLsbD 15 = d then r <<< 1 else (r <<< 1) ^^^ 0x1021 := by
  have top : r.msb = r.getLsbD 15 := by rw [BitVec.msb_eq_getLsbD_last]
  rw [crcBit, top]
  cases r.getLsbD 15 <;> cases d <;> rfl

theorem cyclicCheckFoldsBits : Claims.CyclicCheckFoldsBits := by
  refine ⟨fun r => rfl, fun r b rest => ?_, fun kind tag payload => rfl, by decide +kernel⟩
  rw [crcFold, List.foldl_cons, crcByte]
  simp only [crcBit_eq]
  rfl

/-! ## The judgement (R181) -/

theorem judgeFrame_bad {f : RxFrame} {check : Word16} (bad : frameCheck f.kind f.tag f.payload ≠ check)
    (l : LinkPort) : judgeFrame f check l = addPortReply 0xFE f.tag (refuse .badCheck [f.kind]) l := if_neg bad

theorem judgeFrame_queued {f : RxFrame} {check : Word16} {l : LinkPort}
    (good : frameCheck f.kind f.tag f.payload = check) (room : l.receiveQueue.length < 4) :
    judgeFrame f check l = { l with receiveQueue := l.receiveQueue ++ [f] } := by
  rw [judgeFrame, if_pos good, enqueueFrame]
  exact if_pos room

theorem judgeFrame_busy {f : RxFrame} {check : Word16} {l : LinkPort}
    (good : frameCheck f.kind f.tag f.payload = check) (full : 4 ≤ l.receiveQueue.length) :
    judgeFrame f check l = addPortReply (f.kind + 0x80) f.tag (refuse .busy []) l := by
  rw [judgeFrame, if_pos good, enqueueFrame]
  exact if_neg (Nat.not_lt.2 full)

theorem judgementOfAFrame : Claims.JudgementOfAFrame := by
  intro f check l
  exact ⟨fun bad => judgeFrame_bad bad l, fun good => ⟨judgeFrame_queued good, judgeFrame_busy good⟩⟩

/-! ## The bytes of a frame (R179) -/

/-- A port that has collected some bytes since the sync byte, the last of them at `t`. -/
def collecting (t : Moment) (bytes : List Byte) (l : LinkPort) : LinkPort :=
  { l with receive := .receiving bytes (t + byteGapTime) }

theorem takeByte_sync {l : LinkPort} (hunting : l.receive = .hunting) (t : Moment) :
    takeByte t l { value := 0xC3, stopBit := true } = collecting t [] l := by
  simp [takeByte, hunting, syncByte, collecting]

theorem takeByte_collecting (t : Moment) (bytes : List Byte) (b : Byte) (l : LinkPort) :
    takeByte t (collecting t bytes l) { value := b, stopBit := true } =
      collect t (bytes ++ [b]) (collecting t bytes l) := rfl

/-- Kind, tag and a legal length byte are collected. -/
theorem takeBytes_head (t : Moment) (kind tag : Byte) {len : Byte} (legal : len.toNat ≤ 250) (l : LinkPort) :
    (onLine [kind, tag, len]).foldl (takeByte t) (collecting t [] l) = collecting t [kind, tag, len] l := by
  have short : ¬ 250 < len.toNat := Nat.not_lt.2 legal
  simp [onLine, takeByte, collecting, collect, short]

/-- Bytes of the payload and the check are collected, as long as one is missing. -/
theorem takeBytes_within (t : Moment) (kind tag : Byte) {len : Byte} (legal : len.toNat ≤ 250) (more rest : List Byte)
    (l : LinkPort) (short : rest.length + more.length < len.toNat + 2) :
    (onLine more).foldl (takeByte t) (collecting t (kind :: tag :: len :: rest) l) =
      collecting t (kind :: tag :: len :: (rest ++ more)) l := by
  induction more generalizing rest with
  | nil => rw [List.append_nil]; rfl
  | cons b more ih =>
    rw [List.length_cons] at short
    have one : takeByte t (collecting t (kind :: tag :: len :: rest) l) { value := b, stopBit := true } =
        collecting t (kind :: tag :: len :: (rest ++ [b])) l := by
      have within : (rest ++ [b]).length < len.toNat + 2 := by rw [List.length_append, List.length_singleton]; omega
      simp only [takeByte_collecting, List.cons_append, collect, if_neg (Nat.not_lt.2 legal), if_pos within]
      rfl
    rw [onLine, List.map_cons, List.foldl_cons, one]
    refine (ih (rest ++ [b]) ?_).trans ?_
    · rw [List.length_append, List.length_singleton]; omega
    · rw [List.append_assoc, List.singleton_append]

/-- The last byte completes the frame, and it is judged in the same step (R181; assumption 6). -/
theorem takeByte_last (t : Moment) (kind tag c1 c0 : Byte) {len : Byte} (legal : len.toNat ≤ 250) {payload : List Byte}
    (whole : payload.length = len.toNat) (l : LinkPort) :
    takeByte t (collecting t (kind :: tag :: len :: (payload ++ [c1])) l) { value := c0, stopBit := true } =
      judgeFrame { kind, tag, payload } (c1 ++ c0) { l with receive := .hunting } := by
  have complete : ¬ (payload ++ [c1] ++ [c0]).length < len.toNat + 2 := by simp [whole]
  rw [takeByte_collecting]
  simp only [List.cons_append, collect, if_neg (Nat.not_lt.2 legal), if_neg complete]
  simp [← whole, word16, collecting]

/-- A frame taken on a hunting port is judged on that port (R179, R181). -/
theorem takeFrame_judged {l : LinkPort} (hunting : l.receive = .hunting) (t : Moment) (kind tag : Byte)
    {payload : List Byte} (fits : payload.length ≤ 250) (c1 c0 : Byte) :
    (onLine ([0xC3, kind, tag, BitVec.ofNat 8 payload.length] ++ payload ++ [c1, c0])).foldl (takeByte t) l =
      judgeFrame { kind, tag, payload } (c1 ++ c0) l := by
  have whole : payload.length = (BitVec.ofNat 8 payload.length).toNat := by
    rw [BitVec.toNat_ofNat, Nat.mod_eq_of_lt (Nat.lt_of_le_of_lt fits (by decide))]
  have legal : (BitVec.ofNat 8 payload.length).toNat ≤ 250 := whole ▸ fits
  have idle : { l with receive := .hunting } = l := by rw [← hunting]
  have parts : onLine ([0xC3, kind, tag, BitVec.ofNat 8 payload.length] ++ payload ++ [c1, c0]) =
      { value := 0xC3, stopBit := true } :: (onLine [kind, tag, BitVec.ofNat 8 payload.length] ++
        (onLine (payload ++ [c1]) ++ [{ value := c0, stopBit := true }])) := by
    simp [onLine]
  rw [parts, List.foldl_cons, takeByte_sync hunting, List.foldl_append, takeBytes_head t kind tag legal,
    List.foldl_append, takeBytes_within t kind tag legal (payload ++ [c1]) [] l (by simp [← whole]),
    List.nil_append, List.foldl_cons, List.foldl_nil, takeByte_last t kind tag c1 c0 legal whole, idle]

theorem exec_frameReceived {s : State} (up : s.pins.rstN = true) (t : Moment) (bytes : List RxByte) :
    exec (.frameReceived t bytes) s =
      .next { s with now := max s.now t, link := bytes.foldl (takeByte (max s.now t)) s.link } :=
  whileUp_high (f := receiveFrame t bytes) up

theorem completeFrameIsJudged : Claims.CompleteFrameIsJudged := by
  intro t kind tag payload c1 c0 s up hunting fits
  have row := exec_frameReceived up t
    (onLine ([0xC3, kind, tag, BitVec.ofNat 8 payload.length] ++ payload ++ [c1, c0]))
  rw [takeFrame_judged hunting _ kind tag fits c1 c0] at row
  obtain ⟨bad, good⟩ := judgementOfAFrame { kind, tag, payload } (c1 ++ c0) s.link
  refine ⟨fun fails => ?_, fun passes room => ?_, fun passes full => ?_⟩
  · rw [bad fails] at row; exact row
  · rw [(good passes).1 room] at row; exact row
  · rw [(good passes).2 full] at row; exact row

/-- Settles O24: the bytes are collected up to the last one, and the complete frame is judged as any other. -/
theorem frameIsJudged : Obligations.FrameIsJudged :=
  ⟨completeFrameIsJudged, judgementOfAFrame, cyclicCheckFoldsBits⟩

end Sys2Proof.Machine
end

