-- ==== Sys2Proof/Proofs/ContextRecord.lean ====
section
/-!
PROOFS. The context record of the image (R162, R193): numbers and their bytes, a record's values and the context they
make, and the way from a context to its record and back.
-/

namespace Sys2Proof.Machine

/-! ## Numbers and their bytes (R188) -/

theorem beBytes_length (n v : Nat) : (beBytes n v).length = n := by
  induction n with
  | zero => rfl
  | succ n ih => rw [beBytes, List.length_cons, ih]

/-- The last byte of a number is its low eight bits; the bytes before it spell the rest. -/
theorem beBytes_concat (n v : Nat) : beBytes (n + 1) v = beBytes n (v / 256) ++ [BitVec.ofNat 8 v] := by
  induction n with
  | zero => simp [beBytes]
  | succ n ih =>
    rw [beBytes, ih, beBytes, List.cons_append, Nat.div_div_eq_div_mul, Nat.pow_succ']

theorem fromBe_concat (bytes : List Byte) (b : Byte) : fromBe (bytes ++ [b]) = fromBe bytes * 256 + b.toNat := by
  simp [fromBe]

theorem fromBe_beBytes (n v : Nat) (fits : v < 256 ^ n) : fromBe (beBytes n v) = v := by
  induction n generalizing v with
  | zero => simpa [beBytes, fromBe, eq_comm] using fits
  | succ n ih =>
    have rest : v / 256 < 256 ^ n := Nat.div_lt_of_lt_mul (by rwa [← Nat.pow_succ'])
    rw [beBytes_concat, fromBe_concat, ih _ rest, BitVec.toNat_ofNat]
    omega

theorem beBytes_fromBe {n : Nat} (bytes : List Byte) (length : bytes.length = n) :
    beBytes n (fromBe bytes) = bytes := by
  subst length
  induction bytes using List.reverseRecOn with
  | nil => rfl
  | append_singleton bytes b ih =>
    have rest : (fromBe bytes * 256 + b.toNat) / 256 = fromBe bytes := by omega
    have last : BitVec.ofNat 8 (fromBe bytes * 256 + b.toNat) = b := by
      apply BitVec.eq_of_toNat_eq
      rw [BitVec.toNat_ofNat]
      omega
    rw [List.length_append, List.length_singleton, fromBe_concat, beBytes_concat, rest, last, ih]

theorem beBytes_eq_bigEndian (n v : Nat) : beBytes n v = bigEndian n v := by
  induction n with
  | zero => rfl
  | succ n ih =>
    rw [beBytes, ih, bigEndian, bigEndian, List.range_succ_eq_map, List.map_cons, List.map_map]
    simp [Function.comp_def, Nat.sub_sub, Nat.add_comm]

/-! ## The record's layout (R193) -/

theorem beBytes_one (v : Nat) : beBytes 1 v = [oneByte v] := by simp [beBytes, oneByte]

theorem oneByte_boolCode (b : Bool) : oneByte (boolCode b) = if b then 1 else 0 := by cases b <;> rfl

theorem oneByte_criticalActionCode (a : CriticalAction) :
    oneByte (criticalActionCode a) = if a = .inhibit then 1 else 0 := by cases a <;> rfl

theorem contextRecordLayout : Claims.ContextRecordLayout := by
  intro c
  simp only [← beBytes_eq_bigEndian]
  simp [contextBytes, contextLayout, zones, fieldWidth, contextGet, zoneGet, beBytes_one, oneByte_boolCode,
    oneByte_criticalActionCode]

/-! ## The values of a record -/

/-- The bytes of some values, each in the width of its field (R193). -/
def valueBytes (values : List ((Nat × Zone) × Nat)) : List Byte :=
  values.flatMap fun x => beBytes (fieldWidth x.1.1) x.2

/-- The values of some fields, each field with its own. -/
def fieldValues (layout : List (Nat × Zone)) (f : Nat × Zone → Nat) : List ((Nat × Zone) × Nat) :=
  layout.map fun p => (p, f p)

theorem fieldValues_congr {layout : List (Nat × Zone)} {f g : Nat × Zone → Nat} (h : ∀ p ∈ layout, f p = g p) :
    fieldValues layout f = fieldValues layout g :=
  List.map_congr_left fun p listed => congrArg (Prod.mk p) (h p listed)

/-- A value read back from its bytes is that value, where it fits in the width of its field. -/
theorem recordValues_valueBytes (layout : List (Nat × Zone)) (f : Nat × Zone → Nat)
    (fits : ∀ p ∈ layout, f p < 256 ^ fieldWidth p.1) :
    recordValues layout (valueBytes (fieldValues layout f)) = fieldValues layout f := by
  induction layout with
  | nil => rfl
  | cons p rest ih =>
    have here := fits p (List.mem_cons_self ..)
    have later := ih fun q h => fits q (List.mem_cons_of_mem _ h)
    have bytes : valueBytes (fieldValues (p :: rest) f) =
        beBytes (fieldWidth p.1) (f p) ++ valueBytes (fieldValues rest f) := rfl
    rw [bytes, recordValues, List.take_left' (beBytes_length _ _), List.drop_left' (beBytes_length _ _),
      fromBe_beBytes _ _ here, later]
    rfl

/-- Bytes of the layout's length are the bytes of the values read from them. -/
theorem valueBytes_recordValues (layout : List (Nat × Zone)) (bytes : List Byte)
    (whole : bytes.length = (layout.map fun p => fieldWidth p.1).sum) :
    valueBytes (recordValues layout bytes) = bytes := by
  induction layout generalizing bytes with
  | nil => exact (List.length_eq_zero_iff.1 whole).symm
  | cons p rest ih =>
    rw [List.map_cons, List.sum_cons] at whole
    have width : (bytes.take (fieldWidth p.1)).length = fieldWidth p.1 := by
      rw [List.length_take]; omega
    have first : beBytes (fieldWidth p.1) (fromBe (bytes.take (fieldWidth p.1))) = bytes.take (fieldWidth p.1) :=
      beBytes_fromBe _ width
    have later := ih (bytes.drop (fieldWidth p.1)) (by rw [List.length_drop]; omega)
    rw [recordValues, valueBytes, List.flatMap_cons, ← valueBytes, later, first, List.take_append_drop]

theorem recordValues_fields (layout : List (Nat × Zone)) (bytes : List Byte) :
    (recordValues layout bytes).map Prod.fst = layout := by
  induction layout generalizing bytes with
  | nil => rfl
  | cons p rest ih => rw [recordValues, List.map_cons, ih]

/-- Values of distinct fields are those of a function of the field. -/
theorem exists_fieldValues (values : List ((Nat × Zone) × Nat)) (distinct : (values.map Prod.fst).Nodup) :
    ∃ f, values = fieldValues (values.map Prod.fst) f := by
  induction values with
  | nil => exact ⟨fun _ => 0, rfl⟩
  | cons x rest ih =>
    rw [List.map_cons, List.nodup_cons] at distinct
    obtain ⟨fresh, others⟩ := distinct
    obtain ⟨f, hf⟩ := ih others
    refine ⟨Function.update f x.1 x.2, ?_⟩
    have kept : fieldValues (rest.map Prod.fst) (Function.update f x.1 x.2) = fieldValues (rest.map Prod.fst) f :=
      fieldValues_congr fun p h => Function.update_of_ne (ne_of_mem_of_not_mem h fresh) ..
    rw [List.map_cons, fieldValues, List.map_cons, Function.update_self, ← fieldValues, kept, ← hf]

/-! ## The context some values make -/

/-- The context whose fields have the values of `f` (R145). -/
def contextOf (f : Nat × Zone → Nat) : Context :=
  let zoned (n : Nat) : PerZone Nat :=
    { pa := f (n, .pa), antA := f (n, .antA), antB := f (n, .antB), caseZone := f (n, .caseZone) }
  { warmEntry := zoned 1, hotEntry := zoned 2, criticalEntry := zoned 3, hysteresis := zoned 4
    warmCap := zoned 5, hotOnCap := zoned 6, hotOffCap := zoned 7, criticalCap := zoned 8
    criticalAction :=
      { pa := criticalActionOf (f (9, .pa)), antA := criticalActionOf (f (9, .antA))
        antB := criticalActionOf (f (9, .antB)), caseZone := criticalActionOf (f (9, .caseZone)) }
    samplePeriod := f (10, .pa), confirmCount := f (11, .pa), cycleLength := f (12, .pa), duty := f (13, .pa)
    supplyLowCap := f (14, .pa), supplyCriticalCap := f (15, .pa), shed := f (16, .pa) == 1
    averageLimit := f (17, .pa), window := f (18, .pa), interval := f (19, .pa), paceThreshold := f (20, .pa)
    reserve := f (21, .pa), hardStop := f (22, .pa) == 1, horizon := f (23, .pa)
    exitSensor := f (24, .pa) == 1, exitCritical := f (25, .pa) == 1, exitExhausted := f (26, .pa) == 1
    exitOvershoot := f (27, .pa) == 1, exitTiming := f (28, .pa) == 1, fallback := Fin.ofNat 6 (f (29, .pa)) }

/-- Putting a value into every field leaves nothing of the context before (R193). -/
theorem contextPuts_eq (c : Context) (f : Nat × Zone → Nat) :
    (fieldValues contextLayout f).foldl (fun c x => contextPut c x.1.1 x.1.2 x.2) c = contextOf f := rfl

theorem criticalActionOf_code (a : CriticalAction) : criticalActionOf (criticalActionCode a) = a := by cases a <;> rfl

theorem criticalActionCode_of {v : Nat} (h : v ≤ 1) : criticalActionCode (criticalActionOf v) = v := by
  obtain rfl | rfl : v = 0 ∨ v = 1 := by omega
  all_goals rfl

theorem boolCode_beq_one (b : Bool) : (boolCode b == 1) = b := by cases b <;> rfl

theorem boolCode_of {v : Nat} (h : v ≤ 1) : boolCode (v == 1) = v := by
  obtain rfl | rfl : v = 0 ∨ v = 1 := by omega
  all_goals rfl

/-- A context is the one its own values make. -/
theorem contextOf_contextGet (c : Context) : contextOf (fun p => contextGet c p.1 p.2) = c := by
  simp [contextOf, contextGet, zoneGet, criticalActionOf_code, boolCode_beq_one]

/-- A value in its field's range fits in the field's width (R145, R193). -/
theorem fits_of_inFieldRange {n v : Nat} (h : inFieldRange n v = true) : v < 256 ^ fieldWidth n := by
  unfold inFieldRange fieldRange at h
  split at h
  case h_2 => cases h
  case h_1 lo hi range =>
    simp only [decide_eq_true_eq] at h
    split at range <;> cases range <;> simp only [fieldWidth] <;> omega

theorem le_one_of_inFieldRange {n v : Nat} (code : fieldRange n = some (0, 1)) (h : inFieldRange n v = true) :
    v ≤ 1 := by
  simp only [inFieldRange, code, decide_eq_true_eq] at h
  exact h.2

/-- A context made of values has each value that is in range (R145); fields from 10 on are listed with zone 0. -/
theorem contextGet_contextOf {f : Nat × Zone → Nat} {n : Nat} {z : Zone} (single : 9 < n → z = .pa)
    (range : inFieldRange n (f (n, z)) = true) : contextGet (contextOf f) n z = f (n, z) := by
  unfold contextGet
  split
  case h_1 | h_2 | h_3 | h_4 | h_5 | h_6 | h_7 | h_8 => cases z <;> rfl
  case h_9 =>
    have code := criticalActionCode_of (le_one_of_inFieldRange rfl range)
    cases z <;> exact code
  case h_29 =>
    obtain rfl := single (by decide)
    have slot : f (29, .pa) ≤ 5 := (of_decide_eq_true range).2
    exact Nat.mod_eq_of_lt (Nat.lt_succ_of_le slot)
  case h_16 | h_22 | h_24 | h_25 | h_26 | h_27 | h_28 =>
    obtain rfl := single (by decide)
    exact boolCode_of (le_one_of_inFieldRange rfl range)
  case h_30 =>
    have unknown : fieldRange n = none := by
      unfold fieldRange
      split <;> trivial
    simp [inFieldRange, unknown] at range
  all_goals
    obtain rfl := single (by decide)
    rfl

/-! ## The record and the way back -/

theorem contextLayout_nodup : contextLayout.Nodup := by decide

theorem single_of_mem_layout : ∀ p ∈ contextLayout, 9 < p.1 → p.2 = .pa := by decide

theorem contextBytes_eq (c : Context) :
    contextBytes c = valueBytes (fieldValues contextLayout fun p => contextGet c p.1 p.2) := by
  rw [valueBytes, fieldValues, List.flatMap_map]
  rfl

theorem contextBytes_length (c : Context) : (contextBytes c).length = 75 := by
  rw [contextBytes_eq, valueBytes, fieldValues, List.flatMap_map, List.length_flatMap]
  simp only [beBytes_length]
  rfl

theorem contextInRange_iff (c : Context) :
    contextInRange c = true ↔ ∀ p ∈ contextLayout, inFieldRange p.1 (contextGet c p.1 p.2) = true :=
  List.all_eq_true

theorem contextConsistent_iff (c : Context) :
    contextConsistent c = true ↔ contextInRange c = true ∧ contextFirstFault c = none := by
  rw [contextConsistent, Bool.and_eq_true, Option.isNone_iff_eq_none]

/-- A record's values are checked for range, put into a context, and that context checked (R162). -/
theorem contextOfBytes_eq (bytes : List Byte) :
    contextOfBytes bytes =
      if (recordValues contextLayout bytes).all (fun x => inFieldRange x.1.1 x.2) then
        let c := (recordValues contextLayout bytes).foldl (fun c x => contextPut c x.1.1 x.1.2 x.2) (safeContext 0)
        if (contextFirstFault c).isNone then some c else none
      else none := rfl

/-- Bytes whose values are those of `f` give the context of `f`, where it is in range and checked (R162). -/
theorem contextOfBytes_eq_some_iff {bytes : List Byte} {f : Nat × Zone → Nat}
    (values : recordValues contextLayout bytes = fieldValues contextLayout f) (c : Context) :
    contextOfBytes bytes = some c ↔
      (∀ p ∈ contextLayout, inFieldRange p.1 (f p) = true) ∧ contextFirstFault (contextOf f) = none ∧
        contextOf f = c := by
  have range : (fieldValues contextLayout f).all (fun x => inFieldRange x.1.1 x.2) = true ↔
      ∀ p ∈ contextLayout, inFieldRange p.1 (f p) = true := by
    rw [fieldValues, List.all_map]
    exact List.all_eq_true
  simp only [contextOfBytes_eq, values, contextPuts_eq, Option.ite_none_right_eq_some, range,
    Option.isNone_iff_eq_none, Option.some.injEq]

/-- The record of a consistent context loads as that context: each value fits in its field's width, so it is read back
as it was. -/
theorem contextOfBytes_contextBytes {c : Context} (h : contextConsistent c = true) :
    contextOfBytes (contextBytes c) = some c := by
  obtain ⟨range, checked⟩ := (contextConsistent_iff c).1 h
  rw [contextInRange_iff] at range
  have values := recordValues_valueBytes contextLayout (fun p => contextGet c p.1 p.2)
    fun p listed => fits_of_inFieldRange (range p listed)
  rw [contextBytes_eq, contextOfBytes_eq_some_iff values, contextOf_contextGet]
  exact ⟨range, checked, rfl⟩

/-- Bytes that load as a context are its record, and the context is consistent: its values are those read off the bytes,
whose bytes are the bytes themselves. -/
theorem contextBytes_of_contextOfBytes {bytes : List Byte} {c : Context} (length : bytes.length = 75)
    (h : contextOfBytes bytes = some c) : contextBytes c = bytes ∧ contextConsistent c = true := by
  obtain ⟨f, values⟩ := exists_fieldValues (recordValues contextLayout bytes)
    (by rw [recordValues_fields]; exact contextLayout_nodup)
  rw [recordValues_fields] at values
  obtain ⟨range, checked, rfl⟩ := (contextOfBytes_eq_some_iff values c).1 h
  have gets : ∀ p ∈ contextLayout, contextGet (contextOf f) p.1 p.2 = f p := fun p listed =>
    contextGet_contextOf (single_of_mem_layout p listed) (range p listed)
  have same : fieldValues contextLayout (fun p => contextGet (contextOf f) p.1 p.2) = fieldValues contextLayout f :=
    fieldValues_congr gets
  constructor
  · rw [contextBytes_eq, same, ← values]
    exact valueBytes_recordValues contextLayout bytes length
  · rw [contextConsistent_iff, contextInRange_iff]
    exact ⟨fun p listed => by rw [gets p listed]; exact range p listed, checked⟩

theorem contextRecordLoadsBack : Claims.ContextRecordLoadsBack :=
  ⟨fun c consistent => ⟨contextBytes_length c, contextOfBytes_contextBytes consistent⟩,
    fun _ _ length loaded => contextBytes_of_contextOfBytes length loaded⟩

end Sys2Proof.Machine
end

