-- ==== Sys2Proof/Proofs/ImageLoad.lean ====
section
/-!
PROOFS. The load of the Default Store image (R160 to R163, R195): the check words, the slots, the set of the slots that
took the safe context, and the other items of POWER_ON's load.
-/

namespace Sys2Proof.Machine

/-! ## Bytes of the image -/

theorem imagePart_two (image : Vector Byte imageSize) (i : Nat) (h : i + 1 < imageSize) :
    imagePart image.toList i 2 = [image[i], image[i + 1]] := by
  have first : i < image.toList.length := by rw [Vector.length_toList]; omega
  have second : i + 1 < image.toList.length := by rw [Vector.length_toList]; exact h
  rw [imagePart, List.drop_eq_getElem_cons first, List.drop_eq_getElem_cons second]
  simp

theorem imageByte_eq (image : Vector Byte imageSize) (i : Nat) (h : i < imageSize) :
    imageByte image.toList i = image[i] := by
  simp [imageByte, List.getD_eq_getElem?_getD, h]

/-- Two bytes spell the number of the 16-bit word they join to. -/
theorem fromBe_two (a b : Byte) : fromBe [a, b] = (a ++ b).toNat := by
  rw [BitVec.toNat_append, ← Nat.shiftLeft_add_eq_or_of_lt b.isLt, Nat.shiftLeft_eq]
  simp [fromBe]

theorem fromBe_two_eq_iff (a b c d : Byte) : fromBe [a, b] = fromBe [c, d] ↔ a = c ∧ b = d := by
  simp only [fromBe, List.foldl_cons, List.foldl_nil, ← BitVec.toNat_inj]
  omega

/-- The check words are right exactly where their four bytes are those of R160. -/
theorem imageChecks_iff (image : Vector Byte imageSize) :
    imageChecks image.toList = true ↔
      image[0] = 0x3C ∧ image[1] = 0x96 ∧ image[461] = 0xC3 ∧ image[462] = 0x69 := by
  have head : (0x3C96 : Nat) = fromBe [0x3C, 0x96] := rfl
  have tail : (0xC369 : Nat) = fromBe [0xC3, 0x69] := rfl
  rw [imageChecks, Bool.and_eq_true, beq_iff_eq, beq_iff_eq, imagePart_two image 0 (by decide),
    imagePart_two image 461 (by decide), head, tail, fromBe_two_eq_iff, fromBe_two_eq_iff, and_assoc]

/-! ## The slots (R161, R162) -/

theorem imageContext_length (image : Vector Byte imageSize) (k : Fin 6) :
    (imagePart image.toList (2 + 75 * k.val) 75).length = 75 := by
  rw [imagePart, List.length_take, List.length_drop, Vector.length_toList]
  have slot : k.val ≤ 5 := Nat.le_of_lt_succ k.isLt
  have size : imageSize = 463 := rfl
  omega

theorem loadedSlot_bad {image : List Byte} (bad : imageChecks image = false) (k : Fin 6) :
    loadedSlot image k = safeContext k := by
  rw [loadedSlot, bad]; rfl

theorem loadedSlot_some {image : List Byte} (good : imageChecks image = true) {k : Fin 6} {c : Context}
    (passes : imageContext image k = some c) : loadedSlot image k = c := by
  rw [loadedSlot, if_pos good, passes]; rfl

theorem loadedSlot_none {image : List Byte} {k : Fin 6} (fails : imageContext image k = none) :
    loadedSlot image k = safeContext k := by
  rw [loadedSlot, fails]; exact ite_self _

/-- Every slot of a load is consistent, whatever the image holds (R147, R162). -/
theorem loadedSlot_consistent (image : Vector Byte imageSize) (k : Fin 6) :
    contextConsistent (loadedSlot image.toList k) = true := by
  cases good : imageChecks image.toList with
  | false => rw [loadedSlot_bad good]; exact safeContext_consistent k
  | true =>
    cases loaded : imageContext image.toList k with
    | none => rw [loadedSlot_none loaded]; exact safeContext_consistent k
    | some c =>
      rw [loadedSlot_some good loaded]
      exact (contextBytes_of_contextOfBytes (imageContext_length image k) loaded).2

theorem slotBit (j k : Fin 6) : (1#6 <<< j.val).getLsbD k = decide (k = j) := by decide +revert

/-- Bits joined one after another: the bits of the start, and those of the numbers that were not passed over. -/
theorem foldl_or_bits (passed : Fin 6 → Bool) (ks : List (Fin 6)) (start : BitVec 6) (k : Fin 6) :
    (ks.foldl (fun acc j => if passed j then acc else acc ||| (1#6 <<< j.val)) start).getLsbD k =
      (start.getLsbD k || (decide (k ∈ ks) && !passed k)) := by
  induction ks generalizing start with
  | nil => simp
  | cons j rest ih =>
    have joined : (if passed j then start else start ||| (1#6 <<< j.val)).getLsbD k =
        (start.getLsbD k || (decide (k = j) && !passed k)) := by
      by_cases here : k = j
      · subst here
        cases passed k <;> simp [slotBit, -BitVec.getLsbD_shiftLeft, -BitVec.getLsbD_eq_getElem]
      · cases passed j <;> simp [slotBit, here, -BitVec.getLsbD_shiftLeft, -BitVec.getLsbD_eq_getElem]
    rw [List.foldl_cons, ih, joined, Bool.or_assoc, ← Bool.and_or_distrib_right]
    simp only [List.mem_cons, Bool.decide_or]

/-- Slot k stands in the set exactly where it took the safe context (R164). -/
theorem safeSlotSet_bit (image : List Byte) (k : Fin 6) :
    (safeSlotSet image).getLsbD k = !(imageChecks image && (imageContext image k).isSome) := by
  have listed : k ∈ ([0, 1, 2, 3, 4, 5] : List (Fin 6)) := by revert k; decide
  rw [safeSlotSet, foldl_or_bits (fun k => imageChecks image && (imageContext image k).isSome)]
  simp [listed]

theorem safeSlotSet_ne_zero_iff {image : List Byte} (good : imageChecks image = true) :
    safeSlotSet image ≠ 0 ↔ ∃ k, imageContext image k = none := by
  have bit (k : Fin 6) : (safeSlotSet image).getLsbD k = (imageContext image k).isNone := by
    rw [safeSlotSet_bit, good, Bool.true_and, Option.not_isSome]
  have clear (i : Nat) : (0 : BitVec 6).getLsbD i = false := BitVec.getLsbD_zero
  constructor
  · intro marked
    by_contra passes
    refine marked (BitVec.eq_of_getLsbD_eq fun i h => ?_)
    rw [bit ⟨i, h⟩, clear, Option.isNone_eq_false_iff, Option.isSome_iff_ne_none]
    exact fun fails => passes ⟨_, fails⟩
  · rintro ⟨k, fails⟩ zero
    have set := bit k
    rw [zero, fails, clear] at set
    cases set

/-! ## The items of the load -/

theorem loadImage_safeSlots (image : List Byte) : (loadImage image).safeSlots = safeSlotSet image := by
  simp only [loadImage]
  split <;> rfl

section good
variable {image : List Byte} (good : imageChecks image = true)
include good

theorem loadImage_offset (z : Zone) :
    zoneGet (loadImage image).offsets z = loadedOffset (imageByte image (452 + zoneCode z)) := by
  simp only [loadImage, if_pos good]
  cases z <;> rfl

theorem loadImage_presumption : (loadImage image).presumption = min 16 (imageByte image 456).toNat := by
  simp only [loadImage, if_pos good]
  split <;> omega

theorem loadImage_activeIndex :
    (loadImage image).activeIndex.val =
      if (imageByte image 457).toNat ≤ 5 then (imageByte image 457).toNat else 0 := by
  simp only [loadImage, if_pos good]
  split
  case isTrue h => exact Nat.mod_eq_of_lt (Nat.lt_succ_of_le h)
  case isFalse => rfl

theorem loadImage_clearMode :
    (loadImage image).clearMode = if imageByte image 460 = 0 then .onRead else .onAck := by
  have code : (imageByte image 460).toNat = 0 ↔ imageByte image 460 = 0 := BitVec.toNat_inj (y := 0)
  simp only [loadImage, if_pos good, code]

end good

/-- Something of an image with right check words was replaced (R162). -/
def itemReplaced (image : List Byte) : Prop :=
  (∃ k, imageContext image k = none) ∨ (∃ z, ¬ offsetLegal (imageByte image (452 + zoneCode z)) = true) ∨
    16 < (imageByte image 456).toNat ∨ 5 < (imageByte image 457).toNat ∨ 1 < (imageByte image 460).toNat

theorem imageOffsets_legal_iff (image : List Byte) :
    (zoneList (imageOffsets image)).all offsetLegal = true ↔
      ∀ z, offsetLegal (imageByte image (452 + zoneCode z)) = true := by
  have each : (zoneList (imageOffsets image)).all offsetLegal =
      zones.all fun z => offsetLegal (imageByte image (452 + zoneCode z)) := rfl
  rw [each, List.all_eq_true]
  exact ⟨fun h z => h z (by cases z <;> decide), fun h z _ => h z⟩

/-- The store status is PARTIAL where something was replaced, and GOOD otherwise (R162). -/
theorem loadImage_status {image : List Byte} (good : imageChecks image = true) :
    (itemReplaced image → (loadImage image).status = .isPartial) ∧
      (¬ itemReplaced image → (loadImage image).status = .good) := by
  have flag : (safeSlotSet image != 0 || !(zoneList (imageOffsets image)).all offsetLegal ||
      decide (16 < (imageByte image 456).toNat) || decide (5 < (imageByte image 457).toNat) ||
      decide (1 < (imageByte image 460).toNat)) = true ↔ itemReplaced image := by
    simp only [Bool.or_eq_true, bne_iff_ne, safeSlotSet_ne_zero_iff good, Bool.not_eq_true', ← Bool.not_eq_true,
      imageOffsets_legal_iff, decide_eq_true_eq, itemReplaced, not_forall, or_assoc]
  simp only [loadImage, if_pos good]
  exact ⟨fun h => if_pos (flag.2 h), fun h => if_neg (mt flag.1 h)⟩

theorem loadImage_mask {image : Vector Byte imageSize} (good : imageChecks image.toList = true) (i : Fin 15) :
    (loadImage image.toList).mask.getLsbD i =
      (imageByte image.toList 458 ++ imageByte image.toList 459).getLsbD i := by
  have word : fromBe (imagePart image.toList 458 2) =
      (imageByte image.toList 458 ++ imageByte image.toList 459).toNat := by
    rw [imagePart_two image 458 (by decide), fromBe_two, imageByte_eq image 458 (by decide),
      imageByte_eq image 459 (by decide)]
  simp only [loadImage, if_pos good, word]
  rw [BitVec.getLsbD_ofNat, decide_eq_true i.isLt, Bool.true_and, BitVec.testBit_toNat]

/-! ## POWER_ON -/

theorem exec_powerOn (t : Moment) (s : State) :
    exec (.powerOn t) s = .next (poweredOn (max s.now t) s.image s.pins.levels s.pending) := rfl

theorem poweredOn_slot (t : Moment) (image : Vector Byte imageSize) (lv : Levels) (pending : List Instr) (k : Fin 6) :
    (poweredOn t image lv pending).policy.slots[k] = loadedSlot image.toList k := by
  rw [← loadedSlots_get]
  simp only [← loadImage_slots]
  rfl

/-! ## A BAD image -/

theorem allOnes_source (i : Fin 15) : (BitVec.allOnes 15).getLsbD i = true := by decide +revert

theorem loadImage_bad {image : List Byte} (bad : imageChecks image = false) :
    loadImage image =
      { slots := loadedSlots image, safeSlots := safeSlotSet image, offsets := zoneAll 0, presumption := 16
        activeIndex := 0, mask := BitVec.allOnes 15, clearMode := .onAck, status := .bad } := by
  simp only [loadImage, bad, Bool.false_eq_true, if_false]

/-- Settles O4: no slot of a BAD image is read, at power-on or at RELOAD, and the other items are R161's constants. -/
theorem badImageGivesSafeContexts : Obligations.BadImageGivesSafeContexts := by
  intro s wrong
  have bad : imageChecks s.image.toList = false := by rwa [← imageChecks_iff, Bool.not_eq_true] at wrong
  constructor
  · intro t
    refine ⟨_, exec_powerOn t s, fun k => ?_, ?_⟩
    · rw [poweredOn_slot, loadedSlot_bad bad]
      exact ⟨rfl, rfl⟩
    · have items := loadImage_bad bad
      exact ⟨congrArg Loaded.offsets items, congrArg Loaded.presumption items, congrArg Loaded.activeIndex items,
        fun i => (congrArg (fun l => l.mask.getLsbD i) items).trans (allOnes_source i),
        congrArg Loaded.clearMode items, congrArg Loaded.status items⟩
  · intro up due pending
    refine ⟨_, switchApply_pending up due [] pending, fun k => ?_⟩
    have slots : (applySwitch .reload (switchBegun (takeLateWorks [] s))).policy.slots = loadedSlots s.image.toList :=
      congrArg PolicyStore.slots (applySwitch_policy _ _)
    rw [slots, loadedSlots_get, loadedSlot_bad bad]
    exact ⟨rfl, rfl⟩

/-! ## An image with right check words -/

theorem goodCheckWordsLoadEachContext : Claims.GoodCheckWordsLoadEachContext := by
  intro t s right
  have good := (imageChecks_iff s.image).2 right
  refine ⟨_, exec_powerOn t s, fun k c consistent record => ?_, fun k fails => ⟨?_, ?_⟩, fun k => ?_⟩
  · have passes : imageContext s.image.toList k = some c := by
      rw [imageContext, imagePart, record, contextOfBytes_contextBytes consistent]
    rw [poweredOn_slot, loadedSlot_some good passes]
  · rw [poweredOn_slot]
    exact loadedSlot_none fails
  · exact (loadImage_status good).1 (.inl ⟨k, fails⟩)
  · rw [poweredOn_slot]
    exact loadedSlot_consistent s.image k

theorem goodCheckWordsLoadTheOtherItems : Claims.GoodCheckWordsLoadTheOtherItems := by
  intro t s right byte context legalOffset replaced
  have good := (imageChecks_iff s.image).2 right
  have legal (z : Zone) : offsetLegal (byte (452 + zoneCode z)) = true ↔ legalOffset z := decide_eq_true_iff
  have same : itemReplaced s.image.toList ↔ replaced := by
    simp only [replaced, ← legal]; rfl
  obtain ⟨partly, whole⟩ := loadImage_status good
  rw [same] at partly whole
  refine ⟨_, exec_powerOn t s, fun z => ⟨fun h => ?_, fun h => ?_⟩, loadImage_presumption good,
    loadImage_activeIndex good, loadImage_mask good, loadImage_clearMode good, rfl, rfl, fun k => ?_, partly, whole,
    rfl, loadImage_slots _⟩
  · exact (loadImage_offset good z).trans (if_pos ((legal z).2 h))
  · exact (loadImage_offset good z).trans (if_neg (mt (legal z).1 h))
  · have bit := safeSlotSet_bit s.image.toList k
    rw [good, Bool.true_and, Option.not_isSome, ← loadImage_safeSlots] at bit
    exact bit

theorem safeContextValues : Claims.SafeContextValues := fun k =>
  ⟨⟨rfl, rfl, rfl, rfl, rfl, rfl, rfl, rfl, rfl⟩,
    ⟨rfl, rfl, rfl, rfl, rfl, rfl, rfl, rfl, rfl, rfl, rfl, rfl, rfl, rfl⟩, ⟨rfl, rfl, rfl, rfl, rfl, rfl⟩,
    safeContext_consistent k⟩

/-- Settles O5: the record is read back value by value, a load takes the slots and the other items each by its own rule,
and the safe context is a constant. -/
theorem imageContextsLoadBack : Obligations.ImageContextsLoadBack :=
  ⟨contextRecordLayout, contextRecordLoadsBack, goodCheckWordsLoadEachContext, goodCheckWordsLoadTheOtherItems,
    safeContextValues⟩

end Sys2Proof.Machine
end

