-- ==== Sys2Proof/Proofs/ContextChecks.lean ====
section
/-!
PROOFS. The consistency checks of a context (R146): the model's list of checks is the table's, entry by entry, and the
fault reported is the first entry that fails.
-/

namespace Sys2Proof.Machine

/-- A check as an entry of the table of R146: its condition, and the field and the zone it reports. -/
def tableEntry (k : ConsistencyCheck) : Prop × Nat × Option Zone := (k.holds = true, k.field, k.zone)

/-- A context has no fault exactly where every check holds (R146). -/
theorem contextFirstFault_none_iff (c : Context) :
    contextFirstFault c = none ↔ ∀ k ∈ contextChecks c, k.holds = true := by
  simp [contextFirstFault]

/-- The check reported is the first that fails (R146). -/
theorem contextFirstFault_of_split {c : Context} {before after : List ConsistencyCheck} {failing : ConsistencyCheck}
    (split : contextChecks c = before ++ failing :: after) (hold : ∀ k ∈ before, k.holds = true)
    (fails : ¬ failing.holds = true) : contextFirstFault c = some failing := by
  have passed : before.find? (fun k => !k.holds) = none := by simpa using hold
  have here : (!failing.holds) = true := by simpa using fails
  rw [contextFirstFault, split, List.find?_append, passed, Option.none_or]
  exact List.find?_cons_of_pos here

/-- Settles O32: the table's entries are those of the model's checks, so a split of the one list splits the other. -/
theorem contextChecksInOrder : Obligations.ContextChecksInOrder := by
  intro c warm hot crit hyst perZone checks
  have band (z : Zone) : ((hyst z : Int) < (hot z : Int) - warm z ∧ (hyst z : Int) < (crit z : Int) - hot z) =
      (hyst z + warm z < hot z ∧ hyst z + hot z < crit z) := by
    apply propext
    omega
  have table : checks = (contextChecks c).map tableEntry := by
    simp only [checks, band]
    simp [perZone, contextChecks, zoneChecks, zones, tableEntry, warm, hot, crit, hyst]
  rw [table, contextFirstFault_none_iff]
  refine ⟨(List.forall_mem_map (f := tableEntry) (P := Prod.fst)).symm, ?_⟩
  intro before failing after split hold fails
  obtain ⟨first, rest, checked, rfl, others⟩ := List.map_eq_append_iff.1 split
  obtain ⟨k, last, rfl, rfl, rfl⟩ := List.map_eq_cons_iff.1 others
  exact ⟨k, contextFirstFault_of_split checked (List.forall_mem_map.1 hold) fails, rfl, rfl⟩

end Sys2Proof.Machine
end

