-- ==== Sys2Proof/Proofs/SwitchRequests.lean ====
section
/-!
PROOFS. EXCHANGE and RELOAD (R151, R152): the checks of a switch in their order, for both requests, and the switch they
leave pending.
-/

namespace Sys2Proof.Machine

/-! ## A switch requested -/

theorem stagingExists_iff (s : State) : stagingExists s = true ↔ s.carriers.staging ≠ .closed := by
  unfold stagingExists
  split <;> simp_all

theorem requestSwitch_staging {s : State} (busy : s.carriers.staging ≠ .closed) (w : Switch) :
    requestSwitch w s = (s, refuse .stagingBusy []) := if_pos ((stagingExists_iff s).2 busy)

theorem requestSwitch_closed {s : State} (idle : ¬ s.carriers.staging ≠ .closed) (w : Switch) :
    requestSwitch w s =
      if s.policy.pendingSwitch.isSome then (s, refuse .switchPending [])
      else (s.setPolicy { s.policy with pendingSwitch := some w }, done []) := if_neg (mt (stagingExists_iff s).1 idle)

theorem requestSwitch_pending {s : State} (idle : ¬ s.carriers.staging ≠ .closed) (pending : s.policy.pendingSwitch ≠ none)
    (w : Switch) : requestSwitch w s = (s, refuse .switchPending []) := by
  rw [requestSwitch_closed idle, if_pos (Option.isSome_iff_ne_none.2 pending)]

theorem requestSwitch_accepted {s : State} (idle : ¬ s.carriers.staging ≠ .closed) (free : s.policy.pendingSwitch = none)
    (w : Switch) :
    requestSwitch w s = ({ s with policy := { s.policy with pendingSwitch := some w } }, done []) := by
  rw [requestSwitch_closed idle, free]
  rfl

theorem takeExchange_slot {k : Byte} (legal : k.toNat ≤ 5) (s : State) :
    takeExchange k s = requestSwitch (.exchange ⟨k.toNat, Nat.lt_succ_of_le legal⟩) s :=
  dif_pos (Nat.lt_succ_of_le legal)

theorem takeExchange_beyond {k : Byte} (beyond : 5 < k.toNat) (s : State) :
    takeExchange k s = (s, refuse .badField [0]) := by
  rw [takeExchange, dif_neg (Nat.not_lt.2 beyond), badField_eq]
  rfl

/-! ## The rows -/

/-- A request row without a moment, taken at once, whose owner's answer is known (R182). -/
theorem request_answered {s : State} (ready : requestReady s) (tag : Byte) {req : Request}
    (length : lengthAccepted req = true) {r : Reply} {v : State} (taken : ownRequest req (settle s) = (v, r)) :
    whileUp (arriveRequest tag req) s = .next (replied tag req r v) := by
  rw [request_ready ready tag req length, taken]

theorem exchange_row {s : State} (ready : requestReady s) (tag k : Byte) {r : Reply} {v : State}
    (taken : takeExchange k (settle s) = (v, r)) :
    exec (.exchange tag k) s = .next (replied tag (.exchange k) r v) :=
  request_answered ready tag (req := .exchange k) rfl taken

theorem reload_row {s : State} (ready : requestReady s) (tag : Byte) {r : Reply} {v : State}
    (taken : requestSwitch .reload (settle s) = (v, r)) :
    exec (.reload tag) s = .next (replied tag .reload r v) :=
  request_answered ready tag (req := .reload) rfl taken

/-- Settles O34: a slot beyond 5 is refused first, and a switch to a legal one passes the checks that RELOAD passes. -/
theorem switchRequestsBecomePending : Obligations.SwitchRequestsBecomePending := by
  intro tag k s ready u answer answer' busy
  have exchanged {r : Reply} {v : State} (taken : ∀ w, requestSwitch w u = (v, r)) (legal : k.toNat ≤ 5) : answer r v :=
    exchange_row ready tag k ((takeExchange_slot legal u).trans (taken _))
  have reloaded {r : Reply} {v : State} (taken : ∀ w, requestSwitch w u = (v, r)) : answer' r v :=
    reload_row ready tag (taken .reload)
  refine ⟨fun beyond => exchange_row ready tag k (takeExchange_beyond beyond u), fun staging => ?_,
    fun idle pending => ?_, fun idle free => ⟨fun i slot => ?_, ?_⟩⟩
  · exact ⟨exchanged (requestSwitch_staging staging), reloaded (requestSwitch_staging staging)⟩
  · exact ⟨exchanged (requestSwitch_pending idle pending), reloaded (requestSwitch_pending idle pending)⟩
  · have legal : k.toNat ≤ 5 := slot ▸ Nat.le_of_lt_succ i.isLt
    obtain rfl : i = ⟨k.toNat, Nat.lt_succ_of_le legal⟩ := Fin.ext slot
    exact exchange_row ready tag k ((takeExchange_slot legal u).trans (requestSwitch_accepted idle free _))
  · exact reload_row ready tag (requestSwitch_accepted idle free _)

end Sys2Proof.Machine
end

