-- ==== Sys2Proof/Proofs/ResetPin.lean ====
section
/-!
PROOFS. RST_N held low (R165, R178, R185): what its assertion writes, and the rows that it leaves without effect.
-/

namespace Sys2Proof.Machine

/-- While RST_N is low every row but POWER_ON and RST_N_ASSERTED is without effect (R185; assumption 11). -/
theorem exec_low {c : Instr} {s : State} (low : s.pins.rstN = false) (notPowerOn : ∀ t, c ≠ .powerOn t)
    (notAsserted : ∀ t, c ≠ .rstNAsserted t) : exec c s = .next s := by
  cases c with
  | powerOn t => exact absurd rfl (notPowerOn t)
  | rstNAsserted t => exact absurd rfl (notAsserted t)
  | align t tag f => exact whileUp_low (f := fun s => arriveRequest tag (.align f) (advanceTo t s)) low
  | resetPart t tag => exact whileUp_low (f := fun s => arriveRequest tag .resetPart (advanceTo t s)) low
  | _ => exact whileUp_low low

/-- Settles O6: what an assertion writes, field by field, and the rows that ask for RST_N first. -/
theorem rstNLowSilencesThePart : Obligations.RstNLowSilencesThePart :=
  ⟨fun t s => ⟨enterReset t s, rfl, rfl, rfl, rfl, rfl, rfl, rfl, enterReset_frame t s⟩,
    fun _ _ low notPowerOn notAsserted => exec_low low notPowerOn notAsserted⟩

end Sys2Proof.Machine
end

