-- ==== Sys2Proof/Proofs/Places.lean ====
section
/-!
PROOFS. The bytes of a place (R188, R194): the pending set bit by bit, and the fields of each change.
-/

namespace Sys2Proof.Machine

/-! ## The pending set -/

theorem bitSet_cons (b : Bool) (bits : List Bool) : bitSet (b :: bits) = Nat.bit b (bitSet bits) := by
  cases b <;> simp [bitSet, Nat.bit, Nat.add_comm]

/-- A bit set has the bit of each item of its list. -/
theorem bitSet_testBit (bits : List Bool) (i : Nat) (h : i < bits.length) : (bitSet bits).testBit i = bits[i] := by
  induction bits generalizing i with
  | nil => cases h
  | cons b bits ih =>
    rw [bitSet_cons]
    cases i with
    | zero => exact Nat.testBit_bit_zero b _
    | succ i => exact (Nat.testBit_bit_succ i b _).trans (ih i (Nat.lt_of_succ_lt_succ h))

theorem pendingSet_get (places : Vector (Option Change) 15) (i : Fin 15) :
    (pendingSet places).getLsbD i = places[i].isSome := by
  rw [pendingSet, BitVec.getLsbD_ofNat, bitSet_testBit _ i.val (by simp)]
  simp

/-! ## The fields of a change -/

theorem byte4_nat (n : Nat) : byte4 n = fourBytes n := beBytes_eq_bigEndian 4 _

theorem byte4_bigEndian (w : Word32) : byte4 w.toNat = bigEndian 4 w.toNat :=
  (byte4_word w).trans (beBytes_eq_bigEndian 4 _)

theorem coded_word (code : Nat) (w : Word32) : byte1 code ++ byte4 w.toNat = oneByte code :: bigEndian 4 w.toNat := by
  rw [byte1_eq, byte4_bigEndian]; rfl

theorem coded_count (code n : Nat) : byte1 code ++ byte4 n = oneByte code :: fourBytes n := by
  rw [byte1_eq, byte4_nat]; rfl

theorem temperatureBytes_eq (t : Option Nat) : temperatureBytes t = bigEndian 2 (t.getD 0) :=
  beBytes_eq_bigEndian 2 _

theorem placeBytes_some (c : Change) :
    placeBytes (some c) = changeFields c ++ List.replicate (8 - (changeFields c).length) 0 := rfl

theorem byte1_length (v : Nat) : (byte1 v).length = 1 := beBytes_length 1 v

theorem byte4_length (v : Nat) : (byte4 v).length = 4 := beBytes_length 4 _

/-- The fields of a change fit in a place (R194). -/
theorem changeFields_fit (c : Change) : (changeFields c).length ≤ 8 := by
  cases c with
  | switchCancelled w => cases w <;> simp [changeFields, byte1_length, byte4_length]
  | zone z st t => simp [changeFields, byte1_length, temperatureBytes, byte2, beBytes_length]
  | _ => simp [changeFields, exitRecordBytes, byte1_length, byte4_length]

/-- The cause set in one byte: bit 0 ZONE_CRIT, bit 1 EXPOSURE (R188). -/
theorem causesCode_byte (c : Causes) :
    byte1 (causesCode c) = [(if c.zoneCrit then 1 else 0) ||| (if c.exposure then 2 else 0)] := by
  obtain ⟨zone, exposure⟩ := c
  cases zone <;> cases exposure <;> rfl

theorem placeLayouts : Claims.PlaceLayouts := by
  unfold Claims.PlaceLayouts
  intro padded place
  have laid {c : Change} {bytes : List Byte} (h : changeFields c = bytes) : place c bytes := h ▸ placeBytes_some c
  refine ⟨rfl, fun c => ?_, fun z st t => laid ?_, fun a b f => laid ?_, fun f => ?_, fun i f => ?_, fun k => laid ?_,
    laid ?_, fun r => laid rfl, fun l c f => laid ?_, fun p => ?_, fun n => ?_, fun st k => laid ?_, pendingSet_get⟩
  · rw [placeBytes_some, List.length_append, List.length_replicate, Nat.add_sub_cancel' (changeFields_fit c)]
  · rw [changeFields, byte1_eq, temperatureBytes_eq]
    cases t <;> rfl
  · rw [changeFields, byte1_eq, byte1_eq, byte4_bigEndian]; rfl
  · exact ⟨laid (coded_word 0 f), laid (coded_word 1 f), laid (coded_word 2 f), laid (coded_word 3 f),
      laid (coded_word 4 f), laid (coded_word 5 f), laid (coded_word 0 f), laid (coded_word 1 f)⟩
  · constructor
    all_goals exact laid (by rw [changeFields, byte1_eq i.val, byte4_bigEndian]; rfl)
  · rw [changeFields, byte1_eq k.val]; rfl
  · rfl
  · rw [changeFields, causesCode_byte, byte4_bigEndian]; rfl
  · exact ⟨laid (coded_word 0 p), laid (coded_word 1 p), laid (byte4_bigEndian p)⟩
  · exact ⟨laid (coded_count 0 n), laid (coded_count 1 n), laid (coded_count 0 n), laid (coded_count 1 n)⟩
  · rw [changeFields, byte1_eq, byte1_eq]; rfl

end Sys2Proof.Machine
end

