-- ==== Sys2Proof/Proofs/Reporter.lean ====
section
/-!
PROOFS. The Change Reporter's own operations: a change raised (R170, R172), and CHANGES_READ, CHANGES_ACK and
CHANGES_MASK (R173 to R175), which all clear places.
-/

namespace Sys2Proof.Machine

/-! ## A change raised -/

theorem reported_enabled {c : Change} {r : ChangeReporter} (h : r.mask.getLsbD (changeSource c) = true) :
    reported c r = { r with places := r.places.set (changeSource c) (some c), alert := true } := if_pos h

theorem raisedChangeIsKept : Claims.RaisedChangeIsKept := by
  intro c s
  refine ⟨fun enabled => ⟨raiseChange c s, rfl, ?_⟩, fun disabled => ?_⟩
  · have raisedInto := (raiseChange_changes c s).trans (reported_enabled enabled)
    rw [raisedInto]
    refine ⟨by simp, fun i other => ?_, rfl, rfl, rfl, raiseChange_frame c s⟩
    exact Vector.getElem_set_ne (changeSource c).isLt i.isLt fun same => other (Fin.ext same.symm)
  · rw [raiseChange_eq, raised, reported_disabled disabled]

theorem changesHaveTheirSources : Claims.ChangesHaveTheirSources := by
  refine ⟨fun z st t => ?_, fun _ _ _ => rfl, fun _ _ => rfl, fun _ => ⟨rfl, rfl⟩, fun _ _ _ => rfl, fun _ => rfl,
    fun _ => rfl, fun _ _ _ => rfl, fun _ => ⟨rfl, rfl⟩, fun _ _ => ⟨rfl, rfl⟩, fun _ => rfl, fun _ _ => rfl⟩
  cases z <;> rfl

/-- Settles O36, from the place a change takes and the numbers of the sources. -/
theorem raisedChangeTakesItsPlace : Obligations.RaisedChangeTakesItsPlace :=
  ⟨raisedChangeIsKept, changesHaveTheirSources⟩

/-! ## CHANGES_READ, CHANGES_ACK and CHANGES_MASK -/

/-- `s` with the places outside `keep` cleared, ALERT_N following them, and a mask and a mode (R173 to R175): what each
of the three requests makes of the reporter. -/
def cleared (keep mask : BitVec 15) (mode : ClearMode) (s : State) : State :=
  s.setChanges (withPlaces { s.changes with mask := mask, clearMode := mode } (keepPlaces keep s.changes.places))

section cleared
variable (keep mask : BitVec 15) (mode : ClearMode) (s : State)

theorem cleared_frame : onlyChanges [.changes] s (cleared keep mask mode s) := by simp [onlyChanges_iff, cleared]

theorem cleared_places (i : Fin 15) :
    (cleared keep mask mode s).changes.places[i] = if keep.getLsbD i then s.changes.places[i] else none :=
  keepPlaces_get keep s.changes.places i

theorem cleared_alert : (cleared keep mask mode s).changes.alert = true ↔
    ∃ i : Fin 15, (cleared keep mask mode s).changes.places[i].isSome = true := by
  simp only [cleared, setChanges_changes, withPlaces, anyPending_iff]

theorem cleared_mask : (cleared keep mask mode s).changes.mask = mask := rfl

theorem cleared_clearMode : (cleared keep mask mode s).changes.clearMode = mode := rfl

theorem cleared_all_places (i : Fin 15) : (cleared 0 mask mode s).changes.places[i] = none :=
  keepPlaces_none s.changes.places i

theorem cleared_all_alert : (cleared 0 mask mode s).changes.alert = false := by
  simp only [cleared, setChanges_changes, withPlaces, anyPending_keepNone]

end cleared

theorem changesBytes_eq (r : ChangeReporter) :
    changesBytes r = byte2 r.mask.toNat ++ [if r.clearMode = .onRead then 0 else 1] ++
      byte2 (pendingSet r.places).toNat ++ r.places.toList.flatMap placeBytes := by
  rw [changesBytes]
  cases r.clearMode <;> rfl

theorem takeChangesRead_onAck {s : State} (h : s.changes.clearMode = .onAck) :
    takeChangesRead s = (s, done (changesBytes s.changes)) := by
  simp only [takeChangesRead, h]

theorem takeChangesRead_onRead {s : State} (h : s.changes.clearMode = .onRead) :
    takeChangesRead s = (cleared 0 s.changes.mask s.changes.clearMode s, done (changesBytes s.changes)) := by
  unfold takeChangesRead
  split
  · rfl
  · next onAck => exact nomatch h.symm.trans onAck

theorem changesReadReturnsAndClears : Claims.ChangesReadReturnsAndClears := by
  intro tag s ready u reply
  have answered {v : State} (taken : takeChangesRead u = (v, done (changesBytes u.changes))) :
      exec (.changesRead tag) s = .next (replied tag .changesRead reply v) :=
    request_answered ready tag (req := .changesRead) rfl (taken.trans (by rw [changesBytes_eq]))
  refine ⟨fun onAck => answered (takeChangesRead_onAck onAck), fun onRead => ⟨_,
    answered (takeChangesRead_onRead onRead), cleared_all_places _ _ _, cleared_all_alert _ _ _, cleared_mask _ _ _ _,
    (cleared_clearMode _ _ _ _).trans onRead, cleared_frame _ _ _ _⟩⟩

theorem takeChangesAck_eq (sources : Word16) (s : State) :
    takeChangesAck sources s =
      (cleared (~~~ sources.setWidth 15) s.changes.mask s.changes.clearMode s, done []) := rfl

/-- The sources that CHANGES_ACK does not name (R174). -/
theorem unnamed_get (sources : Word16) (i : Fin 15) :
    (~~~ sources.setWidth 15).getLsbD i = !sources.getLsbD i := by
  simp

theorem changesAckClearsNamedPlaces : Claims.ChangesAckClearsNamedPlaces := by
  intro tag sources s ready u
  refine ⟨_, request_answered ready tag (req := .changesAck sources) rfl (takeChangesAck_eq sources u), fun i => ?_,
    cleared_alert _ _ _ _, cleared_mask _ _ _ _, cleared_clearMode _ _ _ _, cleared_frame _ _ _ _⟩
  rw [cleared_places, unnamed_get]
  cases sources.getLsbD i <;> rfl

theorem clearModeOfByte_legal {mode : Byte} (h : mode.toNat ≤ 1) :
    clearModeOfByte mode = some (if mode = 0 then .onRead else .onAck) := by
  unfold clearModeOfByte
  split
  · rfl
  · next notRead => rw [if_pos (by bv_omega)]

theorem clearModeOfByte_other {mode : Byte} (h : 1 < mode.toNat) : clearModeOfByte mode = none := by
  rw [clearModeOfByte, if_neg (by rintro rfl; exact absurd h (by decide)),
    if_neg (by rintro rfl; exact absurd h (by decide))]

theorem takeChangesMask_legal (mask : Word16) {mode : Byte} (h : mode.toNat ≤ 1) (s : State) :
    takeChangesMask mask mode s =
      (cleared (mask.setWidth 15) (mask.setWidth 15) (if mode = 0 then .onRead else .onAck) s, done []) := by
  simp only [takeChangesMask, clearModeOfByte_legal h, cleared]

theorem takeChangesMask_refused (mask : Word16) {mode : Byte} (h : 1 < mode.toNat) (s : State) :
    takeChangesMask mask mode s = (s, refuse .badField [0]) := by
  simp only [takeChangesMask, clearModeOfByte_other h, badField_eq]
  rfl

/-- The mask's low 15 bits are the sources (R175). -/
theorem enabled_get (mask : Word16) (i : Fin 15) : (mask.setWidth 15).getLsbD i = mask.getLsbD i := by simp

theorem changesMaskReplacesMaskAndMode : Claims.ChangesMaskReplacesMaskAndMode := by
  intro tag mask mode s ready u
  have answered {v : State} {r : Reply} (taken : takeChangesMask mask mode u = (v, r)) :
      exec (.changesMask tag mask mode) s = .next (replied tag (.changesMask mask mode) r v) :=
    request_answered ready tag (req := .changesMask mask mode) rfl taken
  refine ⟨fun legal => ⟨_, answered (takeChangesMask_legal mask legal u), fun i => ?_, cleared_clearMode _ _ _ _,
    fun i => ?_, cleared_alert _ _ _ _, cleared_frame _ _ _ _⟩, fun other =>
      answered (takeChangesMask_refused mask other u)⟩
  · rw [cleared_mask, enabled_get]
  · rw [cleared_places, enabled_get]

/-- Settles O37, from the claims of the three requests and of the bytes of a place. -/
theorem changesAreReadAcknowledgedAndMasked : Obligations.ChangesAreReadAcknowledgedAndMasked :=
  ⟨changesReadReturnsAndClears, placeLayouts, changesAckClearsNamedPlaces, changesMaskReplacesMaskAndMode⟩

end Sys2Proof.Machine
end

