-- ==== Sys2Proof/Proofs/ChangeSet.lean ====
section
/-!
PROOFS. The Change Set and ALERT_N as an invariant (R170, R172 to R175). The reporter changes in three ways alone: a
change raised joins it, the CHANGES requests clear places of it, and a reset makes it afresh; each leaves ALERT_N in
agreement with the places. `ChangesFollow` says it of one operation, and every row is made of such operations.
-/

namespace Sys2Proof.Machine

/-- From `s` to `t` the Change Reporter keeps its places, its mask and ALERT_N in agreement. -/
def ChangesFollow (s t : State) : Prop := changesKept s.changes → changesKept t.changes

namespace ChangesFollow

theorem refl (s : State) : ChangesFollow s s := id

theorem trans {s t u : State} (h : ChangesFollow s t) (k : ChangesFollow t u) : ChangesFollow s u := k ∘ h

theorem of_same {s t : State} (h : t.changes = s.changes) : ChangesFollow s t := fun kept => by rwa [h]

/-- An operation that leaves the Change Reporter alone. -/
theorem of_frame {bs : List Block} {s t : State} (h : onlyChanges bs s t) (apart : .changes ∉ bs := by decide) :
    ChangesFollow s t := of_same (frame_changes h apart)

theorem foldl {α : Type} {f : State → α → State} (hf : ∀ s x, ChangesFollow s (f s x)) (xs : List α) (s : State) :
    ChangesFollow s (xs.foldl f s) := by
  induction xs generalizing s with
  | nil => exact refl s
  | cons x xs ih => exact (hf s x).trans (ih _)

/-- A change raised after an operation (R172). -/
theorem raise {s t : State} (h : ChangesFollow s t) (c : Change) : ChangesFollow s (raiseChange c t) :=
  h.trans (raiseChange_kept c t)

theorem raise_same {s t : State} {c : Change} (h : t.changes = s.changes) : ChangesFollow s (raiseChange c t) :=
  (of_same h).raise c

theorem of_same_then {s t u : State} (k : ChangesFollow t u) (h : t.changes = s.changes) : ChangesFollow s u :=
  (of_same h).trans k

end ChangesFollow

/-! ## The reporter afresh (R171) -/

theorem freshChanges_kept (l : LoadedDefaults) : changesKept (freshChanges l) := by
  refine ⟨anyPending_empty.symm, fun i c pending => ?_⟩
  simp [freshChanges] at pending

/-! ## Single operations -/

theorem recomputeInhibit_changesFollow (s : State) : ChangesFollow s (recomputeInhibit s) := by
  unfold recomputeInhibit
  split
  · exact .refl s
  · exact .raise_same rfl

theorem noticeIfSent_changesFollow (n : Notice) (s : State) : ChangesFollow s (noticeIfSent n s) := by
  unfold noticeIfSent
  split
  · exact ChangesFollow.of_same_then (recomputeInhibit_changesFollow _) rfl
  · exact .refl s

theorem drainNotices_changesFollow (s : State) : ChangesFollow s (drainNotices s) := by
  unfold drainNotices
  split
  · exact .refl s
  · exact ChangesFollow.of_same_then (recomputeInhibit_changesFollow _) rfl

/-- The halves at a close: an overrun where the half entered is still held, then the half completed (R141, R142). -/
theorem halvesAt_changesFollow (p : Fin 128) (closed opening : Nat) (s : State) :
    ChangesFollow s (halvesAt p closed opening s) := fun kept => by
  have overrun (held : Bool) (c : Change) : changesKept (if held then reported c s.changes else s.changes) := by
    split
    · exact reported_kept c _ kept
    · exact kept
  rw [halvesAt_changes]
  split
  · exact reported_kept _ _ (overrun _ _)
  · split
    · exact reported_kept _ _ (overrun _ _)
    · exact kept

theorem closeInterval_changesFollow (s : State) : ChangesFollow s (closeInterval s) :=
  ((halvesAt_changesFollow _ _ _ s).trans (.of_frame (turnInterval_frame _))).trans
    (.of_frame (recomputeExposure_frame _))

theorem noteOvershoot_changesFollow (b : Bool) (p : Word32) (s : State) : ChangesFollow s (noteOvershoot b p s) := by
  unfold noteOvershoot
  split
  · exact raiseChange_kept _ s
  · exact .refl s

theorem captureTrace_changesFollow (frame : Word32) (slot : Byte) (p : Snapshot) (s : State) :
    ChangesFollow s (captureTrace frame slot p s) := by
  unfold captureTrace
  split
  · exact .raise_same rfl
  · exact .refl s

theorem missTrace_changesFollow (s : State) : ChangesFollow s (missTrace s) := by
  unfold missTrace
  split
  · exact .refl s
  · exact .raise_same rfl

theorem timingBreak_changesFollow (s : State) : ChangesFollow s (timingBreak s) :=
  (ChangesFollow.of_frame (massClose_frame s)).trans (missTrace_changesFollow _)

/-! ### The parts of a frame event -/

theorem readSupply_changesFollow (s : State) : ChangesFollow s (readSupply s) := by
  simp only [readSupply]
  split
  · exact .of_same rfl
  · exact .raise_same rfl

theorem doWork_changesFollow (w : FrameWork) (s : State) : ChangesFollow s (doWork w s) := by
  cases w with
  | expiry => exact .of_frame (expiryCheck_frame s)
  | intervalCount => exact .of_frame (countInterval_frame s)
  | sampleCounter => exact .of_frame (stepSampleCounter_frame s)
  | dutyStep => exact .of_frame (dutyStep_frame s)
  | supply => exact readSupply_changesFollow s
  | traceMiss =>
    change ChangesFollow s (traceMissCheck s)
    unfold traceMissCheck
    split
    · exact .refl s
    · split
      · exact missTrace_changesFollow s
      · exact .refl s

theorem takeLateWork_changesFollow (s : State) (w : FrameWork) : ChangesFollow s (takeLateWork s w) := by
  unfold takeLateWork
  split
  · exact ChangesFollow.of_same_then (doWork_changesFollow w _) rfl
  · exact .refl s

theorem takeLateWorks_changesFollow (ws : List FrameWork) (s : State) : ChangesFollow s (takeLateWorks ws s) :=
  .foldl takeLateWork_changesFollow ws s

theorem frameEvent_changesFollow (lv : Levels) (late : List FrameWork) (s : State) :
    ChangesFollow s (frameEvent lv late s) :=
  ChangesFollow.of_same_then (takeLateWorks_changesFollow _ _) rfl

/-! ### Samples -/

/-- A zone that changes its state raises its change; one that does not leaves the reporter (R41, R42). -/
theorem updateZone_changesFollow (c : Context) (ts : PerZone Raw) (s : State) (z : Zone) :
    ChangesFollow s (updateZone c ts s z) := fun kept => by
  rw [updateZone_changes]
  split
  · exact kept
  · exact reported_kept _ _ kept

theorem takeSample_changesFollow (ts : PerZone Raw) (s : State) : ChangesFollow s (takeSample ts s) := by
  rw [takeSample_eq]
  have begun : ChangesFollow s (sampleBegun ts s) := .of_same rfl
  exact (begun.trans (.foldl (updateZone_changesFollow _ ts) zones _)).trans (.of_frame (startStopDuty_frame _ _))

/-! ### Working copies replaced, and fault events -/

theorem applySet_changesFollow (set : StagingSet) (s : State) : ChangesFollow s (applySet set s) := by
  have placed : ChangesFollow s
      (s.setCarriers { entries := set.entries, slotsPerFrame := set.slotsPerFrame, staging := .closed }) := .of_same rfl
  have replaced := placed.trans (.of_frame (replaceWorkingCopy_frame set.workingCopy _))
  exact (replaced.trans (.of_frame (massCloseOnChange_frame s.carriers.slotsPerFrame _))).raise _

theorem applySwitch_changesFollow (w : Switch) (s : State) : ChangesFollow s (applySwitch w s) := by
  have taken : ChangesFollow s (s.setPolicy { s.policy with pendingSwitch := none }) := .of_same rfl
  exact (taken.trans (.of_frame (performSwitch_frame w _))).raise _

theorem cancelSwitch_changesFollow (s : State) : ChangesFollow s (cancelSwitch s) := by
  unfold cancelSwitch
  split
  · exact .refl s
  · exact .raise_same rfl

theorem dropStagingOnExit_changesFollow (s : State) : ChangesFollow s (dropStagingOnExit s) := by
  unfold dropStagingOnExit
  split
  · exact .refl s
  all_goals exact .raise_same rfl

theorem writeExit_changesFollow (r : ExitRecord) (s : State) : ChangesFollow s (writeExit r s) :=
  .raise_same rfl

theorem fallbackExit_changesFollow (c : FaultClass) (f : Fin 6) (s : State) :
    ChangesFollow s (fallbackExit c f s) := by
  have saved : ChangesFollow s (saveWorkingCopy s) := .of_same rfl
  have loaded := saved.trans (.of_frame (loadSlot_frame f _))
  have left := (loaded.trans (cancelSwitch_changesFollow _)).trans (dropStagingOnExit_changesFollow _)
  exact left.trans (.of_same_then (writeExit_changesFollow _ _) rfl)

theorem takeFault_changesFollow (c : FaultClass) (s : State) : ChangesFollow s (takeFault c s) := by
  obtain ignored | merged | absorbed | ⟨-, left⟩ := takeFault_cases c s
  · rw [ignored]; exact .refl s
  · rw [merged, mergeExit]
    split
    · exact .refl s
    · exact writeExit_changesFollow _ s
  · rw [absorbed]; exact writeExit_changesFollow _ s
  · rw [left]; exact fallbackExit_changesFollow c _ s

theorem faultIfRaised_changesFollow (c : FaultClass) (first : List FrameWork) (s : State) :
    ChangesFollow s (faultIfRaised c first s) := by
  unfold faultIfRaised
  split
  · exact (takeLateWorks_changesFollow first s).trans (.of_same_then (takeFault_changesFollow c _) rfl)
  · exact .refl s

theorem drainFaults_changesFollow (n : Nat) (s : State) : ChangesFollow s (drainFaults n s) := by
  induction n generalizing s with
  | zero => exact .refl s
  | succ n ih =>
    unfold drainFaults
    split
    · exact .refl s
    · exact ChangesFollow.of_same_then ((takeFault_changesFollow _ _).trans (ih _)) rfl

/-! ## The work due after a frame event -/

theorem sampleIfDue_changesFollow (ts : PerZone Raw) (s : State) : ChangesFollow s (sampleIfDue ts s) := by
  unfold sampleIfDue
  split
  · exact (takeLateWork_changesFollow s _).trans (takeSample_changesFollow ts _)
  · exact .refl s

theorem closeIfDue_changesFollow (s : State) : ChangesFollow s (closeIfDue s) := by
  unfold closeIfDue
  split
  · exact (takeLateWork_changesFollow s _).trans (closeInterval_changesFollow _)
  · exact .refl s

theorem applyIfDue_changesFollow (first : List FrameWork) (s : State) : ChangesFollow s (applyIfDue first s) := by
  simp only [applyIfDue, applyCommitted]
  split
  · refine (takeLateWorks_changesFollow first s).trans ?_
    split
    · exact .of_same rfl
    · exact .of_same rfl
    · exact ChangesFollow.of_same_then (applySet_changesFollow _ _) rfl
  · exact .refl s

theorem switchIfDue_changesFollow (first : List FrameWork) (s : State) : ChangesFollow s (switchIfDue first s) := by
  simp only [switchIfDue, applyPendingSwitch]
  split
  · refine ((takeLateWorks_changesFollow first s).trans (.of_frame (clearHoldIfDue_frame _))).trans ?_
    split
    · exact .of_same rfl
    · exact ChangesFollow.of_same_then (applySwitch_changesFollow _ _) rfl
  · exact .refl s

theorem alignTimeoutIfDue_changesFollow (s : State) : ChangesFollow s (alignTimeoutIfDue s) := by
  unfold alignTimeoutIfDue
  split
  · exact .raise_same rfl
  · exact .refl s

theorem coastLimitIfDue_changesFollow (s : State) : ChangesFollow s (coastLimitIfDue s) := by
  unfold coastLimitIfDue
  split
  · have free := ChangesFollow.of_frame (setTiming_frame { s.timing with state := .free, coastCount := 0 } s)
    exact ((free.trans (timingBreak_changesFollow _)).raise _).trans (.of_frame (raiseFault_frame _ _))
  · exact .refl s

theorem settle_changesFollow (s : State) : ChangesFollow s (settle s) := by
  rw [settle_eq]
  refine .trans ?_ (drainNotices_changesFollow _)
  refine .trans ?_ (drainFaults_changesFollow _ _)
  refine .trans ?_ (coastLimitIfDue_changesFollow _)
  refine .trans ?_ (alignTimeoutIfDue_changesFollow _)
  refine .trans ?_ (switchIfDue_changesFollow [] _)
  refine .trans ?_ (applyIfDue_changesFollow [] _)
  refine .trans ?_ (.of_frame (clearHoldIfDue_frame _))
  refine .trans ?_ (sampleIfDue_changesFollow _ _)
  exact (takeLateWorks_changesFollow frameWorks s).trans (closeIfDue_changesFollow _)

/-! ## The pacer and the strobe -/

theorem timedEvent_changesFollow (lv : Levels) (late : List FrameWork) (u : Timing) (s : State) :
    ChangesFollow s (frameEvent lv late (s.setTiming u)) := frameEvent_changesFollow lv late (s.setTiming u)

theorem settleAt_changesFollow (t : Moment) (s : State) : ChangesFollow s (advanceTo t (settle s)) :=
  (settle_changesFollow s).trans (.of_frame (advanceTo_frame t _))

theorem pacerExpires_changesFollow (lv : Levels) (late : List FrameWork) (s : State) :
    ChangesFollow s (pacerExpires lv late s) := by
  simp only [pacerExpires]
  split
  · exact .refl s
  · exact (settleAt_changesFollow _ s).trans (timedEvent_changesFollow lv late _ _)

theorem strobeTaken_changesFollow (lv : Levels) (late : List FrameWork) (s : State) :
    ChangesFollow s (strobeTaken lv late s) := by
  unfold strobeTaken
  split
  · exact .refl s
  · exact (timedEvent_changesFollow lv late _ s).raise _
  · unfold strobeCounts
    split
    · exact .refl s
    · exact timedEvent_changesFollow lv late _ s
  · unfold strobeRelocks
    split
    · exact (ChangesFollow.of_frame (setTiming_frame _ s)).raise _
    · exact (timedEvent_changesFollow lv late _ s).raise _

theorem strobeLost_changesFollow (lv : Levels) (late : List FrameWork) (s : State) :
    ChangesFollow s (strobeLost lv late s) := by
  simp only [strobeLost]
  split
  · exact .refl s
  · exact ((settleAt_changesFollow _ s).trans (timedEvent_changesFollow lv late _ _)).raise _

/-! ## Requests -/

theorem takeAlign_changesFollow (f : Word16) (s : State) : ChangesFollow s (takeAlign f s).1 := by
  refine ChangesFollow.raise ?_ _
  split
  · exact (ChangesFollow.of_frame (setTiming_frame _ s)).trans (timingBreak_changesFollow _)
  · exact .of_frame (setTiming_frame _ s)

theorem takeReleaseNow_changesFollow (before s : State) : ChangesFollow s (takeReleaseNow before s) := by
  unfold takeReleaseNow
  split
  · exact ChangesFollow.of_same_then (recomputeInhibit_changesFollow _) rfl
  · exact .refl s

theorem withdrawEntry_changesFollow (p : Word32) (s : State) : ChangesFollow s (withdrawEntry p s) := by
  unfold withdrawEntry
  split
  · exact .refl s
  · refine .trans ?_ (takeReleaseNow_changesFollow _ _)
    refine .trans ?_ (.of_frame (recomputeExposure_frame _))
    exact (ChangesFollow.of_frame (mapNamedRecord_frame _ _ s)).trans (.of_frame (withoutEntry_frame p _))

theorem grantSlot_changesFollow (position frame : Word32) (slot : Byte) (pairs : List Pair) (s : State) :
    ChangesFollow s (grantSlot position frame slot pairs s).1 := by
  have charged (e : OpenGrant) (ls : List Lane) : ChangesFollow s (chargeDecision e ls s) :=
    .of_frame (chargeDecision_frame e ls s)
  exact ((charged _ _).trans (.of_frame (insertEntry_frame _ _))).trans (captureTrace_changesFollow _ _ _ _)

theorem takeGrantReq_changesFollow (f : Word16) (slot : Byte) (ps : List RawPair) (s : State) :
    ChangesFollow s (takeGrantReq f slot ps s).1 := by
  unfold takeGrantReq
  split
  · exact .refl s
  · split
    · exact .refl s
    · exact (withdrawEntry_changesFollow _ s).trans (grantSlot_changesFollow _ _ _ _ _)

theorem takeTxReport_changesFollow (f : Word16) (slot : Byte) (ps : List RawPair) (s : State) :
    ChangesFollow s (takeTxReport f slot ps s).1 := by
  unfold takeTxReport matchReport
  split
  · exact .refl s
  · split
    · exact (ChangesFollow.of_frame (settleHit_frame _ _ _ s)).trans (noteOvershoot_changesFollow _ _ _)
    · split
      · exact .refl s
      · exact (ChangesFollow.of_frame (chargeUnmatched_frame _ _ s)).trans (noteOvershoot_changesFollow _ _ _)

theorem takeStageDrop_changesFollow (s : State) : ChangesFollow s (takeStageDrop s).1 := by
  unfold takeStageDrop
  split
  · exact .refl s
  · exact .of_frame (setStaging_frame _ s)
  · exact (ChangesFollow.of_frame (setStaging_frame _ s)).raise _

/-- Clearing places leaves the agreement, where the new mask holds what it held within the places kept (R173 to
R175). -/
theorem cleared_changesFollow {keep mask : BitVec 15} {mode : ClearMode} {s : State}
    (within : ∀ i : Fin 15, keep.getLsbD i = true → s.changes.mask.getLsbD i = true → mask.getLsbD i = true) :
    ChangesFollow s (cleared keep mask mode s) := fun kept => withPlaces_kept mask keep mode kept within

theorem takeChangesRead_changesFollow (s : State) : ChangesFollow s (takeChangesRead s).1 := by
  cases mode : s.changes.clearMode with
  | onRead =>
    rw [takeChangesRead_onRead mode]
    exact cleared_changesFollow fun _ _ enabled => enabled
  | onAck =>
    rw [takeChangesRead_onAck mode]
    exact .refl s

theorem takeChangesAck_changesFollow (sources : Word16) (s : State) : ChangesFollow s (takeChangesAck sources s).1 :=
  cleared_changesFollow fun _ _ enabled => enabled

theorem takeChangesMask_changesFollow (mask : Word16) (mode : Byte) (s : State) :
    ChangesFollow s (takeChangesMask mask mode s).1 := by
  rcases Nat.lt_or_ge 1 mode.toNat with other | legal
  · rw [takeChangesMask_refused mask other]
    exact .refl s
  · rw [takeChangesMask_legal mask legal]
    exact cleared_changesFollow fun _ within _ => within

theorem ownRequest_changesFollow (req : Request) (s : State) : ChangesFollow s (ownRequest req s).1 := by
  have unchanged : ∀ {t : State}, t = s → ChangesFollow s t := fun h => h ▸ .refl s
  obtain ⟨carrier, param, zone, summary, ring, trace⟩ := reads_change_nothing s
  cases req with
  | align f => exact takeAlign_changesFollow f s
  | grantReq f slot ps => exact takeGrantReq_changesFollow f slot ps s
  | txReport f slot ps => exact takeTxReport_changesFollow f slot ps s
  | stageOpen => exact .of_frame (takeStageOpen_frame s)
  | stageCarrier i e => exact .of_frame (takeStageCarrier_frame i e s)
  | stageParam f z v => exact .of_frame (takeStageParam_frame f z v s)
  | stageCommit => exact .of_frame (takeStageCommit_frame s)
  | stageDrop => exact takeStageDrop_changesFollow s
  | readCarrier i => exact unchanged (carrier i)
  | readParam i => exact unchanged (param i)
  | readZone z => exact unchanged (zone z)
  | readState => exact unchanged summary
  | exchange k => exact .of_frame (takeExchange_frame k s)
  | reload => exact .of_frame (requestSwitch_frame _ s)
  | ringRead start count => exact unchanged (ring start count)
  | ringRelease half => exact .of_frame (takeRingRelease_frame half s)
  | changesRead => exact takeChangesRead_changesFollow s
  | changesAck sources => exact takeChangesAck_changesFollow sources s
  | changesMask mask mode => exact takeChangesMask_changesFollow mask mode s
  | traceSet f slot action => exact .of_frame (takeTraceSet_frame f slot action s)
  | traceRead => exact unchanged trace
  | resetPart => exact fun _ => freshChanges_kept _

theorem answerRequest_changesFollow (tag : Byte) (req : Request) (s : State) :
    ChangesFollow s (answerRequest tag req s) := by
  unfold answerRequest
  split
  · exact (ownRequest_changesFollow req s).trans (.of_frame (setLink_frame _ _))
  · exact .of_frame (setLink_frame _ s)

theorem answerFrame_changesFollow (f : RxFrame) (s : State) : ChangesFollow s (answerFrame f s) := by
  unfold answerFrame
  split
  · split
    · exact answerRequest_changesFollow _ _ s
    · exact .of_frame (setLink_frame _ s)
  · exact .of_frame (setLink_frame _ s)

theorem decodeOldest_changesFollow (t : Moment) (s : State) : ChangesFollow s (decodeOldest t s) := by
  simp only [decodeOldest]
  split
  · exact .refl s
  · split
    · have settled := (ChangesFollow.of_frame (advanceTo_frame t s)).trans (settle_changesFollow _)
      exact (settled.trans (.of_frame (setLink_frame _ _))).trans (answerFrame_changesFollow _ _)
    · exact .refl s

theorem arriveRequest_changesFollow (tag : Byte) (req : Request) (s : State) :
    ChangesFollow s (arriveRequest tag req s) := by
  unfold arriveRequest
  split
  · exact (settle_changesFollow s).trans (answerRequest_changesFollow tag req _)
  · exact .of_frame (setLink_frame _ s)

/-! ## Power -/

theorem storeChange_changesFollow (s : State) : ChangesFollow s (storeChange s) := by
  unfold storeChange
  split
  · exact .refl s
  · exact raiseChange_kept _ s

/-- The completion of the start-up load makes the reporter afresh, and may raise STORE in it (R164). -/
theorem startUpCompletes_changesFollow (t : Moment) (lv : Levels) (s : State) :
    ChangesFollow s (startUpCompletes t lv s) := by
  unfold startUpCompletes
  split
  · have begun : ChangesFollow s (startBlocks lv (advanceTo t s)) := fun _ => freshChanges_kept _
    exact (begun.trans (storeChange_changesFollow _)).trans (.of_frame (setLink_frame _ _))
  · exact .refl s

/-! ## Rows and steps -/

theorem taken_changesFollow {s t : State} (h : Taken s t) : ChangesFollow s t := by
  cases h with
  | startUp m lv => exact startUpCompletes_changesFollow m lv s
  | pacer lv late => exact pacerExpires_changesFollow lv late s
  | strobe m lv late => exact (settleAt_changesFollow m s).trans (strobeTaken_changesFollow lv late _)
  | strobeLoss lv late => exact strobeLost_changesFollow lv late s
  | alignTimeout => exact alignTimeoutIfDue_changesFollow s
  | coastLimit => exact coastLimitIfDue_changesFollow s
  | sample ts => exact sampleIfDue_changesFollow ts s
  | intervalClose => exact closeIfDue_changesFollow s
  | stagingApply first => exact applyIfDue_changesFollow first s
  | switchApply first => exact switchIfDue_changesFollow first s
  | exitHoldClear => exact .of_frame (clearHoldIfDue_frame s)
  | policyFault c first => exact faultIfRaised_changesFollow c first s
  | inhibitNotice n => exact noticeIfSent_changesFollow n s
  | linkRow m l _ => exact (ChangesFollow.of_frame (advanceTo_frame m s)).trans (.of_frame (setLink_frame l _))
  | decode m => exact decodeOldest_changesFollow m s
  | request m tag req =>
    exact (ChangesFollow.of_frame (advanceTo_frame m s)).trans (arriveRequest_changesFollow tag req _)

/-- Settles O55: POWER_ON makes the reporter afresh, RST_N_ASSERTED leaves it, and every other row follows. -/
theorem stepKeepsTheChangeSet : Obligations.StepKeepsTheChangeSet := by
  intro s t kept h
  rcases step_outcome h with rfl | ⟨rest, row⟩
  · exact kept
  · cases row with
    | powerOn m => exact freshChanges_kept _
    | rstNAsserted m =>
      exact ChangesFollow.of_frame (enterReset_frame m { s with pending := rest }) (by decide) kept
    | low _ => exact kept
    | high _ taken => exact taken_changesFollow taken kept

end Sys2Proof.Machine
end

