-- ==== Sys2Proof/Proofs/Arbiter.lean ====
section
/-!
PROOFS. The transmit arbiter (R184): one equation for each choice it makes, the frame a reply makes, and what
TRANSMIT_COMPLETE sends next.
-/

namespace Sys2Proof.Machine

/-! ## The choice -/

/-- A busy line, or a HELD decoder, leaves every reply where it waits. -/
theorem arbitrate_still {l : LinkPort} (h : l.decoder = .held ∨ l.transmitter ≠ none) : arbitrate l = l := by
  refine if_neg fun ⟨running, idle⟩ => ?_
  rcases h with held | busy
  · exact nomatch running.symm.trans held
  · exact busy idle

theorem portChoice_none {l : LinkPort} (waits : ∀ q rest, l.portQueue = q :: rest → q.behind ≠ 0) :
    portChoice l = none := by
  unfold portChoice
  split
  · rfl
  · next q rest queue => exact if_neg (waits q rest queue)

section idle
variable {l : LinkPort} (running : l.decoder = .running) (idle : l.transmitter = none)
include running idle

/-- The oldest port reply goes first, where it waits behind no RESET_PART DONE. -/
theorem arbitrate_port {q : PortReply} {rest : List PortReply} (queue : l.portQueue = q :: rest) (free : q.behind = 0) :
    arbitrate l = { l with portQueue := rest, transmitter := some q.frame } := by
  have chosen : portChoice l = some (q, rest) := by rw [portChoice, queue]; exact if_pos free
  rw [arbitrate, if_pos ⟨running, idle⟩, chosen]

/-- Where no port reply may go, the decoder replies have the line. -/
theorem arbitrate_decoderReply (waits : ∀ q rest, l.portQueue = q :: rest → q.behind ≠ 0) :
    arbitrate l = sendDecoderReply l := by
  rw [arbitrate, if_pos ⟨running, idle⟩, portChoice_none waits]

end idle

theorem sendDecoderReply_none {l : LinkPort} (empty : l.replyQueue = []) : sendDecoderReply l = l := by
  rw [sendDecoderReply, empty]

/-- A decoder reply sent; a RESET_PART DONE lets the port replies behind it come one nearer. -/
theorem sendDecoderReply_oldest {l : LinkPort} {r : DecoderReply} {rest : List DecoderReply}
    (queue : l.replyQueue = r :: rest) :
    sendDecoderReply l =
      { l with
        replyQueue := rest
        portQueue := if r.isReset then l.portQueue.map (fun q => { q with behind := q.behind - 1 }) else l.portQueue
        transmitter := some r.frame } := by
  rw [sendDecoderReply, queue]
  rfl

theorem arbiterChoosesTheNextReply : Claims.ArbiterChoosesTheNextReply := by
  intro l
  refine ⟨rfl, arbitrate_still, fun running idle => ⟨fun q rest => arbitrate_port running idle, fun waits => ?_⟩⟩
  rw [arbitrate_decoderReply running idle waits]
  exact ⟨sendDecoderReply_none, fun r rest => sendDecoderReply_oldest⟩

/-! ## TRANSMIT_COMPLETE -/

theorem finishSending_idle {l : LinkPort} (idle : l.transmitter = none) : finishSending l = l := if_pos idle

theorem finishSending_busy {l : LinkPort} {f : TxFrame} (busy : l.transmitter = some f) :
    finishSending l = arbitrate { l with transmitter := none } := if_neg (by simp [busy])

theorem exec_transmitComplete {s : State} (up : s.pins.rstN = true) :
    exec .transmitComplete s = .next (s.setLink (finishSending s.link)) := whileUp_high (f := transmitDone) up

/-- A finished frame frees the line, and the arbiter's choice on an idle line follows. -/
theorem transmitterTakesTheNextReply : Claims.TransmitterTakesTheNextReply := by
  intro s up
  rw [exec_transmitComplete up]
  refine ⟨fun idle => by rw [finishSending_idle idle]; rfl, fun f busy running => ?_⟩
  rw [finishSending_busy busy]
  obtain ⟨-, -, choice⟩ := arbiterChoosesTheNextReply { s.link with transmitter := none }
  obtain ⟨port, others⟩ := choice running rfl
  refine ⟨fun q rest queue free => ?_, fun waits => ⟨fun empty => ?_, fun r rest queue => ?_⟩⟩
  · rw [port q rest queue free]; rfl
  · rw [(others waits).1 empty]; rfl
  · rw [(others waits).2 r rest queue]; rfl

/-! ## Decoder replies (R190) -/

/-- A decoder reply as it waits: the request's kind plus 0x80, its tag, the status before the detail (R182, R190). -/
def framedReply (kind tag : Byte) (isReset : Bool) (r : Reply) : DecoderReply :=
  { frame := txFrame (kind + 0x80) tag (statusCode r.status :: r.detail), isReset }

theorem addReply_eq (kind tag : Byte) (isReset : Bool) (r : Reply) (l : LinkPort) :
    addReply kind tag isReset r l =
      arbitrate { l with replyQueue := l.replyQueue ++ [framedReply kind tag isReset r] } := rfl

theorem replyFrameJoinsTheReplyQueue : Claims.ReplyFrameJoinsTheReplyQueue := by
  intro kind tag isReset r l
  rw [addReply_eq]
  refine ⟨fun g busy => arbitrate_still (.inr (by simp [busy])), fun running idle replies ports => ?_⟩
  rw [arbitrate_decoderReply (by exact running) (by exact idle) (by simp [ports]), replies, List.nil_append,
    sendDecoderReply_oldest rfl]
  simp [framedReply, ports, txFrame]

theorem statusCodes : Claims.StatusCodes := by
  unfold Claims.StatusCodes
  decide

/-- Settles O27, from the arbiter's equations and the two ways a reply reaches it. -/
theorem repliesAreQueuedAndSentInOrder : Obligations.RepliesAreQueuedAndSentInOrder :=
  ⟨transmitterTakesTheNextReply, arbiterChoosesTheNextReply, replyFrameJoinsTheReplyQueue, statusCodes⟩

end Sys2Proof.Machine
end

