-- ==== Sys2Proof/Proofs/LinkBounds.lean ====
section
/-!
PROOFS. The Link Port's bounds as an invariant (R178, R181, R183, R184). `LinkMove` lists everything a step can do to the
port; most of it ends in the arbiter's choice, which leaves no reply waiting before an idle transmitter, so a move keeps
the invariant once it keeps the bounds the arbiter does not see to.
-/

namespace Sys2Proof.Machine

/-! ## The bounds before the arbiter's choice -/

/-- `linkKept` but for its last part, which the arbiter's choice restores. -/
structure LinkBounded (l : LinkPort) : Prop where
  bytes : partialKept l.receive
  frames : l.receiveQueue.length ≤ 4
  replies : l.replyQueue.length ≤ 4
  ports : l.portQueue.length ≤ 8
  held : l.decoder = .held → l.replyQueue = [] ∧ l.transmitter = none
  behind : ∀ q ∈ l.portQueue, q.behind ≤ waitingResets l

theorem linkKept_iff (l : LinkPort) :
    linkKept l ↔
      LinkBounded l ∧ (l.decoder = .running → l.transmitter = none → l.replyQueue = [] ∧ l.portQueue = []) := by
  constructor
  · rintro ⟨bytes, frames, replies, ports, held, behind, sent⟩
    exact ⟨⟨bytes, frames, replies, ports, held, behind⟩, sent⟩
  · rintro ⟨⟨bytes, frames, replies, ports, held, behind⟩, sent⟩
    exact ⟨bytes, frames, replies, ports, held, behind, sent⟩

theorem linkBounded_of_kept {l : LinkPort} (kept : linkKept l) : LinkBounded l := ((linkKept_iff l).1 kept).1

theorem linkKept_of_busy {l : LinkPort} (h : LinkBounded l) (busy : l.transmitter ≠ none) : linkKept l :=
  (linkKept_iff l).2 ⟨h, fun _ idle => absurd idle busy⟩

/-! ## The arbiter's choice -/

/-- A port reply that waits behind a RESET_PART DONE waits behind one fewer once a DONE is sent (R184). -/
theorem behind_afterReply {ports : List PortReply} {r : DecoderReply} {rest : List DecoderReply}
    (behind : ∀ q ∈ ports, q.behind ≤ ((r :: rest).filter DecoderReply.isReset).length) :
    ∀ q ∈ (if r.isReset then ports.map (fun q => { q with behind := q.behind - 1 }) else ports),
      q.behind ≤ (rest.filter DecoderReply.isReset).length := by
  cases reset : r.isReset with
  | false => simpa [List.filter_cons, reset] using behind
  | true =>
    simp only [List.filter_cons, reset, if_true, List.length_cons] at behind
    simp only [if_true, List.mem_map, forall_exists_index, and_imp, forall_apply_eq_imp_iff₂]
    intro q waits
    exact Nat.sub_le_of_le_add (behind q waits)

theorem sendDecoderReply_kept {l : LinkPort} (h : LinkBounded l) (running : l.decoder = .running)
    (waits : ∀ q rest, l.portQueue = q :: rest → q.behind ≠ 0) : linkKept (sendDecoderReply l) := by
  obtain ⟨bytes, frames, replies, ports, held, behind⟩ := h
  cases queue : l.replyQueue with
  | nil =>
    have noReset : waitingResets l = 0 := by rw [waitingResets, queue]; rfl
    have noPort : l.portQueue = [] := by
      cases port : l.portQueue with
      | nil => rfl
      | cons q rest =>
        have bound := behind q (port ▸ List.mem_cons_self)
        exact absurd (Nat.le_zero.1 (noReset ▸ bound)) (waits q rest port)
    rw [sendDecoderReply_none queue, linkKept_iff]
    exact ⟨⟨bytes, frames, replies, ports, held, behind⟩, fun _ _ => ⟨queue, noPort⟩⟩
  | cons r rest =>
    rw [waitingResets, queue] at behind
    rw [sendDecoderReply_oldest queue]
    refine linkKept_of_busy ⟨bytes, frames, ?_, ?_, fun held => ?_, behind_afterReply behind⟩ (Option.some_ne_none _)
    · rw [queue, List.length_cons] at replies
      exact Nat.le_of_succ_le replies
    · show (if r.isReset then _ else _ : List PortReply).length ≤ 8
      split
      · rw [List.length_map]; exact ports
      · exact ports
    · exact nomatch running.symm.trans held

/-- The arbiter's choice leaves no reply waiting before an idle transmitter, and the bounds as they were (R184). -/
theorem arbitrate_kept {l : LinkPort} (h : LinkBounded l) : linkKept (arbitrate l) := by
  by_cases still : l.decoder = .held ∨ l.transmitter ≠ none
  · rw [arbitrate_still still, linkKept_iff]
    refine ⟨h, fun running idle => ?_⟩
    rcases still with held | busy
    · exact nomatch running.symm.trans held
    · exact absurd idle busy
  · have idle : l.transmitter = none := not_not.1 fun busy => still (.inr busy)
    have running : l.decoder = .running := by
      cases state : l.decoder with
      | held => exact absurd (.inl state) still
      | running => rfl
    by_cases port : ∃ q rest, l.portQueue = q :: rest ∧ q.behind = 0
    · obtain ⟨q, rest, queue, free⟩ := port
      obtain ⟨bytes, frames, replies, ports, -, behind⟩ := h
      rw [queue] at ports behind
      rw [arbitrate_port running idle queue free]
      refine linkKept_of_busy ⟨bytes, frames, replies, Nat.le_of_succ_le ports, fun held => ?_, fun q waits => ?_⟩
        (Option.some_ne_none _)
      · exact nomatch running.symm.trans held
      · exact behind q (List.mem_cons_of_mem _ waits)
    · have waits : ∀ q rest, l.portQueue = q :: rest → q.behind ≠ 0 := fun q rest queue free =>
        port ⟨q, rest, queue, free⟩
      rw [arbitrate_decoderReply running idle waits]
      exact sendDecoderReply_kept h running waits

/-! ## Replies -/

/-- A decoder reply joins a reply queue that has room (R182, R183). -/
theorem addReply_kept {l : LinkPort} (h : LinkBounded l) (free : decoderFree l = true) (kind tag : Byte) (b : Bool)
    (r : Reply) : linkKept (addReply kind tag b r l) := by
  simp only [decoderFree, Bool.and_eq_true, decide_eq_true_eq] at free
  obtain ⟨running, room⟩ := free
  rw [addReply_eq]
  refine arbitrate_kept ⟨h.bytes, h.frames, ?_, h.ports, fun held => ?_, fun q waits => ?_⟩
  · rw [List.length_append, List.length_singleton]; exact room
  · exact nomatch running.symm.trans held
  · refine (h.behind q waits).trans ?_
    simp only [waitingResets, List.filter_append, List.length_append]
    exact Nat.le_add_right _ _

/-- A port reply joins its queue where 8 do not wait already, behind the RESET_PART DONEs of that moment (R181, R184). -/
theorem addPortReply_kept {l : LinkPort} (kept : linkKept l) (kind tag : Byte) (r : Reply) :
    linkKept (addPortReply kind tag r l) := by
  unfold addPortReply
  split
  case isFalse => exact kept
  case isTrue room =>
    have h := linkBounded_of_kept kept
    refine arbitrate_kept ⟨h.bytes, h.frames, h.replies, ?_, h.held, fun q waits => ?_⟩
    · rw [List.length_append, List.length_singleton]; exact room
    · rcases List.mem_append.1 waits with earlier | last
      · exact h.behind q earlier
      · rw [List.mem_singleton.1 last]
        exact Nat.le_refl _

/-! ## Reception -/

theorem setReceive_kept {l : LinkPort} (kept : linkKept l) {r : Receive} (bytes : partialKept r) :
    linkKept { l with receive := r } := ⟨bytes, kept.2⟩

theorem enqueueFrame_kept {l : LinkPort} (kept : linkKept l) (f : RxFrame) : linkKept (enqueueFrame f l) := by
  unfold enqueueFrame
  split
  case isFalse => exact addPortReply_kept kept _ _ _
  case isTrue room =>
    obtain ⟨bytes, -, others⟩ := kept
    refine ⟨bytes, ?_, others⟩
    rw [List.length_append, List.length_singleton]; exact room

theorem judgeFrame_kept {l : LinkPort} (kept : linkKept l) (f : RxFrame) (check : Word16) :
    linkKept (judgeFrame f check l) := by
  unfold judgeFrame
  split
  · exact enqueueFrame_kept kept f
  · exact addPortReply_kept kept _ _ _

/-- The bytes collected do not yet make a frame, or are judged as one (R179). -/
theorem collect_kept (t : Moment) (bytes : List Byte) {l : LinkPort} (kept : linkKept l) :
    linkKept (collect t bytes l) := by
  unfold collect
  split
  · split
    · exact setReceive_kept kept trivial
    · next legal =>
      split
      · next short => exact setReceive_kept kept ⟨Nat.not_lt.1 legal, short⟩
      · exact judgeFrame_kept (setReceive_kept (r := .hunting) kept trivial) _ _
  · next fewer =>
    refine setReceive_kept kept ?_
    match bytes with
    | [] | [_] | [_, _] => trivial
    | kind :: tag :: len :: rest => exact absurd rfl (fewer kind tag len rest)

theorem takeByte_kept (t : Moment) (b : RxByte) {l : LinkPort} (kept : linkKept l) : linkKept (takeByte t l b) := by
  unfold takeByte
  split
  · split
    · exact setReceive_kept kept trivial
    · exact kept
  · split
    · exact collect_kept t _ kept
    · exact setReceive_kept kept trivial

theorem takeBytes_kept (t : Moment) (bs : List RxByte) {l : LinkPort} (kept : linkKept l) :
    linkKept (bs.foldl (takeByte t) l) := by
  induction bs generalizing l with
  | nil => exact kept
  | cons b bs ih => exact ih (takeByte_kept t b kept)

/-! ## The transmitter, and the end of the start-up load -/

theorem finishSending_kept {l : LinkPort} (kept : linkKept l) : linkKept (finishSending l) := by
  cases line : l.transmitter with
  | none => rw [finishSending_idle line]; exact kept
  | some f =>
    have h := linkBounded_of_kept kept
    rw [finishSending_busy line]
    exact arbitrate_kept ⟨h.bytes, h.frames, h.replies, h.ports, fun held => ⟨(h.held held).1, rfl⟩, h.behind⟩

theorem started_kept {l : LinkPort} (kept : linkKept l) : linkKept (arbitrate { l with decoder := .running }) := by
  have h := linkBounded_of_kept kept
  exact arbitrate_kept ⟨h.bytes, h.frames, h.replies, h.ports, nofun, h.behind⟩

/-! ## Everything a step can do to the Link Port -/

/-- What a step can do to the Link Port; `Taken` does not say which operation a row of the port is, so this list does. A
request answered leaves of the receive queue what it held or less: the frame answered is taken, and RESET_PART empties
the queue. -/
inductive LinkMove (l : LinkPort) : LinkPort → Prop where
  | still : LinkMove l l
  | silenced : LinkMove l linkInReset
  | started : LinkMove l (arbitrate { l with decoder := .running })
  | received (t : Moment) (bytes : List RxByte) : LinkMove l (bytes.foldl (takeByte t) l)
  | gap : LinkMove l (dropPartial l)
  | sent : LinkMove l (finishSending l)
  | queued (f : RxFrame) : LinkMove l (enqueueFrame f l)
  | answered (waiting : List RxFrame) (fewer : waiting.length ≤ l.receiveQueue.length) (free : decoderFree l = true)
      (kind tag : Byte) (b : Bool) (r : Reply) : LinkMove l (addReply kind tag b r { l with receiveQueue := waiting })

theorem LinkMove.of_link {l m : LinkPort} (h : m = l) : LinkMove l m := h ▸ .still

theorem LinkMove.kept {l m : LinkPort} (h : LinkMove l m) (kept : linkKept l) : linkKept m := by
  cases h with
  | still => exact kept
  | silenced => exact reset_linkKept
  | started => exact started_kept kept
  | received t bytes => exact takeBytes_kept t bytes kept
  | gap => exact setReceive_kept kept trivial
  | sent => exact finishSending_kept kept
  | queued f => exact enqueueFrame_kept kept f
  | answered waiting fewer free kind tag b r =>
    have h := linkBounded_of_kept kept
    refine addReply_kept (l := { l with receiveQueue := waiting }) ?_ free kind tag b r
    exact ⟨h.bytes, fewer.trans h.frames, h.replies, h.ports, h.held, h.behind⟩

/-! ### Requests answered -/

/-- A request's owner leaves the Link Port alone, but RESET_PART empties the receive queue (R186). -/
theorem ownRequest_link (req : Request) (s : State) :
    (ownRequest req s).1.link = s.link ∨ (ownRequest req s).1.link = { s.link with receiveQueue := [] } := by
  by_cases align : ∃ f, req = .align f
  · obtain ⟨f, rfl⟩ := align
    exact .inl (frame_link (takeAlign_frame f s) (by decide))
  · by_cases reset : req = .resetPart
    · subst reset
      rw [ownRequest_resetPart, softReset_eq]
      exact .inr rfl
    · exact .inl (frame_link (ownRequest_quiet (fun f h => align ⟨f, h⟩) reset s) (by decide))

section answers
variable {l : LinkPort} (free : decoderFree l = true) {s : State} {waiting : List RxFrame}
  (taken : s.link = { l with receiveQueue := waiting }) (fewer : waiting.length ≤ l.receiveQueue.length)
include free taken fewer

theorem reply_move (kind tag : Byte) (b : Bool) (r : Reply) : LinkMove l (addReply kind tag b r s.link) :=
  taken ▸ .answered waiting fewer free kind tag b r

theorem answerRequest_move (tag : Byte) (req : Request) : LinkMove l (answerRequest tag req s).link := by
  unfold answerRequest
  split
  · rw [sendReply, setLink_link]
    rcases ownRequest_link req s with same | emptied
    · rw [same]; exact reply_move free taken fewer _ _ _ _
    · rw [emptied, taken]
      exact .answered [] (Nat.zero_le _) free _ _ _ _
  · exact reply_move free taken fewer _ _ _ _

theorem answerFrame_move (f : RxFrame) : LinkMove l (answerFrame f s).link := by
  unfold answerFrame
  split
  · split
    · exact answerRequest_move free taken fewer _ _
    · exact reply_move free taken fewer _ _ _ _
  · exact reply_move free taken fewer _ _ _ _

end answers

theorem settle_link (s : State) : (settle s).link = s.link := frame_link (settle_frame s) (by decide)

theorem decodeOldest_move (t : Moment) (s : State) : LinkMove s.link (decodeOldest t s).link := by
  simp only [decodeOldest]
  split
  · exact .still
  · next f rest queue =>
    split
    · next free =>
      refine answerFrame_move free (waiting := rest) ?_ ?_ f
      · rw [setLink_link, settle_link]; rfl
      · rw [queue]; exact Nat.le_succ _
    · exact .still

theorem arriveRequest_move (tag : Byte) (req : Request) (s : State) :
    LinkMove s.link (arriveRequest tag req s).link := by
  unfold arriveRequest
  split
  · next atOnce =>
    have free : decoderFree s.link = true := ((Bool.and_eq_true _ _).mp atOnce).1
    exact answerRequest_move free (settle_link s) (Nat.le_refl _) tag req
  · exact .queued _

/-! ### Rows and steps -/

theorem gapExpires_move (s : State) : LinkMove s.link (gapExpires s).link := by
  unfold gapExpires
  split
  · exact .still
  · exact .gap

theorem startUpCompletes_move (t : Moment) (lv : Levels) (s : State) :
    LinkMove s.link (startUpCompletes t lv s).link := by
  unfold startUpCompletes
  split
  · have quiet : (storeChange (startBlocks lv (advanceTo t s))).link = s.link := by
      rw [frame_link (storeChange_frame _) (by decide), frame_link (startBlocks_frame lv _) (by decide)]
      rfl
    rw [startDecoder, setLink_link, quiet]
    exact .started
  · exact .still

theorem whileUp_move {f : State → State} {s t : State} (h : whileUp f s = .next t) (move : LinkMove s.link (f s).link) :
    LinkMove s.link t.link := by
  unfold whileUp at h
  split at h
  · cases h; exact move
  · cases h; exact .still

/-- Every row does one of the listed things to the Link Port. -/
theorem exec_move {c : Instr} {s t : State} (h : exec c s = .next t) : LinkMove s.link t.link := by
  cases c with
  | powerOn m => cases h; exact .silenced
  | rstNAsserted m => cases h; exact .silenced
  | startUpLoadComplete m lv => exact whileUp_move h (startUpCompletes_move m lv s)
  | pacerExpiry lv late => exact whileUp_move h (.of_link (pacerExpires_link lv late s))
  | frameStrobe m lv late => exact whileUp_move h (.of_link (strobeArrives_link m lv late s))
  | strobeLossTimeout lv late => exact whileUp_move h (.of_link (strobeLost_link lv late s))
  | alignTimeout => exact whileUp_move h (.of_link (frame_link (alignTimeoutIfDue_frame s) (by decide)))
  | coastLimit => exact whileUp_move h (.of_link (frame_link (coastLimitIfDue_frame s) (by decide)))
  | sample ts => exact whileUp_move h (.of_link (frame_link (sampleIfDue_frame ts s) (by decide)))
  | intervalClose => exact whileUp_move h (.of_link (frame_link (closeIfDue_frame s) (by decide)))
  | stagingApply first => exact whileUp_move h (.of_link (frame_link (applyIfDue_frame first s) (by decide)))
  | switchApply first => exact whileUp_move h (.of_link (frame_link (switchIfDue_frame first s) (by decide)))
  | exitHoldClear => exact whileUp_move h (.of_link (frame_link (clearHoldIfDue_frame s) (by decide)))
  | policyFaultEvent c first => exact whileUp_move h (.of_link (frame_link (faultIfRaised_frame c first s) (by decide)))
  | inhibitNotice n => exact whileUp_move h (.of_link (frame_link (noticeIfSent_frame n s) (by decide)))
  | frameReceived m bytes => exact whileUp_move h (.received _ bytes)
  | byteOnRxd m b => exact whileUp_move h (.received _ [b])
  | byteGapTimeout => exact whileUp_move h (gapExpires_move s)
  | transmitComplete => exact whileUp_move h .sent
  | requestDecode m => exact whileUp_move h (decodeOldest_move m s)
  | align m tag f =>
    exact whileUp_move (f := fun s => arriveRequest tag (.align f) (advanceTo m s)) h
      (arriveRequest_move tag (.align f) (advanceTo m s))
  | resetPart m tag =>
    exact whileUp_move (f := fun s => arriveRequest tag .resetPart (advanceTo m s)) h
      (arriveRequest_move tag .resetPart (advanceTo m s))
  | _ => exact whileUp_move h (arriveRequest_move _ _ s)

/-- Settles O56: a step idles or runs a row, and each thing a row can do to the Link Port keeps its bounds. -/
theorem stepKeepsTheLinkPort : Obligations.StepKeepsTheLinkPort := by
  intro s t kept h
  unfold step at h
  split at h
  · cases h; exact kept
  · exact (exec_move h).kept kept

end Sys2Proof.Machine
end

