-- ==== Sys2Proof/Proofs/ByteCollection.lean ====
section
/-!
PROOFS. BYTE_ON_RXD and BYTE_GAP_TIMEOUT (R179, R180): the byte a hunting port waits for, and what one more byte makes of
a partial frame, by the place it takes in the frame.
-/

namespace Sys2Proof.Machine

/-! ## One more byte of a partial frame -/

/-- Kind and tag are collected as they come. -/
theorem collect_head {bytes : List Byte} (short : bytes.length < 3) (t : Moment) (l : LinkPort) :
    collect t bytes l = collecting t bytes l := by
  match bytes with
  | [] | [_] | [_, _] => rfl
  | _ :: _ :: _ :: _ => simp only [List.length_cons] at short; omega

/-- An illegal length byte ends the frame without a reply. -/
theorem collect_illegal {len : Byte} (illegal : 250 < len.toNat) (t : Moment) (kind tag : Byte) (rest : List Byte)
    (l : LinkPort) : collect t (kind :: tag :: len :: rest) l = { l with receive := .hunting } := if_pos illegal

section legal
variable {len : Byte} (legal : len.toNat ≤ 250) (t : Moment) (kind tag : Byte)
include legal

/-- Bytes of payload and check are collected while one is missing. -/
theorem collect_within {rest : List Byte} (short : rest.length < len.toNat + 2) (l : LinkPort) :
    collect t (kind :: tag :: len :: rest) l = collecting t (kind :: tag :: len :: rest) l := by
  simp only [collect, if_neg (Nat.not_lt.2 legal), if_pos short, collecting]

/-- The last byte of the check makes a complete frame, which is judged (R181). -/
theorem collect_complete {payload : List Byte} (whole : payload.length = len.toNat) (c1 c0 : Byte) (l : LinkPort) :
    collect t (kind :: tag :: len :: (payload ++ [c1] ++ [c0])) l =
      judgeFrame { kind, tag, payload } (c1 ++ c0) { l with receive := .hunting } :=
  takeByte_last t kind tag c1 c0 legal whole l

end legal

/-! ## A byte taken -/

theorem takeByte_framingError {l : LinkPort} {bytes : List Byte} {gap : Moment}
    (partialFrame : l.receive = .receiving bytes gap) (t : Moment) {b : RxByte} (noStop : b.stopBit = false) :
    takeByte t l b = { l with receive := .hunting } := by
  simp only [takeByte, partialFrame, noStop]
  rfl

theorem takeByte_next {l : LinkPort} {bytes : List Byte} {gap : Moment}
    (partialFrame : l.receive = .receiving bytes gap) (t : Moment) {b : RxByte} (stop : b.stopBit = true) :
    takeByte t l b = collect t (bytes ++ [b.value]) l := by
  simp only [takeByte, partialFrame, stop, if_true]

/-- A hunting port takes no byte but a sync byte with its stop bit (R179). -/
theorem takeByte_ignored {l : LinkPort} (hunting : l.receive = .hunting) (t : Moment) {b : RxByte}
    (other : b.stopBit = false ∨ b.value ≠ 0xC3) : takeByte t l b = l := by
  have notSync : ¬ (b.stopBit && b.value == syncByte) = true := by
    rw [Bool.and_eq_true, beq_iff_eq]
    rintro ⟨stop, sync⟩
    rcases other with noStop | value
    · exact nomatch noStop.symm.trans stop
    · exact value sync
  simp only [takeByte, hunting, if_neg notSync]

theorem exec_byteOnRxd {s : State} (up : s.pins.rstN = true) (t : Moment) (b : RxByte) :
    exec (.byteOnRxd t b) s = .next { s with now := max s.now t, link := takeByte (max s.now t) s.link b } :=
  whileUp_high (f := receiveByte t b) up

theorem byteIsTaken : Claims.ByteIsTaken := by
  intro t b s up
  have row := exec_byteOnRxd up t b
  refine ⟨fun hunting => ⟨fun stop sync => ?_, fun other => ?_⟩,
    fun bytes gap receiving kept => ⟨fun noStop => ?_, fun stop => ?_⟩⟩
  · obtain ⟨value, stopBit⟩ := b
    subst stop sync
    rw [row, takeByte_sync hunting]; rfl
  · rw [row, takeByte_ignored hunting _ other]
  · rw [row, takeByte_framingError receiving _ noStop]
  · rw [takeByte_next receiving _ stop] at row
    rw [row]
    refine ⟨fun head => ?_, fun two illegal => ?_, fun two legal => ?_, ?_⟩
    · rw [collect_head (by rw [List.length_append, List.length_singleton]; omega)]; rfl
    · obtain ⟨kind, tag, rfl⟩ := List.length_eq_two.1 two
      rw [List.cons_append, List.cons_append, List.nil_append, collect_illegal illegal]
    · obtain ⟨kind, tag, rfl⟩ := List.length_eq_two.1 two
      rw [List.cons_append, List.cons_append, List.nil_append, collect_within legal _ kind tag (by simp)]; rfl
    · rintro kind tag len rest rfl
      rw [receiving] at kept
      obtain ⟨legal, -⟩ := kept
      refine ⟨fun short => ?_, ?_⟩
      · have within : (rest ++ [b.value]).length < len.toNat + 2 := by
          rw [List.length_append, List.length_singleton]; omega
        rw [List.cons_append, List.cons_append, List.cons_append, collect_within legal _ kind tag within]; rfl
      · rintro payload c rfl whole
        rw [List.cons_append, List.cons_append, List.cons_append, collect_complete legal _ kind tag whole]

/-! ## The byte-gap timer (R180) -/

theorem exec_byteGapTimeout {s : State} (up : s.pins.rstN = true) : exec .byteGapTimeout s = .next (gapExpires s) :=
  whileUp_high up

theorem byteGapDiscardsThePartialFrame : Claims.ByteGapDiscardsThePartialFrame := by
  intro s up
  rw [exec_byteGapTimeout up]
  refine ⟨fun hunting => ?_, fun bytes e receiving => ?_⟩
  · rw [gapExpires, hunting]
  · rw [gapExpires, receiving]; rfl

/-- Settles O25: a byte by the place it takes in the frame, and the gap that ends the frame. -/
theorem bytesAreCollected : Obligations.BytesAreCollected := ⟨byteIsTaken, byteGapDiscardsThePartialFrame⟩

end Sys2Proof.Machine
end

