-- ==== Sys2Proof/Proofs/RequestBytes.lean ====
section
/-!
PROOFS. Requests and their payloads (R189, R191): the bytes of a request spell it, the bytes a request is read from are
its own, and the length table accepts exactly the lengths the request's kind allows.
-/

namespace Sys2Proof.Machine

/-! ## Words and their bytes (R188) -/

theorem toNat_append_byte {n : Nat} (x : BitVec n) (b : Byte) : (x ++ b).toNat = x.toNat * 256 + b.toNat := by
  rw [BitVec.toNat_append, ← Nat.shiftLeft_add_eq_or_of_lt b.isLt, Nat.shiftLeft_eq]

theorem word16_toNat (a b : Byte) : (word16 a b).toNat = fromBe [a, b] := (fromBe_two a b).symm

theorem word32_toNat (a b c d : Byte) : (word32 a b c d).toNat = fromBe [a, b, c, d] := by
  rw [word32, toNat_append_byte, toNat_append_byte, toNat_append_byte]
  simp [fromBe]

theorem byte2_word16 (a b : Byte) : byte2 (word16 a b).toNat = [a, b] := by
  rw [word16_toNat]
  exact beBytes_fromBe [a, b] rfl

theorem beBytes_word32 (a b c d : Byte) : beBytes 4 (word32 a b c d).toNat = [a, b, c, d] := by
  rw [word32_toNat]
  exact beBytes_fromBe [a, b, c, d] rfl

theorem byte2_spells (w : Word16) : ∃ a b, byte2 w.toNat = [a, b] ∧ word16 a b = w :=
  ⟨_, _, rfl, BitVec.eq_of_toNat_eq ((word16_toNat _ _).trans (fromBe_beBytes 2 w.toNat w.isLt))⟩

theorem beBytes_spells (w : Word32) : ∃ a b c d, beBytes 4 w.toNat = [a, b, c, d] ∧ word32 a b c d = w :=
  ⟨_, _, _, _, rfl, BitVec.eq_of_toNat_eq ((word32_toNat _ _ _ _).trans (fromBe_beBytes 4 w.toNat w.isLt))⟩

/-! ## Pairs and their bytes -/

theorem pairsOfBytes_pairBytes (ps : List RawPair) : pairsOfBytes (pairBytes ps) = some ps := by
  induction ps with
  | nil => rfl
  | cons p rest ih =>
    have bytes : pairBytes (p :: rest) = p.index :: p.value :: pairBytes rest := rfl
    rw [bytes, pairsOfBytes, ih]

theorem pairBytes_of_pairsOfBytes {bytes : List Byte} {ps : List RawPair} (h : pairsOfBytes bytes = some ps) :
    pairBytes ps = bytes := by
  induction bytes using pairsOfBytes.induct generalizing ps with
  | case1 => cases h; rfl
  | case2 => cases h
  | case3 i v rest qs read ih =>
    rw [pairsOfBytes, read] at h
    cases h
    exact congrArg (fun bytes => i :: v :: bytes) (ih read)
  | case4 i v rest read _ =>
    rw [pairsOfBytes, read] at h
    cases h

/-- Pairs are read off an even number of bytes, half as many. -/
theorem pairsOfBytes_even {bytes : List Byte} (even : bytes.length % 2 = 0) : ∃ ps, pairsOfBytes bytes = some ps := by
  induction bytes using pairsOfBytes.induct with
  | case1 => exact ⟨[], rfl⟩
  | case2 => cases even
  | case3 i v rest qs read _ => exact ⟨{ index := i, value := v } :: qs, by rw [pairsOfBytes, read]⟩
  | case4 i v rest read ih =>
    have more : rest.length % 2 = 0 := by simp only [List.length_cons] at even; omega
    obtain ⟨ps, h⟩ := ih more
    exact nomatch read.symm.trans h

/-! ## From a request to its bytes and back (R191) -/

theorem requestOfBytes_requestPayload (req : Request) :
    requestOfBytes (requestKind req) (requestPayload req) = some req := by
  cases req with
  | align f =>
    obtain ⟨a, b, bytes, rfl⟩ := byte2_spells f
    rw [requestPayload, bytes]; rfl
  | grantReq f slot ps =>
    obtain ⟨a, b, bytes, rfl⟩ := byte2_spells f
    have read : requestOfBytes 0x02 (a :: b :: slot :: pairBytes ps) =
      (pairsOfBytes (pairBytes ps)).map (.grantReq (word16 a b) slot) := rfl
    rw [requestPayload, bytes]
    exact read.trans (by rw [pairsOfBytes_pairBytes]; rfl)
  | txReport f slot ps =>
    obtain ⟨a, b, bytes, rfl⟩ := byte2_spells f
    have read : requestOfBytes 0x03 (a :: b :: slot :: pairBytes ps) =
      (pairsOfBytes (pairBytes ps)).map (.txReport (word16 a b) slot) := rfl
    rw [requestPayload, bytes]
    exact read.trans (by rw [pairsOfBytes_pairBytes]; rfl)
  | stageParam field zone value =>
    obtain ⟨a, b, c, d, bytes, rfl⟩ := beBytes_spells value
    rw [requestPayload, bytes]; rfl
  | changesAck sources =>
    obtain ⟨a, b, bytes, rfl⟩ := byte2_spells sources
    rw [requestPayload, bytes]; rfl
  | changesMask mask mode =>
    obtain ⟨a, b, bytes, rfl⟩ := byte2_spells mask
    rw [requestPayload, bytes]; rfl
  | traceSet f slot action =>
    obtain ⟨a, b, bytes, rfl⟩ := byte2_spells f
    rw [requestPayload, bytes]; rfl
  | _ => rfl

/-- A kind's payloads: what one is read as has that kind and spells that payload, and where nothing is read the table
refuses the payload's length (R182, R191). -/
def ReadsKind (kind : Byte) : Prop :=
  ∀ payload : List Byte,
    (∃ req, requestOfBytes kind payload = some req ∧ requestKind req = kind ∧ requestPayload req = payload) ∨
      (requestOfBytes kind payload = none ∧ payload.length ∉ kindLengths kind.toNat)

/-- The requests without a payload. -/
theorem readsKind_empty {n : Nat} (kind : n ∈ [4, 7, 8, 12, 14, 17, 21, 22]) : ReadsKind (BitVec.ofNat 8 n) := by
  intro payload
  cases payload with
  | nil => fin_cases kind <;> exact .inl ⟨_, rfl, rfl, rfl⟩
  | cons b rest => fin_cases kind <;> exact .inr ⟨rfl, by simp [kindLengths]⟩

/-- The requests of one byte. -/
theorem readsKind_byte {n : Nat} (kind : n ∈ [9, 10, 11, 13, 16]) : ReadsKind (BitVec.ofNat 8 n) := by
  intro payload
  match payload with
  | [b] => fin_cases kind <;> exact .inl ⟨_, rfl, rfl, rfl⟩
  | [] | _ :: _ :: _ => fin_cases kind <;> exact .inr ⟨rfl, by simp [kindLengths]⟩

/-- ALIGN and CHANGES_ACK carry one word. -/
theorem readsKind_word {n : Nat} (kind : n ∈ [1, 18]) : ReadsKind (BitVec.ofNat 8 n) := by
  intro payload
  match payload with
  | [a, b] => fin_cases kind <;> exact .inl ⟨_, rfl, rfl, byte2_word16 a b⟩
  | [] | [_] | _ :: _ :: _ :: _ => fin_cases kind <;> exact .inr ⟨rfl, by simp [kindLengths]⟩

theorem readsKind_ringRead : ReadsKind 0x0F := by
  intro payload
  match payload with
  | [start, count] => exact .inl ⟨_, rfl, rfl, rfl⟩
  | [] | [_] | _ :: _ :: _ :: _ => exact .inr ⟨rfl, by simp [kindLengths]⟩

theorem readsKind_changesMask : ReadsKind 0x13 := by
  intro payload
  match payload with
  | [a, b, mode] => exact .inl ⟨_, rfl, rfl, by rw [requestPayload, byte2_word16]; rfl⟩
  | [] | [_] | [_, _] | _ :: _ :: _ :: _ :: _ => exact .inr ⟨rfl, by simp [kindLengths]⟩

theorem readsKind_traceSet : ReadsKind 0x14 := by
  intro payload
  match payload with
  | [a, b, slot, action] => exact .inl ⟨_, rfl, rfl, by rw [requestPayload, byte2_word16]; rfl⟩
  | [] | [_] | [_, _] | [_, _, _] | _ :: _ :: _ :: _ :: _ :: _ => exact .inr ⟨rfl, by simp [kindLengths]⟩

theorem readsKind_stageParam : ReadsKind 0x06 := by
  intro payload
  match payload with
  | [field, zone, a, b, c, d] => exact .inl ⟨_, rfl, rfl, by rw [requestPayload, beBytes_word32]⟩
  | [] | [_] | [_, _] | [_, _, _] | [_, _, _, _] | [_, _, _, _, _] | _ :: _ :: _ :: _ :: _ :: _ :: _ :: _ =>
    exact .inr ⟨rfl, by simp [kindLengths]⟩

theorem readsKind_stageCarrier : ReadsKind 0x05 := by
  intro payload
  match payload with
  | [i, e1, e2, e3, e4, e5, e6, e7, e8] => exact .inl ⟨_, rfl, rfl, rfl⟩
  | [] | [_] | [_, _] | [_, _, _] | [_, _, _, _] | [_, _, _, _, _] | [_, _, _, _, _, _] | [_, _, _, _, _, _, _]
  | [_, _, _, _, _, _, _, _] | _ :: _ :: _ :: _ :: _ :: _ :: _ :: _ :: _ :: _ :: _ =>
    exact .inr ⟨rfl, by simp [kindLengths]⟩

theorem not_pairLength_of_even {n : Nat} (even : n % 2 = 0) : n ∉ ([5, 7, 9, 11, 13, 15, 17, 19] : List Nat) := by
  simp only [List.mem_cons, List.not_mem_nil, or_false]
  omega

/-- GRANT_REQ and TX_REPORT carry a word, a byte and pairs; a byte left over makes the length even. -/
theorem readsKind_pairs {n : Nat} (kind : n ∈ [2, 3]) : ReadsKind (BitVec.ofNat 8 n) := by
  intro payload
  match payload with
  | a :: b :: slot :: rest =>
    cases read : pairsOfBytes rest with
    | some ps =>
      have bytes : byte2 (word16 a b).toNat ++ slot :: pairBytes ps = a :: b :: slot :: rest := by
        rw [byte2_word16, pairBytes_of_pairsOfBytes read]; rfl
      fin_cases kind
      · exact .inl ⟨.grantReq (word16 a b) slot ps, congrArg (Option.map _) read, rfl, bytes⟩
      · exact .inl ⟨.txReport (word16 a b) slot ps, congrArg (Option.map _) read, rfl, bytes⟩
    | none =>
      have even : (a :: b :: slot :: rest).length % 2 = 0 := by
        by_contra odd
        simp only [List.length_cons] at odd
        obtain ⟨ps, some⟩ := pairsOfBytes_even (bytes := rest) (by omega)
        exact nomatch read.symm.trans some
      fin_cases kind <;> exact .inr ⟨congrArg (Option.map _) read, not_pairLength_of_even even⟩
  | [] | [_] | [_, _] => fin_cases kind <;> exact .inr ⟨rfl, by simp [kindLengths]⟩

/-- A kind code that is none of the 22 is read as nothing. -/
theorem readsKind_unknown {kind : Byte} (unknown : kind.toNat = 0 ∨ 22 < kind.toNat) : ReadsKind kind := by
  intro payload
  unfold requestOfBytes
  rcases unknown with zero | above
  · rw [zero]; exact .inr ⟨rfl, List.not_mem_nil⟩
  · obtain ⟨n, code⟩ : ∃ n, kind.toNat = n + 23 := ⟨kind.toNat - 23, by omega⟩
    rw [code]; exact .inr ⟨rfl, List.not_mem_nil⟩

theorem readsKind (kind : Byte) : ReadsKind kind := by
  by_cases unknown : kind.toNat = 0 ∨ 22 < kind.toNat
  · exact readsKind_unknown unknown
  · have named : kind = BitVec.ofNat 8 kind.toNat := by rw [BitVec.ofNat_toNat, BitVec.setWidth_eq]
    rw [named]
    generalize kind.toNat = n at unknown
    have code : n ∈ [1, 18] ∨ n ∈ [2, 3] ∨ n ∈ [4, 7, 8, 12, 14, 17, 21, 22] ∨ n = 5 ∨ n = 6 ∨
        n ∈ [9, 10, 11, 13, 16] ∨ n = 15 ∨ n = 19 ∨ n = 20 := by
      simp only [List.mem_cons, List.not_mem_nil, or_false]
      omega
    rcases code with word | pairs | empty | rfl | rfl | byte | rfl | rfl | rfl
    · exact readsKind_word word
    · exact readsKind_pairs pairs
    · exact readsKind_empty empty
    · exact readsKind_stageCarrier
    · exact readsKind_stageParam
    · exact readsKind_byte byte
    · exact readsKind_ringRead
    · exact readsKind_changesMask
    · exact readsKind_traceSet

theorem requestOfBytes_some {kind : Byte} {payload : List Byte} {req : Request}
    (h : requestOfBytes kind payload = some req) : requestKind req = kind ∧ requestPayload req = payload := by
  rcases readsKind kind payload with ⟨other, read, spells⟩ | ⟨nothing, -⟩
  · cases read.symm.trans h; exact spells
  · exact nomatch nothing.symm.trans h

/-- A payload of a length the table accepts is read as a request of its kind. -/
theorem requestOfBytes_accepted {kind : Byte} {payload : List Byte}
    (length : payload.length ∈ kindLengths kind.toNat) : ∃ req, requestOfBytes kind payload = some req := by
  rcases readsKind kind payload with ⟨req, read, -⟩ | ⟨-, refused⟩
  · exact ⟨req, read⟩
  · exact absurd length refused

/-! ## The length table (R191) -/

/-- One pair to eight of them make the lengths of GRANT_REQ and TX_REPORT. -/
theorem pairLength_iff (n : Nat) : 3 + 2 * n ∈ ([5, 7, 9, 11, 13, 15, 17, 19] : List Nat) ↔ 1 ≤ n ∧ n ≤ 8 := by
  simp only [List.mem_cons, List.not_mem_nil, or_false]
  omega

theorem lengthAccepted_iff (req : Request) :
    lengthAccepted req = true ↔ (requestPayload req).length ∈ kindLengths (requestKind req).toNat := by
  cases req with
  | grantReq f slot ps => rw [grantReq_length, lengthAccepted, decide_eq_true_iff]; exact (pairLength_iff _).symm
  | txReport f slot ps => rw [txReport_length, lengthAccepted, decide_eq_true_iff]; exact (pairLength_iff _).symm
  | _ => exact iff_of_true rfl (List.mem_singleton.2 rfl)

/-- Settles O28: reading undoes spelling, spelling undoes reading, and the table accepts a request's own lengths. -/
theorem requestPayloadReadsBack : Obligations.RequestPayloadReadsBack :=
  ⟨fun req => ⟨requestOfBytes_requestPayload req, lengthAccepted_iff req⟩, fun _ _ _ => requestOfBytes_some⟩

end Sys2Proof.Machine
end

