-- ==== Sys2Proof/Proofs/Decoder.lean ====
section
/-!
PROOFS. The Request Decoder (R182, R183): what becomes of the oldest frame by its kind and its payload's length, when the
decoder takes none, and the row of a request beside the request's frame (assumption 5).
-/

namespace Sys2Proof.Machine

/-! ## A frame answered -/

/-- An unknown kind is refused without an owner (R182, step 1). -/
theorem answerFrame_unknownKind {f : RxFrame} (unknown : f.kind.toNat = 0 ∨ 22 < f.kind.toNat) (s : State) :
    answerFrame f s = s.setLink (addReply f.kind f.tag false { status := .unknownKind, detail := [] } s.link) := by
  have unlisted : ¬ kindKnown f.kind = true := by
    rw [kindKnown, decide_eq_true_iff]
    omega
  rw [answerFrame, if_neg unlisted, refuse]

theorem answerRequest_badLength {req : Request} (wrong : ¬ lengthAccepted req = true) (tag : Byte) (s : State) :
    answerRequest tag req s =
      s.setLink (addReply (requestKind req) tag false
        { status := .badLength, detail := [BitVec.ofNat 8 (requestPayload req).length] } s.link) := by
  rw [answerRequest, if_neg wrong, byte1_eq, refuse]

/-- A length the kind does not accept is refused without an owner: nothing is read from the payload, or a number of pairs
that is not accepted (R182, step 2). -/
theorem answerFrame_badLength {f : RxFrame} (known : kindKnown f.kind = true)
    (wrong : f.payload.length ∉ kindLengths f.kind.toNat) (s : State) :
    answerFrame f s = s.setLink (addReply f.kind f.tag false
      { status := .badLength, detail := [BitVec.ofNat 8 f.payload.length] } s.link) := by
  rw [answerFrame, if_pos known]
  cases read : requestOfBytes f.kind f.payload with
  | none => simp only [byte1_eq, refuse]
  | some req =>
    obtain ⟨kind, payload⟩ := requestOfBytes_some read
    rw [← kind, ← payload, ← lengthAccepted_iff] at wrong
    simp only [answerRequest_badLength wrong, kind, payload]

theorem answerRequest_owned {req : Request} (length : lengthAccepted req = true) (tag : Byte) (s : State) :
    answerRequest tag req s = replied tag req (ownRequest req s).2 (ownRequest req s).1 := if_pos length

theorem requestKind_known (req : Request) : kindKnown (requestKind req) = true := by cases req <;> rfl

/-- A request's frame is answered as the request it spells. -/
theorem answerFrame_spelled {f : RxFrame} {req : Request} (kind : requestKind req = f.kind)
    (payload : requestPayload req = f.payload) (s : State) : answerFrame f s = answerRequest f.tag req s := by
  have read := requestOfBytes_requestPayload req
  have known := requestKind_known req
  rw [kind] at known
  rw [kind, payload] at read
  rw [answerFrame, if_pos known, read]

/-! ## The decoder takes a frame -/

theorem decoderFree_iff (l : LinkPort) :
    decoderFree l = true ↔ l.decoder = .running ∧ l.replyQueue.length < 4 := by
  rw [decoderFree, Bool.and_eq_true, decide_eq_true_iff, decide_eq_true_iff]
  rfl

/-- While HELD, with no frame, or with 4 replies waiting, the decoder takes none (R182, R183). -/
theorem decodeOldest_idle {s : State}
    (idle : s.link.decoder = .held ∨ s.link.receiveQueue = [] ∨ 4 ≤ s.link.replyQueue.length) (t : Moment) :
    decodeOldest t s = s := by
  unfold decodeOldest
  cases queue : s.link.receiveQueue with
  | nil => rfl
  | cons f rest =>
    refine if_neg ?_
    rw [decoderFree_iff]
    rintro ⟨running, room⟩
    rcases idle with held | empty | full
    · exact nomatch running.symm.trans held
    · exact nomatch queue.symm.trans empty
    · exact absurd room (Nat.not_lt.2 full)

theorem exec_requestDecode {s : State} (up : s.pins.rstN = true) (t : Moment) :
    exec (.requestDecode t) s = .next (decodeOldest t s) := whileUp_high (f := decodeOldest t) up

/-- Settles O26: the frame taken is answered by its kind and its payload's length. -/
theorem decoderAnswersTheOldestFrame : Obligations.DecoderAnswersTheOldestFrame := by
  intro t s up
  rw [exec_requestDecode up]
  refine ⟨fun idle => by rw [decodeOldest_idle idle], fun f rest running oldest room => ?_⟩
  have moved : advanceTo t s = { s with now := max s.now t } := rfl
  rw [decodeOldest_takes running room oldest, moved]
  generalize settle { s with now := max s.now t } = v
  refine ⟨fun unknown => ?_, fun notZero atMost wrong => ?_, fun length => ?_⟩
  · rw [answerFrame_unknownKind unknown]; rfl
  · have known : kindKnown f.kind = true := decide_eq_true ⟨Nat.pos_of_ne_zero notZero, atMost⟩
    rw [answerFrame_badLength known wrong]; rfl
  · obtain ⟨req, read⟩ := requestOfBytes_accepted length
    obtain ⟨kind, payload⟩ := requestOfBytes_some read
    rw [← kind, ← payload, ← lengthAccepted_iff] at length
    refine ⟨req, kind, payload, ?_⟩
    rw [answerFrame_spelled kind payload, answerRequest_owned length]; rfl

/-! ## The row of a request (assumption 5) -/

theorem advanceTo_past {t : Moment} {s : State} (past : t ≤ s.now) : advanceTo t s = s := by
  rw [advanceTo, Nat.max_eq_left past]; rfl

/-- A request row whose moment, where it carries one, is not to come: the request arrives now. -/
theorem exec_row {c : Instr} {t : Moment} {tag : Byte} {req : Request} {s : State} (row : rowOf t tag req = some c)
    (up : s.pins.rstN = true) (past : t ≤ s.now) : exec c s = .next (arriveRequest tag req s) := by
  cases req with
  | traceSet f slot action =>
    simp only [rowOf] at row
    split at row
    case isTrue arm => subst arm; cases row; exact whileUp_high up
    case isFalse =>
      split at row
      case isTrue disarm => subst disarm; cases row; exact whileUp_high up
      case isFalse => cases row
  | align f =>
    cases row
    refine (whileUp_high (f := fun s => arriveRequest tag (.align f) (advanceTo t s)) up).trans ?_
    rw [advanceTo_past past]
  | resetPart =>
    cases row
    refine (whileUp_high (f := fun s => arriveRequest tag .resetPart (advanceTo t s)) up).trans ?_
    rw [advanceTo_past past]
  | _ => cases row; exact whileUp_high up

/-! ### Taken at once -/

theorem arriveRequest_atOnce {s : State} (ready : requestReady s) (tag : Byte) (req : Request) :
    arriveRequest tag req s = answerRequest tag req (settle s) := if_pos ((requestReady_iff s).1 ready).2

/-- A request's frame received on a hunting port joins the receive queue: its check is its own (R181). -/
theorem takeFrame_queued {l : LinkPort} (hunting : l.receive = .hunting) (room : l.receiveQueue.length < 4) (t : Moment)
    (tag : Byte) {req : Request} (fits : (requestPayload req).length ≤ 250) :
    (onLine (frameBytes (requestKind req) tag (requestPayload req))).foldl (takeByte t) l =
      { l with receiveQueue := l.receiveQueue ++ [requestFrame tag req] } := by
  obtain ⟨c1, c0, bytes, good⟩ := byte2_spells (frameCheck (requestKind req) tag (requestPayload req))
  rw [frameBytes, bytes, takeFrame_judged hunting t _ tag fits c1 c0]
  exact judgeFrame_queued (f := requestFrame tag req) good.symm room

theorem setLink_same {s : State} {l : LinkPort} (same : s.link = l) : s.setLink l = s := by rw [← same]; rfl

theorem setLink_setLink (s : State) (l m : LinkPort) : (s.setLink l).setLink m = s.setLink m := rfl

/-- The only frame of the receive queue decoded: the request is answered as if it had arrived by its row, since the work
of earlier frame events does not reach the Link Port. -/
theorem decodeOldest_onlyFrame {s : State} (ready : requestReady s) {t : Moment} (past : t ≤ s.now) (tag : Byte)
    (req : Request) :
    decodeOldest t (s.setLink { s.link with receiveQueue := [requestFrame tag req] }) =
      answerRequest tag req (settle s) := by
  obtain ⟨-, running, empty, room⟩ := ready
  have still : advanceTo t (s.setLink { s.link with receiveQueue := [requestFrame tag req] }) =
      s.setLink { s.link with receiveQueue := [requestFrame tag req] } := advanceTo_past past
  have restored : (settle s).link = { s.link with receiveQueue := [] } := by rw [settle_link, ← empty]
  have taken := decodeOldest_takes (s := s.setLink { s.link with receiveQueue := [requestFrame tag req] }) running room
    rfl t
  rw [taken, still, settle_apart, answerFrame_spelled (f := requestFrame tag req) rfl rfl, setLink_link,
    setLink_setLink, setLink_same restored]
  rfl

theorem requestRowIsItsFrameDecoded : Claims.RequestRowIsItsFrameDecoded := by
  intro t tag req c s row ready hunting fits
  have arrived : requestReady (advanceTo t s) := requestReady_advance ready
  have past : t ≤ (advanceTo t s).now := Nat.le_max_right _ _
  obtain ⟨up, -, empty, -⟩ := ready
  have room : s.link.receiveQueue.length < 4 := by rw [empty]; decide
  refine ⟨(advanceTo t s).setLink { (advanceTo t s).link with receiveQueue := [requestFrame tag req] },
    answerRequest tag req (settle (advanceTo t s)), ?_, ?_, ?_⟩
  · rw [exec_frameReceived up, takeFrame_queued hunting room _ tag fits, empty]; rfl
  · rw [exec_requestDecode (by exact up), decodeOldest_onlyFrame arrived past]
  · refine (exec_row row arrived.1 past).trans ?_
    rw [arriveRequest_atOnce arrived]

/-! ### Made to wait -/

theorem requestThatMustWaitIsQueued : Claims.RequestThatMustWaitIsQueued := by
  intro t tag req c s row past up notReady fits f
  have waits : takenAtOnce s.link = false :=
    Bool.eq_false_iff.2 fun atOnce => notReady ((requestReady_iff s).2 ⟨up, atOnce⟩)
  rw [exec_row row up past, arriveRequest_waits waits, enqueueFrame]
  refine ⟨fun room => ?_, fun full => ?_, fun full none => ?_⟩
  · rw [if_pos (show s.link.receiveQueue.length < queueSize from room)]; rfl
  all_goals rw [if_neg (show ¬ s.link.receiveQueue.length < queueSize from Nat.not_lt.2 full), addPortReply]
  · exact fun room => by rw [if_pos (show s.link.portQueue.length < portQueueSize from room)]; rfl
  · rw [if_neg (show ¬ s.link.portQueue.length < portQueueSize from Nat.not_lt.2 none)]; rfl

/-- Settles O29: a row taken at once does what its frame does, and one that must wait is queued or draws BUSY. -/
theorem requestRowIsItsFrame : Obligations.RequestRowIsItsFrame :=
  ⟨requestRowIsItsFrameDecoded, requestThatMustWaitIsQueued⟩

end Sys2Proof.Machine
end

