-- ==== Sys2Proof/Proofs/Queue.lean ====
section
/-!
PROOFS. The queue (assumption 3): a step takes its front command or idles, and a command, which always ends in a next
state, leaves it alone. The rows that ask for RST_N first leave the image and the values of the load alone too.
-/

namespace Sys2Proof.Machine

/-! ## A step by the queue -/

theorem step_front {c : Instr} {rest : List Instr} {s : State} (front : s.pending = c :: rest) :
    step s = exec c { s with pending := rest } := by
  rw [step, front]

theorem step_idle {s : State} (empty : s.pending = []) : step s = .next s := by
  rw [step, empty]

/-- Settles O1: the two branches of a step. -/
theorem stepTakesFrontCommand : Obligations.StepTakesFrontCommand :=
  ⟨fun _ _ _ front => step_front front, fun _ empty => step_idle empty⟩

/-! ## What a command leaves alone -/

theorem taken_frame {s t : State} (h : Taken s t) : onlyChanges commandBlocks s t := by
  cases h with
  | startUp m lv => exact frame_wider (startUpCompletes_frame m lv s) (by simp)
  | pacer lv late => exact pacerExpires_frame lv late s
  | strobe m lv late => exact strobeArrives_frame m lv late s
  | strobeLoss lv late => exact strobeLost_frame lv late s
  | alignTimeout => exact frame_wider (alignTimeoutIfDue_frame s) (by simp)
  | coastLimit => exact frame_wider (coastLimitIfDue_frame s) (by simp)
  | sample ts => exact frame_wider (sampleIfDue_frame ts s) (by simp)
  | intervalClose => exact frame_wider (closeIfDue_frame s) (by simp)
  | stagingApply first => exact frame_wider (applyIfDue_frame first s) (by simp)
  | switchApply first => exact frame_wider (switchIfDue_frame first s) (by simp)
  | exitHoldClear => exact frame_wider (clearHoldIfDue_frame s) (by simp)
  | policyFault c first => exact frame_wider (faultIfRaised_frame c first s) (by simp)
  | inhibitNotice n => exact frame_wider (noticeIfSent_frame n s) (by simp)
  | linkRow m l _ => exact frame_then (advanceTo_frame m s) (setLink_frame l _)
  | decode m => exact decodeOldest_frame m s
  | request m tag req =>
    exact frame_trans (frame_wider (advanceTo_frame m s) (by simp)) (arriveRequest_frame tag req _)

theorem RowOutcome.pending_eq {s t : State} (row : RowOutcome s t) : t.pending = s.pending := by
  cases row with
  | powerOn m => rfl
  | rstNAsserted m => exact frame_pending (enterReset_frame m s)
  | low _ => rfl
  | high _ taken => exact frame_pending (taken_frame taken)

/-! ## Every command completes -/

/-- The power rows act always, and every other row answers through `whileUp`: neither stops the part. -/
theorem exec_completes (c : Instr) (s : State) : ∃ t, exec c s = .next t := by
  cases c with
  | powerOn m => exact ⟨_, exec_powerOn m s⟩
  | rstNAsserted m => exact ⟨enterReset m s, rfl⟩
  | _ => exact ⟨_, rfl⟩

/-- Settles O2: a command completes, and no outcome of a row touches the queue. -/
theorem everyCommandCompletes : Obligations.EveryCommandCompletes := by
  intro c s
  obtain ⟨t, completes⟩ := exec_completes c s
  exact ⟨t, completes, (exec_outcome completes).pending_eq⟩

end Sys2Proof.Machine
end

