-- ==== Sys2Proof/Proofs/StagingApply.lean ====
section
/-!
PROOFS. STAGING_APPLY (R29 to R32, R54, R139): the set made live is a replacement of the working copy, and the mass
close after it rests on the list and the records alone.
-/

namespace Sys2Proof.Machine

/-! ## A mass close by the list and the records alone (R108) -/

theorem massClose_openGrants {s t : State} (list : t.openGrants = s.openGrants) :
    (massClose t).openGrants = (massClose s).openGrants := by
  have mark : (massClose t).openGrants.expiryMark = (massClose s).openGrants.expiryMark := by
    rw [massClose, massClose, closeEntries_mark, closeEntries_mark, list]
  have whole (u : State) :
      (massClose u).openGrants = { entries := [], expiryMark := (massClose u).openGrants.expiryMark } := by
    rw [← massClose_entries u]
  rw [whole t, whole s, mark]

/-- What the entries of a list, settled as granted, make of the records rests on the records alone (R102). -/
theorem settleAll_records_congr (es : List OpenGrant) {s t : State} (same : ∀ q, recordAt t q = recordAt s q)
    (q : Fin 128) :
    recordAt (es.foldl settleAsGranted t) q = recordAt (es.foldl settleAsGranted s) q := by
  induction es generalizing s t with
  | nil => exact same q
  | cons e es ih => exact ih fun p => by simp only [settleAsGranted_get, same]

theorem records_eq_of_get {s t : State} (same : ∀ q, recordAt t q = recordAt s q) : t.ring.records = s.ring.records :=
  Vector.ext fun i h => same ⟨i, h⟩

/-- A mass close of a list and records that stand in two states changes the records to the same ones, and nothing else
of either ring. -/
theorem massClose_ring {s t : State} (list : t.openGrants = s.openGrants) (records : t.ring.records = s.ring.records) :
    (massClose t).ring = { t.ring with records := (massClose s).ring.records } := by
  have each (q : Fin 128) : recordAt (massClose t) q = recordAt (massClose s) q := by
    rw [massClose, massClose, closeEntries, closeEntries, list]
    exact settleAll_records_congr _ (fun p => recordAt_congr (by exact records) p) q
  rw [← records_eq_of_get each]
  exact closeEntries_ring _ t

theorem massClose_ring_congr {s t : State} (list : t.openGrants = s.openGrants) (ring : t.ring = s.ring) :
    (massClose t).ring = (massClose s).ring := by
  rw [massClose_ring list (by rw [ring]), ring, massClose_ring (s := s) rfl rfl]

/-! ## A set applied -/

/-- The set's parts live and the set discarded, the working copy replaced: the apply before its mass close (R29). -/
def madeLive (set : StagingSet) (s : State) : State :=
  replaceWorkingCopy set.workingCopy
    (s.setCarriers { entries := set.entries, slotsPerFrame := set.slotsPerFrame, staging := .closed })

theorem madeLive_frame (set : StagingSet) (s : State) :
    onlyChanges [.carriers, .policy, .heat, .ring, .work] s (madeLive set s) :=
  frame_then (bs := [.carriers]) (by simp [onlyChanges_iff]) (replaceWorkingCopy_frame _ _)

theorem madeLive_carriers (set : StagingSet) (s : State) :
    (madeLive set s).carriers = { entries := set.entries, slotsPerFrame := set.slotsPerFrame, staging := .closed } := by
  rw [madeLive, frame_carriers (replaceWorkingCopy_frame _ _) (by decide), setCarriers_carriers]

/-- A set applied: its parts live, the mass close where slots per frame changed, and the change raised (R29, R32). -/
theorem applySet_eq (set : StagingSet) (s : State) :
    applySet set s =
      raised (.configApplied s.timing.frameCounter)
        (if set.slotsPerFrame = s.carriers.slotsPerFrame then madeLive set s else massClose (madeLive set s)) := by
  have closed : massCloseOnChange s.carriers.slotsPerFrame (madeLive set s) =
      if set.slotsPerFrame = s.carriers.slotsPerFrame then madeLive set s else massClose (madeLive set s) := by
    rw [massCloseOnChange, madeLive_carriers]
    simp only [eq_comm]
  have timing : (massCloseOnChange s.carriers.slotsPerFrame (madeLive set s)).timing = s.timing := by
    rw [frame_timing (massCloseOnChange_frame _ _) (by decide), frame_timing (madeLive_frame set s) (by decide)]
  rw [← closed, ← timing, ← raiseChange_eq]
  rfl

section applySet
variable (set : StagingSet) (s : State)

/-- What an apply does to a block that neither the mass close nor the change reaches is done when the set is live. -/
theorem applySet_frame_madeLive : onlyChanges [.openGrants, .ring, .changes] (madeLive set s) (applySet set s) := 
  frame_then (massCloseOnChange_frame _ _) (raiseChange_frame _ _)

theorem applySet_carriers :
    (applySet set s).carriers =
      { entries := set.entries, slotsPerFrame := set.slotsPerFrame, staging := .closed } := by
  rw [frame_carriers (applySet_frame_madeLive set s) (by decide), madeLive_carriers]

theorem applySet_policy : (applySet set s).policy = { s.policy with workingCopy := set.workingCopy } := by
  rw [frame_policy (applySet_frame_madeLive set s) (by decide), madeLive, replaceWorkingCopy_policy, setCarriers_policy]

theorem applySet_heat :
    (applySet set s).heat =
      { s.heat with dutyCounter := min s.heat.dutyCounter set.workingCopy.cycleLength } := by
  rw [frame_heat (applySet_frame_madeLive set s) (by decide), madeLive, replaceWorkingCopy_heat, setCarriers_heat]

theorem madeLive_ring : (madeLive set s).ring = { s.ring with exhausted := windowExhausted (madeLive set s) } :=
  replaceWorkingCopy_ring _ _

theorem madeLive_openGrants : (madeLive set s).openGrants = s.openGrants :=
  frame_openGrants (madeLive_frame set s) (by decide)

theorem applySet_unchanged (same : set.slotsPerFrame = s.carriers.slotsPerFrame) :
    applySet set s = raised (.configApplied s.timing.frameCounter) (madeLive set s) := by
  rw [applySet_eq, if_pos same]

theorem applySet_closed (changed : set.slotsPerFrame ≠ s.carriers.slotsPerFrame) :
    applySet set s = raised (.configApplied s.timing.frameCounter) (massClose (madeLive set s)) := by
  rw [applySet_eq, if_neg changed]

/-- The mass close moves no window figure, so the item holds what the replacement's comparison found (R139). -/
theorem windowExhausted_applySet : windowExhausted (applySet set s) = windowExhausted (madeLive set s) := by
  have live : exposureKept (madeLive set s) := replaceWorkingCopy_exposure _ _
  rw [← applySet_exposure set s, ← live]
  by_cases same : set.slotsPerFrame = s.carriers.slotsPerFrame
  · rw [applySet_unchanged set s same, raised_ring]
  · rw [applySet_closed set s same, raised_ring, massClose_ring rfl rfl]

theorem applySet_told :
    (applySet set s).work = toldOfReplacement s.ring.exhausted (windowExhausted (applySet set s)) s.work := by
  rw [windowExhausted_applySet, frame_work (applySet_frame_madeLive set s) (by decide)]
  exact replaceWorkingCopy_told _ _

theorem applySet_changes :
    (applySet set s).changes = reported (.configApplied s.timing.frameCounter) s.changes := by
  have before : (if set.slotsPerFrame = s.carriers.slotsPerFrame then madeLive set s
      else massClose (madeLive set s)).changes = s.changes := by
    split
    · exact frame_changes (madeLive_frame set s) (by decide)
    · rw [massClose_changes, frame_changes (madeLive_frame set s) (by decide)]
  rw [applySet_eq, raised, before]

/-- Without a change of slots per frame the list stands, and of the ring only the exhausted item follows (R29, R139). -/
theorem applySet_account_unchanged (same : set.slotsPerFrame = s.carriers.slotsPerFrame) :
    (applySet set s).openGrants = s.openGrants ∧
      (applySet set s).ring = { s.ring with exhausted := windowExhausted (applySet set s) } := by
  rw [windowExhausted_applySet, applySet_unchanged set s same, ← madeLive_ring]
  exact ⟨madeLive_openGrants set s, rfl⟩

/-- On a change of slots per frame the list is closed as granted (R32). -/
theorem applySet_account_closed (changed : set.slotsPerFrame ≠ s.carriers.slotsPerFrame) :
    (applySet set s).openGrants = (massClose s).openGrants ∧
      (applySet set s).ring = { (massClose s).ring with exhausted := windowExhausted (applySet set s) } := by
  have records : (madeLive set s).ring.records = s.ring.records := by rw [madeLive_ring]
  rw [windowExhausted_applySet, applySet_closed set s changed, raised_ring,
    massClose_ring (madeLive_openGrants set s) records, madeLive_ring, massClose_ring (s := s) rfl rfl]
  exact ⟨massClose_openGrants (madeLive_openGrants set s), rfl⟩

end applySet

/-! ## The row -/

theorem exec_stagingApply {s : State} (up : s.pins.rstN = true) (first : List FrameWork) :
    exec (.stagingApply first) s = .next (applyIfDue first s) := whileUp_high up

/-- The state a due apply is made in: the apply no longer due. -/
def applyBegun (s : State) : State := s.setWork { s.work with applyDue := false }

theorem applyCommitted_pending {s : State} {set : StagingSet} (committed : s.carriers.staging = .commitPending set) :
    applyCommitted s = applySet set (applyBegun s) := by
  simp only [applyCommitted, setWork_carriers, committed, applyBegun]

/-- Settles O20: the committed set is applied in the state where the apply is no longer due, block by block. -/
theorem stagingApplyMakesTheSetLive : Obligations.StagingApplyMakesTheSetLive := by
  refine fun first s up => ⟨fun idle => ?_, ?_⟩
  · rw [exec_stagingApply up, applyIfDue, idle]
    rfl
  intro due u set committed
  have row : exec (.stagingApply first) s = .next (applySet set (applyBegun u)) := by
    rw [exec_stagingApply up, applyIfDue, if_pos due, applyCommitted_pending committed]
  refine ⟨_, row, applySet_carriers _ _, applySet_policy _ _, applySet_heat _ _,
    applySet_account_unchanged set (applyBegun u), fun changed => ?_, applySet_changes _ _, applySet_told _ _, ?_⟩
  · obtain ⟨list, ring⟩ := applySet_account_closed set (applyBegun u) changed
    rw [massClose_openGrants (s := u) (t := applyBegun u) rfl] at list
    rw [massClose_ring_congr (s := u) (t := applyBegun u) rfl rfl] at ring
    exact ⟨by rw [list, massClose_entries], list, ring⟩
  · exact frame_then (bs := [.work]) (by simp [applyBegun, onlyChanges_iff]) (applySet_frame _ _)

end Sys2Proof.Machine
end

