-- ==== Sys2Proof/Proofs/PolicyFaults.lean ====
section
/-!
PROOFS. POLICY_FAULT_EVENT and EXIT_HOLD_CLEAR (R155 to R159): each of the four outcomes of a fault event as the state
it leaves, the fallback exit block by block.
-/

namespace Sys2Proof.Machine

/-! ## What an exit leaves of a switch and of a staging set (R33, R154) -/

theorem cancelSwitch_work (s : State) :
    (cancelSwitch s).work =
      { s.work with switchDue := if s.policy.pendingSwitch.isSome then false else s.work.switchDue } := by
  unfold cancelSwitch
  cases s.policy.pendingSwitch with
  | none => rfl
  | some w => exact frame_work (raiseChange_frame _ _) (by decide)

theorem dropStagingOnExit_work (s : State) :
    (dropStagingOnExit s).work =
      { s.work with applyDue := if stagingExists s then false else s.work.applyDue } := by
  unfold dropStagingOnExit stagingExists
  split
  · rfl
  all_goals exact frame_work (raiseChange_frame _ _) (by decide)

theorem stagingExists_congr {s t : State} (h : t.carriers = s.carriers) : stagingExists t = stagingExists s := by
  rw [stagingExists, stagingExists, h]

/-! ## The fallback exit (R156) -/

/-- The state of a fallback exit before its record is written and the hold set: slot `f` loaded, a pending switch
cancelled, a staging set discarded. -/
def fallbackLoaded (f : Fin 6) (s : State) : State :=
  dropStagingOnExit (cancelSwitch (loadSlot f (saveWorkingCopy s)))

/-- The Exit Record of a fallback exit (R159). -/
def fallbackRecord (c : FaultClass) (f : Fin 6) (s : State) : ExitRecord :=
  { causes := causeBit c, fromIndex := s.policy.activeIndex, toIndex := f, frameCount := s.timing.frameCounter,
    absorbed := false }

section fallbackExit
variable (c : FaultClass) (f : Fin 6) (s : State)

theorem saved_frame : onlyChanges [.policy, .heat, .ring, .work] s (loadSlot f (saveWorkingCopy s)) :=
  frame_then (saveWorkingCopy_frame s) (loadSlot_frame f _)

theorem cancelled_frame :
    onlyChanges [.policy, .heat, .ring, .work, .changes] s (cancelSwitch (loadSlot f (saveWorkingCopy s))) :=
  frame_then (saved_frame f s) (cancelSwitch_frame _)

theorem fallbackLoaded_frame :
    onlyChanges [.policy, .heat, .ring, .work, .changes, .carriers] s (fallbackLoaded f s) :=
  frame_then (cancelled_frame f s) (dropStagingOnExit_frame _)

theorem fallbackExit_eq :
    fallbackExit c f s =
      raised (.exit (fallbackRecord c f s))
        ((fallbackLoaded f s).setPolicy
          { (fallbackLoaded f s).policy with exitHold := true, exitRecord := some (fallbackRecord c f s) }) := by
  have timing : (fallbackLoaded f s).timing = s.timing := frame_timing (fallbackLoaded_frame f s) (by decide)
  rw [fallbackRecord, ← timing]
  exact writeExit_eq _ _

/-- A fallback exit: the active slot takes the working copy, and slot `f` is loaded. -/
theorem fallbackExit_policy :
    (fallbackExit c f s).policy =
      { s.policy with
        slots := savedSlots s.policy, workingCopy := (savedSlots s.policy).get f, activeIndex := f
        pendingSwitch := none, exitHold := true, exitRecord := some (fallbackRecord c f s) } := by
  rw [fallbackExit_eq, raised, setPolicy_policy, fallbackLoaded, frame_policy (dropStagingOnExit_frame _) (by decide),
    cancelSwitch_policy, loadSlot_policy]
  rfl

theorem fallbackExit_carriers : (fallbackExit c f s).carriers = { s.carriers with staging := .closed } := by
  rw [fallbackExit_eq, raised, setPolicy_carriers, fallbackLoaded, dropStagingOnExit_carriers,
    frame_carriers (cancelled_frame f s) (by decide)]

theorem fallbackExit_heat :
    (fallbackExit c f s).heat =
      { s.heat with dutyCounter := min s.heat.dutyCounter ((savedSlots s.policy).get f).cycleLength } := by
  rw [fallbackExit_eq, raised, setPolicy_heat, fallbackLoaded, frame_heat (dropStagingOnExit_frame _) (by decide),
    frame_heat (cancelSwitch_frame _) (by decide), loadSlot_heat]
  rfl

theorem cancelled_changes :
    (cancelSwitch (loadSlot f (saveWorkingCopy s))).changes =
      match s.policy.pendingSwitch with
      | none => s.changes
      | some w => reported (.switchCancelled w) s.changes := by
  rw [cancelSwitch_changes, frame_changes (saved_frame f s) (by decide), loadSlot_policy]
  rfl

theorem fallbackExit_changes :
    (fallbackExit c f s).changes = reported (.exit (fallbackRecord c f s))
      (let d := match s.policy.pendingSwitch with
        | none => s.changes
        | some w => reported (.switchCancelled w) s.changes
      if stagingExists s then reported (.configDropped s.timing.frameCounter) d else d) := by
  have frame := cancelled_frame f s
  rw [fallbackExit_eq, raised, setPolicy_changes, fallbackLoaded, dropStagingOnExit_changes, cancelled_changes,
    stagingExists_congr (frame_carriers frame (by decide)), frame_timing frame (by decide)]

theorem fallbackExit_loadedRing : (fallbackExit c f s).ring = (loadSlot f (saveWorkingCopy s)).ring := by
  rw [fallbackExit_eq, raised_ring, setPolicy_ring, fallbackLoaded, frame_ring (dropStagingOnExit_frame _) (by decide),
    frame_ring (cancelSwitch_frame _) (by decide)]

/-- The record, the hold, the switch and the set move no window figure (R139). -/
theorem fallbackExit_exhausted :
    windowExhausted (fallbackExit c f s) = windowExhausted (loadSlot f (saveWorkingCopy s)) := by
  rw [← fallbackExit_exposure c f s, fallbackExit_loadedRing, loadSlot_exposure]

/-- Of the ring only the exhausted item follows the slot loaded (R139). -/
theorem fallbackExit_ring :
    (fallbackExit c f s).ring = { s.ring with exhausted := windowExhausted (fallbackExit c f s) } := by
  rw [fallbackExit_loadedRing, loadSlot_ring, fallbackExit_exhausted]
  rfl

/-- The work an exit leaves: the replacement's, with nothing due of the switch and of the set it takes away. -/
theorem fallbackExit_told :
    (fallbackExit c f s).work =
      toldOfReplacement s.ring.exhausted (windowExhausted (fallbackExit c f s))
        { s.work with
          switchDue := if s.policy.pendingSwitch.isSome then false else s.work.switchDue
          applyDue := if stagingExists s then false else s.work.applyDue } := by
  have told := loadSlot_told f (saveWorkingCopy s)
  have staging := stagingExists_congr (frame_carriers (cancelled_frame f s) (by decide))
  have pending : (loadSlot f (saveWorkingCopy s)).policy.pendingSwitch = s.policy.pendingSwitch := by
    rw [loadSlot_policy]; rfl
  rw [← fallbackExit_exhausted c f s] at told
  rw [fallbackExit_work, dropStagingOnExit_work, staging, cancelSwitch_work, pending, told]
  rfl

end fallbackExit

/-! ## The row -/

theorem exec_policyFaultEvent {s : State} (up : s.pins.rstN = true) (c : FaultClass) (first : List FrameWork) :
    exec (.policyFaultEvent c first) s = .next (faultIfRaised c first s) := whileUp_high up

/-- Some parts taken first, and the event off those that wait: the state a fault event is taken in (R155). -/
def faultBegun (c : FaultClass) (s : State) : State :=
  s.setWork { s.work with faults := s.work.faults.erase c }

theorem policyFaultEvent_raised {s : State} (up : s.pins.rstN = true) {c : FaultClass} (waits : c ∈ s.work.faults)
    (first : List FrameWork) :
    exec (.policyFaultEvent c first) s = .next (takeFault c (faultBegun c (takeLateWorks first s))) := by
  rw [exec_policyFaultEvent up, faultIfRaised, if_pos waits]
  rfl

theorem takeFault_ignored {c : FaultClass} {s : State} (flag : exitFlag s.policy.workingCopy c = false) :
    takeFault c s = s := by rw [takeFault, flag]; rfl

section flagged
variable {c : FaultClass} {s : State} (flag : exitFlag s.policy.workingCopy c = true)
include flag

theorem takeFault_merged (hold : s.policy.exitHold = true) {r : ExitRecord} (record : s.policy.exitRecord = some r) :
    takeFault c s = writeExit { r with causes := r.causes ||| causeBit c } s := by
  rw [takeFault, if_pos flag, if_pos hold, mergeExit, record]

theorem takeFault_absorbed (hold : s.policy.exitHold = false)
    (home : s.policy.workingCopy.fallback = s.policy.activeIndex) :
    takeFault c s = absorbedExit c s := by
  rw [takeFault, if_pos flag, hold, if_pos home]
  rfl

theorem takeFault_exits (hold : s.policy.exitHold = false)
    (away : s.policy.workingCopy.fallback ≠ s.policy.activeIndex) :
    takeFault c s = fallbackExit c s.policy.workingCopy.fallback s := by
  rw [takeFault, if_pos flag, hold, if_neg away]
  rfl

end flagged

theorem policyFaultIgnoredMergedAbsorbedOrExit : Claims.PolicyFaultIgnoredMergedAbsorbedOrExit := by
  intro c first s up
  refine ⟨fun absent => by rw [exec_policyFaultEvent up, faultIfRaised, if_neg absent], ?_⟩
  intro waits b u p f written
  have row : exec (.policyFaultEvent c first) s = .next (takeFault c u) := policyFaultEvent_raised up waits first
  rw [row]
  refine ⟨fun flag => ?_, fun flag hold r record => ?_, fun flag hold home => ?_, fun flag hold away => ?_⟩
  · rw [takeFault_ignored flag]
  · rw [takeFault_merged flag hold record, writeExit_eq]; rfl
  · rw [takeFault_absorbed flag hold home, absorbedExit, writeExit_eq]
    simp only [written, home]
    rfl
  · have slot : (savedSlots p).get f = p.slots.get f := (savedSlots_get p f).trans (if_neg away)
    have policy := fallbackExit_policy c f u
    have heat := fallbackExit_heat c f u
    rw [slot] at policy heat
    rw [takeFault_exits flag hold away]
    exact ⟨_, rfl, policy, fallbackExit_carriers c f u, fallbackExit_changes c f u, heat, fallbackExit_ring c f u,
      fallbackExit_told c f u,
      frame_wider (fallbackExit_frame c f u) (by simp)⟩

/-! ## The hold, the flags and the bits -/

theorem exec_exitHoldClear {s : State} (up : s.pins.rstN = true) : exec .exitHoldClear s = .next (clearHoldIfDue s) :=
  whileUp_high up

theorem exitHoldClears : Claims.ExitHoldClears := by
  intro s up
  rw [exec_exitHoldClear up, clearHoldIfDue]
  exact ⟨fun due => by rw [if_pos due]; rfl, fun idle => by rw [idle]; rfl⟩

theorem exitFlagsAndCauseBits : Claims.ExitFlagsAndCauseBits := ⟨fun _ => ⟨rfl, rfl, rfl, rfl, rfl⟩, rfl⟩

/-- Settles O22: each outcome of a fault event by the equation of its branch, the fallback exit block by block. -/
theorem policyFaultsAndTheExitHold : Obligations.PolicyFaultsAndTheExitHold :=
  ⟨exitFlagsAndCauseBits, policyFaultIgnoredMergedAbsorbedOrExit, exitHoldClears⟩

end Sys2Proof.Machine
end

