-- ==== Sys2Proof/Proofs/StagingRequests.lean ====
section
/-!
PROOFS. STAGE_OPEN, STAGE_COMMIT and STAGE_DROP (R21, R24, R27, R28, R147): each request by the staging state it finds,
and the checks of a commit in their order.
-/

namespace Sys2Proof.Machine

/-! ## STAGE_OPEN (R24) -/

section
variable {s : State} (closed : s.carriers.staging = .closed)
include closed

theorem takeStageOpen_opens (free : s.policy.pendingSwitch = none) :
    takeStageOpen s =
      ({ s with carriers := { s.carriers with
          staging := .opened
            { entries := s.carriers.entries, slotsPerFrame := s.carriers.slotsPerFrame,
              workingCopy := s.policy.workingCopy } } }, done []) := by
  simp only [takeStageOpen, closed, free]
  rfl

theorem takeStageOpen_pending (pending : s.policy.pendingSwitch ≠ none) :
    takeStageOpen s = (s, refuse .switchPending []) := by
  simp only [takeStageOpen, closed, if_pos (Option.isSome_iff_ne_none.2 pending)]

theorem takeStageDrop_closed : takeStageDrop s = (s, refuse .notOpen []) := by
  simp only [takeStageDrop, closed]

end

theorem takeStageOpen_twice {s : State} (exists_ : s.carriers.staging ≠ .closed) :
    takeStageOpen s = (s, refuse .alreadyOpen []) := by
  unfold takeStageOpen
  split
  · next closed => exact absurd closed exists_
  · rfl
  · rfl

theorem stageOpen_row {s : State} (ready : requestReady s) (tag : Byte) {r : Reply} {v : State}
    (taken : takeStageOpen (settle s) = (v, r)) :
    exec (.stageOpen tag) s = .next (replied tag .stageOpen r v) :=
  request_answered ready tag (req := .stageOpen) rfl taken

theorem stageOpenCopiesTheLiveConfiguration : Claims.StageOpenCopiesTheLiveConfiguration := by
  intro tag s ready u answer
  have row {r : Reply} {v : State} (taken : takeStageOpen u = (v, r)) : answer r v := stageOpen_row ready tag taken
  exact ⟨fun closed free => row (takeStageOpen_opens closed free),
    fun closed pending => row (takeStageOpen_pending closed pending), fun set => row (takeStageOpen_twice set)⟩

/-! ## STAGE_DROP (R28) -/

theorem takeStageDrop_opened {s : State} {set : StagingSet} (opened : s.carriers.staging = .opened set) :
    takeStageDrop s = ({ s with carriers := { s.carriers with staging := .closed } }, done []) := by
  simp only [takeStageDrop, opened]
  rfl

theorem takeStageDrop_pending {s : State} {set : StagingSet} (pending : s.carriers.staging = .commitPending set) :
    takeStageDrop s =
      (raised (.configDropped s.timing.frameCounter) { s with carriers := { s.carriers with staging := .closed } },
        done []) := by
  simp only [takeStageDrop, pending, raiseChange_eq]
  rfl

theorem stageDrop_row {s : State} (ready : requestReady s) (tag : Byte) {r : Reply} {v : State}
    (taken : takeStageDrop (settle s) = (v, r)) :
    exec (.stageDrop tag) s = .next (replied tag .stageDrop r v) :=
  request_answered ready tag (req := .stageDrop) rfl taken

theorem stageDropDiscardsTheSet : Claims.StageDropDiscardsTheSet := by
  intro tag s ready u answer closed
  have row {r : Reply} {v : State} (taken : takeStageDrop u = (v, r)) : answer r v := stageDrop_row ready tag taken
  exact ⟨fun none => row (takeStageDrop_closed none), fun set opened => row (takeStageDrop_opened opened),
    fun set pending => row (takeStageDrop_pending pending)⟩

/-- Settles O33: each request by the staging state it finds. -/
theorem stagingOpensAndDrops : Obligations.StagingOpensAndDrops :=
  ⟨stageOpenCopiesTheLiveConfiguration, stageDropDiscardsTheSet⟩

/-! ## Consistency of a carrier table (R21) -/

theorem floorHolds_iff (e : CarrierEntry) : floorHolds e = true ↔ ¬ e.ceiling < e.floor := by
  rw [floorHolds, decide_eq_true_iff, Nat.not_lt]

/-- An enabled SECONDARY whose named entry is not an enabled ANCHOR (R21). -/
def anchorMissing (entries : Vector CarrierEntry 8) (e : CarrierEntry) : Prop :=
  e.enabled = true ∧ e.role = .secondary ∧
    ¬ (entries[e.anchor].enabled = true ∧ entries[e.anchor].role = .anchor)

theorem anchorHolds_iff (entries : Vector CarrierEntry 8) (e : CarrierEntry) :
    anchorHolds entries e = true ↔ ¬ anchorMissing entries e := by
  unfold anchorHolds anchorMissing
  split
  · next secondary =>
    rw [Bool.and_eq_true, beq_iff_eq] at secondary
    obtain ⟨enabled, role⟩ := secondary
    simp [enabled, role]
  · next other =>
    rw [Bool.and_eq_true, beq_iff_eq] at other
    exact iff_of_true rfl fun ⟨enabled, role, _⟩ => other ⟨enabled, role⟩

section
variable {entries : Vector CarrierEntry 8} {e : CarrierEntry}

theorem entryFault_floor (fails : e.ceiling < e.floor) : entryFault entries e = some 6 := by
  have floor : ¬ floorHolds e = true := fun holds => (floorHolds_iff e).1 holds fails
  rw [entryFault, if_pos (by simpa using floor)]

theorem entryFault_anchor (floor : ¬ e.ceiling < e.floor) (fails : anchorMissing entries e) :
    entryFault entries e = some 3 := by
  have holds := (floorHolds_iff e).2 floor
  have anchor : ¬ anchorHolds entries e = true := fun holds => (anchorHolds_iff entries e).1 holds fails
  rw [entryFault, holds, if_neg (by decide), if_pos (by simpa using anchor)]

theorem entryFault_none_iff :
    entryFault entries e = none ↔ ¬ e.ceiling < e.floor ∧ ¬ anchorMissing entries e := by
  constructor
  · intro passed
    have floor : ¬ e.ceiling < e.floor := fun fails => nomatch (entryFault_floor fails).symm.trans passed
    exact ⟨floor, fun fails => nomatch (entryFault_anchor floor fails).symm.trans passed⟩
  · rintro ⟨floor, anchor⟩
    rw [entryFault, (floorHolds_iff e).2 floor, (anchorHolds_iff entries e).2 anchor]
    rfl

end

theorem carrierFirstFault_none_iff (entries : Vector CarrierEntry 8) :
    carrierFirstFault entries = none ↔ ∀ i : Fin 8, entryFault entries entries[i] = none := by
  have indices : ∀ i : Fin 8, i ∈ ([0, 1, 2, 3, 4, 5, 6, 7] : List (Fin 8)) := by decide
  simp only [carrierFirstFault, List.findSome?_eq_none_iff, Option.map_eq_none_iff]
  exact ⟨fun h i => h i (indices i), fun h i _ => h i⟩

/-- The indices before `i`, `i` itself, and those after it. -/
theorem indices_split (i : Fin 8) :
    ∃ before after, ([0, 1, 2, 3, 4, 5, 6, 7] : List (Fin 8)) = before ++ i :: after ∧ ∀ j ∈ before, j < i := by
  refine ⟨(List.finRange 8).take i.val, (List.finRange 8).drop (i.val + 1), ?_⟩
  revert i
  decide

/-- The first entry that fails a check is the one reported (R27). -/
theorem carrierFirstFault_of_first {entries : Vector CarrierEntry 8} {i : Fin 8} {field : Nat}
    (before : ∀ j, j < i → entryFault entries entries[j] = none) (fails : entryFault entries entries[i] = some field) :
    carrierFirstFault entries = some (i.val, field) := by
  obtain ⟨lower, higher, split, below⟩ := indices_split i
  rw [carrierFirstFault, split, List.findSome?_append]
  have passed : lower.findSome? (fun j => (entryFault entries entries[j]).map fun field => (j.val, field)) = none :=
    List.findSome?_eq_none_iff.2 fun j hj => by rw [before j (below j hj)]; rfl
  rw [passed, Option.none_or, List.findSome?_cons, fails]
  rfl

/-- A table is consistent where no entry fails a check (R21). -/
theorem carriersConsistent_iff (entries : Vector CarrierEntry 8) :
    carriersConsistent entries = true ↔
      ∀ i : Fin 8, ¬ entries[i].ceiling < entries[i].floor ∧ ¬ anchorMissing entries entries[i] := by
  simp only [carriersConsistent, Option.isNone_iff_eq_none, carrierFirstFault_none_iff, entryFault_none_iff]

theorem consistencyOfTablesAndContexts : Claims.ConsistencyOfTablesAndContexts := by
  refine ⟨fun entries => ?_, contextConsistent_iff⟩
  simp only [carriersConsistent_iff, Nat.not_lt]
  refine forall_congr' fun i => and_congr_right fun _ => ⟨fun named enabled role => ?_, fun named missing => ?_⟩
  · exact by_contra fun wrong => named ⟨enabled, role, wrong⟩
  · obtain ⟨enabled, role, wrong⟩ := missing
    exact wrong (named enabled role)

/-! ## STAGE_COMMIT (R27) -/

/-- Without an OPEN set there is nothing to edit or to commit (R25 to R27). -/
theorem takeStageCommit_notOpen {s : State} (none : ∀ set, s.carriers.staging ≠ .opened set) :
    takeStageCommit s = (s, refuse .notOpen []) := by
  unfold takeStageCommit
  split
  · rfl
  · rfl
  · next set opened => exact absurd opened (none set)

section
variable {s : State} {set : StagingSet} (opened : s.carriers.staging = .opened set)
include opened

theorem takeStageCommit_refused {detail : List Byte} (fault : stagingFault set = some detail) :
    takeStageCommit s = (s, refuse .inconsistent detail) := by
  simp only [takeStageCommit, opened, fault]

theorem takeStageCommit_commits (passes : stagingFault set = none) :
    takeStageCommit s = ({ s with carriers := { s.carriers with staging := .commitPending set } }, done []) := by
  simp only [takeStageCommit, opened, passes]
  rfl

end

theorem stagingFault_carrier {set : StagingSet} {i field : Nat}
    (fault : carrierFirstFault set.entries = some (i, field)) :
    stagingFault set = some [0, BitVec.ofNat 8 i, BitVec.ofNat 8 field] := by
  simp only [stagingFault, fault, byte1_eq]
  rfl

theorem stagingFault_context {set : StagingSet} (passed : carrierFirstFault set.entries = none) {k : ConsistencyCheck}
    (fault : contextFirstFault set.workingCopy = some k) :
    stagingFault set = some
      [1, (match k.zone with | none => 0xFF | some z => BitVec.ofNat 8 (zoneCode z)), BitVec.ofNat 8 k.field] := by
  simp only [stagingFault, passed, fault, byte1_eq, Option.map_some]
  cases k.zone with
  | none => rfl
  | some z => rw [orFF, byte1_eq]; rfl

theorem stagingFault_none_iff (set : StagingSet) :
    stagingFault set = none ↔ carrierFirstFault set.entries = none ∧ contextFirstFault set.workingCopy = none := by
  unfold stagingFault
  split
  · next fault => simp [fault]
  · next passed => simp [passed]

theorem stageCommit_row {s : State} (ready : requestReady s) (tag : Byte) {r : Reply} {v : State}
    (taken : takeStageCommit (settle s) = (v, r)) :
    exec (.stageCommit tag) s = .next (replied tag .stageCommit r v) :=
  request_answered ready tag (req := .stageCommit) rfl taken

theorem stageCommitReportsTheFirstFailure : Claims.StageCommitReportsTheFirstFailure := by
  intro tag s ready u answer
  have row {r : Reply} {v : State} (taken : takeStageCommit u = (v, r)) : answer r v := stageCommit_row ready tag taken
  refine ⟨fun none => row (takeStageCommit_notOpen none), ?_⟩
  intro set opened floorFails anchorFails
  have reported {detail : List Byte} (fault : stagingFault set = some detail) :
      answer (refuse .inconsistent detail) u := row (takeStageCommit_refused opened fault)
  refine ⟨fun i lower => ?_, fun passes => ?_⟩
  · have before (j : Fin 8) (h : j < i) : entryFault set.entries set.entries[j] = none :=
      entryFault_none_iff.2 (lower j h)
    exact ⟨fun floor => reported (stagingFault_carrier (carrierFirstFault_of_first before (entryFault_floor floor))),
      fun floor anchor =>
        reported (stagingFault_carrier (carrierFirstFault_of_first before (entryFault_anchor floor anchor)))⟩
  · have passed : carrierFirstFault set.entries = none :=
      (carrierFirstFault_none_iff set.entries).2 fun i => entryFault_none_iff.2 (passes i)
    exact ⟨fun k fault => reported (stagingFault_context passed fault), fun checked =>
      row (takeStageCommit_commits opened ((stagingFault_none_iff set).2 ⟨passed, checked⟩))⟩

/-- Settles O31: the entry faults in index order, then the context's first fault. -/
theorem stageCommitChecksTheSet : Obligations.StageCommitChecksTheSet :=
  ⟨stageCommitReportsTheFirstFailure, consistencyOfTablesAndContexts⟩

end Sys2Proof.Machine
end

