-- ==== Sys2Proof/Proofs/StagedEdits.lean ====
section
/-!
PROOFS. STAGE_CARRIER and STAGE_PARAM (R25, R26, R145): each byte of a carrier entry with the field it is read as, the
entry's fields checked one after another, and a field of a context put and read by its number.
-/

namespace Sys2Proof.Machine

/-! ## Bytes read as fields (R188) -/

/-- Exactly the legal bytes are read, and what a byte is read as is written as that byte. -/
structure ReadsByte {α : Type} (read : Byte → Option α) (write : α → Byte) (legal : Byte → Prop) : Prop where
  accepts {b : Byte} : legal b → ∃ v, read b = some v ∧ write v = b
  refuses {b : Byte} : ¬ legal b → read b = none

/-- A byte that is none of the codes below it reads as a number is that number. -/
theorem byte_eq_of_toNat {b : Byte} {n : Nat} (h : b.toNat = n) (fits : n < 256 := by decide) :
    b = BitVec.ofNat 8 n := by
  subst h
  simp

theorem boolOfByte_reads : ReadsByte boolOfByte boolByte (fun b => b.toNat ≤ 1) where
  accepts {b} h := by
    obtain zero | one : b.toNat = 0 ∨ b.toNat = 1 := by omega
    · rw [byte_eq_of_toNat zero]; exact ⟨false, rfl, rfl⟩
    · rw [byte_eq_of_toNat one]; exact ⟨true, rfl, rfl⟩
  refuses {b} h := by
    have zero : b ≠ 0 := by rintro rfl; exact h (by decide)
    have one : b ≠ 1 := by rintro rfl; exact h (by decide)
    rw [boolOfByte, if_neg zero, if_neg one]

theorem roleOfByte_reads : ReadsByte roleOfByte (fun r => oneByte (roleCode r)) (fun b => b.toNat ≤ 1) where
  accepts {b} h := by
    obtain zero | one : b.toNat = 0 ∨ b.toNat = 1 := by omega
    · rw [byte_eq_of_toNat zero]; exact ⟨.anchor, rfl, rfl⟩
    · rw [byte_eq_of_toNat one]; exact ⟨.secondary, rfl, rfl⟩
  refuses {b} h := by
    have zero : b ≠ 0 := by rintro rfl; exact h (by decide)
    have one : b ≠ 1 := by rintro rfl; exact h (by decide)
    rw [roleOfByte, if_neg zero, if_neg one]

theorem carrierZoneOfByte_reads :
    ReadsByte carrierZoneOfByte (fun z => oneByte (carrierZoneCode z)) (fun b => b.toNat ≤ 2) where
  accepts {b} h := by
    obtain zero | one | two : b.toNat = 0 ∨ b.toNat = 1 ∨ b.toNat = 2 := by omega
    · rw [byte_eq_of_toNat zero]; exact ⟨.pa, rfl, rfl⟩
    · rw [byte_eq_of_toNat one]; exact ⟨.antA, rfl, rfl⟩
    · rw [byte_eq_of_toNat two]; exact ⟨.antB, rfl, rfl⟩
  refuses {b} h := by
    have zero : b ≠ 0 := by rintro rfl; exact h (by decide)
    have one : b ≠ 1 := by rintro rfl; exact h (by decide)
    have two : b ≠ 2 := by rintro rfl; exact h (by decide)
    rw [carrierZoneOfByte, if_neg zero, if_neg one, if_neg two]

theorem oneByte_toNat (b : Byte) : oneByte b.toNat = b := BitVec.ofNat_toNat 8 b |>.trans (BitVec.setWidth_eq b)

theorem indexOfByte_reads : ReadsByte indexOfByte (fun i => oneByte i.val) (fun b => b.toNat ≤ 7) where
  accepts {b} h := ⟨⟨b.toNat, Nat.lt_succ_of_le h⟩, dif_pos (Nat.lt_succ_of_le h), oneByte_toNat b⟩
  refuses h := dif_neg (mt Nat.le_of_lt_succ h)

theorem priorityOfByte_reads : ReadsByte priorityOfByte (fun p => oneByte p.val) (fun b => b.toNat ≤ 3) where
  accepts {b} h := ⟨⟨b.toNat, Nat.lt_succ_of_le h⟩, dif_pos (Nat.lt_succ_of_le h), oneByte_toNat b⟩
  refuses h := dif_neg (mt Nat.le_of_lt_succ h)

theorem codeOfByte_reads : ReadsByte codeOfByte oneByte (fun b => b.toNat ≤ 127) where
  accepts {b} h := ⟨b.toNat, if_pos h, oneByte_toNat b⟩
  refuses h := if_neg h

theorem gainOfByte_reads : ReadsByte gainOfByte (BitVec.ofInt 8) (fun b => -16 ≤ b.toInt ∧ b.toInt ≤ 15) where
  accepts {b} h := ⟨b.toInt, if_pos h, BitVec.ofInt_toInt⟩
  refuses h := if_neg h

/-! ## The bytes of a carrier entry (R193) -/

theorem signedByte_eq (v : Int) : signedBytes 1 v = [BitVec.ofInt 8 v] := by
  have fits : (v % 256).toNat < 256 := by omega
  have same : oneByte (v % 256).toNat = BitVec.ofInt 8 v := by
    apply BitVec.eq_of_toNat_eq
    rw [oneByte, BitVec.toNat_ofNat, BitVec.toNat_ofInt, Nat.mod_eq_of_lt fits]
    rfl
  exact (beBytes_one _).trans (congrArg (fun b => [b]) same)

theorem carrierBytes_eq (e : CarrierEntry) :
    carrierBytes e =
      [boolByte e.enabled, oneByte (roleCode e.role), oneByte e.anchor.val, oneByte (carrierZoneCode e.zone),
        oneByte e.priority.val, oneByte e.floor, oneByte e.ceiling, BitVec.ofInt 8 e.gain] := by
  simp only [carrierBytes, byte1, beBytes_one, signedByte_eq]
  rfl

/-! ## A carrier entry checked field by field (R25) -/

/-- The first check that fails is the `n`-th. -/
def firstFails (checks : List Bool) (n : Nat) : Prop :=
  checks[n]? = some false ∧ ∀ k, k < n → checks[k]? = some true

theorem firstFails_nil (n : Nat) : ¬ firstFails [] n := fun ⟨here, _⟩ => nomatch here

theorem firstFails_cons {check : Bool} {checks : List Bool} {n : Nat} (h : firstFails (check :: checks) n) :
    check = false ∧ n = 0 ∨ check = true ∧ ∃ m, n = m + 1 ∧ firstFails checks m := by
  obtain ⟨here, before⟩ := h
  cases n with
  | zero => exact .inl ⟨Option.some.inj here, rfl⟩
  | succ m =>
    exact .inr ⟨Option.some.inj (before 0 m.succ_pos), m, rfl, here,
      fun k hk => before (k + 1) (Nat.succ_lt_succ hk)⟩

/-- The checks on the eight bytes of a carrier entry, in field-number order (R25). -/
def entryChecks (r : RawCarrier) : List Bool :=
  [decide (r.enabled.toNat ≤ 1), decide (r.role.toNat ≤ 1), decide (r.anchor.toNat ≤ 7), decide (r.zone.toNat ≤ 2),
    decide (r.priority.toNat ≤ 3), decide (r.floor.toNat ≤ 127), decide (r.ceiling.toNat ≤ 127),
    decide (-16 ≤ r.gain.toInt ∧ r.gain.toInt ≤ 15)]

/-- One field read, then those after it: where the field's check fails its number is reported, and where it passes the
checks after it decide. -/
theorem reportsField {α β : Type} {read : Byte → Option α} {write : α → Byte} {legal : Byte → Prop}
    [DecidablePred legal] (reads : ReadsByte read write legal) {b : Byte} {checks : List Bool} {field : Nat}
    {next : α → Except Nat β} (later : ∀ v n, firstFails checks n → next v = .error (field + 1 + n)) (n : Nat)
    (h : firstFails (decide (legal b) :: checks) n) :
    (fieldOr field (read b) >>= next) = .error (field + n) := by
  obtain ⟨fails, rfl⟩ | ⟨passes, m, rfl, rest⟩ := firstFails_cons h
  · rw [reads.refuses (of_decide_eq_false fails)]
    rfl
  · obtain ⟨v, some, -⟩ := reads.accepts (of_decide_eq_true passes)
    rw [some, Nat.add_comm m, ← Nat.add_assoc]
    exact later v m rest

theorem readCarrierEntry_error {r : RawCarrier} {n : Nat} (h : firstFails (entryChecks r) n) :
    readCarrierEntry r = .error (1 + n) :=
  reportsField boolOfByte_reads (fun _ => reportsField roleOfByte_reads fun _ => reportsField indexOfByte_reads fun _ =>
    reportsField carrierZoneOfByte_reads fun _ => reportsField priorityOfByte_reads fun _ =>
    reportsField codeOfByte_reads fun _ => reportsField codeOfByte_reads fun _ =>
    reportsField gainOfByte_reads fun _ n none => absurd none (firstFails_nil n)) n h

/-- Legal bytes are read as the entry whose bytes they are. -/
theorem readCarrierEntry_ok {r : RawCarrier} (h : ∀ b ∈ entryChecks r, b = true) :
    ∃ e, readCarrierEntry r = .ok e ∧
      carrierBytes e = [r.enabled, r.role, r.anchor, r.zone, r.priority, r.floor, r.ceiling, r.gain] := by
  simp only [entryChecks, List.forall_mem_cons, decide_eq_true_eq] at h
  obtain ⟨h1, h2, h3, h4, h5, h6, h7, h8, -⟩ := h
  obtain ⟨enabled, read1, write1⟩ := boolOfByte_reads.accepts h1
  obtain ⟨role, read2, write2⟩ := roleOfByte_reads.accepts h2
  obtain ⟨anchor, read3, write3⟩ := indexOfByte_reads.accepts h3
  obtain ⟨zone, read4, write4⟩ := carrierZoneOfByte_reads.accepts h4
  obtain ⟨priority, read5, write5⟩ := priorityOfByte_reads.accepts h5
  obtain ⟨floor, read6, write6⟩ := codeOfByte_reads.accepts h6
  obtain ⟨ceiling, read7, write7⟩ := codeOfByte_reads.accepts h7
  obtain ⟨gain, read8, write8⟩ := gainOfByte_reads.accepts h8
  refine ⟨{ enabled, role, anchor, zone, priority, floor, ceiling, gain }, ?_, ?_⟩
  · rw [readCarrierEntry, read1, read2, read3, read4, read5, read6, read7, read8]
    rfl
  · rw [carrierBytes_eq, write1, write2, write3, write4, write5, write6, write7, write8]

/-! ## STAGE_CARRIER (R25) -/

theorem takeStageCarrier_notOpen {s : State} (none : ∀ set, s.carriers.staging ≠ .opened set) (index : Byte)
    (raw : RawCarrier) : takeStageCarrier index raw s = (s, refuse .notOpen []) := by
  unfold takeStageCarrier
  split
  · rfl
  · rfl
  · next set opened => exact absurd opened (none set)

section
variable {s : State} {set : StagingSet} (opened : s.carriers.staging = .opened set)
include opened

/-- The index is checked before the entry's fields (R25). -/
theorem takeStageCarrier_refused {index : Byte} {raw : RawCarrier} {n : Nat}
    (h : firstFails (decide (index.toNat ≤ 7) :: entryChecks raw) n) :
    takeStageCarrier index raw s = (s, refuse .badField [BitVec.ofNat 8 n]) := by
  obtain ⟨fails, rfl⟩ | ⟨passes, m, rfl, rest⟩ := firstFails_cons h
  · simp only [takeStageCarrier, opened, indexOfByte_reads.refuses (of_decide_eq_false fails), badField_eq]
  · obtain ⟨i, some, -⟩ := indexOfByte_reads.accepts (of_decide_eq_true passes)
    simp only [takeStageCarrier, opened, some, readCarrierEntry_error rest, badField_eq, Nat.add_comm 1]

theorem takeStageCarrier_edits {index : Byte} {raw : RawCarrier} {i : Fin 8} {e : CarrierEntry}
    (named : indexOfByte index = some i) (entry : readCarrierEntry raw = .ok e) :
    takeStageCarrier index raw s =
      ({ s with carriers := { s.carriers with staging := .opened { set with entries := set.entries.set i e } } },
        done []) := by
  simp only [takeStageCarrier, opened, named, entry]
  rfl

end

theorem stageCarrier_row {s : State} (ready : requestReady s) (tag index : Byte) (raw : RawCarrier) {r : Reply}
    {v : State} (taken : takeStageCarrier index raw (settle s) = (v, r)) :
    exec (.stageCarrier tag index raw) s = .next (replied tag (.stageCarrier index raw) r v) :=
  request_answered ready tag (req := .stageCarrier index raw) rfl taken

theorem stageCarrierReplacesOneStagedEntry : Claims.StageCarrierReplacesOneStagedEntry := by
  intro tag index raw s ready u answer legal
  have row {r : Reply} {v : State} (taken : takeStageCarrier index raw u = (v, r)) : answer r v :=
    stageCarrier_row ready tag index raw taken
  refine ⟨fun none => row (takeStageCarrier_notOpen none index raw), fun set opened => ⟨fun n _ before here => ?_, ?_⟩⟩
  · exact row (takeStageCarrier_refused opened ⟨here, before⟩)
  · intro all
    obtain ⟨passes, rest⟩ := List.forall_mem_cons.1 all
    obtain ⟨i, named, -⟩ := indexOfByte_reads.accepts (of_decide_eq_true passes)
    obtain ⟨e, entry, bytes⟩ := readCarrierEntry_ok rest
    exact ⟨i, e, indexOfByte_some named, bytes, row (takeStageCarrier_edits opened named entry)⟩

/-! ## The fields of a context by number (R145) -/

theorem fieldRange_none {f : Nat} (h : f = 0 ∨ 29 < f) : fieldRange f = none := by
  unfold fieldRange
  split
  case h_30 => rfl
  all_goals exact absurd h (by decide)

theorem fieldRange_some {f : Nat} {range : Nat × Nat} (h : fieldRange f = some range) : 1 ≤ f ∧ f ≤ 29 := by
  by_contra beyond
  exact nomatch (fieldRange_none (by omega)).symm.trans h

theorem inFieldRange_iff {f lo hi : Nat} (range : fieldRange f = some (lo, hi)) (v : Nat) :
    inFieldRange f v = true ↔ lo ≤ v ∧ v ≤ hi := by
  simp only [inFieldRange, range, decide_eq_true_eq]

/-- Fields from 10 on hold one value for the part (R145). -/
theorem contextGet_single (c : Context) {f : Nat} (single : 9 < f) (z : Zone) :
    contextGet c f z = contextGet c f .pa := by
  unfold contextGet
  split
  case h_1 | h_2 | h_3 | h_4 | h_5 | h_6 | h_7 | h_8 | h_9 => exact absurd single (by decide)
  all_goals rfl

/-- The fields of the record: numbers 1 to 9 with every zone, 10 to 29 once (R150). -/
theorem mem_contextLayout {f : Nat} {z : Zone} (low : 1 ≤ f) (high : f ≤ 29) (single : 9 < f → z = .pa) :
    (f, z) ∈ contextLayout := by
  rw [contextLayout, List.mem_append, List.mem_flatMap, List.mem_map]
  by_cases zoned : f ≤ 9
  · exact .inl ⟨f, by simp; omega, List.mem_map.2 ⟨z, mem_zones z, rfl⟩⟩
  · exact .inr ⟨f, by simp; omega, by rw [single (Nat.lt_of_not_le zoned)]⟩

theorem layout_ranged : ∀ p ∈ contextLayout, ∃ range, fieldRange p.1 = some range := by
  simp only [← Option.isSome_iff_exists]
  decide

theorem contextInRange_ranges (c : Context) :
    contextInRange c = true ↔ ∀ (f lo hi : Nat) (z : Zone), fieldRange f = some (lo, hi) →
      lo ≤ contextGet c f z ∧ contextGet c f z ≤ hi := by
  rw [contextInRange_iff]
  constructor
  · intro listed f lo hi z range
    obtain ⟨low, high⟩ := fieldRange_some range
    rw [← inFieldRange_iff range]
    by_cases single : 9 < f
    · rw [contextGet_single c single]
      exact listed (f, .pa) (mem_contextLayout low high fun _ => rfl)
    · exact listed (f, z) (mem_contextLayout low high fun other => absurd other single)
  · rintro ranges ⟨f, z⟩ listed
    obtain ⟨⟨lo, hi⟩, range⟩ := layout_ranged _ listed
    exact (inFieldRange_iff range _).2 (ranges f lo hi z range)

theorem fieldRanges : Claims.FieldRanges :=
  ⟨⟨rfl, rfl, rfl, rfl, rfl, rfl, rfl, rfl, rfl, rfl, rfl, rfl, rfl, rfl, rfl, rfl, rfl, rfl, rfl⟩,
    fun _ => fieldRange_none, contextInRange_ranges⟩

theorem criticalActionCode_eq (a : CriticalAction) : criticalActionCode a = if a = .inhibit then 1 else 0 := by
  cases a <;> rfl

theorem fieldsByNumber : Claims.FieldsByNumber := by
  intro c z flag
  refine ⟨?_, rfl⟩
  rw [← criticalActionCode_eq]
  rfl

/-! ### A field put and read -/

theorem zoneGet_zoneSet {α : Type} (p : PerZone α) (z y : Zone) (v : α) :
    zoneGet (zoneSet p z v) y = if y = z then v else zoneGet p y := by
  split
  · next same => rw [same, zoneGet_zoneSet_same]
  · next other => exact zoneGet_zoneSet_other other p v

/-- A put leaves the fields of other numbers, number by number. -/
theorem contextGet_contextPut_other (c : Context) {n g : Nat} (other : g ≠ n) (z y : Zone) (v : Nat) :
    contextGet (contextPut c n z v) g y = contextGet c g y := by
  unfold contextPut
  split
  case h_30 => rfl
  all_goals
    unfold contextGet
    split
    all_goals try rfl
    -- What is left is the field of the number put.
    exact absurd rfl other

/-- The field put holds the value, for the zone named where it has one for each zone. -/
theorem contextGet_contextPut_same (c : Context) {n : Nat} (z y : Zone) {v : Nat} (range : inFieldRange n v = true) :
    contextGet (contextPut c n z v) n y = if n ≤ 9 → y = z then v else contextGet c n y := by
  unfold contextPut
  split
  case h_1 | h_2 | h_3 | h_4 | h_5 | h_6 | h_7 | h_8 => simp [contextGet, zoneGet_zoneSet]
  case h_9 =>
    have code := criticalActionCode_of (le_one_of_inFieldRange rfl range)
    simp only [contextGet, zoneGet_zoneSet]
    split <;> simp_all
  case h_16 | h_22 | h_24 | h_25 | h_26 | h_27 | h_28 =>
    have code := boolCode_of (le_one_of_inFieldRange rfl range)
    simpa [contextGet] using code
  case h_29 =>
    have slot : v ≤ 5 := (of_decide_eq_true range).2
    simpa [contextGet] using Nat.lt_succ_of_le slot
  case h_30 =>
    have unknown : fieldRange n = none := by
      unfold fieldRange
      split <;> trivial
    simp [inFieldRange, unknown] at range
  all_goals simp [contextGet]

/-- A field put and then read, by number and zone. -/
theorem contextGet_contextPut (c : Context) {n : Nat} (z : Zone) {v : Nat} (range : inFieldRange n v = true) (g : Nat)
    (y : Zone) : contextGet (contextPut c n z v) g y = if g = n ∧ (n ≤ 9 → y = z) then v else contextGet c g y := by
  by_cases same : g = n
  · subst same
    rw [contextGet_contextPut_same c z y range]
    simp only [true_and]
  · rw [contextGet_contextPut_other c same, if_neg fun both => same both.1]

/-! ## The edit STAGE_PARAM names (R26) -/

theorem slotsPerFrameOf_slotCount (n : SlotsPerFrame) : slotsPerFrameOf (slotCount n) = some n := by cases n <;> rfl

theorem slotsPerFrameOf_none {v : Nat} (h : ∀ n, slotCount n ≠ v) : slotsPerFrameOf v = none := by
  unfold slotsPerFrameOf
  split
  case h_1 => exact absurd rfl (h .one)
  case h_2 => exact absurd rfl (h .two)
  case h_3 => exact absurd rfl (h .four)
  case h_4 => exact absurd rfl (h .eight)
  case h_5 => exact absurd rfl (h .sixteen)
  case h_6 => rfl

theorem zoneOf_some {n : Nat} (h : n < 4) : ∃ z, zoneOf n = some z ∧ zoneCode z = n := by
  revert n
  decide

theorem zoneOf_none {n : Nat} (h : 4 ≤ n) : zoneOf n = none := by
  unfold zoneOf
  split
  case h_5 => rfl
  all_goals exact absurd h (by decide)

theorem zoneOf_zoneCode (z : Zone) : zoneOf (zoneCode z) = some z := by cases z <;> rfl

theorem zoneCode_inj {y z : Zone} (h : zoneCode y = zoneCode z) : y = z :=
  Option.some.inj (by rw [← zoneOf_zoneCode y, h, zoneOf_zoneCode])

/-- The zone an edit names: that of the zone byte for a per-zone field, and zone 0 otherwise. -/
def editedZone (field zone : Byte) : Option Zone := if fieldPerZone field.toNat then zoneOf zone.toNat else some .pa

theorem fieldPerZone_iff {f : Nat} (low : 1 ≤ f) : fieldPerZone f = true ↔ f ≤ 9 := by
  simp [fieldPerZone, low]

theorem editedZone_some {field zone : Byte} (low : 1 ≤ field.toNat) (legal : field.toNat ≤ 9 → zone.toNat < 4) :
    ∃ z, editedZone field zone = some z ∧
      ∀ y, (field.toNat ≤ 9 → y = z) ↔ (field.toNat ≤ 9 → zoneCode y = zone.toNat) := by
  by_cases zoned : field.toNat ≤ 9
  · obtain ⟨z, some, code⟩ := zoneOf_some (legal zoned)
    refine ⟨z, by rw [editedZone, if_pos ((fieldPerZone_iff low).2 zoned), some], fun y => ?_⟩
    rw [← code]
    exact ⟨fun same h => by rw [same h], fun same h => zoneCode_inj (same h)⟩
  · refine ⟨.pa, by rw [editedZone, if_neg (mt (fieldPerZone_iff low).1 zoned)], fun y => ?_⟩
    exact ⟨fun _ h => absurd h zoned, fun _ h => absurd h zoned⟩

section
variable (set : StagingSet) {field : Byte} (zone : Byte)

theorem stageEdit_slots (zero : field.toNat = 0) (n : SlotsPerFrame) :
    stageEdit set field zone (slotCount n) = .ok { set with slotsPerFrame := n } := by
  rw [stageEdit, if_pos zero, slotsPerFrameOf_slotCount]

theorem stageEdit_noSlots (zero : field.toNat = 0) {v : Nat} (none : ∀ n, slotCount n ≠ v) :
    stageEdit set field zone v = .error 2 := by
  rw [stageEdit, if_pos zero, slotsPerFrameOf_none none]

theorem stageEdit_unlisted (beyond : 29 < field.toNat) (v : Nat) : stageEdit set field zone v = .error 0 := by
  have listed : field.toNat ≠ 0 := by omega
  rw [stageEdit, if_neg listed, fieldRange_none (.inr beyond)]
  rfl

theorem stageEdit_field {range : Nat × Nat} (listed : fieldRange field.toNat = some range) (v : Nat) :
    stageEdit set field zone v = stageField set field.toNat (editedZone field zone) v := by
  obtain ⟨low, -⟩ := fieldRange_some listed
  rw [stageEdit, if_neg (Nat.ne_of_gt low), listed]
  rfl

theorem stageEdit_noZone (low : 1 ≤ field.toNat) (zoned : field.toNat ≤ 9) (beyond : 4 ≤ zone.toNat) (v : Nat) :
    stageEdit set field zone v = .error 1 := by
  obtain ⟨range, listed⟩ := layout_ranged (field.toNat, .pa) (mem_contextLayout low (by omega) fun _ => rfl)
  rw [stageEdit_field set zone listed, editedZone, if_pos ((fieldPerZone_iff low).2 zoned), zoneOf_none beyond]
  rfl

end

/-! ## STAGE_PARAM (R26) -/

theorem takeStageParam_notOpen {s : State} (none : ∀ set, s.carriers.staging ≠ .opened set) (field zone : Byte)
    (value : Word32) : takeStageParam field zone value s = (s, refuse .notOpen []) := by
  unfold takeStageParam
  split
  · rfl
  · rfl
  · next set opened => exact absurd opened (none set)

section
variable {s : State} {set : StagingSet} (opened : s.carriers.staging = .opened set) {field zone : Byte} {value : Word32}
include opened

theorem takeStageParam_refused {item : Nat} (fails : stageEdit set field zone value.toNat = .error item) :
    takeStageParam field zone value s = (s, refuse .badField [BitVec.ofNat 8 item]) := by
  simp only [takeStageParam, opened, fails, badField_eq]

theorem takeStageParam_edits {edited : StagingSet} (passes : stageEdit set field zone value.toNat = .ok edited) :
    takeStageParam field zone value s =
      ({ s with carriers := { s.carriers with staging := .opened edited } }, done []) := by
  simp only [takeStageParam, opened, passes]
  rfl

end

theorem stageParam_row {s : State} (ready : requestReady s) (tag field zone : Byte) (value : Word32) {r : Reply}
    {v : State} (taken : takeStageParam field zone value (settle s) = (v, r)) :
    exec (.stageParam tag field zone value) s = .next (replied tag (.stageParam field zone value) r v) :=
  request_answered ready tag (req := .stageParam field zone value) rfl taken

theorem stageParamEditsOneStagedField : Claims.StageParamEditsOneStagedField := by
  intro tag field zone value s ready u f v answer put
  have row {r : Reply} {w : State} (taken : takeStageParam field zone value u = (w, r)) : answer r w :=
    stageParam_row ready tag field zone value taken
  refine ⟨fun none => row (takeStageParam_notOpen none field zone value), fun set opened => ?_⟩
  have refused {item : Nat} (fails : stageEdit set field zone v = .error item) :
      answer (refuse .badField [BitVec.ofNat 8 item]) u := row (takeStageParam_refused opened fails)
  refine ⟨fun beyond => refused (stageEdit_unlisted set zone beyond v), fun zero n count => ?_,
    fun zero none => refused (stageEdit_noSlots set zone zero none),
    fun low zoned beyond => refused (stageEdit_noZone set zone low zoned beyond v), fun lo hi range legal => ?_⟩
  · have edited := stageEdit_slots set zone zero n
    rw [count] at edited
    exact row (takeStageParam_edits opened edited)
  obtain ⟨low, -⟩ := fieldRange_some range
  obtain ⟨z, named, same⟩ := editedZone_some low legal
  have edit := stageEdit_field set zone range v
  rw [named, stageField] at edit
  refine ⟨fun outside => refused ?_, fun above under => ?_⟩
  · rw [edit, if_neg]
    rw [inFieldRange_iff range]
    omega
  · have within : inFieldRange f v = true := (inFieldRange_iff range v).2 ⟨above, under⟩
    rw [if_pos within] at edit
    refine ⟨contextPut set.workingCopy f z v, row (takeStageParam_edits opened edit), fun g y _ _ => ?_⟩
    rw [contextGet_contextPut _ z within]
    simp only [same, f]

/-- Settles O30: the entry's fields and the edit's items are checked one after another, and a field put is read back. -/
theorem stagedEditsAreChecked : Obligations.StagedEditsAreChecked :=
  ⟨stageCarrierReplacesOneStagedEntry, stageParamEditsOneStagedField, fieldRanges, fieldsByNumber⟩

end Sys2Proof.Machine
end

