-- ==== Sys2Proof/Proofs/ConfigurationRequests.lean ====
section
/-!
PROOFS. What a request does to the configuration, said once: the requests that stage move the staging state, EXCHANGE
and RELOAD set a switch pending, RESET_PART resets, and every other request leaves carriers, contexts and zones apart.
-/

namespace Sys2Proof.Machine

/-! ## The ranges of a staged entry and a staged context (R18, R145) -/

theorem fieldOr_bind_ok {α β : Type} {field : Nat} {o : Option α} {next : α → Except Nat β} {r : β}
    (h : (fieldOr field o >>= next) = .ok r) : ∃ v, o = some v ∧ next v = .ok r := by
  cases o with
  | none => exact nomatch h
  | some v => exact ⟨v, rfl, h⟩

theorem codeOfByte_range {b : Byte} {v : Nat} (h : codeOfByte b = some v) : v ≤ 127 := by
  unfold codeOfByte at h
  split at h
  · next legal => cases h; exact legal
  · cases h

theorem gainOfByte_range {b : Byte} {v : Int} (h : gainOfByte b = some v) : -16 ≤ v ∧ v ≤ 15 := by
  unfold gainOfByte at h
  split at h
  · next legal => cases h; exact legal
  · cases h

/-- An entry read from its bytes has its codes and its gain offset in the ranges of R18. -/
theorem readCarrierEntry_inRange {r : RawCarrier} {e : CarrierEntry} (h : readCarrierEntry r = .ok e) :
    entryInRange e = true := by
  obtain ⟨enabled, -, h⟩ := fieldOr_bind_ok h
  obtain ⟨role, -, h⟩ := fieldOr_bind_ok h
  obtain ⟨anchor, -, h⟩ := fieldOr_bind_ok h
  obtain ⟨zone, -, h⟩ := fieldOr_bind_ok h
  obtain ⟨priority, -, h⟩ := fieldOr_bind_ok h
  obtain ⟨floor, floorRead, h⟩ := fieldOr_bind_ok h
  obtain ⟨ceiling, ceilingRead, h⟩ := fieldOr_bind_ok h
  obtain ⟨gain, gainRead, h⟩ := fieldOr_bind_ok h
  cases h
  simp [entryInRange, codeOfByte_range floorRead, codeOfByte_range ceilingRead, gainOfByte_range gainRead]

/-- A value in its field's range, put into a context in range, leaves it in range (R26, R145). -/
theorem contextPut_inRange {c : Context} (kept : contextInRange c = true) {n v : Nat} (range : inFieldRange n v = true)
    (z : Zone) : contextInRange (contextPut c n z v) = true := by
  rw [contextInRange_iff] at kept ⊢
  intro p listed
  rw [contextGet_contextPut c z range]
  split
  · next put => rw [put.1]; exact range
  · exact kept p listed

/-- What STAGE_PARAM can make of a set: slots per frame replaced, or a value in its field's range put (R26). -/
theorem stageEdit_ok {set edited : StagingSet} {field zone : Byte} {v : Nat}
    (h : stageEdit set field zone v = .ok edited) :
    (∃ n, edited = { set with slotsPerFrame := n }) ∨
      ∃ n z, inFieldRange n v = true ∧ edited = { set with workingCopy := contextPut set.workingCopy n z v } := by
  unfold stageEdit at h
  split at h
  · split at h
    · next n _ => cases h; exact .inl ⟨n, rfl⟩
    · cases h
  · split at h
    · cases h
    · unfold stageField at h
      split at h
      · cases h
      · next z _ =>
        split at h
        · next range => cases h; exact .inr ⟨_, z, range, rfl⟩
        · cases h

/-! ## The staging state moved (R24 to R28) -/

/-- The staging state a request can leave where it finds `s`. -/
inductive StagingMove (s : State) : Staging → Prop where
  | stays : StagingMove s s.carriers.staging
  | opens (free : s.policy.pendingSwitch = none) :
      StagingMove s (.opened
        { entries := s.carriers.entries, slotsPerFrame := s.carriers.slotsPerFrame,
          workingCopy := s.policy.workingCopy })
  | entry {set : StagingSet} (opened : s.carriers.staging = .opened set) (i : Fin 8) {e : CarrierEntry}
      (range : entryInRange e = true) : StagingMove s (.opened { set with entries := set.entries.set i e })
  | slots {set : StagingSet} (opened : s.carriers.staging = .opened set) (n : SlotsPerFrame) :
      StagingMove s (.opened { set with slotsPerFrame := n })
  | field {set : StagingSet} (opened : s.carriers.staging = .opened set) (n : Nat) (z : Zone) {v : Nat}
      (range : inFieldRange n v = true) :
      StagingMove s (.opened { set with workingCopy := contextPut set.workingCopy n z v })
  | commits {set : StagingSet} (opened : s.carriers.staging = .opened set) (checked : stagingFault set = none) :
      StagingMove s (.commitPending set)
  | drops : StagingMove s .closed

/-- `t` is `s` with its staging state moved, and with changes raised at most. -/
def stagingMoved (s t : State) : Prop :=
  onlyChanges [.carriers, .changes] s t ∧ ∃ x, StagingMove s x ∧ t.carriers = { s.carriers with staging := x }

theorem stagingMoved_refl (s : State) : stagingMoved s s := ⟨frame_refl _ s, _, .stays, rfl⟩

theorem setStaging_moved {s : State} {x : Staging} (move : StagingMove s x) : stagingMoved s (setStaging x s) :=
  ⟨frame_wider (setStaging_frame x s) (by simp), x, move, rfl⟩

theorem takeStageOpen_moved (s : State) : stagingMoved s (takeStageOpen s).1 := by
  unfold takeStageOpen
  split
  · split
    · exact stagingMoved_refl s
    · next free => exact setStaging_moved (.opens (by simpa using free))
  · exact stagingMoved_refl s
  · exact stagingMoved_refl s

theorem takeStageCarrier_moved (index : Byte) (raw : RawCarrier) (s : State) :
    stagingMoved s (takeStageCarrier index raw s).1 := by
  unfold takeStageCarrier
  split
  · exact stagingMoved_refl s
  · exact stagingMoved_refl s
  · next set opened =>
    split
    · exact stagingMoved_refl s
    · exact stagingMoved_refl s
    · next i e _ entry => exact setStaging_moved (.entry opened i (readCarrierEntry_inRange entry))

theorem takeStageParam_moved (field zone : Byte) (value : Word32) (s : State) :
    stagingMoved s (takeStageParam field zone value s).1 := by
  unfold takeStageParam
  split
  · exact stagingMoved_refl s
  · exact stagingMoved_refl s
  · next set opened =>
    split
    · exact stagingMoved_refl s
    · next edited edit =>
      obtain ⟨n, rfl⟩ | ⟨n, z, range, rfl⟩ := stageEdit_ok edit
      · exact setStaging_moved (.slots opened n)
      · exact setStaging_moved (.field opened n z range)

theorem takeStageCommit_moved (s : State) : stagingMoved s (takeStageCommit s).1 := by
  unfold takeStageCommit
  split
  · exact stagingMoved_refl s
  · exact stagingMoved_refl s
  · next set opened =>
    split
    · exact stagingMoved_refl s
    · next checked => exact setStaging_moved (.commits opened checked)

theorem takeStageDrop_moved (s : State) : stagingMoved s (takeStageDrop s).1 := by
  unfold takeStageDrop
  split
  · exact stagingMoved_refl s
  · exact setStaging_moved .drops
  · refine ⟨frame_then (setStaging_frame _ s) (raiseChange_frame _ _), _, .drops, ?_⟩
    rw [frame_carriers (raiseChange_frame _ _) (by decide)]
    rfl

/-! ## Requests -/

/-- The blocks that hold neither the configuration nor the zones. -/
abbrev plainBlocks : List Block :=
  [.timing, .supply, .engine, .openGrants, .ring, .inhibit, .changes, .link, .pins, .loaded, .image, .work, .clock]

/-- What a request can do to the configuration. -/
inductive ConfigurationRequest (s : State) : State → Prop where
  | apart {t : State} (h : onlyChanges plainBlocks s t) : ConfigurationRequest s t
  | staging {t : State} (h : stagingMoved s t) : ConfigurationRequest s t
  | switch (w : Switch) (closed : stagingExists s = false) :
      ConfigurationRequest s (s.setPolicy { s.policy with pendingSwitch := some w })
  | reset : ConfigurationRequest s (softReset s)

theorem ConfigurationRequest.refl (s : State) : ConfigurationRequest s s := .apart (frame_refl _ s)

theorem requestSwitch_configuration (w : Switch) (s : State) : ConfigurationRequest s (requestSwitch w s).1 := by
  unfold requestSwitch
  split
  · exact .refl s
  · next closed =>
    split
    · exact .refl s
    · exact .switch w (by simpa using closed)

/-- Of the requests that do not stage, switch or reset, none reaches the configuration or the zones. -/
theorem ownRequest_configuration (req : Request) (s : State) : ConfigurationRequest s (ownRequest req s).1 := by
  obtain ⟨carrier, param, zone, summary, ring, trace⟩ := reads_change_nothing s
  have unchanged : ∀ {t : State}, t = s → ConfigurationRequest s t := fun h => h ▸ .refl s
  cases req with
  | align f => exact .apart (frame_wider (takeAlign_frame f s) (by simp))
  | grantReq f slot ps => exact .apart (frame_wider (takeGrantReq_frame f slot ps s) (by simp))
  | txReport f slot ps => exact .apart (frame_wider (takeTxReport_frame f slot ps s) (by simp))
  | stageOpen => exact .staging (takeStageOpen_moved s)
  | stageCarrier i e => exact .staging (takeStageCarrier_moved i e s)
  | stageParam f z v => exact .staging (takeStageParam_moved f z v s)
  | stageCommit => exact .staging (takeStageCommit_moved s)
  | stageDrop => exact .staging (takeStageDrop_moved s)
  | readCarrier i => exact unchanged (carrier i)
  | readParam i => exact unchanged (param i)
  | readZone z => exact unchanged (zone z)
  | readState => exact unchanged summary
  | exchange k =>
    simp only [ownRequest, takeExchange]
    split
    · exact requestSwitch_configuration _ s
    · exact .refl s
  | reload => exact requestSwitch_configuration .reload s
  | ringRead start count => exact unchanged (ring start count)
  | ringRelease half => exact .apart (frame_wider (takeRingRelease_frame half s) (by simp))
  | changesRead => exact .apart (frame_wider (takeChangesRead_frame s) (by simp))
  | changesAck sources => exact .apart (by simp [onlyChanges_iff, ownRequest, takeChangesAck])
  | changesMask mask mode => exact .apart (frame_wider (takeChangesMask_frame mask mode s) (by simp))
  | traceSet f slot action => exact .apart (frame_wider (takeTraceSet_frame f slot action s) (by simp))
  | traceRead => exact unchanged trace
  | resetPart => exact .reset

/-! ## The other operations on contexts -/

/-- What a fault event leaves of the configuration: the contexts as they stand, with an Exit Record at most, or those of
a fallback exit (R155). -/
theorem takeFault_configuration (c : FaultClass) (s : State) :
    takeFault c s = s ∨
      (∃ r, onlyChanges [.policy, .changes] s (takeFault c s) ∧
        (takeFault c s).policy = { s.policy with exitRecord := some r }) ∨
      takeFault c s = fallbackExit c s.policy.workingCopy.fallback s := by
  have written (r : ExitRecord) : onlyChanges [.policy, .changes] s (writeExit r s) ∧
      (writeExit r s).policy = { s.policy with exitRecord := some r } :=
    ⟨writeExit_frame r s, by rw [writeExit_eq]; rfl⟩
  obtain ignored | merged | absorbed | ⟨-, left⟩ := takeFault_cases c s
  · exact .inl ignored
  · rw [merged]
    unfold mergeExit
    split
    · exact .inl rfl
    · exact .inr (.inl ⟨_, written _⟩)
  · rw [absorbed]
    exact .inr (.inl ⟨_, written _⟩)
  · exact .inr (.inr left)

end Sys2Proof.Machine
end

