-- ==== Sys2Proof/Proofs/ConfigurationKept.lean ====
section
/-!
PROOFS. The configuration as an invariant (R21, R24, R51, R147, R151, R158). An apply keeps it because the set it makes
live is the committed one, which a commit has checked; so the induction over the rows is packaged once more, with that
premise. Carriers, contexts and zones are reached by the few operations that `KeptByConfiguration` lists.
-/

namespace Sys2Proof.Machine

/-! ## The induction over the rows -/

/-- A property of the state that every operation reaching carriers, contexts or zones keeps. -/
structure KeptByConfiguration (P : State → Prop) : Prop where
  apart : ∀ {s t : State}, onlyChanges plainBlocks s t → P s → P t
  queue : ∀ {s : State} (rest : List Instr), P s → P { s with pending := rest }
  part : ∀ (w : FrameWork) {s : State}, P s → P (doWork w s)
  sample : ∀ (ts : PerZone Raw) {s : State}, P s → P (takeSample ts s)
  apply : ∀ {s : State} {set : StagingSet}, s.carriers.staging = .commitPending set → P s → P (applySet set s)
  switch : ∀ (w : Switch) {s : State}, P s → P (applySwitch w s)
  hold : ∀ {s : State}, P s → P (clearHold s)
  fault : ∀ (c : FaultClass) {s : State}, P s → P (takeFault c s)
  request : ∀ {s t : State}, ConfigurationRequest s t → P s → P t
  start : ∀ (lv : Levels) {s : State}, P s → P (startBlocks lv s)
  power : ∀ (t : Moment) (image : Vector Byte imageSize) (lv : Levels) (pending : List Instr),
    P (poweredOn t image lv pending)

namespace KeptByConfiguration

section operations
variable {P : State → Prop} (k : KeptByConfiguration P)
include k

theorem within {bs : List Block} {s t : State} (h : onlyChanges bs s t) (p : P s) (sub : bs ⊆ plainBlocks := by simp) :
    P t := k.apart (frame_wider h sub) p

theorem work {s : State} (w : Outstanding) (p : P s) : P (s.setWork w) :=
  k.within (bs := [.work]) (by simp [onlyChanges_iff]) p

theorem link {s : State} (l : LinkPort) (p : P s) : P (s.setLink l) := k.within (setLink_frame l s) p

/-! ### The work of a frame event -/

theorem lateWork (w : FrameWork) {s : State} (p : P s) : P (takeLateWork s w) := by
  unfold takeLateWork
  split
  · exact k.part w (k.work _ p)
  · exact p

theorem lateWorks (ws : List FrameWork) {s : State} (p : P s) : P (takeLateWorks ws s) := by
  induction ws generalizing s with
  | nil => exact p
  | cons w ws ih => exact ih (k.lateWork w p)

/-- A frame event on a record of the unit: the record, the pins and the work are not part of the configuration. -/
theorem timedEvent (lv : Levels) (late : List FrameWork) (u : Timing) {s : State} (p : P s) :
    P (frameEvent lv late (s.setTiming u)) :=
  k.lateWorks _ (k.within (bs := [.timing, .pins, .work]) (by simp [onlyChanges_iff]) p)

theorem sampleIfDue (ts : PerZone Raw) {s : State} (p : P s) : P (sampleIfDue ts s) := by
  unfold Machine.sampleIfDue
  split
  · exact k.sample ts (k.lateWork _ p)
  · exact p

theorem closeIfDue {s : State} (p : P s) : P (closeIfDue s) := by
  unfold Machine.closeIfDue
  split
  · exact k.within (closeInterval_frame _) (k.lateWork _ p)
  · exact p

theorem applyIfDue (first : List FrameWork) {s : State} (p : P s) : P (applyIfDue first s) := by
  unfold Machine.applyIfDue
  split
  · have taken := k.work { (takeLateWorks first s).work with applyDue := false } (k.lateWorks first p)
    simp only [applyCommitted]
    split
    · exact taken
    · exact taken
    · next committed => exact k.apply committed taken
  · exact p

theorem clearHoldIfDue {s : State} (p : P s) : P (clearHoldIfDue s) := by
  unfold Machine.clearHoldIfDue
  split
  · exact k.hold p
  · exact p

theorem switchIfDue (first : List FrameWork) {s : State} (p : P s) : P (switchIfDue first s) := by
  unfold Machine.switchIfDue
  split
  · have cleared := k.clearHoldIfDue (k.lateWorks first p)
    simp only [applyPendingSwitch]
    split
    · exact k.work _ cleared
    · exact k.switch _ (k.work _ cleared)
  · exact p

theorem faultIfRaised (c : FaultClass) (first : List FrameWork) {s : State} (p : P s) :
    P (faultIfRaised c first s) := by
  unfold Machine.faultIfRaised
  split
  · exact k.fault c (k.work _ (k.lateWorks first p))
  · exact p

theorem drainFaults (n : Nat) {s : State} (p : P s) : P (drainFaults n s) := by
  induction n generalizing s with
  | zero => exact p
  | succ n ih =>
    unfold Machine.drainFaults
    split
    · exact p
    · exact ih (k.fault _ (k.work _ p))

theorem settle {s : State} (p : P s) : P (settle s) := by
  rw [settle_eq]
  exact k.within (drainNotices_frame _) (k.drainFaults _ (k.within (coastLimitIfDue_frame _)
    (k.within (alignTimeoutIfDue_frame _) (k.switchIfDue [] (k.applyIfDue [] (k.clearHoldIfDue (k.sampleIfDue _
      (k.closeIfDue (k.lateWorks frameWorks p)))))))))

theorem settledAt (t : Moment) {s : State} (p : P s) : P (advanceTo t (Machine.settle s)) :=
  k.within (advanceTo_frame t _) (k.settle p)

/-! ### The pacer and the strobe -/

theorem timedChange (c : Change) (lv : Levels) (late : List FrameWork) (u : Timing) {s : State} (p : P s) :
    P (raiseChange c (frameEvent lv late (s.setTiming u))) :=
  k.within (raiseChange_frame c _) (k.timedEvent lv late u p)

theorem pacerExpires (lv : Levels) (late : List FrameWork) {s : State} (p : P s) : P (pacerExpires lv late s) := by
  simp only [Machine.pacerExpires]
  split
  · exact p
  · exact k.timedEvent lv late _ (k.settledAt _ p)

theorem strobeTaken (lv : Levels) (late : List FrameWork) {s : State} (p : P s) : P (strobeTaken lv late s) := by
  unfold Machine.strobeTaken
  split
  · exact p
  · exact k.timedChange _ lv late _ p
  · unfold strobeCounts
    split
    · exact p
    · exact k.timedEvent lv late _ p
  · unfold strobeRelocks
    split
    · exact k.within (bs := [.timing, .changes]) (frame_then (setTiming_frame _ s) (raiseChange_frame _ _)) p
    · exact k.timedChange _ lv late _ p

theorem strobeLost (lv : Levels) (late : List FrameWork) {s : State} (p : P s) : P (strobeLost lv late s) := by
  simp only [Machine.strobeLost]
  split
  · exact p
  · exact k.timedChange _ lv late _ (k.settledAt _ p)

/-! ### Requests -/

theorem answerRequest (tag : Byte) (req : Request) {s : State} (p : P s) : P (answerRequest tag req s) := by
  unfold Machine.answerRequest
  split
  · exact k.link _ (k.request (ownRequest_configuration req s) p)
  · exact k.link _ p

theorem answerFrame (f : RxFrame) {s : State} (p : P s) : P (answerFrame f s) := by
  unfold Machine.answerFrame
  split
  · split
    · exact k.answerRequest _ _ p
    · exact k.link _ p
  · exact k.link _ p

theorem decodeOldest (t : Moment) {s : State} (p : P s) : P (decodeOldest t s) := by
  simp only [Machine.decodeOldest]
  split
  · exact p
  · split
    · exact k.answerFrame _ (k.link _ (k.settle (k.within (advanceTo_frame t s) p)))
    · exact p

theorem arriveRequest (tag : Byte) (req : Request) {s : State} (p : P s) : P (arriveRequest tag req s) := by
  unfold Machine.arriveRequest
  split
  · exact k.answerRequest tag req (k.settle p)
  · exact k.link _ p

/-! ### Rows and steps -/

theorem startUpCompletes (t : Moment) (lv : Levels) {s : State} (p : P s) : P (startUpCompletes t lv s) := by
  unfold Machine.startUpCompletes
  split
  · exact k.link _ (k.within (storeChange_frame _) (k.start lv (k.within (advanceTo_frame t s) p)))
  · exact p

theorem taken {s t : State} (h : Taken s t) (p : P s) : P t := by
  cases h with
  | startUp m lv => exact k.startUpCompletes m lv p
  | pacer lv late => exact k.pacerExpires lv late p
  | strobe m lv late => exact k.strobeTaken lv late (k.settledAt m p)
  | strobeLoss lv late => exact k.strobeLost lv late p
  | alignTimeout => exact k.within (alignTimeoutIfDue_frame s) p
  | coastLimit => exact k.within (coastLimitIfDue_frame s) p
  | sample ts => exact k.sampleIfDue ts p
  | intervalClose => exact k.closeIfDue p
  | stagingApply first => exact k.applyIfDue first p
  | switchApply first => exact k.switchIfDue first p
  | exitHoldClear => exact k.clearHoldIfDue p
  | policyFault c first => exact k.faultIfRaised c first p
  | inhibitNotice n => exact k.within (noticeIfSent_frame n s) p
  | linkRow m l _ => exact k.link l (k.within (advanceTo_frame m s) p)
  | decode m => exact k.decodeOldest m p
  | request m tag req => exact k.arriveRequest tag req (k.within (advanceTo_frame m s) p)

/-- Every step keeps what the operations on the configuration keep. -/
theorem step {s t : State} (h : step s = .next t) (p : P s) : P t := by
  rcases step_outcome h with rfl | ⟨rest, row⟩
  · exact p
  · cases row with
    | powerOn m => exact k.power _ _ _ _
    | rstNAsserted m => exact k.within (enterReset_frame m _) (k.queue rest p)
    | low _ => exact k.queue rest p
    | high _ taken => exact k.taken taken (k.queue rest p)

end operations

end KeptByConfiguration

/-! ## Tables and contexts (R21, R147) -/

theorem configKept_congr {s t : State} (entries : t.carriers.entries = s.carriers.entries)
    (staging : t.carriers.staging = s.carriers.staging) (copy : t.policy.workingCopy = s.policy.workingCopy)
    (slots : t.policy.slots = s.policy.slots) (kept : configKept s) : configKept t := by
  unfold configKept
  rw [entries, staging, copy, slots]
  exact kept

theorem configKept_frame {bs : List Block} {s t : State} (h : onlyChanges bs s t) (kept : configKept s)
    (carriers : .carriers ∉ bs := by decide) (policy : .policy ∉ bs := by decide) : configKept t :=
  configKept_congr (by rw [frame_carriers h carriers]) (by rw [frame_carriers h carriers])
    (by rw [frame_policy h policy]) (by rw [frame_policy h policy]) kept

/-- The committed set, checked by the commit, becomes the live configuration (R27, R29). -/
theorem applySet_configKept {s : State} {set : StagingSet} (committed : s.carriers.staging = .commitPending set)
    (kept : configKept s) : configKept (applySet set s) := by
  obtain ⟨-, staged, -, slots⟩ := kept
  rw [committed] at staged
  obtain ⟨table, context⟩ := staged
  unfold configKept
  rw [applySet_carriers, applySet_policy]
  exact ⟨table, trivial, context, slots⟩

/-- The slots with the working copy saved are consistent (R149). -/
theorem savedSlots_consistent {s : State} (kept : configKept s) (k : Fin 6) :
    contextConsistent (savedSlots s.policy)[k] = true := by
  obtain ⟨-, -, copy, slots⟩ := kept
  have saved : (savedSlots s.policy)[k] =
      if k = s.policy.activeIndex then s.policy.workingCopy else s.policy.slots[k] :=
    savedSlots_get s.policy k
  rw [saved]
  split
  · exact copy
  · exact slots k

/-- A switch writes consistent slots: those saved, or those of a load of the image (R147, R153). -/
theorem switchTarget_consistent {s : State} (kept : configKept s) (w : Switch) (k : Fin 6) :
    contextConsistent (switchTarget s w).1[k] = true := by
  cases w with
  | exchange j => exact savedSlots_consistent kept k
  | reload =>
    have loaded : (switchTarget s .reload).1[k] = loadedSlot s.image.toList k := loadedSlots_get _ k
    rw [loaded]
    exact loadedSlot_consistent s.image k

theorem applySwitch_configKept (w : Switch) {s : State} (kept : configKept s) : configKept (applySwitch w s) := by
  have slots := switchTarget_consistent kept w
  obtain ⟨table, staged, -, -⟩ := kept
  unfold configKept
  rw [frame_carriers (applySwitch_frame w s) (by decide), applySwitch_policy]
  exact ⟨table, staged, slots _, slots⟩

theorem takeFault_configKept (c : FaultClass) {s : State} (kept : configKept s) : configKept (takeFault c s) := by
  obtain ignored | ⟨r, frame, policy⟩ | left := takeFault_configuration c s
  · rw [ignored]; exact kept
  · have carriers := frame_carriers frame (by decide)
    exact configKept_congr (by rw [carriers]) (by rw [carriers]) (by rw [policy]) (by rw [policy]) kept
  · have slots := savedSlots_consistent kept
    obtain ⟨table, -, -, -⟩ := kept
    unfold configKept
    rw [left, fallbackExit_carriers, fallbackExit_policy]
    exact ⟨table, trivial, slots _, slots⟩

theorem range_of_set {entries : Vector CarrierEntry 8} {i : Fin 8} {e : CarrierEntry}
    (kept : ∀ j : Fin 8, entryInRange entries[j] = true) (range : entryInRange e = true) (j : Fin 8) :
    entryInRange (entries.set i e)[j] = true := by
  rw [Fin.getElem_fin, Vector.getElem_set]
  split
  · exact range
  · exact kept j

/-- Each request that stages leaves a set in range, and a commit one that is consistent (R24 to R27). -/
theorem stagingMove_kept {s : State} {x : Staging} (move : StagingMove s x) (kept : configKept s) : stagingKept x := by
  obtain ⟨⟨entries, -⟩, staged, copy, -⟩ := kept
  cases move with
  | stays => exact staged
  | opens free => exact ⟨entries, ((contextConsistent_iff _).1 copy).1⟩
  | drops => trivial
  | entry opened i range =>
    rw [opened] at staged
    exact ⟨range_of_set staged.1 range, staged.2⟩
  | slots opened n =>
    rw [opened] at staged
    exact staged
  | field opened n z range =>
    rw [opened] at staged
    exact ⟨staged.1, contextPut_inRange staged.2 range z⟩
  | commits opened checked =>
    rw [opened] at staged
    obtain ⟨table, context⟩ := (stagingFault_none_iff _).1 checked
    exact ⟨⟨staged.1, Option.isNone_iff_eq_none.2 table⟩, (contextConsistent_iff _).2 ⟨staged.2, context⟩⟩

theorem resetEntries_kept : tableKept resetCarriers.entries :=
  reset_configKept.1

theorem request_configKept {s t : State} (request : ConfigurationRequest s t) (kept : configKept s) : configKept t := by
  cases request with
  | apart h => exact configKept_frame h kept
  | staging h =>
    obtain ⟨frame, x, move, carriers⟩ := h
    have staged := stagingMove_kept move kept
    obtain ⟨table, -, contexts⟩ := kept
    unfold configKept
    rw [carriers, frame_policy frame (by decide)]
    exact ⟨table, staged, contexts⟩
  | switch w closed => exact kept
  | reset =>
    obtain ⟨-, -, contexts⟩ := kept
    rw [softReset_eq]
    exact ⟨resetEntries_kept, trivial, contexts⟩

theorem poweredOn_configKept (t : Moment) (image : Vector Byte imageSize) (lv : Levels) (pending : List Instr) :
    configKept (poweredOn t image lv pending) := by
  have slots (k : Fin 6) : contextConsistent (poweredOn t image lv pending).policy.slots[k] = true := by
    rw [poweredOn_slot]
    exact loadedSlot_consistent image k
  exact ⟨resetEntries_kept, trivial, slots _, slots⟩

theorem configKept_byConfiguration : KeptByConfiguration configKept where
  apart h kept := configKept_frame h kept
  queue _ := id
  part w {s} kept := configKept_frame (doWork_frame w s) kept
  sample ts {s} kept := configKept_frame (takeSample_frame ts s) kept
  apply := applySet_configKept
  switch w {_} := applySwitch_configKept w
  hold := id
  fault c {_} := takeFault_configKept c
  request := request_configKept
  start lv {s} kept := configKept_frame (startBlocks_frame lv s) kept
  power := poweredOn_configKept

end Sys2Proof.Machine
end

