-- ==== Sys2Proof/Proofs/DutyAndSwitchesKept.lean ====
section
/-!
PROOFS. Switches apart from staging sets (R24, R151, R158) and the duty counter in its range (R51), both by the
induction of `KeptByConfiguration`. The duty counter leans on the tables and contexts: a consistent context has a cycle
length above 0, so a counter clamped to it reaches 0 only where it stood there.
-/

namespace Sys2Proof.Machine

/-! ## Switches and staging sets -/

theorem stagingExists_closed {s : State} (h : s.carriers.staging = .closed) : stagingExists s = false := by
  rw [stagingExists, h]

theorem switchKept_frame {bs : List Block} {s t : State} (h : onlyChanges bs s t) (kept : switchKept s)
    (carriers : .carriers ∉ bs := by decide) (policy : .policy ∉ bs := by decide) : switchKept t := by
  unfold switchKept
  rw [stagingExists_congr (frame_carriers h carriers), frame_policy h policy]
  exact kept

/-- Without a staging set a state owes only the record of an exit hold. -/
theorem switchKept_closed {s : State} (closed : stagingExists s = false)
    (record : s.policy.exitHold = true → s.policy.exitRecord.isSome = true) : switchKept s :=
  ⟨fun stands => absurd (closed.symm.trans stands) Bool.false_ne_true, record⟩

theorem applySet_switchKept (set : StagingSet) {s : State} (kept : switchKept s) : switchKept (applySet set s) := by
  obtain ⟨-, record⟩ := kept
  refine switchKept_closed (stagingExists_closed (by rw [applySet_carriers])) ?_
  rw [applySet_policy]
  exact record

theorem applySwitch_switchKept (w : Switch) {s : State} (kept : switchKept s) : switchKept (applySwitch w s) := by
  obtain ⟨-, record⟩ := kept
  unfold switchKept
  rw [applySwitch_policy]
  exact ⟨fun _ => rfl, record⟩

theorem clearHold_switchKept {s : State} (kept : switchKept s) : switchKept (clearHold s) := by
  obtain ⟨apart, -⟩ := kept
  exact ⟨apart, nofun⟩

/-- A fault event leaves an Exit Record wherever it leaves an exit hold (R155, R158). -/
theorem takeFault_switchKept (c : FaultClass) {s : State} (kept : switchKept s) : switchKept (takeFault c s) := by
  obtain ignored | ⟨r, frame, policy⟩ | left := takeFault_configuration c s
  · rw [ignored]; exact kept
  · obtain ⟨apart, -⟩ := kept
    unfold switchKept
    rw [stagingExists_congr (frame_carriers frame (by decide)), policy]
    exact ⟨apart, fun _ => rfl⟩
  · rw [left]
    refine switchKept_closed (stagingExists_closed (by rw [fallbackExit_carriers])) ?_
    rw [fallbackExit_policy]
    exact fun _ => rfl

/-- STAGE_OPEN finds no switch pending; the other requests that stage find the set standing, or drop it (R24). -/
theorem stagingMoved_switchKept {s t : State} (moved : stagingMoved s t) (kept : switchKept s) : switchKept t := by
  obtain ⟨frame, x, move, carriers⟩ := moved
  obtain ⟨apart, record⟩ := kept
  have policy : t.policy = s.policy := frame_policy frame (by decide)
  have stood {set : StagingSet} (opened : s.carriers.staging = .opened set) : s.policy.pendingSwitch = none :=
    apart (by rw [stagingExists, opened])
  have free (none : s.policy.pendingSwitch = none) : switchKept t := by
    unfold switchKept
    rw [policy]
    exact ⟨fun _ => none, record⟩
  cases move with
  | stays =>
    unfold switchKept
    rw [stagingExists_congr carriers, policy]
    exact ⟨apart, record⟩
  | opens none => exact free none
  | entry opened => exact free (stood opened)
  | slots opened => exact free (stood opened)
  | field opened => exact free (stood opened)
  | commits opened => exact free (stood opened)
  | drops => exact switchKept_closed (stagingExists_closed (by rw [carriers])) (by rw [policy]; exact record)

theorem request_switchKept {s t : State} (request : ConfigurationRequest s t) (kept : switchKept s) : switchKept t := by
  cases request with
  | apart h => exact switchKept_frame h kept
  | staging h => exact stagingMoved_switchKept h kept
  | switch w closed =>
    obtain ⟨-, record⟩ := kept
    exact switchKept_closed closed record
  | reset =>
    rw [softReset_eq]
    exact switchKept_closed rfl nofun

theorem switchKept_byConfiguration : KeptByConfiguration switchKept where
  apart h kept := switchKept_frame h kept
  queue _ := id
  part w {s} kept := switchKept_frame (doWork_frame w s) kept
  sample ts {s} kept := switchKept_frame (takeSample_frame ts s) kept
  apply {_ set} _ := applySet_switchKept set
  switch w {_} := applySwitch_switchKept w
  hold := clearHold_switchKept
  fault c {_} := takeFault_switchKept c
  request := request_switchKept
  start lv {s} kept := switchKept_frame (startBlocks_frame lv s) kept
  power _ _ _ _ := switchKept_closed rfl nofun

/-! ## The duty counter -/

/-- A duty counter in agreement with the zones, within the cycle length of a context (R51). -/
def dutyAgrees (c : Context) (h : HeatMonitor) : Prop :=
  (h.dutyCounter = 0 ↔ anyDutyZone h.zones = false) ∧ h.dutyCounter ≤ c.cycleLength

theorem dutyKept_iff (s : State) : dutyKept s ↔ dutyAgrees s.policy.workingCopy s.heat := .rfl

theorem dutyKept_congr {s t : State} (heat : t.heat = s.heat) (copy : t.policy.workingCopy = s.policy.workingCopy)
    (kept : dutyKept s) : dutyKept t := by
  unfold dutyKept
  rw [heat, copy]
  exact kept

theorem dutyKept_frame {bs : List Block} {s t : State} (h : onlyChanges bs s t) (kept : dutyKept s)
    (heat : .heat ∉ bs := by decide) (policy : .policy ∉ bs := by decide) : dutyKept t :=
  dutyKept_congr (frame_heat h heat) (by rw [frame_policy h policy]) kept

/-- The cycle length is from 2 (R145). -/
theorem cycleLength_pos {c : Context} (consistent : contextConsistent c = true) : 0 < c.cycleLength := by
  obtain ⟨range, -⟩ := (contextConsistent_iff c).1 consistent
  obtain ⟨low, -⟩ := (contextInRange_ranges c).1 range 12 _ _ .pa rfl
  exact Nat.lt_of_lt_of_le (by decide) low

theorem configKept_cycleLength {s : State} (kept : configKept s) : 0 < s.policy.workingCopy.cycleLength := by
  obtain ⟨-, -, copy, -⟩ := kept
  exact cycleLength_pos copy

/-- A context made live clamps the counter to its cycle length, which is above 0 (R51). -/
theorem dutyAgrees_clamped {c d : Context} {h : HeatMonitor} (agrees : dutyAgrees c h) (long : 0 < d.cycleLength) :
    dutyAgrees d { h with dutyCounter := min h.dutyCounter d.cycleLength } := by
  obtain ⟨zero, -⟩ := agrees
  refine ⟨Iff.trans ?_ zero, Nat.min_le_right _ _⟩
  dsimp only
  omega

/-- The counter steps within 1 to the cycle length, so 0 only where it stands at 0 (R53). -/
theorem dutyStep_dutyKept {s : State} (long : 0 < s.policy.workingCopy.cycleLength) (kept : dutyKept s) :
    dutyKept (dutyStep s) := by
  by_cases idle : s.heat.dutyCounter = 0
  · rw [dutyStep_idle idle]; exact kept
  · obtain ⟨zero, -⟩ := kept
    have stepped {n : Nat} (low : n ≠ 0) (high : n ≤ s.policy.workingCopy.cycleLength) :
        dutyKept (s.setHeat { s.heat with dutyCounter := n }) :=
      ⟨⟨fun none => absurd none low, fun cool => absurd (zero.2 cool) idle⟩, high⟩
    by_cases below : s.heat.dutyCounter < s.policy.workingCopy.cycleLength
    · rw [dutyStep_rises idle below]; exact stepped (Nat.succ_ne_zero _) below
    · rw [dutyStep_returns idle (Nat.le_of_not_lt below)]; exact stepped Nat.one_ne_zero long

theorem sampleStep_duty (next : Nat) (h : HeatMonitor) :
    (sampleStep next h).dutyCounter = h.dutyCounter ∧ (sampleStep next h).zones = h.zones := by
  unfold sampleStep
  split
  · exact ⟨rfl, rfl⟩
  · exact ⟨rfl, rfl⟩

theorem stepSampleCounter_dutyKept {s : State} (kept : dutyKept s) : dutyKept (stepSampleCounter s) := by
  obtain ⟨counter, zones⟩ := sampleStep_duty s.policy.workingCopy.samplePeriod s.heat
  unfold dutyKept
  rw [stepSampleCounter_heat, counter, zones, frame_policy (stepSampleCounter_frame s) (by decide)]
  exact kept

theorem doWork_dutyKept (w : FrameWork) {s : State} (long : 0 < s.policy.workingCopy.cycleLength) (kept : dutyKept s) :
    dutyKept (doWork w s) := by
  cases w with
  | expiry => exact dutyKept_frame (expiryCheck_frame s) kept
  | intervalCount => exact dutyKept_frame (countInterval_frame s) kept
  | sampleCounter => exact stepSampleCounter_dutyKept kept
  | dutyStep => exact dutyStep_dutyKept long kept
  | supply => exact dutyKept_frame (readSupply_frame s) kept
  | traceMiss => exact dutyKept_frame (traceMissCheck_frame s) kept

/-- A counter of 1 where a zone needs the cycler, else of 0, agrees with the zones (R48, R52). -/
theorem dutyAgrees_fresh {c : Context} {h : HeatMonitor} (long : 0 < c.cycleLength)
    (fresh : h.dutyCounter = if anyDutyZone h.zones then 1 else 0) : dutyAgrees c h := by
  unfold dutyAgrees
  rw [fresh]
  cases anyDutyZone h.zones with
  | true => exact ⟨by decide, long⟩
  | false => exact ⟨by decide, Nat.zero_le _⟩

/-- The comparison at the end of a sample keeps a counter that agrees, and else starts or stops the cycler (R52). -/
theorem takeSample_dutyKept (ts : PerZone Raw) {s : State} (long : 0 < s.policy.workingCopy.cycleLength)
    (kept : dutyKept s) : dutyKept (takeSample ts s) := by
  rw [dutyKept_iff, frame_policy (takeSample_frame ts s) (by decide), takeSample_heat]
  by_cases same : anyDutyZone (takeSample ts s).heat.zones = anyDutyZone s.heat.zones
  · rw [if_pos same]
    unfold dutyAgrees
    rw [same]
    exact kept
  · rw [if_neg same]
    exact dutyAgrees_fresh long rfl

theorem startBlocks_heat (lv : Levels) (s : State) : (startBlocks lv s).heat = (startUpSample lv.ts s).heat := rfl

theorem startBlocks_dutyKept (lv : Levels) {s : State} (long : 0 < s.policy.workingCopy.cycleLength) :
    dutyKept (startBlocks lv s) := by
  rw [dutyKept_iff, frame_policy (startBlocks_frame lv s) (by decide), startBlocks_heat]
  exact dutyAgrees_fresh long rfl

theorem softReset_dutyKept {s : State} (kept : dutyKept s) : dutyKept (softReset s) := by
  have heat : (softReset s).heat = s.heat := frame_heat (softReset_frame s) (by decide)
  rw [softReset_eq] at heat ⊢
  exact dutyKept_congr heat rfl kept

theorem request_dutyKept {s t : State} (request : ConfigurationRequest s t) (kept : dutyKept s) : dutyKept t := by
  cases request with
  | apart h => exact dutyKept_frame h kept
  | staging h =>
    obtain ⟨frame, -⟩ := h
    exact dutyKept_frame frame kept
  | switch w closed => exact kept
  | reset => exact softReset_dutyKept kept

/-! ### The contexts made live -/

theorem applySet_dutyKept {set : StagingSet} {s : State} (long : 0 < set.workingCopy.cycleLength) (kept : dutyKept s) :
    dutyKept (applySet set s) := by
  rw [dutyKept_iff, applySet_policy, applySet_heat]
  exact dutyAgrees_clamped kept long

theorem applySwitch_dutyKept (w : Switch) {s : State} (config : configKept s) (kept : dutyKept s) :
    dutyKept (applySwitch w s) := by
  rw [dutyKept_iff, applySwitch_policy, applySwitch_heat]
  exact dutyAgrees_clamped kept (cycleLength_pos (switchTarget_consistent config w _))

theorem takeFault_dutyKept (c : FaultClass) {s : State} (config : configKept s) (kept : dutyKept s) :
    dutyKept (takeFault c s) := by
  obtain ignored | ⟨r, frame, policy⟩ | left := takeFault_configuration c s
  · rw [ignored]; exact kept
  · exact dutyKept_congr (frame_heat frame (by decide)) (by rw [policy]) kept
  · rw [left, dutyKept_iff, fallbackExit_policy, fallbackExit_heat]
    exact dutyAgrees_clamped kept (cycleLength_pos (savedSlots_consistent config _))

/-- The counter's range is kept together with the contexts that set it. -/
theorem dutyKept_byConfiguration : KeptByConfiguration fun s => configKept s ∧ dutyKept s where
  apart h kept := ⟨configKept_frame h kept.1, dutyKept_frame h kept.2⟩
  queue _ := id
  part w {_} kept :=
    ⟨configKept_byConfiguration.part w kept.1, doWork_dutyKept w (configKept_cycleLength kept.1) kept.2⟩
  sample ts {_} kept :=
    ⟨configKept_byConfiguration.sample ts kept.1, takeSample_dutyKept ts (configKept_cycleLength kept.1) kept.2⟩
  apply committed kept :=
    have config := applySet_configKept committed kept.1
    ⟨config, applySet_dutyKept (by simpa only [applySet_policy] using configKept_cycleLength config) kept.2⟩
  switch w {_} kept := ⟨applySwitch_configKept w kept.1, applySwitch_dutyKept w kept.1 kept.2⟩
  hold := id
  fault c {_} kept := ⟨takeFault_configKept c kept.1, takeFault_dutyKept c kept.1 kept.2⟩
  request request kept := ⟨request_configKept request kept.1, request_dutyKept request kept.2⟩
  start lv {_} kept :=
    ⟨configKept_byConfiguration.start lv kept.1, startBlocks_dutyKept lv (configKept_cycleLength kept.1)⟩
  power t image lv pending := ⟨poweredOn_configKept t image lv pending, iff_of_true rfl rfl, Nat.zero_le _⟩

/-! ## The obligation -/

theorem stepKeepsTheConfigurationConsistent : Claims.StepKeepsTheConfigurationConsistent :=
  fun _ _ kept step => configKept_byConfiguration.step step kept

theorem stepKeepsSwitchesApartFromStaging : Claims.StepKeepsSwitchesApartFromStaging :=
  fun _ _ kept step => switchKept_byConfiguration.step step kept

theorem stepKeepsTheDutyCounter : Claims.StepKeepsTheDutyCounter :=
  fun _ _ kept step => (dutyKept_byConfiguration.step step kept).2

/-- Settles O60: each predicate by the induction over the rows, the duty counter's together with the contexts'. -/
theorem stepKeepsTheConfiguration : Obligations.StepKeepsTheConfiguration :=
  ⟨stepKeepsTheConfigurationConsistent, stepKeepsSwitchesApartFromStaging, stepKeepsTheDutyCounter⟩

end Sys2Proof.Machine
end

