-- ==== Sys2Proof/Proofs/ReadRequests.lean ====
section
/-!
PROOFS. The requests that read (R22, R50, R98, R144, R150, R176) and the bytes of their replies (R188, R193): each
owner's answer by an equation per case, each layout by the bytes of its fields.
-/

namespace Sys2Proof.Machine

/-! ## The bytes of a field (R188) -/

theorem byte1_oneByte (v : Nat) : byte1 v = [oneByte v] := byte1_eq v

theorem byte2_bigEndian (v : Nat) : byte2 v = bigEndian 2 v := beBytes_eq_bigEndian 2 v

theorem byte2_length (v : Nat) : (byte2 v).length = 2 := beBytes_length 2 v

theorem fourBytes_word (w : Word32) : fourBytes w.toNat = bigEndian 4 w.toNat :=
  (byte4_nat _).symm.trans (byte4_bigEndian w)

theorem temperatureBytes_match (t : Option Nat) :
    temperatureBytes t = bigEndian 2 (match t with | none => 0 | some t => t) := by
  rw [temperatureBytes_eq]
  cases t <;> rfl

theorem orFF_match {α : Type} (code : α → Nat) (o : Option α) :
    orFF code o = [match o with | none => 0xFF | some a => oneByte (code a)] := by
  cases o with
  | none => rfl
  | some a => exact byte1_oneByte _

theorem oneByte_dutyPhaseCode (p : DutyPhase) : oneByte (dutyPhaseCode p) = if p = .on then 0 else 1 := by
  cases p <;> rfl

theorem dutyPhase_on_iff (s : State) : dutyPhase s = .on ↔ s.heat.dutyCounter ≤ s.policy.workingCopy.duty := by
  unfold dutyPhase
  split
  · next within => exact iff_of_true rfl within
  · next beyond => exact iff_of_false nofun beyond

theorem oneByte_stagingCode (x : Staging) :
    oneByte (stagingCode x) = match x with | .closed => 0 | .opened _ => 1 | .commitPending _ => 2 := by
  cases x <;> rfl

theorem oneByte_causesCode (c : Causes) :
    oneByte (causesCode c) = (if c.zoneCrit then 1 else 0) ||| (if c.exposure then 2 else 0) :=
  List.singleton_inj.1 ((byte1_oneByte _).symm.trans (causesCode_byte c))

theorem pendingSwitchBytes_match (w : Option Switch) :
    pendingSwitchBytes w =
      match w with
      | none => [0, 0xFF]
      | some (.exchange k) => [1, oneByte k.val]
      | some .reload => [2, 0xFF] := by
  match w with
  | none => rfl
  | some (.exchange k) => exact congrArg (1 :: ·) (byte1_oneByte _)
  | some .reload => rfl

/-- A list of four zones' codes, a byte each. -/
theorem zoneBytes_eq {α : Type} (code : α → Nat) (p : PerZone α) :
    (zoneList p).flatMap (fun a => [oneByte (code a)]) =
      [oneByte (code p.pa), oneByte (code p.antA), oneByte (code p.antB), oneByte (code p.caseZone)] := rfl

theorem signedBytes_two (v : Int) : signedBytes 2 v = bigEndian 2 (v % 65536).toNat := beBytes_eq_bigEndian 2 _

/-- The bytes of each code by its table, the numbers most significant byte first. -/
theorem codesAndBytes : Claims.CodesAndBytes :=
  ⟨⟨rfl, rfl, rfl, rfl, rfl, rfl, rfl, rfl, rfl, rfl, rfl⟩, ⟨rfl, fun _ => rfl, rfl, rfl⟩,
    fun v => ⟨byte2_bigEndian v, byte4_nat v⟩, signedBytes_two⟩

/-! ## Records (R193) -/

theorem zoneRecordBytes_eq (r : ZoneRecord) :
    zoneRecordBytes r =
      [oneByte (zoneStateCode r.state)] ++ bigEndian 2 r.lastRaw.toNat ++
        bigEndian 2 (match r.temperature with | none => 0 | some t => t) ++
        [match r.candidate with | none => 0xFF | some l => oneByte (levelCode l), oneByte r.agreeCount] := by
  rw [zoneRecordBytes, byte1_oneByte, byte2_bigEndian, temperatureBytes_match, orFF_match, byte1_oneByte,
    List.append_assoc _ [_] [_]]
  cases r.candidate <;> rfl

theorem intervalRecordBytes_eq (r : IntervalRecord) :
    intervalRecordBytes r =
      [oneByte (recordStateCode r.state)] ++ fourBytes r.number ++ fourBytes r.energy ++ fourBytes r.anchorEnergy ++
        bigEndian 2 r.grants ++ bigEndian 2 r.throttled ++
        [oneByte r.unreported, oneByte r.corrected, oneByte r.unmatched,
          match r.peak with | none => 0xFF | some c => oneByte c] ++
        bigEndian 2 r.signature.toNat := by
  simp only [intervalRecordBytes, byte1_oneByte, byte2_bigEndian, byte4_nat, orFF_match, List.append_assoc,
    List.cons_append, List.nil_append, id]
  cases r.peak <;> rfl

theorem exitRecordBytes_eq (r : ExitRecord) :
    exitRecordBytes r =
      [oneByte r.causes.toNat, oneByte r.fromIndex.val, oneByte r.toIndex.val] ++ bigEndian 4 r.frameCount.toNat ++
        [boolByte r.absorbed] := by
  rw [exitRecordBytes, byte1_oneByte, byte1_oneByte, byte1_oneByte, byte4_bigEndian]
  rfl

theorem exitRecordBytes_length (r : ExitRecord) : (exitRecordBytes r).length = 8 := by
  simp [exitRecordBytes, byte1_length, byte4_length]

theorem snapshotCarrierBytes_eq (g : SnapshotCarrier) :
    snapshotCarrierBytes g =
      [oneByte g.index.val, powerByte g.requested] ++ g.afterStages.map powerByte ++
        [powerByte g.granted, oneByte (reasonCode g.reason)] := by
  rw [snapshotCarrierBytes, byte1_oneByte, byte1_oneByte, List.append_assoc _ [powerByte g.granted]]
  rfl

theorem snapshotBytes_eq (p : Snapshot) :
    snapshotBytes p =
      bigEndian 4 p.position.toNat ++ [oneByte p.carriers.length] ++
        p.carriers.flatMap (fun g => [oneByte g.index.val, powerByte g.requested] ++ g.afterStages.map powerByte ++
          [powerByte g.granted, oneByte (reasonCode g.reason)]) ++
        [oneByte (zoneStateCode p.zoneStates.pa), oneByte (zoneStateCode p.zoneStates.antA),
          oneByte (zoneStateCode p.zoneStates.antB), oneByte (zoneStateCode p.zoneStates.caseZone),
          oneByte (supplyStateCode p.supply), if p.phase = .on then 0 else 1] ++
        fourBytes p.windowSum ++ fourBytes p.budget ++ fourBytes p.headroom ++
        [oneByte p.utilisation, oneByte p.activeIndex.val] := by
  rw [snapshotBytes, funext snapshotCarrierBytes_eq]
  simp only [byte1_oneByte, byte4_nat, fourBytes_word, zoneBytes_eq, oneByte_dutyPhaseCode,
    List.append_assoc, List.cons_append, List.nil_append]

theorem recordLayouts : Claims.RecordLayouts :=
  ⟨carrierBytes_eq, zoneRecordBytes_eq, intervalRecordBytes_eq, exitRecordBytes_eq, snapshotBytes_eq⟩

/-! ## The state summary (R176) -/

theorem pendingSwitchBytes_length (w : Option Switch) : (pendingSwitchBytes w).length = 2 := by
  match w with
  | none => rfl
  | some (.exchange k) => rfl
  | some .reload => rfl

/-- The Exit Record at the end of the summary: whether there is one, then its eight bytes or zeros. -/
def summaryExit (r : Option ExitRecord) : List Byte :=
  [boolByte r.isSome] ++ match r with | some r => exitRecordBytes r | none => List.replicate 8 0

theorem summaryExit_length (r : Option ExitRecord) : (summaryExit r).length = 9 := by
  cases r with
  | none => rfl
  | some r => simp [summaryExit, exitRecordBytes_length]

theorem summaryExit_match (r : Option ExitRecord) :
    summaryExit r = match r with | none => List.replicate 9 0 | some r => 1 :: exitRecordBytes r := by
  cases r <;> rfl

theorem summaryBytes_exit (s : State) :
    summaryBytes s =
      byte1 (timingStateCode s.timing.state) ++ byte4 s.timing.frameCounter.toNat ++ byte1 s.policy.activeIndex.val ++
        pendingSwitchBytes s.policy.pendingSwitch ++ byte1 (stagingCode s.carriers.staging) ++
        (zoneList s.heat.zones).flatMap (fun z => byte1 (zoneStateCode z.state)) ++
        byte1 (supplyStateCode s.supply.state) ++ byte1 s.heat.dutyCounter ++ byte1 (dutyPhaseCode (dutyPhase s)) ++
        [boolByte s.inhibit.txinh] ++ byte1 (causesCode s.inhibit.causes) ++ byte4 (windowSum s) ++
        byte4 (budget s) ++ byte1 (utilisation s) ++ byte1 s.openGrants.entries.length ++
        byte4 s.openGrants.expiryMark.toNat ++ byte1 (storeStatusCode s.policy.storeStatus) ++
        summaryExit s.policy.exitRecord := by
  rw [summaryBytes, List.append_assoc _ [boolByte _]]
  rfl

theorem summaryBytes_length (s : State) : (summaryBytes s).length = 42 := by
  simp only [summaryBytes_exit, byte1_oneByte, zoneBytes_eq, List.length_append, byte4_length,
    pendingSwitchBytes_length, summaryExit_length, List.length_cons, List.length_nil]

theorem summaryLayout : Claims.SummaryLayout := by
  refine fun s => ⟨summaryBytes_length s, ?_⟩
  rw [summaryBytes_exit, summaryExit_match, pendingSwitchBytes_match]
  -- Only in a module of its own do the statement's matches and those of the lemmas remain to be compared.
  simp only [byte1_oneByte, byte4_nat, fourBytes_word, oneByte_stagingCode, zoneBytes_eq, oneByte_dutyPhaseCode,
    dutyPhase_on_iff, oneByte_causesCode, boolByte, List.append_assoc, List.cons_append, List.nil_append]
  <;> rfl

/-! ## The owners' answers -/

theorem indexOfByte_oneByte (i : Fin 8) : indexOfByte (BitVec.ofNat 8 i.val) = some i := by
  revert i
  decide

theorem takeReadCarrier_index (i : Fin 8) (s : State) :
    takeReadCarrier (BitVec.ofNat 8 i.val) s =
      (s, done (carrierBytes s.carriers.entries[i] ++ [BitVec.ofNat 8 (slotCount s.carriers.slotsPerFrame)])) := by
  rw [takeReadCarrier, indexOfByte_oneByte, byte1_eq]
  rfl

theorem takeReadCarrier_beyond {x : Byte} (beyond : 7 < x.toNat) (s : State) :
    takeReadCarrier x s = (s, refuse .badField [0]) := by
  rw [takeReadCarrier, indexOfByte_reads.refuses (Nat.not_le.2 beyond), badField_eq]
  rfl

theorem takeReadParam_slot (k : Fin 6) (s : State) :
    takeReadParam (BitVec.ofNat 8 k.val) s =
      (s, done (BitVec.ofNat 8 s.policy.activeIndex.val :: contextBytes s.policy.slots[k])) := by
  have source : (BitVec.ofNat 8 k.val).toNat = k.val := by
    rw [BitVec.toNat_ofNat, Nat.mod_eq_of_lt (by omega)]
  simp only [takeReadParam, source, dif_pos k.isLt, byte1_eq]
  rfl

theorem takeReadParam_copy (s : State) :
    takeReadParam 6 s =
      (s, done (BitVec.ofNat 8 s.policy.activeIndex.val :: contextBytes s.policy.workingCopy)) := by
  rw [takeReadParam, dif_neg (by decide), if_pos (by decide), byte1_eq]
  rfl

theorem takeReadParam_beyond {x : Byte} (beyond : 6 < x.toNat) (s : State) :
    takeReadParam x s = (s, refuse .badField [0]) := by
  rw [takeReadParam, dif_neg (by omega), if_neg (by omega), badField_eq]
  rfl

theorem takeReadZone_zone (z : Zone) (s : State) :
    takeReadZone (BitVec.ofNat 8 (zoneCode z)) s =
      (s, done (zoneRecordBytes (zoneGet s.heat.zones z) ++
        [BitVec.ofNat 8 s.heat.dutyCounter,
          if s.heat.dutyCounter ≤ s.policy.workingCopy.duty then 0 else 1])) := by
  have code : (BitVec.ofNat 8 (zoneCode z)).toNat = zoneCode z := by cases z <;> rfl
  simp only [takeReadZone, code, zoneOf_zoneCode, byte1_oneByte, oneByte_dutyPhaseCode, dutyPhase_on_iff,
    List.append_assoc, List.singleton_append]
  rfl

theorem takeReadZone_beyond {x : Byte} (beyond : 3 < x.toNat) (s : State) :
    takeReadZone x s = (s, refuse .badField [0]) := by
  rw [takeReadZone, zoneOf_none beyond, badField_eq]
  rfl

theorem takeTraceRead_eq (s : State) :
    takeTraceRead s =
      (s, done
        ((match s.engine.armed with
          | none => [0, 0, 0, 0]
          | some a => 1 :: byte2 (a.frame.setWidth 16).toNat ++ [a.slot]) ++
        (match s.engine.snapshot with
          | none => [0]
          | some p => 1 :: snapshotBytes p))) := by
  unfold takeTraceRead
  cases s.engine.armed <;> rfl

theorem ringReadRecord_eq (s : State) (p : Nat) :
    ringReadRecord s p =
      BitVec.ofNat 8 (Fin.ofNat 128 p).val :: intervalRecordBytes (recordAt s (Fin.ofNat 128 p)) := by
  rw [ringReadRecord, byte1_eq]
  rfl

theorem takeRingRead_records {start count : Byte} (low : start.toNat ≤ 127) (some : 1 ≤ count.toNat)
    (few : count.toNat ≤ 8) (s : State) :
    takeRingRead start count s =
      (s, done (BitVec.ofNat 8 s.ring.writePosition.val :: byte2 s.ring.framesInInterval ++
        byte2 s.ring.latchedLength ++
        [boolByte s.ring.lowerHeld, boolByte s.ring.upperHeld, boolByte s.ring.exhausted] ++
        (List.range count.toNat).flatMap fun k =>
          let p := Fin.ofNat 128 (start.toNat + k)
          BitVec.ofNat 8 p.val :: intervalRecordBytes (recordAt s p))) := by
  rw [takeRingRead, if_neg (by omega), if_neg (by omega), byte1_eq]
  simp only [ringReadRecord_eq]
  rfl

theorem takeRingRead_start {x : Byte} (beyond : 127 < x.toNat) (y : Byte) (s : State) :
    takeRingRead x y s = (s, refuse .badField [0]) := by
  rw [takeRingRead, if_pos beyond, badField_eq]
  rfl

theorem takeRingRead_count {x y : Byte} (low : x.toNat ≤ 127) (bad : y.toNat = 0 ∨ 8 < y.toNat) (s : State) :
    takeRingRead x y s = (s, refuse .badField [1]) := by
  rw [takeRingRead, if_neg (by omega), if_pos bad, badField_eq]
  rfl

/-! ## The rows -/

section rows
variable {s u v : State} {r : Reply} (ready : requestReady s) (tag : Byte) (settled : settle s = u)
include ready settled

theorem readCarrier_row {x : Byte} (taken : takeReadCarrier x u = (v, r)) :
    exec (.readCarrier tag x) s = .next (replied tag (.readCarrier x) r v) :=
  request_answered ready tag (req := .readCarrier x) rfl (settled ▸ taken)

theorem readParam_row {x : Byte} (taken : takeReadParam x u = (v, r)) :
    exec (.readParam tag x) s = .next (replied tag (.readParam x) r v) :=
  request_answered ready tag (req := .readParam x) rfl (settled ▸ taken)

theorem readZone_row {x : Byte} (taken : takeReadZone x u = (v, r)) :
    exec (.readZone tag x) s = .next (replied tag (.readZone x) r v) :=
  request_answered ready tag (req := .readZone x) rfl (settled ▸ taken)

theorem ringRead_row {x y : Byte} (taken : takeRingRead x y u = (v, r)) :
    exec (.ringRead tag x y) s = .next (replied tag (.ringRead x y) r v) :=
  request_answered ready tag (req := .ringRead x y) rfl (settled ▸ taken)

theorem readState_row : exec (.readState tag) s = .next (replied tag .readState (done (summaryBytes u)) u) :=
  request_answered ready tag (req := .readState) rfl (settled ▸ rfl)

theorem traceRead_row (taken : takeTraceRead u = (v, r)) :
    exec (.traceRead tag) s = .next (replied tag .traceRead r v) :=
  request_answered ready tag (req := .traceRead) rfl (settled ▸ taken)

end rows

theorem readRequestsAnswerAndChangeNothing : Claims.ReadRequestsAnswerAndChangeNothing := by
  intro tag s ready u
  have settled : settle s = u := rfl
  clear_value u
  exact ⟨fun i => readCarrier_row ready tag settled (takeReadCarrier_index i u),
    fun k => readParam_row ready tag settled (takeReadParam_slot k u),
    readParam_row ready tag settled (takeReadParam_copy u),
    fun z => readZone_row ready tag settled (takeReadZone_zone z u), readState_row ready tag settled,
    traceRead_row ready tag settled (takeTraceRead_eq u),
    fun start count low some few => ringRead_row ready tag settled (takeRingRead_records low some few u)⟩

theorem readRequestsRefuseBadFields : Claims.ReadRequestsRefuseBadFields := by
  intro tag x y s ready u
  have settled : settle s = u := rfl
  exact ⟨fun beyond => readCarrier_row ready tag settled (takeReadCarrier_beyond beyond u),
    fun beyond => readParam_row ready tag settled (takeReadParam_beyond beyond u),
    fun beyond => readZone_row ready tag settled (takeReadZone_beyond beyond u),
    fun beyond => ringRead_row ready tag settled (takeRingRead_start beyond y u),
    fun low bad => ringRead_row ready tag settled (takeRingRead_count low bad u)⟩

/-- Settles O35: the owners' answers through their rows, the layouts field by field. -/
theorem readRequestsAnswerOrRefuse : Obligations.ReadRequestsAnswerOrRefuse :=
  ⟨readRequestsAnswerAndChangeNothing, readRequestsRefuseBadFields, codesAndBytes, recordLayouts, summaryLayout⟩

end Sys2Proof.Machine
end
